-- ==== Sys2Proof/Word.lean ====
section
/-! DEFINITION. The words of the machine: instruction words of 16 bits (02 R33), register data of 64 and 128 bits
(04 R73), vector registers of 2048 bits and predicates of 256 bits (04 R73, R74). -/

namespace Sys2Proof

/-- A 16-bit instruction word. -/
abbrev HWord := BitVec 16

/-- A 64-bit word. -/
abbrev Word := BitVec 64

/-- A byte. -/
abbrev Byte := BitVec 8

/-- The contents of a vector register. -/
abbrev VReg := BitVec 2048

/-- The contents of a predicate register. -/
abbrev PredReg := BitVec 256

end Sys2Proof
end

