-- ==== Sys2Proof/Machine/Store.lean ====
section
/-! DEFINITION. Sparse stores: lists of (key, value) pairs with keys strictly rising and no value equal to what an
unlisted key reads as. Memory, registers, cores, banks and every other numbered collection of the machine is one. -/

namespace Sys2Proof.Machine

/-- A sparse store. -/
abbrev Store (β : Type) := List (Nat × β)

/-- What key `k` holds; `d` is what an unlisted key reads as. -/
def Store.get {β : Type} (d : β) : Store β → Nat → β
  | [], _ => d
  | (k', v) :: rest, k => if k' = k then v else Store.get d rest k

/-- Drops key `k`. -/
def Store.drop {β : Type} (m : Store β) (k : Nat) : Store β := m.filter (fun p => p.1 != k)

/-- Puts a pair before the first greater key. -/
def Store.insert {β : Type} (k : Nat) (v : β) : Store β → Store β
  | [] => [(k, v)]
  | (k', v') :: rest => if k < k' then (k, v) :: (k', v') :: rest else (k', v') :: Store.insert k v rest

/-- Writes key `k`; writing the value of an unlisted key removes the entry. -/
def Store.set {β : Type} [DecidableEq β] (d : β) (m : Store β) (k : Nat) (v : β) : Store β :=
  if v = d then m.drop k else Store.insert k v (m.drop k)

/-- Changes key `k` by `f`. -/
def Store.modify {β : Type} [DecidableEq β] (d : β) (m : Store β) (k : Nat) (f : β → β) : Store β :=
  Store.set d m k (f (Store.get d m k))

/-- Every key is greater than `lo`, keys strictly rise, and no value is `d`. -/
def Store.wfFrom {β : Type} [DecidableEq β] (d : β) (lo : Nat) : Store β → Bool
  | [] => true
  | (k, v) :: rest => decide (lo ≤ k) && decide (v ≠ d) && Store.wfFrom d (k + 1) rest

/-- The canonical form. -/
def Store.wf {β : Type} [DecidableEq β] (d : β) (m : Store β) : Bool := Store.wfFrom d 0 m

end Sys2Proof.Machine
end

