-- ==== Sys2Proof/Syntax.lean ====
section
/-! DEFINITION. The instruction syntax: one constructor per row of the opcode table. A row that has instruction
words carries one `Op`, every field that its words encode (02 R33 to R44); a row that is a step of the machine
outside the instruction words (spec/95) names the parts it acts on. -/

namespace Sys2Proof

/-- The payload of a PPAG prefix, less its page, which the constructor fixes (02 Tables 15 and 17). -/
structure PPag where
  scope : BitVec 2
  order : BitVec 3
  deriving DecidableEq, Repr

/-- The payload of a PREG prefix (02 Table 15). -/
structure PReg where
  b : BitVec 4
  d4 : Bool
  a4 : Bool
  b4 : Bool
  w : BitVec 2
  deriving DecidableEq, Repr

/-- The payload of a PVEC prefix (02 Tables 15 and 18). -/
structure PVec where
  et : BitVec 3
  pr : BitVec 3
  z : Bool
  sh : BitVec 2
  deriving DecidableEq, Repr

/-- Everything that the words of one instruction hold besides its opcode: M and T of the base word (02 R35), its
nine operand bits (02 Table 14), the prefixes, the PIMM chunks with the lowest first (02 R41), and whether an ignored
M or T bit is set in some prefix word (02 Table 22). -/
structure Op where
  m : Bool
  t : Bool
  opnd : BitVec 9
  ppag : Option PPag
  preg : Option PReg
  pvec : Option PVec
  pimm : List (BitVec 9)
  rsv : Bool
  deriving DecidableEq, Repr

/-- One other package's member of a collective round, as its flits brought it, with the poison of its elements (13 R256,
R257). An element that the list `pois` does not reach has none. -/
structure RemoteMember where
  rank : Nat
  op : Nat
  dtype : Nat
  red : Nat
  n0 : Nat
  dext : Nat
  failed : Bool
  data : List (BitVec 64)
  pois : List Bool
  deriving DecidableEq, Repr

/-- The instructions and the other steps of the machine. -/
inductive Instr where
  /-- ADD (R120) Integer add at width n, wrapping. -/
  | add (o : Op)
  /-- SUB (R120) Integer subtract at width n, wrapping. -/
  | sub (o : Op)
  /-- AND (R120) Bitwise AND. -/
  | and (o : Op)
  /-- OR (R120) Bitwise OR. -/
  | or (o : Op)
  /-- XOR (R120) Bitwise XOR. -/
  | xor (o : Op)
  /-- ANDN (R120) a AND NOT b. -/
  | andn (o : Op)
  /-- SHL (R120) Shift left by b mod n. -/
  | shl (o : Op)
  /-- SHR (R120) Logical shift right by b mod n. -/
  | shr (o : Op)
  /-- SAR (R120) Arithmetic shift right by b mod n. -/
  | sar (o : Op)
  /-- ROL (R120) Rotate left by b mod n. -/
  | rol (o : Op)
  /-- SLT (R120) Writes 1 when sa < sb, else 0. -/
  | slt (o : Op)
  /-- SLTU (R120) Writes 1 when a < b unsigned, else 0. -/
  | sltu (o : Op)
  /-- SEQ (R120) Writes 1 when a = b, else 0. -/
  | seq (o : Op)
  /-- SNE (R120) Writes 1 when a ≠ b, else 0. -/
  | sne (o : Op)
  /-- MUL (R120) Integer multiply, low half. -/
  | mul (o : Op)
  /-- MULH (R120) Signed high half of the product. -/
  | mulh (o : Op)
  /-- MOV (R120) Copies g[A] to g[D]; with W = 00 all 129 bits, tag included, otherwise the low width bits. -/
  | mov (o : Op)
  /-- NEG (R120) Writes 0 − a at the selected width. -/
  | neg (o : Op)
  /-- LDI (R121) Loads a sign-extended immediate into g[D], with tag 0. -/
  | ldi (o : Op)
  /-- ADDI (R121) Adds a signed immediate to g[D]. -/
  | addi (o : Op)
  /-- BZ (R129) Branches when the tested register is zero, checking the target against PCC. -/
  | bz (o : Op)
  /-- BNZ (R129) Branches when the tested register is non-zero. -/
  | bnz (o : Op)
  /-- BR (R129) Unconditional PC-relative branch. -/
  | br (o : Op)
  /-- CALL (R131) Branches and writes a sentry link to next_pc into lk. -/
  | call (o : Op)
  /-- JMP (R130) Transfers control to the capability in g[A], unsealing a sentry into PCC. -/
  | jmp (o : Op)
  /-- CALLI (R130) Links into lk, then jumps through the capability in g[A]. -/
  | calli (o : Op)
  /-- LD (R175) Loads 8, 4, 2 or 1 bytes through a capability into g[D]. -/
  | ld (o : Op)
  /-- ST (R175) Stores the low bytes of g[D] through a capability, clearing C. -/
  | st (o : Op)
  /-- LDC (R175) Loads a 16-byte granule with its tag when the authority holds LC. -/
  | ldc (o : Op)
  /-- STC (R175) Stores a 16-byte granule with its tag as C. -/
  | stc (o : Op)
  /-- SLTI (R121) Writes 1 when sa is below the immediate. -/
  | slti (o : Op)
  /-- ANDI (R121) ANDs an immediate into g[D]. -/
  | andi (o : Op)
  /-- LDHI (R121) Writes the immediate into bits [63:32] of g[D] and keeps bits [31:0]. -/
  | ldhi (o : Op)
  /-- CSET (R132) Derives a capability with a new address. -/
  | cset (o : Op)
  /-- CINC (R132) Derives a capability with its address incremented. -/
  | cinc (o : Op)
  /-- CBND (R132) Derives a capability with new bounds starting at its current address. -/
  | cbnd (o : Op)
  /-- CPERM (R132) Derives a capability with its permissions reduced by a mask. -/
  | cperm (o : Op)
  /-- CGET (R133) Reads a selected property of a capability into g[D]. -/
  | cget (o : Op)
  /-- CTAG (R134) Copies all 128 data bits of g[A] to g[D] with tag 0. -/
  | ctag (o : Op)
  /-- MFC (R135) Reads a control register into g[D]. -/
  | mfc (o : Op)
  /-- MTC (R135) Writes g[D] to a control register that has no row of its own, under its field access codes. -/
  | mtc (o : Op)
  /-- SVC (R136) Raises the SVC trap with a code and register number. -/
  | svc (o : Op)
  /-- DIV (R122) Signed division truncating toward zero, never trapping; outstanding. -/
  | div (o : Op)
  /-- DIVU (R122) Unsigned division; outstanding. -/
  | divu (o : Op)
  /-- REM (R122) Signed remainder; outstanding. -/
  | rem (o : Op)
  /-- REMU (R122) Unsigned remainder; outstanding. -/
  | remu (o : Op)
  /-- MIN (R123) Signed minimum. -/
  | min (o : Op)
  /-- MAX (R123) Signed maximum. -/
  | max (o : Op)
  /-- MINU (R123) Unsigned minimum. -/
  | minu (o : Op)
  /-- MAXU (R123) Unsigned maximum. -/
  | maxu (o : Op)
  /-- CLZ (R123) Counts leading zero bits. -/
  | clz (o : Op)
  /-- CTZ (R123) Counts trailing zero bits. -/
  | ctz (o : Op)
  /-- POPC (R123) Counts one bits. -/
  | popc (o : Op)
  /-- REV (R123) Reverses the bit order at width n. -/
  | rev (o : Op)
  /-- SX (R123) Sign-extends from width n to 64 bits. -/
  | sx (o : Op)
  /-- ZX (R123) Zero-extends from width n. -/
  | zx (o : Op)
  /-- BFX (R124) Extracts a bit field given by PIMM. -/
  | bfx (o : Op)
  /-- BFI (R124) Inserts a bit field given by PIMM. -/
  | bfi (o : Op)
  /-- CSEL (R125) Copies all 129 bits of g[A] to g[D] when g[B] is non-zero. -/
  | csel (o : Op)
  /-- CSELZ (R125) Copies all 129 bits of g[A] to g[D] when g[B] is zero. -/
  | cselz (o : Op)
  /-- LD_FE (R176) Waits at the home for F = 1, then loads. -/
  | ldFe (o : Op)
  /-- LD_FEC (R176) Waits for F = 1, loads and clears F in one step. -/
  | ldFec (o : Op)
  /-- ST_FS (R176) Stores and sets F in one step, serving waiters. -/
  | stFs (o : Op)
  /-- ST_FW (R176) Waits for F = 0, then stores and sets F. -/
  | stFw (o : Op)
  /-- ST_N4 (R177) Stores one nibble with an atomic read-merge-write at the byte's home. -/
  | stN4 (o : Op)
  /-- LDF (R178) Reads the F and C bits of a granule. -/
  | ldf (o : Op)
  /-- FADD (R126) Scalar floating add, correctly rounded. -/
  | fadd (o : Op)
  /-- FSUB (R126) Scalar floating subtract. -/
  | fsub (o : Op)
  /-- FMUL (R126) Scalar floating multiply. -/
  | fmul (o : Op)
  /-- FDIV (R126) Scalar floating divide; outstanding. -/
  | fdiv (o : Op)
  /-- FMIN (R108) minimumNumber. -/
  | fmin (o : Op)
  /-- FMAX (R108) maximumNumber. -/
  | fmax (o : Op)
  /-- FMINP (R108) NaN-propagating minimum. -/
  | fminp (o : Op)
  /-- FMAXP (R108) NaN-propagating maximum. -/
  | fmaxp (o : Op)
  /-- FSQRT (R126) Scalar square root; outstanding. -/
  | fsqrt (o : Op)
  /-- FABS (R126) Clears the sign bit. -/
  | fabs (o : Op)
  /-- FMA (R126) Fused multiply-add with g[D] as addend, one rounding. -/
  | fma (o : Op)
  /-- FNMA (R126) Fused negated multiply-add, one rounding. -/
  | fnma (o : Op)
  /-- FLT (R126) Floating less-than compare. -/
  | flt (o : Op)
  /-- FLE (R126) Floating less-or-equal compare. -/
  | fle (o : Op)
  /-- FEQ (R126) Floating equality compare. -/
  | feq (o : Op)
  /-- FUN (R126) Unordered test. -/
  | funOrd (o : Op)
  /-- CVTIF (R128) Integer to float conversion under FPM.RM. -/
  | cvtif (o : Op)
  /-- CVTFI (R128) Float to integer conversion, saturating. -/
  | cvtfi (o : Op)
  /-- CVTFF (R128) Float to float conversion. -/
  | cvtff (o : Op)
  /-- FCLASS (R127) Classifies a floating value into one bit. -/
  | fclass (o : Op)
  /-- BLZ (R129) Branches when the tested value is negative. -/
  | blz (o : Op)
  /-- BGEZ (R129) Branches when the tested value is not negative. -/
  | bgez (o : Op)
  /-- VADD (R144) Lane-wise integer add. -/
  | vadd (o : Op)
  /-- VSUB (R144) Lane-wise integer subtract. -/
  | vsub (o : Op)
  /-- VADDSAT (R144) Saturating lane add. -/
  | vaddsat (o : Op)
  /-- VSUBSAT (R144) Saturating lane subtract. -/
  | vsubsat (o : Op)
  /-- VMUL (R144) Lane multiply. -/
  | vmul (o : Op)
  /-- VMULH (R144) Lane high multiply. -/
  | vmulh (o : Op)
  /-- VMIN (R144) Lane minimum. -/
  | vmin (o : Op)
  /-- VMAX (R144) Lane maximum. -/
  | vmax (o : Op)
  /-- VAND (R144) Lane AND. -/
  | vand (o : Op)
  /-- VOR (R144) Lane OR. -/
  | vor (o : Op)
  /-- VXOR (R144) Lane XOR. -/
  | vxor (o : Op)
  /-- VANDN (R144) Lane AND NOT. -/
  | vandn (o : Op)
  /-- VSHL (R144) Lane shift left. -/
  | vshl (o : Op)
  /-- VSHR (R144) Lane shift right, arithmetic for i types. -/
  | vshr (o : Op)
  /-- VABS (R144) Lane absolute value. -/
  | vabs (o : Op)
  /-- VNEG (R144) Lane negate. -/
  | vneg (o : Op)
  /-- VCEQ (R145) Lane equality compare into a predicate. -/
  | vceq (o : Op)
  /-- VCNE (R145) Lane inequality compare into a predicate. -/
  | vcne (o : Op)
  /-- VCLT (R145) Lane less-than compare into a predicate. -/
  | vclt (o : Op)
  /-- VCLE (R145) Lane less-or-equal compare into a predicate. -/
  | vcle (o : Op)
  /-- VSEL (R145) Selects each element from s1 when active, s2 otherwise. -/
  | vsel (o : Op)
  /-- VMOV (R145) Lane move under the predicate. -/
  | vmov (o : Op)
  /-- VBCAST (R145) Broadcasts g[A] to every active element. -/
  | vbcast (o : Op)
  /-- VIDX (R145) Writes g[A] + i into element i. -/
  | vidx (o : Op)
  /-- VMAC (R144) Lane multiply-accumulate into v[D]. -/
  | vmac (o : Op)
  /-- VDOT4 (R144) Four-way sub-element dot product accumulated into v[D]. -/
  | vdot4 (o : Op)
  /-- VPOPC (R144) Lane population count. -/
  | vpopc (o : Op)
  /-- VCLZ (R144) Lane leading-zero count. -/
  | vclz (o : Op)
  /-- PAND (R146) Predicate AND over 256 bits. -/
  | pand (o : Op)
  /-- POR (R146) Predicate OR. -/
  | por (o : Op)
  /-- PXOR (R146) Predicate XOR. -/
  | pxor (o : Op)
  /-- PNOT (R146) Predicate NOT. -/
  | pnot (o : Op)
  /-- PCNT (R146) Counts active elements set in p[A] into g[D]. -/
  | pcnt (o : Op)
  /-- PFIRST (R146) Writes the index of the first set active element, or n. -/
  | pfirst (o : Op)
  /-- VEXT (R147) Extracts an indexed element into g[D]. -/
  | vext (o : Op)
  /-- VINS (R147) Inserts g[A] into an indexed element of v[D]. -/
  | vins (o : Op)
  /-- VRSUM (R148) Tree sum of the elements into g[D]. -/
  | vrsum (o : Op)
  /-- VRMAX (R148) Tree maximum of the elements into g[D]. -/
  | vrmax (o : Op)
  /-- VRMIN (R148) Tree minimum of the elements into g[D]. -/
  | vrmin (o : Op)
  /-- VRAND (R148) Tree AND of the elements into g[D]. -/
  | vrand (o : Op)
  /-- VCVTW (R149) Widens integer elements of one part. -/
  | vcvtw (o : Op)
  /-- VCVTN (R149) Narrows integer elements with clamping into one part. -/
  | vcvtn (o : Op)
  /-- VFADD (R151) Lane floating add. -/
  | vfadd (o : Op)
  /-- VFSUB (R151) Lane floating subtract. -/
  | vfsub (o : Op)
  /-- VFMUL (R151) Lane floating multiply. -/
  | vfmul (o : Op)
  /-- VFDIV (R151) Lane floating divide; outstanding. -/
  | vfdiv (o : Op)
  /-- VFMA (R151) Lane fused multiply-add into v[D]. -/
  | vfma (o : Op)
  /-- VFNMA (R151) Lane fused negated multiply-add into v[D]. -/
  | vfnma (o : Op)
  /-- VFMIN (R151) Lane minimumNumber. -/
  | vfmin (o : Op)
  /-- VFMAX (R151) Lane maximumNumber. -/
  | vfmax (o : Op)
  /-- VFMINP (R151) Lane NaN-propagating minimum. -/
  | vfminp (o : Op)
  /-- VFMAXP (R151) Lane NaN-propagating maximum. -/
  | vfmaxp (o : Op)
  /-- VFSQRT (R151) Lane square root; outstanding. -/
  | vfsqrt (o : Op)
  /-- VFRSQRT (R152) Lane reciprocal square root within 1 ulp; outstanding. -/
  | vfrsqrt (o : Op)
  /-- VFEXP2 (R152) Lane 2^x; outstanding. -/
  | vfexp2 (o : Op)
  /-- VFLOG2 (R152) Lane log2 x; outstanding. -/
  | vflog2 (o : Op)
  /-- VFRECIP (R152) Lane reciprocal; outstanding. -/
  | vfrecip (o : Op)
  /-- VFTANH (R152) Lane tanh; outstanding. -/
  | vftanh (o : Op)
  /-- VFCLASS (R151) Lane classification. -/
  | vfclass (o : Op)
  /-- VFABS (R151) Clears lane sign bits. -/
  | vfabs (o : Op)
  /-- VFNEG (R151) Inverts lane sign bits. -/
  | vfneg (o : Op)
  /-- VSCALE (R151) Multiplies lanes by 2^sb. -/
  | vscale (o : Op)
  /-- VFSIG (R152) Lane sigmoid; outstanding. -/
  | vfsig (o : Op)
  /-- VFGELU (R152) Lane GELU; outstanding. -/
  | vfgelu (o : Op)
  /-- VFCEQ (R151) Lane floating equality compare into a predicate. -/
  | vfceq (o : Op)
  /-- VFCLT (R151) Lane floating less-than compare. -/
  | vfclt (o : Op)
  /-- VFCLE (R151) Lane floating less-or-equal compare. -/
  | vfcle (o : Op)
  /-- VFCUN (R151) Lane unordered test. -/
  | vfcun (o : Op)
  /-- VCVT (R153) Float to float lane conversion of one part. -/
  | vcvt (o : Op)
  /-- VCVTI (R153) Float to integer lane conversion, saturating. -/
  | vcvti (o : Op)
  /-- VCVTF (R153) Integer to float lane conversion. -/
  | vcvtf (o : Op)
  /-- VQUANT (R154) Quantises with e8m0 block scales from g[B]. -/
  | vquant (o : Op)
  /-- VDEQUANT (R154) Dequantises with e8m0 block scales from g[B]. -/
  | vdequant (o : Op)
  /-- VFRSUM (R151) Floating tree sum into a scalar. -/
  | vfrsum (o : Op)
  /-- VFRMAX (R151) Floating tree maximumNumber into a scalar. -/
  | vfrmax (o : Op)
  /-- VFRND (R151) Rounds lanes to integral values by a mode in k. -/
  | vfrnd (o : Op)
  /-- VLD (R179) Contiguous vector load of active elements. -/
  | vld (o : Op)
  /-- VST (R179) Contiguous vector store of active elements. -/
  | vst (o : Op)
  /-- VLDS (R179) Strided vector load. -/
  | vlds (o : Op)
  /-- VSTS (R179) Strided vector store. -/
  | vsts (o : Op)
  /-- VLDX (R179) Indexed vector load. -/
  | vldx (o : Op)
  /-- VSTX (R179) Indexed vector store. -/
  | vstx (o : Op)
  /-- VLD_FE (R179) Waits for F = 1 in every touched granule, then loads. -/
  | vldFe (o : Op)
  /-- VST_FS (R179) Stores active bytes and sets F in every written granule. -/
  | vstFs (o : Op)
  /-- VLDP (R179) Loads a predicate register from 32 bytes. -/
  | vldp (o : Op)
  /-- VSTP (R179) Stores a predicate register to 32 bytes. -/
  | vstp (o : Op)
  /-- VPERM (R155) Permutes elements of s1 by indices in s2. -/
  | vperm (o : Op)
  /-- VPERM2 (R155) Two-table permute over d and s1. -/
  | vperm2 (o : Op)
  /-- VSLD (R155) Shifts the concatenation left by c elements. -/
  | vsld (o : Op)
  /-- VSRD (R155) Shifts the concatenation right by c elements. -/
  | vsrd (o : Op)
  /-- VZIP (R155) Interleaves halves of two sources. -/
  | vzip (o : Op)
  /-- VUNZIP (R155) De-interleaves two sources. -/
  | vunzip (o : Op)
  /-- VCOMP (R155) Packs active elements from element 0. -/
  | vcomp (o : Op)
  /-- VEXP (R155) Expands consecutive elements into active positions. -/
  | vexp (o : Op)
  /-- GGET (R157) Reads a whole register of a troupe gang member into the own register. -/
  | gget (o : Op)
  /-- GPUT (R157) Writes the own register into a register of a troupe gang member. -/
  | gput (o : Op)
  /-- GSUM (R158) Joins a collective round that sums v[A] across the troupe. -/
  | gsum (o : Op)
  /-- GMAX (R158) Joins a collective round taking maximumNumber across the troupe. -/
  | gmax (o : Op)
  /-- GBCAST (R158) Joins a collective round broadcasting a slot's v[A]. -/
  | gbcast (o : Op)
  /-- VLUT (R155) Looks up 4-bit indices in a 16-element table. -/
  | vlut (o : Op)
  /-- VLUTB (R155) Looks up byte indices in a byte table. -/
  | vlutb (o : Op)
  /-- HIRE (R273) Checks a hire descriptor, samples the format registers and sends a hire to the bench array. -/
  | hire (o : Op)
  /-- HIRE_R (R276) Sends a resume message for a parked hire. -/
  | hireR (o : Op)
  /-- HWAIT (R275) Waits for a hire handle to complete, writes its status and frees it, raising HFLT, TAP or PARK as due. -/
  | hwait (o : Op)
  /-- HPOLL (R275) Polls a hire handle without waiting. -/
  | hpoll (o : Op)
  /-- COPY (R254) Checks a copy descriptor and sends it to a copy engine. -/
  | copy (o : Op)
  /-- CWAIT (R259) Waits for a copy handle, writes its status and frees it. -/
  | cwait (o : Op)
  /-- CPOLL (R259) Polls a copy handle without waiting. -/
  | cpoll (o : Op)
  /-- SWAIT (R358) Waits for a stack handle, writes its status and frees it. -/
  | swait (o : Op)
  /-- SPOLL (R358) Polls a stack handle without waiting. -/
  | spoll (o : Op)
  /-- EFENCE (R278) Waits for the selected counted-command counters to reach zero and returns and clears ERR. -/
  | efence (o : Op)
  /-- ECNT (R278) Reads a counted-command counter and its ERR bit. -/
  | ecnt (o : Op)
  /-- CANCEL (R277) Sends a cancel message for an array, copy or stack handle. -/
  | cancel (o : Op)
  /-- HSTAT (R277) Reads a command's current status without freeing it. -/
  | hstat (o : Op)
  /-- COPY_R (R254) Sends a copy command that skips elements below a given count. -/
  | copyR (o : Op)
  /-- SATT (R356) Sends an attention descriptor to a stack engine, response form: the status returns into g[D]. -/
  | satt (o : Op)
  /-- SBLK (R357) Sends a counted write of one block-table entry to the stack that holds it. -/
  | sblk (o : Op)
  /-- TAPSEL (R307) Selects or clears a probe-table entry in a TAPSET slot under a P capability. -/
  | tapsel (o : Op)
  /-- AMOADD (R180) Atomic add at the home, returning the old value. -/
  | amoadd (o : Op)
  /-- AMOSWP (R180) Atomic swap. -/
  | amoswp (o : Op)
  /-- AMOAND (R180) Atomic AND. -/
  | amoand (o : Op)
  /-- AMOOR (R180) Atomic OR. -/
  | amoor (o : Op)
  /-- AMOMIN (R180) Atomic signed minimum. -/
  | amomin (o : Op)
  /-- AMOMAX (R180) Atomic signed maximum. -/
  | amomax (o : Op)
  /-- CAS (R180) Atomic compare-and-swap of a location. -/
  | cas (o : Op)
  /-- CASP (R181) Atomic compare-and-swap of a whole granule with its tag. -/
  | casp (o : Op)
  /-- SEND (R194) Composes a message of nb body flits on a channel capability into a send-buffer slot. -/
  | send (o : Op)
  /-- RECV (R195) Waits for and removes the head message of a channel's FIFO bank into memory. -/
  | recv (o : Op)
  /-- RECVP (R195) Removes the head message if any, without waiting. -/
  | recvp (o : Op)
  /-- CALLAT (R197) Allocates a reply slot and sends a task record to another core's deque. -/
  | callat (o : Op)
  /-- RETTO (R198) Sends a 129-bit reply to a reply slot. -/
  | retto (o : Op)
  /-- DQPUSH (R191) Pushes a checked task record onto the bottom of the own deque. -/
  | dqpush (o : Op)
  /-- DQPOP (R191) Pops the bottom record of the own deque to memory. -/
  | dqpop (o : Op)
  /-- DQSTEAL (R191) Steals the top unpinned record of a neighbour's deque. -/
  | dqsteal (o : Op)
  /-- DQLEN (R191) Reads the deque length of a named core. -/
  | dqlen (o : Op)
  /-- START (R199) Starts the lowest FREE helper on a checked task record. -/
  | start (o : Op)
  /-- JOIN (R200) Holds until a helper is FREE and reports how its unit ended. -/
  | join (o : Op)
  /-- BAR (R202) Arrives at a pen or partition barrier and receives the round's generation. -/
  | bar (o : Op)
  /-- BARQ (R202) Arrives at a barrier with a value and receives the round's maximum. -/
  | barq (o : Op)
  /-- WAITB (R203) Waits at the home until all mask bits of a word are set. -/
  | waitb (o : Op)
  /-- SETB (R203) Atomically ORs bits into a word at its home. -/
  | setb (o : Op)
  /-- LCNT (R204) Reads the counter of a level of the executing task. -/
  | lcnt (o : Op)
  /-- LCANCEL (R204) Cancels a level of the executing task. -/
  | lcancel (o : Op)
  /-- MFCS (R240) Reads a control register, g register or PCC of another context. -/
  | mfcs (o : Op)
  /-- MTCS (R240) Writes a control register, g register or PCC of a STOPPED or own context. -/
  | mtcs (o : Op)
  /-- TLBI (R241) Removes one translation of an interface from the chosen TLB extent. -/
  | tlbi (o : Op)
  /-- BANKCFG (R242) Requests a local-store bank role change. -/
  | bankcfg (o : Op)
  /-- BANKQ (R242) Reads a bank's role, pointers and a channel drop count, optionally clearing it. -/
  | bankq (o : Op)
  /-- PROBEW (R243) Checks and writes a probe-table entry to every tap unit of the partition. -/
  | probew (o : Op)
  /-- PROBER (R243) Reads a probe-table entry image to memory. -/
  | prober (o : Op)
  /-- PJR (R244) Writes a posted-store journal entry to memory. -/
  | pjr (o : Op)
  /-- PJCLR (R244) Frees a REFUSED journal entry. -/
  | pjclr (o : Op)
  /-- CSEAL (R245) Seals a capability with an object type given by an authority. -/
  | cseal (o : Op)
  /-- CUNSEAL (R245) Unseals a capability under a matching authority. -/
  | cunseal (o : Op)
  /-- LEASE (R246) Advances the pen's lease generation, with a PURGE when bit 0 is set. -/
  | lease (o : Op)
  /-- LEASEQ (R246) Reads the lease generation of a named core. -/
  | leaseq (o : Op)
  /-- NOP (R137) Does nothing; with M set it is the plain switch marker. -/
  | nop
  /-- DONE (R200) Waits for outstanding results, then ends the unit and frees the helper. -/
  | doneUnit
  /-- BRK (R137) Raises BRK at its own PC. -/
  | brk
  /-- RET (R130) Jumps through lk. -/
  | ret
  /-- SCHED (R201) Chooses the next task from channels, own deque or a steal and writes it to the task buffer. -/
  | sched
  /-- YIELD (R137) Defers the helper until every other ready helper has issued once or 16 cycles pass. -/
  | yield
  /-- GSYNC (R158) Joins a collective round with no data. -/
  | gsync
  /-- SATT_HANDLE (R356) Sends an attention descriptor to a stack engine under a handle. -/
  | sattHandle
  /-- TAPST (R307) Reads, and optionally clears, the COUNT of a selected probe entry. -/
  | tapst
  /-- FENCE (R205) Orders predecessor kinds before successor kinds and drains held stores when PS is set. -/
  | fence
  /-- SENDR (R194) Sends g4–g7 as a two-flit message on a channel capability. -/
  | sendr
  /-- ERET (R226) Ends trap handling, resuming, cancelling or leaving the helper by ECAUSE.ACT. -/
  | eret
  /-- WFI (R239) Waits until a trap, a message, a deque record or a FREE helper. -/
  | wfi
  /-- RCFLUSH (R239) Writes back every dirty register-cache entry of the core. -/
  | rcflush
  /-- L1INV (R239) Writes back and invalidates every L1 line. -/
  | l1inv
  /-- L1WB (R239) Writes back every dirty L1 granule. -/
  | l1wb
  /-- TLBIA (R241) Removes every translation of an interface from the chosen extent. -/
  | tlbia
  /-- PENDING_RESULT_ARRIVAL (R82) An outstanding result returns and is written unless superseded, ORing its flags and ending any switch-marker park it completes. -/
  | pendingResultArrival (core : Nat) (ctx : Nat) (idx : Nat)
  /-- REFUSAL_RESPONSE (R15) A remote refusal response returns and raises PGF in the issuing context. -/
  | refusalResponse (pid : Nat)
  /-- REMOTE_ACCESS_AT_HOME (R182) A remote load, store, atomic, nibble store or request arrives at its home core and is performed or refused. -/
  | remoteAccessAtHome (pid : Nat)
  /-- POSTED_STORE_ACK (R169) The home acknowledges a posted store and its journal entry is freed. -/
  | postedStoreAck (pid : Nat)
  /-- POSTED_STORE_REFUSED (R170) The home refuses a posted store; the entry becomes REFUSED and POST is raised. -/
  | postedStoreRefused (pid : Nat)
  /-- GATHER_LINE_TIMEOUT (R168) A held gather-buffer line leaves after 512 cycles. -/
  | gatherLineTimeout (core : Nat) (idx : Nat)
  /-- FULL_EMPTY_RETRY (R176) A full/empty request NACKed at a full home is retried by its sender. -/
  | fullEmptyRetry (pid : Nat)
  /-- PAGE_SCAN (R52) On first install of an executable translation with SCAN, the scanner decodes the page and accepts or refuses it. -/
  | pageScan (core : Nat) (ctx : Nat)
  /-- MESSAGE_ARRIVAL (R165) A whole message arrives at a FIFO bank and is placed, with a pad, or NACKed. -/
  | messageArrival (pid : Nat)
  /-- MESSAGE_NACK (R166) A NACK returns to the sender; after the 65th the message is dropped or CHAN is raised. -/
  | messageNack (pid : Nat)
  /-- MESSAGE_RETRY (R166) A NACKed message is resent from its send-buffer slot after the back-off. -/
  | messageRetry (pid : Nat)
  /-- DEQUE_RECORD_ARRIVAL (R188) A task record arrives at a deque and is accepted or NACKed. -/
  | dequeRecordArrival (pid : Nat)
  /-- STEAL_EXCHANGE (R189) Periodic length exchange over the steal network, moving records to one neighbour. -/
  | stealExchange (core : Nat)
  /-- STEAL_REQUEST (R190) A victim answers a steal with its topmost unpinned record or empty. -/
  | stealRequest (core : Nat) (ctx : Nat) (idx : Nat)
  /-- REPLY_ARRIVAL (R198) A reply reaches a reply slot and fills it or is discarded. -/
  | replyArrival (pid : Nat)
  /-- PARTITION_BARRIER_FORWARD (R374) A package forwards barrier counts and maxima along the group ring, and rank 0 completes the round. -/
  | partitionBarrierForward (grp : Nat) (arrivals : Nat) (n : Nat) (max : BitVec 64) (fin : Bool)
  /-- QUIET_REPORT (R206) The quiet tree reports quiet to the ringmaster once its conditions hold. -/
  | quietReport (vif : Nat) (pen : Nat)
  /-- BUDG (R207) A helper's CYC reaches BUDGET; the helper is STOPPED and BUDG is raised. -/
  | budg (core : Nat) (ctx : Nat)
  /-- SHARING_TURN_END (R208) The holder's consumed core-cycles reach its deficit or slice and the ringmaster begins ending the turn. -/
  | sharingTurnEnd (grp : Nat)
  /-- SHARING_TURN_SWITCH (R208) Once drained, state is saved and restored and the incoming interface holds the shared clusters. -/
  | sharingTurnSwitch (grp : Nat)
  /-- TRAP_ENTRY (R223) The control context takes a pending helper trap at a trap point and enters EVEC. -/
  | trapEntry (core : Nat)
  /-- UCNA (R228) An uncorrectable error in an unconsumed granule poisons it and makes an error record. -/
  | ucna (loc : Nat)
  /-- ENGINE_RESET (R232) An engine's inbox is emptied and its accepted commands end CANCELLED. -/
  | engineReset (kind : Nat) (n : Nat) (testOk : Bool)
  /-- PURGE_COMPLETE (R234) A PURGE completes once every earlier store, message and engine command of the pen has drained. -/
  | purgeComplete (core : Nat) (ctx : Nat) (idx : Nat)
  /-- INJECTOR_ACT (R236) An armed injector corrupts its flit or granule once and disarms. -/
  | injectorAct (target : Nat) (granule : Nat)
  /-- FREEZE_REQUEST (R237) A freeze request from the debug port stops every clock. -/
  | freezeRequest
  /-- DEBUGGER_READ (R83) A debugger reads another context's register through the debug port. -/
  | debuggerRead (core : Nat) (ctx : Nat) (item : Nat)
  /-- DEBUGGER_WRITE (R84) A debugger writes a register of a STOPPED or frozen context, or is refused. -/
  | debuggerWrite (core : Nat) (ctx : Nat) (item : Nat) (val : BitVec 2048) (tag : Bool)
  /-- DEBUGGER_MEMORY_READ (R22) A debugger reads a line's current content without recall. -/
  | debuggerMemoryRead (loc : Nat)
  /-- REGISTER_ENTRY_DROWSY (R80) A register-cache entry becomes drowsy after 64 cycles without access. -/
  | registerEntryDrowsy (core : Nat) (ctx : Nat) (item : Nat)
  /-- CTXBASE_WRITE (R78) A write of CTXBASE fills evicted control registers from the old base and marks entries dirty, or is ignored. -/
  | ctxbaseWrite (core : Nat) (val : BitVec 64)
  /-- COPY_ACCEPT (R255) A copy engine accepts a command, translates destination pages and takes ownership. -/
  | copyAccept (eng : Nat)
  /-- COPY_ELEMENT (R255) A copy engine reads, converts and lands the next element, or ends the command on a fault. -/
  | copyElement (eng : Nat) (cmd : Nat)
  /-- COPY_COMPLETE (R258) A copy command writes REC and completes its handle or counter. -/
  | copyComplete (eng : Nat) (cmd : Nat)
  /-- COLLECTIVE_ROUND_COMPLETE (R257) A collective copy round completes at each member once every member has read and landed. -/
  | collectiveRoundComplete (vif : Nat) (grp : Nat) (remote : List RemoteMember)
  /-- ENGINE_CANCEL_ARRIVAL (R277) A cancel message reaches an engine and ends the command CANCELLED. -/
  | engineCancelArrival (pid : Nat)
  /-- HIRE_ACCEPT (R283) The array accepts a hire into its master's queue, translating and owning destination lines or deferring pages. -/
  | hireAccept (bench : Nat) (cmd : Nat)
  /-- SLAB_BOUNDARY (R280) The weighted round robin chooses the master whose next slab is computed. -/
  | slabBoundary (bench : Nat)
  /-- SLAB_DONE (R290) A slab finishes and its checksum column is compared before it is added. -/
  | slabDone (bench : Nat) (mismatch : Bool)
  /-- HIRE_LANDING (R284) A finished hire translates deferred pages, reads D_in and lands its rows, then completes. -/
  | hireLanding (bench : Nat)
  /-- HIRE_RESUME_ARRIVAL (R276) A resume message returns a parked hire to the landing path. -/
  | hireResumeArrival (pid : Nat)
  /-- ARBCFG (R281) A write of a bench's weights and reroute target through the management path. -/
  | arbcfg (bench : Nat) (val : BitVec 64)
  /-- STACK_COMMAND_ACCEPT (R348) A stack engine accepts a command and owns its destination lines. -/
  | stackCommandAccept (stack : Nat)
  /-- STACK_COMMAND_START (R354) A stack engine begins its next accepted command and computes its queries. -/
  | stackCommandStart (stack : Nat)
  /-- STACK_COMMAND_COMPLETE (R355) A stack command lands its output rows and statistics and completes. -/
  | stackCommandComplete (stack : Nat)
  /-- SBLK_WRITE (R357) A stack performs a block-table entry write and the counter falls. -/
  | sblkWrite (stack : Nat)
  /-- ACTIVATION_ALERT (R361) A DRAM row's activation count crosses its threshold and is mitigated. -/
  | activationAlert (row : Nat) (sequencer : Bool)
  /-- STREAM_NOP (R311) NOP command: ignored. -/
  | streamNop (vif : Nat)
  /-- INDIRECT (R312) Runs a nested command buffer. -/
  | indirect (vif : Nat)
  /-- RETURN (R312) Returns from an INDIRECT buffer. -/
  | returnBuf (vif : Nat)
  /-- LAUNCH (R319) Opens a launch slot, applies bank roles, specialises and delivers the root record. -/
  | launch (vif : Nat)
  /-- GRAPH_UPLOAD (R320) Records a graph's slot, parent and launch list. -/
  | graphUpload (vif : Nat)
  /-- GRAPH_TRIGGER (R322) Queues a trigger of a graph with patch pairs. -/
  | graphTrigger (vif : Nat)
  /-- WAIT_LEVEL (R318) Holds the stream until a level slot is COMPLETE. -/
  | waitLevel (vif : Nat)
  /-- SIGNAL (R318) Writes a value as a release and optionally posts an event. -/
  | signal (vif : Nat)
  /-- STREAM_CANCEL (R318) CANCEL command: cancels a level slot and its descendants. -/
  | streamCancel (vif : Nat)
  /-- PEN_DEFINE (R323) Replaces the partition's pens with given rectangles. -/
  | penDefine (vif : Nat)
  /-- PEN_RESET (R324) Runs a pen reset and posts event 0x06. -/
  | penReset (vif : Nat)
  /-- MAP_CLUSTERS (R325) Moves or unmaps a logical cluster, optionally copying its state. -/
  | mapClusters (vif : Nat)
  /-- SPEC_ENTRY_DROP (R333) The specialiser drops an unpinned cache entry at any time. -/
  | specEntryDrop (die : Nat) (idx : Nat)
  /-- TRIGGER (R322) A TRIGGER register write queues a graph trigger or sets OVF. -/
  | trigger (vif : Nat) (val : BitVec 64)
  /-- TRIGGER_RUN (R322) A queued trigger waits for its slots, patches the uniform blocks and launches the list. -/
  | triggerRun (vif : Nat) (gid : Nat)
  /-- RSTAT_WRITE (R313) A write of RSTAT clears ERR and starts or stops stream reading. -/
  | rstatWrite (vif : Nat) (val : BitVec 64)
  /-- RHEAD_WRITE (R313) A write of RHEAD while stopped drops open buffers. -/
  | rheadWrite (vif : Nat) (val : BitVec 64)
  /-- RTAIL_WRITE (R310) A write of RTAIL makes ring words up to it available to the ringmaster. -/
  | rtailWrite (vif : Nat) (val : BitVec 64)
  /-- EQDROP_WRITE (R326) A write of EQDROP resets the dropped-event count. -/
  | eqdropWrite (vif : Nat) (val : BitVec 64)
  /-- LVL_WRITE (R317) Software opens, seals or frees a level slot. -/
  | lvlWrite (vif : Nat) (n : Nat) (val : BitVec 64)
  /-- PCTRL_WRITE (R309) A write of PCTRL enables an interface, or is refused. -/
  | pctrlWrite (vif : Nat) (val : BitVec 64)
  /-- LEVEL_COMPLETE (R316) A level reaches COMPLETE, releases its operations and posts event 0x01. -/
  | levelComplete (vif : Nat) (slot : Nat)
  /-- PACKAGE_RESET (R367) Package reset puts every part in its reset state and the boot ROM verifies and loads firmware. -/
  | packageReset (failStage : Nat)
  /-- BOOTGO (R367) A write of BOOTGO releases the die's control contexts at MKENTRY. -/
  | bootgo (die : Nat) (val : BitVec 64)
  /-- LOCK (R368) Locks the boot registers until package reset. -/
  | lock (val : BitVec 64)
  /-- FREEZE (R237) A write of FREEZE freezes or releases the package. -/
  | freeze (val : BitVec 64)
  /-- ERRDROP_WRITE (R366) A write of ERRDROP resets the dropped-record count. -/
  | errdropWrite (die : Nat) (val : BitVec 64)
  /-- INJCTL (R366) A write of INJCTL arms the injector of the INJSEL target. -/
  | injctl (die : Nat) (val : BitVec 64)
  /-- PCTL_RESET (R232) Writing RESET in PCTL resets a KSL port. -/
  | pctlReset (port : Nat)
  /-- PCTL_ENABLE (R372) Writing EN in PCTL lets a port train and run. -/
  | pctlEnable (port : Nat) (en : Bool)
  /-- GROUP_WRITE (R373) A write of a GROUP word takes effect at the group's next round. -/
  | groupWrite (grp : Nat) (val : BitVec 64)
  /-- DEVICE_REGISTER_WRITE (R364) A write of a device register that has no row of its own. -/
  | deviceRegisterWrite (addr : Nat) (val : BitVec 64)
  /-- I3C_READ (R370) Management command 0x01 reads an 8-byte register. -/
  | i3cRead (addr : Nat)
  /-- I3C_WRITE (R370) Management command 0x02 writes an 8-byte register. -/
  | i3cWrite (addr : Nat) (val : BitVec 64)
  /-- ATTESTATION_REQUEST (R369) The security engine returns a signed attestation report for a nonce. -/
  | attestationRequest (nonce : BitVec 256)
  /-- PCIE_DMA_WRITE (R365) An endpoint DMA write is translated by the IOMMU and performed in stack memory. -/
  | pcieDmaWrite (port : Nat) (addr : Nat) (pa : Option Nat) (data : List (BitVec 8))
  /-- PCIE_DMA_READ (R365) An endpoint DMA read of stack memory, or a refused access to the register space. -/
  | pcieDmaRead (port : Nat) (addr : Nat) (pa : Option Nat) (size : Nat)
  /-- MSI (R365) An MSI is delivered after every earlier DMA write of its port. -/
  | msi (port : Nat) (data : BitVec 64)
  /-- KSL_FLIT_RECEIVE (R372) A KSL flit arrives and is delivered in order or NACKed. -/
  | kslFlitReceive (port : Nat) (flit : BitVec 512)
  /-- KSL_NACK_RECEIVE (R372) A negative acknowledgement causes go-back-N replay, retraining after 16 failures. -/
  | kslNackReceive (port : Nat) (seq : BitVec 16)
  /-- KSL_PARTNER_LOST (R372) No flit for 1 ms declares the partner lost and ends its collective rounds. -/
  | kslPartnerLost (port : Nat)
  /-- POWER_THROTTLE (R376) PWRNOW above PWRCAP thins issue of cores, arrays and engines. -/
  | powerThrottle (watts : BitVec 12)
  /-- THERMAL_STOP (R376) A die reaching 110 °C stops under class DIE. -/
  | thermalStop (die : Nat)
  /-- HUB_STACK_ACCESS (R364) A hub core load or store to stack memory is performed as a package-scope memory operation, and a store to a FROZEN page is refused and invalidates specialisation entries. -/
  | hubStackAccess (addr : Nat) (wr : Bool) (data : List (BitVec 8)) (size : Nat) (frozen : Bool)
  /-- DIE_FAILURE (R229) A ringmaster, specialiser, L2 controller or router of a die fails, and every partition with a cluster on the die is reset under class DIE. -/
  | dieFailure (die : Nat)
  /-- ROUTE_FAULT (R229) A route fault in a cluster network resets the sender's pen under class FAB. -/
  | routeFault (core : Nat)
  /-- PORT_TRAINING_COMPLETE (R372) A KSL port's training or retraining ends, with the port up on the lanes that trained, degraded with failed lanes removed and an LNK record, or down. -/
  | portTrainingComplete (port : Nat) (lanes : BitVec 4)
  /-- YIELD_EXPIRY (R137) Sixteen cycles after a yield, the yielding helper becomes selectable again although not every other ready helper has issued. -/
  | yieldExpiry (core : Nat) (ctx : Nat)
  /-- DEBUGGER_SINGLE_STEP (R53) A debugger's single step from the debug port executes exactly one whole instruction of a context. -/
  | debuggerSingleStep (core : Nat) (ctx : Nat)
  deriving DecidableEq, Repr

/-- The operand formats of 02 Table 14. -/
inductive Fmt where
  | f2 | fi | fb | fz
  deriving DecidableEq, Repr

/-- The ordering classes of 02 Table 19. -/
inductive OrdClass where
  | load | store | atomic | send | engine | none
  deriving DecidableEq, Repr

/-- Which register file an operand field names; `none` says that the field is reserved or holds no register. -/
inductive RegUse where
  | none | g | v | p
  deriving DecidableEq, Repr

/-- What one form of the opcode map is: its place (02 Tables 20a to 20c), its ordering class (Table 19) and the
fields that it uses, every other field being reserved (02 R37, R42). `kMask` holds the bits of k that the form names
and `kMax` the PIMMs that it uses. -/
structure Form where
  page : Nat
  op : Nat
  sel : Option Nat
  fmt : Fmt
  cls : OrdClass
  dUse : RegUse
  aUse : RegUse
  bUse : RegUse
  usesW : Bool
  kMask : Nat
  kMax : Nat
  usesEt : Bool
  usesPr : Bool
  usesZ : Bool
  usesSh : Bool
  side : Bool
  deriving DecidableEq, Repr

/-- The operand that the term carries. The forms of format FZ and the forms of pages 4 to 7 whose A field is reserved
carry none: they name no register or only one; nor does the handle form of satt, which shares the words of satt. Step
hands their operand to them in `State.opr`. -/
def Instr.op? : Instr → Option Op
  | .add o => some o
  | .sub o => some o
  | .and o => some o
  | .or o => some o
  | .xor o => some o
  | .andn o => some o
  | .shl o => some o
  | .shr o => some o
  | .sar o => some o
  | .rol o => some o
  | .slt o => some o
  | .sltu o => some o
  | .seq o => some o
  | .sne o => some o
  | .mul o => some o
  | .mulh o => some o
  | .mov o => some o
  | .neg o => some o
  | .ldi o => some o
  | .addi o => some o
  | .bz o => some o
  | .bnz o => some o
  | .br o => some o
  | .call o => some o
  | .jmp o => some o
  | .calli o => some o
  | .ld o => some o
  | .st o => some o
  | .ldc o => some o
  | .stc o => some o
  | .slti o => some o
  | .andi o => some o
  | .ldhi o => some o
  | .cset o => some o
  | .cinc o => some o
  | .cbnd o => some o
  | .cperm o => some o
  | .cget o => some o
  | .ctag o => some o
  | .mfc o => some o
  | .mtc o => some o
  | .svc o => some o
  | .div o => some o
  | .divu o => some o
  | .rem o => some o
  | .remu o => some o
  | .min o => some o
  | .max o => some o
  | .minu o => some o
  | .maxu o => some o
  | .clz o => some o
  | .ctz o => some o
  | .popc o => some o
  | .rev o => some o
  | .sx o => some o
  | .zx o => some o
  | .bfx o => some o
  | .bfi o => some o
  | .csel o => some o
  | .cselz o => some o
  | .ldFe o => some o
  | .ldFec o => some o
  | .stFs o => some o
  | .stFw o => some o
  | .stN4 o => some o
  | .ldf o => some o
  | .fadd o => some o
  | .fsub o => some o
  | .fmul o => some o
  | .fdiv o => some o
  | .fmin o => some o
  | .fmax o => some o
  | .fminp o => some o
  | .fmaxp o => some o
  | .fsqrt o => some o
  | .fabs o => some o
  | .fma o => some o
  | .fnma o => some o
  | .flt o => some o
  | .fle o => some o
  | .feq o => some o
  | .funOrd o => some o
  | .cvtif o => some o
  | .cvtfi o => some o
  | .cvtff o => some o
  | .fclass o => some o
  | .blz o => some o
  | .bgez o => some o
  | .vadd o => some o
  | .vsub o => some o
  | .vaddsat o => some o
  | .vsubsat o => some o
  | .vmul o => some o
  | .vmulh o => some o
  | .vmin o => some o
  | .vmax o => some o
  | .vand o => some o
  | .vor o => some o
  | .vxor o => some o
  | .vandn o => some o
  | .vshl o => some o
  | .vshr o => some o
  | .vabs o => some o
  | .vneg o => some o
  | .vceq o => some o
  | .vcne o => some o
  | .vclt o => some o
  | .vcle o => some o
  | .vsel o => some o
  | .vmov o => some o
  | .vbcast o => some o
  | .vidx o => some o
  | .vmac o => some o
  | .vdot4 o => some o
  | .vpopc o => some o
  | .vclz o => some o
  | .pand o => some o
  | .por o => some o
  | .pxor o => some o
  | .pnot o => some o
  | .pcnt o => some o
  | .pfirst o => some o
  | .vext o => some o
  | .vins o => some o
  | .vrsum o => some o
  | .vrmax o => some o
  | .vrmin o => some o
  | .vrand o => some o
  | .vcvtw o => some o
  | .vcvtn o => some o
  | .vfadd o => some o
  | .vfsub o => some o
  | .vfmul o => some o
  | .vfdiv o => some o
  | .vfma o => some o
  | .vfnma o => some o
  | .vfmin o => some o
  | .vfmax o => some o
  | .vfminp o => some o
  | .vfmaxp o => some o
  | .vfsqrt o => some o
  | .vfrsqrt o => some o
  | .vfexp2 o => some o
  | .vflog2 o => some o
  | .vfrecip o => some o
  | .vftanh o => some o
  | .vfclass o => some o
  | .vfabs o => some o
  | .vfneg o => some o
  | .vscale o => some o
  | .vfsig o => some o
  | .vfgelu o => some o
  | .vfceq o => some o
  | .vfclt o => some o
  | .vfcle o => some o
  | .vfcun o => some o
  | .vcvt o => some o
  | .vcvti o => some o
  | .vcvtf o => some o
  | .vquant o => some o
  | .vdequant o => some o
  | .vfrsum o => some o
  | .vfrmax o => some o
  | .vfrnd o => some o
  | .vld o => some o
  | .vst o => some o
  | .vlds o => some o
  | .vsts o => some o
  | .vldx o => some o
  | .vstx o => some o
  | .vldFe o => some o
  | .vstFs o => some o
  | .vldp o => some o
  | .vstp o => some o
  | .vperm o => some o
  | .vperm2 o => some o
  | .vsld o => some o
  | .vsrd o => some o
  | .vzip o => some o
  | .vunzip o => some o
  | .vcomp o => some o
  | .vexp o => some o
  | .gget o => some o
  | .gput o => some o
  | .gsum o => some o
  | .gmax o => some o
  | .gbcast o => some o
  | .vlut o => some o
  | .vlutb o => some o
  | .hire o => some o
  | .hireR o => some o
  | .hwait o => some o
  | .hpoll o => some o
  | .copy o => some o
  | .cwait o => some o
  | .cpoll o => some o
  | .swait o => some o
  | .spoll o => some o
  | .efence o => some o
  | .ecnt o => some o
  | .cancel o => some o
  | .hstat o => some o
  | .copyR o => some o
  | .satt o => some o
  | .sblk o => some o
  | .tapsel o => some o
  | .amoadd o => some o
  | .amoswp o => some o
  | .amoand o => some o
  | .amoor o => some o
  | .amomin o => some o
  | .amomax o => some o
  | .cas o => some o
  | .casp o => some o
  | .send o => some o
  | .recv o => some o
  | .recvp o => some o
  | .callat o => some o
  | .retto o => some o
  | .dqpush o => some o
  | .dqpop o => some o
  | .dqsteal o => some o
  | .dqlen o => some o
  | .start o => some o
  | .join o => some o
  | .bar o => some o
  | .barq o => some o
  | .waitb o => some o
  | .setb o => some o
  | .lcnt o => some o
  | .lcancel o => some o
  | .mfcs o => some o
  | .mtcs o => some o
  | .tlbi o => some o
  | .bankcfg o => some o
  | .bankq o => some o
  | .probew o => some o
  | .prober o => some o
  | .pjr o => some o
  | .pjclr o => some o
  | .cseal o => some o
  | .cunseal o => some o
  | .lease o => some o
  | .leaseq o => some o
  | _ => none

/-- The form of an instruction word; `none` for a step that has no word. -/
def Instr.form? : Instr → Option Form
  | .add _ => some ⟨0, 2, some 0, .f2, .none, .g, .g, .g, true, 0x0, 0, false, false, false, false, false⟩
  | .sub _ => some ⟨0, 2, some 1, .f2, .none, .g, .g, .g, true, 0x0, 0, false, false, false, false, false⟩
  | .and _ => some ⟨0, 4, some 0, .f2, .none, .g, .g, .g, true, 0x0, 0, false, false, false, false, false⟩
  | .or _ => some ⟨0, 4, some 1, .f2, .none, .g, .g, .g, true, 0x0, 0, false, false, false, false, false⟩
  | .xor _ => some ⟨0, 5, some 0, .f2, .none, .g, .g, .g, true, 0x0, 0, false, false, false, false, false⟩
  | .andn _ => some ⟨0, 5, some 1, .f2, .none, .g, .g, .g, true, 0x0, 0, false, false, false, false, false⟩
  | .shl _ => some ⟨0, 6, some 0, .f2, .none, .g, .g, .g, true, 0x0, 0, false, false, false, false, false⟩
  | .shr _ => some ⟨0, 6, some 1, .f2, .none, .g, .g, .g, true, 0x0, 0, false, false, false, false, false⟩
  | .sar _ => some ⟨0, 7, some 0, .f2, .none, .g, .g, .g, true, 0x0, 0, false, false, false, false, false⟩
  | .rol _ => some ⟨0, 7, some 1, .f2, .none, .g, .g, .g, true, 0x0, 0, false, false, false, false, false⟩
  | .slt _ => some ⟨0, 8, some 0, .f2, .none, .g, .g, .g, true, 0x0, 0, false, false, false, false, false⟩
  | .sltu _ => some ⟨0, 8, some 1, .f2, .none, .g, .g, .g, true, 0x0, 0, false, false, false, false, false⟩
  | .seq _ => some ⟨0, 9, some 0, .f2, .none, .g, .g, .g, true, 0x0, 0, false, false, false, false, false⟩
  | .sne _ => some ⟨0, 9, some 1, .f2, .none, .g, .g, .g, true, 0x0, 0, false, false, false, false, false⟩
  | .mul _ => some ⟨0, 25, some 0, .f2, .none, .g, .g, .g, true, 0x0, 0, false, false, false, false, false⟩
  | .mulh _ => some ⟨0, 25, some 1, .f2, .none, .g, .g, .g, true, 0x0, 0, false, false, false, false, false⟩
  | .mov _ => some ⟨0, 0, some 0, .f2, .none, .g, .g, .none, true, 0x0, 0, false, false, false, false, false⟩
  | .neg _ => some ⟨0, 0, some 1, .f2, .none, .g, .g, .none, true, 0x0, 0, false, false, false, false, false⟩
  | .ldi _ => some ⟨0, 1, none, .fi, .none, .g, .g, .none, false, 0x7ffffff, 3, false, false, false, false, false⟩
  | .addi _ => some ⟨0, 3, none, .fi, .none, .g, .g, .none, true, 0x7ffffff, 3, false, false, false, false, false⟩
  | .bz _ => some ⟨0, 10, none, .fi, .none, .g, .g, .none, true, 0x7ffffff, 3, false, false, false, false, false⟩
  | .bnz _ => some ⟨0, 11, none, .fi, .none, .g, .g, .none, true, 0x7ffffff, 3, false, false, false, false, false⟩
  | .br _ => some ⟨0, 12, none, .fb, .none, .none, .none, .none, false, 0x7ffffff, 3, false, false, false, false, false⟩
  | .call _ => some ⟨0, 13, none, .fb, .none, .none, .none, .none, false, 0x7ffffff, 3, false, false, false, false, true⟩
  | .jmp _ => some ⟨0, 14, some 0, .f2, .none, .none, .g, .none, false, 0x0, 0, false, false, false, false, false⟩
  | .calli _ => some ⟨0, 14, some 1, .f2, .none, .none, .g, .none, false, 0x0, 0, false, false, false, false, true⟩
  | .ld _ => some ⟨0, 15, some 0, .f2, .load, .g, .g, .none, true, 0x7ffffff, 3, false, false, false, false, false⟩
  | .st _ => some ⟨0, 15, some 1, .f2, .store, .g, .g, .none, true, 0x7ffffff, 3, false, false, false, false, true⟩
  | .ldc _ => some ⟨0, 16, some 0, .f2, .load, .g, .g, .none, false, 0x7ffffff, 3, false, false, false, false, false⟩
  | .stc _ => some ⟨0, 16, some 1, .f2, .store, .g, .g, .none, false, 0x7ffffff, 3, false, false, false, false, true⟩
  | .slti _ => some ⟨0, 17, none, .fi, .none, .g, .g, .none, true, 0x7ffffff, 3, false, false, false, false, false⟩
  | .andi _ => some ⟨0, 18, none, .fi, .none, .g, .g, .none, true, 0x7ffffff, 3, false, false, false, false, false⟩
  | .ldhi _ => some ⟨0, 19, none, .fi, .none, .g, .g, .none, false, 0x7ffffff, 3, false, false, false, false, false⟩
  | .cset _ => some ⟨0, 20, some 0, .f2, .none, .g, .g, .g, false, 0x0, 0, false, false, false, false, false⟩
  | .cinc _ => some ⟨0, 20, some 1, .f2, .none, .g, .g, .g, false, 0x0, 0, false, false, false, false, false⟩
  | .cbnd _ => some ⟨0, 21, some 0, .f2, .none, .g, .g, .g, false, 0x0, 0, false, false, false, false, false⟩
  | .cperm _ => some ⟨0, 21, some 1, .f2, .none, .g, .g, .g, false, 0x0, 0, false, false, false, false, false⟩
  | .cget _ => some ⟨0, 22, some 0, .f2, .none, .g, .g, .none, false, 0x7, 1, false, false, false, false, false⟩
  | .ctag _ => some ⟨0, 22, some 1, .f2, .none, .g, .g, .none, false, 0x0, 0, false, false, false, false, false⟩
  | .mfc _ => some ⟨0, 23, none, .fi, .none, .g, .g, .none, false, 0x7ffffff, 3, false, false, false, false, false⟩
  | .mtc _ => some ⟨0, 24, none, .fi, .none, .g, .g, .none, false, 0x7ffffff, 3, false, false, false, false, true⟩
  | .svc _ => some ⟨0, 27, none, .fi, .none, .g, .g, .none, false, 0x7ffffff, 3, false, false, false, false, true⟩
  | .div _ => some ⟨1, 0, some 0, .f2, .none, .g, .g, .g, true, 0x0, 0, false, false, false, false, false⟩
  | .divu _ => some ⟨1, 0, some 1, .f2, .none, .g, .g, .g, true, 0x0, 0, false, false, false, false, false⟩
  | .rem _ => some ⟨1, 1, some 0, .f2, .none, .g, .g, .g, true, 0x0, 0, false, false, false, false, false⟩
  | .remu _ => some ⟨1, 1, some 1, .f2, .none, .g, .g, .g, true, 0x0, 0, false, false, false, false, false⟩
  | .min _ => some ⟨1, 2, some 0, .f2, .none, .g, .g, .g, true, 0x0, 0, false, false, false, false, false⟩
  | .max _ => some ⟨1, 2, some 1, .f2, .none, .g, .g, .g, true, 0x0, 0, false, false, false, false, false⟩
  | .minu _ => some ⟨1, 3, some 0, .f2, .none, .g, .g, .g, true, 0x0, 0, false, false, false, false, false⟩
  | .maxu _ => some ⟨1, 3, some 1, .f2, .none, .g, .g, .g, true, 0x0, 0, false, false, false, false, false⟩
  | .clz _ => some ⟨1, 4, some 0, .f2, .none, .g, .g, .none, true, 0x0, 0, false, false, false, false, false⟩
  | .ctz _ => some ⟨1, 4, some 1, .f2, .none, .g, .g, .none, true, 0x0, 0, false, false, false, false, false⟩
  | .popc _ => some ⟨1, 5, some 0, .f2, .none, .g, .g, .none, true, 0x0, 0, false, false, false, false, false⟩
  | .rev _ => some ⟨1, 5, some 1, .f2, .none, .g, .g, .none, true, 0x0, 0, false, false, false, false, false⟩
  | .sx _ => some ⟨1, 6, some 0, .f2, .none, .g, .g, .none, true, 0x0, 0, false, false, false, false, false⟩
  | .zx _ => some ⟨1, 6, some 1, .f2, .none, .g, .g, .none, true, 0x0, 0, false, false, false, false, false⟩
  | .bfx _ => some ⟨1, 7, some 0, .f2, .none, .g, .g, .none, false, 0xfff, 2, false, false, false, false, false⟩
  | .bfi _ => some ⟨1, 7, some 1, .f2, .none, .g, .g, .none, false, 0xfff, 2, false, false, false, false, false⟩
  | .csel _ => some ⟨1, 8, some 0, .f2, .none, .g, .g, .g, false, 0x0, 0, false, false, false, false, false⟩
  | .cselz _ => some ⟨1, 8, some 1, .f2, .none, .g, .g, .g, false, 0x0, 0, false, false, false, false, false⟩
  | .ldFe _ => some ⟨1, 9, some 0, .f2, .load, .g, .g, .none, true, 0x7ffffff, 3, false, false, false, false, false⟩
  | .ldFec _ => some ⟨1, 9, some 1, .f2, .load, .g, .g, .none, true, 0x7ffffff, 3, false, false, false, false, false⟩
  | .stFs _ => some ⟨1, 10, some 0, .f2, .store, .g, .g, .none, true, 0x7ffffff, 3, false, false, false, false, true⟩
  | .stFw _ => some ⟨1, 10, some 1, .f2, .store, .g, .g, .none, true, 0x7ffffff, 3, false, false, false, false, true⟩
  | .stN4 _ => some ⟨1, 11, some 0, .f2, .store, .g, .g, .none, false, 0x7ffffff, 3, false, false, false, false, true⟩
  | .ldf _ => some ⟨1, 11, some 1, .f2, .load, .g, .g, .none, false, 0x7ffffff, 3, false, false, false, false, false⟩
  | .fadd _ => some ⟨1, 12, some 0, .f2, .none, .g, .g, .g, true, 0x0, 0, false, false, false, false, false⟩
  | .fsub _ => some ⟨1, 12, some 1, .f2, .none, .g, .g, .g, true, 0x0, 0, false, false, false, false, false⟩
  | .fmul _ => some ⟨1, 13, some 0, .f2, .none, .g, .g, .g, true, 0x0, 0, false, false, false, false, false⟩
  | .fdiv _ => some ⟨1, 13, some 1, .f2, .none, .g, .g, .g, true, 0x0, 0, false, false, false, false, false⟩
  | .fmin _ => some ⟨1, 14, some 0, .f2, .none, .g, .g, .g, true, 0x0, 0, false, false, false, false, false⟩
  | .fmax _ => some ⟨1, 14, some 1, .f2, .none, .g, .g, .g, true, 0x0, 0, false, false, false, false, false⟩
  | .fminp _ => some ⟨1, 15, some 0, .f2, .none, .g, .g, .g, true, 0x0, 0, false, false, false, false, false⟩
  | .fmaxp _ => some ⟨1, 15, some 1, .f2, .none, .g, .g, .g, true, 0x0, 0, false, false, false, false, false⟩
  | .fsqrt _ => some ⟨1, 16, some 0, .f2, .none, .g, .g, .none, true, 0x0, 0, false, false, false, false, false⟩
  | .fabs _ => some ⟨1, 16, some 1, .f2, .none, .g, .g, .none, true, 0x0, 0, false, false, false, false, false⟩
  | .fma _ => some ⟨1, 17, some 0, .f2, .none, .g, .g, .g, true, 0x0, 0, false, false, false, false, false⟩
  | .fnma _ => some ⟨1, 17, some 1, .f2, .none, .g, .g, .g, true, 0x0, 0, false, false, false, false, false⟩
  | .flt _ => some ⟨1, 18, some 0, .f2, .none, .g, .g, .g, true, 0x0, 0, false, false, false, false, false⟩
  | .fle _ => some ⟨1, 18, some 1, .f2, .none, .g, .g, .g, true, 0x0, 0, false, false, false, false, false⟩
  | .feq _ => some ⟨1, 19, some 0, .f2, .none, .g, .g, .g, true, 0x0, 0, false, false, false, false, false⟩
  | .funOrd _ => some ⟨1, 19, some 1, .f2, .none, .g, .g, .g, true, 0x0, 0, false, false, false, false, false⟩
  | .cvtif _ => some ⟨1, 20, some 0, .f2, .none, .g, .g, .none, true, 0x7, 1, false, false, false, false, false⟩
  | .cvtfi _ => some ⟨1, 20, some 1, .f2, .none, .g, .g, .none, true, 0x7, 1, false, false, false, false, false⟩
  | .cvtff _ => some ⟨1, 21, some 0, .f2, .none, .g, .g, .none, true, 0x7, 1, false, false, false, false, false⟩
  | .fclass _ => some ⟨1, 21, some 1, .f2, .none, .g, .g, .none, true, 0x0, 0, false, false, false, false, false⟩
  | .blz _ => some ⟨1, 22, none, .fi, .none, .g, .g, .none, true, 0x7ffffff, 3, false, false, false, false, false⟩
  | .bgez _ => some ⟨1, 23, none, .fi, .none, .g, .g, .none, true, 0x7ffffff, 3, false, false, false, false, false⟩
  | .vadd _ => some ⟨2, 0, some 0, .f2, .none, .v, .v, .v, false, 0x0, 0, true, true, true, true, false⟩
  | .vsub _ => some ⟨2, 0, some 1, .f2, .none, .v, .v, .v, false, 0x0, 0, true, true, true, true, false⟩
  | .vaddsat _ => some ⟨2, 1, some 0, .f2, .none, .v, .v, .v, false, 0x0, 0, true, true, true, true, false⟩
  | .vsubsat _ => some ⟨2, 1, some 1, .f2, .none, .v, .v, .v, false, 0x0, 0, true, true, true, true, false⟩
  | .vmul _ => some ⟨2, 2, some 0, .f2, .none, .v, .v, .v, false, 0x0, 0, true, true, true, true, false⟩
  | .vmulh _ => some ⟨2, 2, some 1, .f2, .none, .v, .v, .v, false, 0x0, 0, true, true, true, true, false⟩
  | .vmin _ => some ⟨2, 3, some 0, .f2, .none, .v, .v, .v, false, 0x0, 0, true, true, true, true, false⟩
  | .vmax _ => some ⟨2, 3, some 1, .f2, .none, .v, .v, .v, false, 0x0, 0, true, true, true, true, false⟩
  | .vand _ => some ⟨2, 4, some 0, .f2, .none, .v, .v, .v, false, 0x0, 0, true, true, true, true, false⟩
  | .vor _ => some ⟨2, 4, some 1, .f2, .none, .v, .v, .v, false, 0x0, 0, true, true, true, true, false⟩
  | .vxor _ => some ⟨2, 5, some 0, .f2, .none, .v, .v, .v, false, 0x0, 0, true, true, true, true, false⟩
  | .vandn _ => some ⟨2, 5, some 1, .f2, .none, .v, .v, .v, false, 0x0, 0, true, true, true, true, false⟩
  | .vshl _ => some ⟨2, 6, some 0, .f2, .none, .v, .v, .v, false, 0x0, 0, true, true, true, true, false⟩
  | .vshr _ => some ⟨2, 6, some 1, .f2, .none, .v, .v, .v, false, 0x0, 0, true, true, true, true, false⟩
  | .vabs _ => some ⟨2, 7, some 0, .f2, .none, .v, .v, .none, false, 0x0, 0, true, true, true, true, false⟩
  | .vneg _ => some ⟨2, 7, some 1, .f2, .none, .v, .v, .none, false, 0x0, 0, true, true, true, true, false⟩
  | .vceq _ => some ⟨2, 8, some 0, .f2, .none, .p, .v, .v, false, 0x0, 0, true, true, false, true, false⟩
  | .vcne _ => some ⟨2, 8, some 1, .f2, .none, .p, .v, .v, false, 0x0, 0, true, true, false, true, false⟩
  | .vclt _ => some ⟨2, 9, some 0, .f2, .none, .p, .v, .v, false, 0x0, 0, true, true, false, true, false⟩
  | .vcle _ => some ⟨2, 9, some 1, .f2, .none, .p, .v, .v, false, 0x0, 0, true, true, false, true, false⟩
  | .vsel _ => some ⟨2, 10, some 0, .f2, .none, .v, .v, .v, false, 0x0, 0, true, true, true, true, false⟩
  | .vmov _ => some ⟨2, 10, some 1, .f2, .none, .v, .v, .none, false, 0x0, 0, true, true, true, true, false⟩
  | .vbcast _ => some ⟨2, 11, some 0, .f2, .none, .v, .g, .none, false, 0x0, 0, true, true, true, true, false⟩
  | .vidx _ => some ⟨2, 11, some 1, .f2, .none, .v, .g, .none, false, 0x0, 0, true, true, true, true, false⟩
  | .vmac _ => some ⟨2, 12, some 0, .f2, .none, .v, .v, .v, false, 0x0, 0, true, true, true, true, false⟩
  | .vdot4 _ => some ⟨2, 12, some 1, .f2, .none, .v, .v, .v, false, 0x0, 0, true, true, true, true, false⟩
  | .vpopc _ => some ⟨2, 13, some 0, .f2, .none, .v, .v, .none, false, 0x0, 0, true, true, true, true, false⟩
  | .vclz _ => some ⟨2, 13, some 1, .f2, .none, .v, .v, .none, false, 0x0, 0, true, true, true, true, false⟩
  | .pand _ => some ⟨2, 14, some 0, .f2, .none, .p, .p, .p, false, 0x0, 0, false, false, false, false, false⟩
  | .por _ => some ⟨2, 14, some 1, .f2, .none, .p, .p, .p, false, 0x0, 0, false, false, false, false, false⟩
  | .pxor _ => some ⟨2, 15, some 0, .f2, .none, .p, .p, .p, false, 0x0, 0, false, false, false, false, false⟩
  | .pnot _ => some ⟨2, 15, some 1, .f2, .none, .p, .p, .none, false, 0x0, 0, false, false, false, false, false⟩
  | .pcnt _ => some ⟨2, 16, some 0, .f2, .none, .g, .p, .none, false, 0x0, 0, true, true, false, true, false⟩
  | .pfirst _ => some ⟨2, 16, some 1, .f2, .none, .g, .p, .none, false, 0x0, 0, true, true, false, true, false⟩
  | .vext _ => some ⟨2, 17, some 0, .f2, .none, .g, .v, .none, false, 0xff, 1, true, false, false, true, false⟩
  | .vins _ => some ⟨2, 17, some 1, .f2, .none, .v, .g, .none, false, 0xff, 1, true, false, false, true, false⟩
  | .vrsum _ => some ⟨2, 18, some 0, .f2, .none, .g, .v, .none, false, 0x0, 0, true, true, false, true, false⟩
  | .vrmax _ => some ⟨2, 18, some 1, .f2, .none, .g, .v, .none, false, 0x0, 0, true, true, false, true, false⟩
  | .vrmin _ => some ⟨2, 19, some 0, .f2, .none, .g, .v, .none, false, 0x0, 0, true, true, false, true, false⟩
  | .vrand _ => some ⟨2, 19, some 1, .f2, .none, .g, .v, .none, false, 0x0, 0, true, true, false, true, false⟩
  | .vcvtw _ => some ⟨2, 20, some 0, .f2, .none, .v, .v, .none, false, 0x1, 1, true, true, true, true, false⟩
  | .vcvtn _ => some ⟨2, 20, some 1, .f2, .none, .v, .v, .none, false, 0x1, 1, true, true, true, true, false⟩
  | .vfadd _ => some ⟨3, 0, some 0, .f2, .none, .v, .v, .v, false, 0x0, 0, true, true, true, true, false⟩
  | .vfsub _ => some ⟨3, 0, some 1, .f2, .none, .v, .v, .v, false, 0x0, 0, true, true, true, true, false⟩
  | .vfmul _ => some ⟨3, 1, some 0, .f2, .none, .v, .v, .v, false, 0x0, 0, true, true, true, true, false⟩
  | .vfdiv _ => some ⟨3, 1, some 1, .f2, .none, .v, .v, .v, false, 0x0, 0, true, true, true, true, false⟩
  | .vfma _ => some ⟨3, 2, some 0, .f2, .none, .v, .v, .v, false, 0x0, 0, true, true, true, true, false⟩
  | .vfnma _ => some ⟨3, 2, some 1, .f2, .none, .v, .v, .v, false, 0x0, 0, true, true, true, true, false⟩
  | .vfmin _ => some ⟨3, 3, some 0, .f2, .none, .v, .v, .v, false, 0x0, 0, true, true, true, true, false⟩
  | .vfmax _ => some ⟨3, 3, some 1, .f2, .none, .v, .v, .v, false, 0x0, 0, true, true, true, true, false⟩
  | .vfminp _ => some ⟨3, 4, some 0, .f2, .none, .v, .v, .v, false, 0x0, 0, true, true, true, true, false⟩
  | .vfmaxp _ => some ⟨3, 4, some 1, .f2, .none, .v, .v, .v, false, 0x0, 0, true, true, true, true, false⟩
  | .vfsqrt _ => some ⟨3, 5, some 0, .f2, .none, .v, .v, .none, false, 0x0, 0, true, true, true, true, false⟩
  | .vfrsqrt _ => some ⟨3, 5, some 1, .f2, .none, .v, .v, .none, false, 0x0, 0, true, true, true, true, false⟩
  | .vfexp2 _ => some ⟨3, 6, some 0, .f2, .none, .v, .v, .none, false, 0x0, 0, true, true, true, true, false⟩
  | .vflog2 _ => some ⟨3, 6, some 1, .f2, .none, .v, .v, .none, false, 0x0, 0, true, true, true, true, false⟩
  | .vfrecip _ => some ⟨3, 7, some 0, .f2, .none, .v, .v, .none, false, 0x0, 0, true, true, true, true, false⟩
  | .vftanh _ => some ⟨3, 7, some 1, .f2, .none, .v, .v, .none, false, 0x0, 0, true, true, true, true, false⟩
  | .vfclass _ => some ⟨3, 11, some 1, .f2, .none, .v, .v, .none, false, 0x0, 0, true, true, true, true, false⟩
  | .vfabs _ => some ⟨3, 14, some 0, .f2, .none, .v, .v, .none, false, 0x0, 0, true, true, true, true, false⟩
  | .vfneg _ => some ⟨3, 14, some 1, .f2, .none, .v, .v, .none, false, 0x0, 0, true, true, true, true, false⟩
  | .vscale _ => some ⟨3, 15, some 0, .f2, .none, .v, .v, .v, false, 0x0, 0, true, true, true, true, false⟩
  | .vfsig _ => some ⟨3, 16, some 0, .f2, .none, .v, .v, .none, false, 0x0, 0, true, true, true, true, false⟩
  | .vfgelu _ => some ⟨3, 16, some 1, .f2, .none, .v, .v, .none, false, 0x0, 0, true, true, true, true, false⟩
  | .vfceq _ => some ⟨3, 8, some 0, .f2, .none, .p, .v, .v, false, 0x0, 0, true, true, false, true, false⟩
  | .vfclt _ => some ⟨3, 8, some 1, .f2, .none, .p, .v, .v, false, 0x0, 0, true, true, false, true, false⟩
  | .vfcle _ => some ⟨3, 9, some 0, .f2, .none, .p, .v, .v, false, 0x0, 0, true, true, false, true, false⟩
  | .vfcun _ => some ⟨3, 9, some 1, .f2, .none, .p, .v, .v, false, 0x0, 0, true, true, false, true, false⟩
  | .vcvt _ => some ⟨3, 10, some 0, .f2, .none, .v, .v, .none, false, 0x7f, 1, true, true, true, true, false⟩
  | .vcvti _ => some ⟨3, 10, some 1, .f2, .none, .v, .v, .none, false, 0x7f, 1, true, true, true, true, false⟩
  | .vcvtf _ => some ⟨3, 11, some 0, .f2, .none, .v, .v, .none, false, 0x7f, 1, true, true, true, true, false⟩
  | .vquant _ => some ⟨3, 12, some 0, .f2, .none, .v, .v, .g, false, 0x7b, 1, true, true, true, true, false⟩
  | .vdequant _ => some ⟨3, 12, some 1, .f2, .none, .v, .v, .g, false, 0x7b, 1, true, true, true, true, false⟩
  | .vfrsum _ => some ⟨3, 13, some 0, .f2, .none, .g, .v, .none, false, 0x0, 0, true, true, false, true, false⟩
  | .vfrmax _ => some ⟨3, 13, some 1, .f2, .none, .g, .v, .none, false, 0x0, 0, true, true, false, true, false⟩
  | .vfrnd _ => some ⟨3, 15, some 1, .f2, .none, .v, .v, .none, false, 0x7, 1, true, true, true, true, false⟩
  | .vld _ => some ⟨4, 0, some 0, .f2, .load, .v, .g, .none, false, 0x7ffffff, 3, true, true, true, true, false⟩
  | .vst _ => some ⟨4, 0, some 1, .f2, .store, .v, .g, .none, false, 0x7ffffff, 3, true, true, true, true, true⟩
  | .vlds _ => some ⟨4, 1, some 0, .f2, .load, .v, .g, .g, false, 0x7ffffff, 3, true, true, true, true, false⟩
  | .vsts _ => some ⟨4, 1, some 1, .f2, .store, .v, .g, .g, false, 0x7ffffff, 3, true, true, true, true, true⟩
  | .vldx _ => some ⟨4, 2, some 0, .f2, .load, .v, .g, .v, false, 0x7ffffff, 3, true, true, true, true, false⟩
  | .vstx _ => some ⟨4, 2, some 1, .f2, .store, .v, .g, .v, false, 0x7ffffff, 3, true, true, true, true, true⟩
  | .vldFe _ => some ⟨4, 3, some 0, .f2, .load, .v, .g, .none, false, 0x7ffffff, 3, true, true, true, true, false⟩
  | .vstFs _ => some ⟨4, 3, some 1, .f2, .store, .v, .g, .none, false, 0x7ffffff, 3, true, true, true, true, true⟩
  | .vldp _ => some ⟨4, 11, some 0, .f2, .load, .p, .g, .none, false, 0x7ffffff, 3, false, false, false, false, false⟩
  | .vstp _ => some ⟨4, 11, some 1, .f2, .store, .p, .g, .none, false, 0x7ffffff, 3, false, false, false, false, true⟩
  | .vperm _ => some ⟨4, 4, some 0, .f2, .none, .v, .v, .v, false, 0x0, 0, true, true, true, true, false⟩
  | .vperm2 _ => some ⟨4, 4, some 1, .f2, .none, .v, .v, .v, false, 0x0, 0, true, true, true, true, false⟩
  | .vsld _ => some ⟨4, 5, some 0, .f2, .none, .v, .v, .v, false, 0x3ff, 2, true, true, true, true, false⟩
  | .vsrd _ => some ⟨4, 5, some 1, .f2, .none, .v, .v, .v, false, 0x3ff, 2, true, true, true, true, false⟩
  | .vzip _ => some ⟨4, 6, some 0, .f2, .none, .v, .v, .v, false, 0x1, 1, true, true, true, true, false⟩
  | .vunzip _ => some ⟨4, 6, some 1, .f2, .none, .v, .v, .v, false, 0x1, 1, true, true, true, true, false⟩
  | .vcomp _ => some ⟨4, 7, some 0, .f2, .none, .v, .v, .none, false, 0x0, 0, true, true, true, true, false⟩
  | .vexp _ => some ⟨4, 7, some 1, .f2, .none, .v, .v, .none, false, 0x0, 0, true, true, true, true, false⟩
  | .gget _ => some ⟨4, 8, some 0, .f2, .none, .v, .v, .none, false, 0x7, 1, false, false, false, true, false⟩
  | .gput _ => some ⟨4, 8, some 1, .f2, .none, .v, .v, .none, false, 0x7, 1, false, false, false, true, false⟩
  | .gsum _ => some ⟨4, 9, some 0, .f2, .none, .v, .v, .none, false, 0x0, 0, true, true, true, true, false⟩
  | .gmax _ => some ⟨4, 9, some 1, .f2, .none, .v, .v, .none, false, 0x0, 0, true, true, true, true, false⟩
  | .gbcast _ => some ⟨4, 10, some 0, .f2, .none, .v, .v, .none, false, 0x3, 1, true, true, true, true, false⟩
  | .vlut _ => some ⟨4, 12, some 0, .f2, .none, .v, .v, .v, false, 0x0, 0, true, true, true, true, false⟩
  | .vlutb _ => some ⟨4, 12, some 1, .f2, .none, .v, .v, .v, false, 0x0, 0, true, true, true, true, false⟩
  | .hire _ => some ⟨5, 0, some 0, .f2, .engine, .g, .g, .none, false, 0x0, 0, false, false, false, false, true⟩
  | .hireR _ => some ⟨5, 0, some 1, .f2, .engine, .g, .g, .none, false, 0x0, 0, false, false, false, false, true⟩
  | .hwait _ => some ⟨5, 1, some 0, .f2, .load, .g, .g, .none, false, 0x0, 0, false, false, false, false, true⟩
  | .hpoll _ => some ⟨5, 1, some 1, .f2, .load, .g, .g, .none, false, 0x0, 0, false, false, false, false, true⟩
  | .copy _ => some ⟨5, 2, some 0, .f2, .engine, .g, .g, .none, false, 0x0, 0, false, false, false, false, true⟩
  | .cwait _ => some ⟨5, 3, some 0, .f2, .load, .g, .g, .none, false, 0x0, 0, false, false, false, false, true⟩
  | .cpoll _ => some ⟨5, 3, some 1, .f2, .load, .g, .g, .none, false, 0x0, 0, false, false, false, false, true⟩
  | .swait _ => some ⟨5, 5, some 0, .f2, .load, .g, .g, .none, false, 0x0, 0, false, false, false, false, true⟩
  | .spoll _ => some ⟨5, 5, some 1, .f2, .load, .g, .g, .none, false, 0x0, 0, false, false, false, false, true⟩
  | .efence _ => some ⟨5, 6, some 0, .f2, .load, .g, .g, .none, false, 0x0, 0, false, false, false, false, true⟩
  | .ecnt _ => some ⟨5, 6, some 1, .f2, .none, .g, .g, .none, false, 0x0, 0, false, false, false, false, true⟩
  | .cancel _ => some ⟨5, 8, some 0, .f2, .engine, .g, .g, .none, false, 0x0, 0, false, false, false, false, true⟩
  | .hstat _ => some ⟨5, 8, some 1, .f2, .none, .g, .g, .none, false, 0x0, 0, false, false, false, false, true⟩
  | .copyR _ => some ⟨5, 2, some 1, .f2, .engine, .g, .g, .g, false, 0x0, 0, false, false, false, false, true⟩
  | .satt _ => some ⟨5, 4, some 0, .f2, .engine, .g, .g, .none, false, 0x1, 1, false, false, false, false, true⟩
  | .sblk _ => some ⟨5, 4, some 1, .f2, .engine, .g, .g, .g, false, 0x0, 0, false, false, false, false, true⟩
  | .tapsel _ => some ⟨5, 7, some 0, .f2, .none, .g, .g, .none, false, 0x7, 1, false, false, false, false, true⟩
  | .amoadd _ => some ⟨6, 0, some 0, .f2, .atomic, .g, .g, .g, true, 0x7ffffff, 3, false, false, false, false, true⟩
  | .amoswp _ => some ⟨6, 0, some 1, .f2, .atomic, .g, .g, .g, true, 0x7ffffff, 3, false, false, false, false, true⟩
  | .amoand _ => some ⟨6, 1, some 0, .f2, .atomic, .g, .g, .g, true, 0x7ffffff, 3, false, false, false, false, true⟩
  | .amoor _ => some ⟨6, 1, some 1, .f2, .atomic, .g, .g, .g, true, 0x7ffffff, 3, false, false, false, false, true⟩
  | .amomin _ => some ⟨6, 2, some 0, .f2, .atomic, .g, .g, .g, true, 0x7ffffff, 3, false, false, false, false, true⟩
  | .amomax _ => some ⟨6, 2, some 1, .f2, .atomic, .g, .g, .g, true, 0x7ffffff, 3, false, false, false, false, true⟩
  | .cas _ => some ⟨6, 3, some 0, .f2, .atomic, .g, .g, .g, true, 0x7ffffff, 3, false, false, false, false, true⟩
  | .casp _ => some ⟨6, 3, some 1, .f2, .atomic, .g, .g, .g, false, 0x7ffffff, 3, false, false, false, false, true⟩
  | .send _ => some ⟨6, 5, some 0, .f2, .send, .g, .g, .none, false, 0xf, 1, false, false, false, false, true⟩
  | .recv _ => some ⟨6, 6, some 0, .f2, .load, .g, .g, .none, false, 0xf, 1, false, false, false, false, true⟩
  | .recvp _ => some ⟨6, 6, some 1, .f2, .load, .g, .g, .none, false, 0xf, 1, false, false, false, false, true⟩
  | .callat _ => some ⟨6, 7, some 0, .f2, .send, .g, .g, .g, false, 0x0, 0, false, false, false, false, true⟩
  | .retto _ => some ⟨6, 7, some 1, .f2, .send, .g, .g, .none, false, 0x0, 0, false, false, false, false, true⟩
  | .dqpush _ => some ⟨6, 8, some 0, .f2, .send, .g, .g, .none, false, 0x0, 0, false, false, false, false, true⟩
  | .dqpop _ => some ⟨6, 8, some 1, .f2, .load, .g, .g, .none, false, 0x0, 0, false, false, false, false, true⟩
  | .dqsteal _ => some ⟨6, 9, some 0, .f2, .load, .g, .g, .none, false, 0x0, 0, false, false, false, false, true⟩
  | .dqlen _ => some ⟨6, 9, some 1, .f2, .none, .g, .g, .none, false, 0x0, 0, false, false, false, false, true⟩
  | .start _ => some ⟨6, 10, some 0, .f2, .send, .g, .g, .none, false, 0x0, 0, false, false, false, false, true⟩
  | .join _ => some ⟨6, 10, some 1, .f2, .load, .g, .g, .none, false, 0x0, 0, false, false, false, false, true⟩
  | .bar _ => some ⟨6, 11, some 0, .f2, .none, .g, .g, .none, false, 0x1f, 1, false, false, false, false, true⟩
  | .barq _ => some ⟨6, 11, some 1, .f2, .none, .g, .g, .g, false, 0x1f, 1, false, false, false, false, true⟩
  | .waitb _ => some ⟨6, 12, some 0, .f2, .load, .g, .g, .none, false, 0x7ffffff, 3, false, false, false, false, true⟩
  | .setb _ => some ⟨6, 12, some 1, .f2, .store, .g, .g, .none, false, 0x7ffffff, 3, false, false, false, false, true⟩
  | .lcnt _ => some ⟨6, 13, some 0, .f2, .none, .g, .g, .none, false, 0x0, 0, false, false, false, false, true⟩
  | .lcancel _ => some ⟨6, 13, some 1, .f2, .none, .g, .g, .none, false, 0x0, 0, false, false, false, false, true⟩
  | .mfcs _ => some ⟨7, 1, some 0, .f2, .none, .g, .g, .none, false, 0x7f, 1, false, false, false, false, true⟩
  | .mtcs _ => some ⟨7, 1, some 1, .f2, .none, .g, .g, .none, false, 0x7f, 1, false, false, false, false, true⟩
  | .tlbi _ => some ⟨7, 2, some 0, .f2, .none, .g, .g, .none, false, 0x3, 1, false, false, false, false, true⟩
  | .bankcfg _ => some ⟨7, 3, some 0, .f2, .none, .g, .g, .none, false, 0x0, 0, false, false, false, false, true⟩
  | .bankq _ => some ⟨7, 3, some 1, .f2, .none, .g, .g, .none, false, 0x1f, 1, false, false, false, false, true⟩
  | .probew _ => some ⟨7, 4, some 0, .f2, .none, .g, .g, .none, false, 0x0, 0, false, false, false, false, true⟩
  | .prober _ => some ⟨7, 4, some 1, .f2, .none, .g, .g, .none, false, 0x0, 0, false, false, false, false, true⟩
  | .pjr _ => some ⟨7, 5, some 0, .f2, .none, .g, .g, .none, false, 0x0, 0, false, false, false, false, true⟩
  | .pjclr _ => some ⟨7, 5, some 1, .f2, .none, .g, .g, .none, false, 0x0, 0, false, false, false, false, true⟩
  | .cseal _ => some ⟨7, 6, some 0, .f2, .none, .g, .g, .none, false, 0x0, 0, false, false, false, false, true⟩
  | .cunseal _ => some ⟨7, 6, some 1, .f2, .none, .g, .g, .none, false, 0x0, 0, false, false, false, false, true⟩
  | .lease _ => some ⟨7, 7, some 0, .f2, .none, .g, .g, .none, false, 0x0, 0, false, false, false, false, true⟩
  | .leaseq _ => some ⟨7, 7, some 1, .f2, .none, .g, .g, .none, false, 0x0, 0, false, false, false, false, true⟩
  | .nop => some ⟨0, 26, some 0, .fz, .none, .none, .none, .none, false, 0x0, 0, false, false, false, false, false⟩
  | .doneUnit => some ⟨0, 26, some 1, .fz, .none, .none, .none, .none, false, 0x0, 0, false, false, false, false, true⟩
  | .brk => some ⟨0, 26, some 2, .fz, .none, .none, .none, .none, false, 0x0, 0, false, false, false, false, true⟩
  | .ret => some ⟨0, 26, some 3, .fz, .none, .none, .none, .none, false, 0x0, 0, false, false, false, false, false⟩
  | .sched => some ⟨0, 26, some 4, .fz, .none, .none, .none, .none, false, 0x0, 0, false, false, false, false, true⟩
  | .yield => some ⟨0, 26, some 5, .fz, .none, .none, .none, .none, false, 0x0, 0, false, false, false, false, true⟩
  | .gsync => some ⟨4, 10, some 1, .f2, .none, .none, .none, .none, false, 0x0, 0, false, false, false, true, false⟩
  | .sattHandle => some ⟨5, 4, some 0, .f2, .engine, .g, .g, .none, false, 0x1, 1, false, false, false, false, true⟩
  | .tapst => some ⟨5, 7, some 1, .f2, .none, .g, .none, .none, false, 0x7, 1, false, false, false, false, true⟩
  | .fence => some ⟨6, 4, none, .fz, .none, .none, .none, .none, false, 0x0, 0, false, false, false, false, true⟩
  | .sendr => some ⟨6, 5, some 1, .f2, .send, .g, .none, .none, false, 0x0, 0, false, false, false, false, true⟩
  | .eret => some ⟨7, 0, some 0, .fz, .none, .none, .none, .none, false, 0x0, 0, false, false, false, false, true⟩
  | .wfi => some ⟨7, 0, some 1, .fz, .none, .none, .none, .none, false, 0x0, 0, false, false, false, false, true⟩
  | .rcflush => some ⟨7, 0, some 2, .fz, .none, .none, .none, .none, false, 0x0, 0, false, false, false, false, true⟩
  | .l1inv => some ⟨7, 0, some 3, .fz, .none, .none, .none, .none, false, 0x0, 0, false, false, false, false, true⟩
  | .l1wb => some ⟨7, 0, some 4, .fz, .none, .none, .none, .none, false, 0x0, 0, false, false, false, false, true⟩
  | .tlbia => some ⟨7, 2, some 1, .f2, .none, .g, .none, .none, false, 0x3, 1, false, false, false, false, true⟩
  | _ => none

end Sys2Proof
end

