-- ==== Sys2Proof/Machine/Types.lean ====
section
/-! DEFINITION. The parts of the machine state: contexts, cores, the network, engines, interfaces, dies and links.
Everything is plain data. -/

namespace Sys2Proof.Machine

/-- A g register or a memory granule with its C bit: 128 data bits and one tag bit (04 R73, Table 39). -/
structure GReg where
  data : BitVec 128
  tag : Bool
  deriving DecidableEq, Repr

/-- The null register value (04 R73). -/
def GReg.null : GReg := ⟨0, false⟩

/-- A data result: bits [63:0], with zeros above and tag 0 (04 R73). -/
def GReg.ofWord (w : Word) : GReg := ⟨w.setWidth 128, false⟩

/-- Helper context states (04 Table 34). -/
inductive CtxSt where
  | free | live | stopped
  deriving DecidableEq, Repr

/-- The register that a result goes to. -/
inductive Dest where
  | none | g (r : Nat) | v (r : Nat) | p (r : Nat)
  deriving DecidableEq, Repr

/-- A register value that a result brings. -/
inductive RVal where
  | none | g (x : GReg) | v (x : VReg) | p (x : PredReg)
  deriving DecidableEq, Repr

/-- The width-independent functions of the atomics (08 Table 89). -/
inductive AmoFn where
  | add | swp | and | or | smin | smax | cas
  deriving DecidableEq, Repr

/-- What a full/empty load does with F (08 Table 86). -/
inductive FeMode where
  | plain | wait | waitClear
  deriving DecidableEq, Repr

/-- One element of a vector access: its first bit in the register, its width in bits, where its byte lies, and its
virtual address (08 R179). A 4-bit element names the byte and, by `bit`, its nibble. -/
structure Elem where
  lane : Nat
  width : Nat
  loc : Nat
  bit : Nat
  va : Word
  deriving DecidableEq, Repr

/-- One access to memory as its home performs it (08 R174 to R182, 09 R203). -/
inductive AccOp where
  | load (n : Nat) (fe : FeMode) (slot : Bool)
  | loadCap (lc : Bool) (slot : Bool)
  | loadFlags
  | store (n : Nat) (v : BitVec 64) (setF waitE : Bool)
  | storeCap (v : GReg)
  | nibble (high : Bool) (v : BitVec 4)
  | amo (f : AmoFn) (n : Nat) (v cmp : Word)
  | casp (cmp new : GReg) (lc : Bool)
  | setb (v : Word)
  | waitb (mask : Word)
  | vload (es : List Elem) (fe : FeMode) (base : VReg)
  | vstore (es : List Elem) (v : VReg) (setF : Bool)
  | pload
  | pstore (v : PredReg)
  deriving DecidableEq, Repr

/-- A line held in the store gather buffer (08 R167, R168). -/
structure Gather where
  ctx : Nat
  loc : Nat
  va : Word
  remote : Bool
  mask : BitVec 64
  data : BitVec 512
  pc : Word
  lid : Nat
  eng : Bool
  id : Nat
  deriving DecidableEq, Repr

/-- An access under way: the operation, its location and virtual address, the requester and its outstanding result,
the PC and launch of the instruction, and the fence sets it lies in (08 R174, 10 R211). `lease` is the generation a
posted store carries and `pgen` that of the sender's pen (11 R233, 01 R31). `held` are the held lines of its context that a
load reads through (08 R167). -/
structure Access where
  op : AccOp
  loc : Nat
  va : Word
  core : Nat
  ctx : Nat
  out : Nat
  pc : Word
  lid : Nat
  lease : Nat
  pgen : Nat
  eng : Bool
  held : List Gather
  deriving DecidableEq, Repr

/-- Where a block of bytes written by `recv`, `dqpop` and like forms goes: pieces of consecutive locations. -/
abbrev Segs := List (Nat × Nat)

/-- What an outstanding result waits for (09 R184). -/
inductive Wait where
  | ready (v : RVal) (flags : BitVec 5)
  | away
  | cwait (h : Nat)
  | swait (h : Nat)
  | satt (cmd : Nat)
  | efence (mask : BitVec 3)
  | recv (ch : Nat) (segs : Segs) (tags : Bool)
  | steal (segs : Segs) (tags : Bool)
  | schedSteal
  | bar (withMax : Bool) (pkg : Bool) (id : Nat) (n : Nat) (v : Word)
  | gang
  | gput (v : Bool)
  | purge (gen : Nat) (ids : List Nat)
  | flush
  deriving DecidableEq, Repr

/-- An outstanding result of a context (04 R82, 09 R184), or an operation of its own that waits at a home. `sup` says
that a later instruction has written the destination and `mark` that a switch marker waits for it. `sets` are the fence sets L, S, M, E of the operation and `touch` the
bytes it touches (10 R211, R212). -/
structure Outst where
  id : Nat
  dest : Dest
  sup : Bool
  mark : Bool
  wait : Wait
  sets : BitVec 4
  touch : List (Nat × Nat)
  pc : Word
  deriving DecidableEq, Repr

/-- An order not yet discharged: operations of `succ` wait for the operations `ids` (09 R205, 10 R212, R213). `redo` gives
the addresses of a fence and of the instruction after it (10 R219). -/
structure Order where
  succ : BitVec 4
  ids : List Nat
  redo : Option (Word × Word)
  deriving DecidableEq, Repr

/-- A trap as it is raised (11 R222 to R224). -/
structure Trap where
  code : Nat
  ctx : Nat
  async : Bool
  pc : Word
  ilen : Nat
  addr : Word
  info : Word
  deriving DecidableEq, Repr

/-- What a gang member brings to a round (07 R158). -/
inductive GangOp where
  | sum | max | bcast (slot : Nat) | sync
  deriving DecidableEq, Repr

/-- A gang contribution: the operation, the element type, predicate and source of its member, its destination, and what
the destination held at issue (07 R140). -/
structure Gang where
  op : GangOp
  et : BitVec 3
  z : Bool
  pred : PredReg
  src : VReg
  old : VReg
  dst : Nat
  out : Nat
  deriving DecidableEq, Repr

/-- How a helper's last unit ended (09 R200). -/
inductive Ended where
  | none | done | cancelled
  deriving DecidableEq, Repr

/-- A task record: 96 bytes as six granules (09 Table 92). -/
structure Rec where
  header : GReg
  entry : GReg
  args : List GReg
  deriving DecidableEq, Repr

/-- The control registers of a context (04 Tables 44 to 46). -/
structure CtxRegs where
  cm : Bool
  warn : Word
  warnpc : Word
  fmta : Word
  fmtb : Word
  scla : GReg
  sclb : GReg
  fpm : Word
  fflags : Word
  budget : Word
  cyc : Word
  tapset : Word
  deriving DecidableEq, Repr

/-- One context (04 R71 to R75, R79). `gang` are its collectives whose rounds are not complete, oldest first, and `gangSkip`
the number of open rounds that had begun before it started (07 R158). -/
structure Ctx where
  st : CtxSt
  g : Store GReg
  v : Store VReg
  p : Store PredReg
  pcc : GReg
  nullG : BitVec 32
  nullV : BitVec 32
  cr : CtxRegs
  outs : List Outst
  orders : List Order
  parked : Bool
  yielding : List Nat
  traps : List Trap
  hflts : List Trap
  gang : List Gang
  gangSkip : Nat
  task : BitVec 128
  ended : Ended
  deriving DecidableEq, Repr

/-- A message: its header flit and its body granules with their side-band C bits (01 R17, Table 9). `void` marks a task
message of a cancelled level (01 R28), and `pois` the body granules that carry poison (11 R228). -/
structure Msg where
  header : BitVec 256
  body : List GReg
  void : Bool
  pois : List Bool
  deriving DecidableEq, Repr

/-- What a FIFO bank holds (08 R164). -/
inductive Item where
  | msg (m : Msg)
  | pad (size : Nat)
  deriving DecidableEq, Repr

/-- Bank roles (08 Table 81). -/
inductive Role where
  | way | pad | fifo
  deriving DecidableEq, Repr

/-- One local-store bank (08 R160 to R164, 09 R201, 11 Table 125). -/
structure Bank where
  role : Role
  head : Nat
  tail : Nat
  used : Nat
  items : List Item
  pass : Nat
  boost : Nat
  chg : Bool
  deriving DecidableEq, Repr

/-- A posted-store journal entry (08 Table 84); `data` are its bytes and `id` its operation. -/
structure Journal where
  st : Nat
  mask : BitVec 64
  data : BitVec 512
  pc : Word
  line : Word
  loc : Nat
  reason : Nat
  ctx : Nat
  op : Option AccOp
  id : Nat
  lid : Nat
  eng : Bool
  deriving DecidableEq, Repr

/-- Reply-slot states (09 R196). -/
inductive SlotSt where
  | free | busy | orphan
  deriving DecidableEq, Repr

/-- A reply slot: its state, calling context and launch (09 R196, R198). -/
structure ReplySlot where
  st : SlotSt
  ctx : Nat
  lid : Nat
  deriving DecidableEq, Repr

/-- A completion handle (01 R24): its context, its command and the final status once the command has completed. -/
structure Handle where
  used : Bool
  ctx : Nat
  cmd : Nat
  done : Option Word
  orphan : Bool
  deriving DecidableEq, Repr

/-- A counted-command counter (15 R278). -/
structure Counter where
  n : Nat
  err : Bool
  deriving DecidableEq, Repr

/-- The states of an entry of the register cache (04 Table 37). A register that its null map holds and that has no entry is
evicted, and one that an outstanding result goes to is pending. -/
inductive EntrySt where
  | live | drowsy
  deriving DecidableEq, Repr

/-- An entry of the register cache (04 R79): its context and register, its state, and whether it is dirty. -/
structure Entry where
  ctx : Nat
  reg : Dest
  st : EntrySt
  dirty : Bool
  deriving DecidableEq, Repr

/-- A cached translation (08 R173): the leaf, its level and where the leaf entry lies. -/
structure TlbEntry where
  kernel : Bool
  vif : Nat
  vpn : Nat
  level : Nat
  leaf : Word
  eaddr : Nat
  deriving DecidableEq, Repr

/-- The trap registers and the other supervisor registers of a core (04 Table 44, 11 Table 116). -/
structure CoreRegs where
  evec : GReg
  ecause : Word
  epc : Word
  eadr : Word
  erpc : Word
  eiter : Word
  einfo : Word
  lease : BitVec 16
  ctxbase : Word
  deriving DecidableEq, Repr

/-- One core. `entries` are those of its register cache, the most recently used first. -/
structure Core where
  ctxs : Store Ctx
  cr : CoreRegs
  held : Bool
  evecSet : Bool
  pending : List Trap
  lastIssuer : Nat
  banks : Store Bank
  chancfg : Word
  drops : Store Nat
  deque : List Rec
  reported : Store Nat
  slots : Store ReplySlot
  handles : Store Handle
  counters : Store Counter
  journal : Store Journal
  gather : List Gather
  taken : Option Nat
  utlb : List TlbEntry
  entries : List Entry
  flushing : List (Nat × Dest)
  injectors : Store Word
  startHeld : Bool
  waiting : Bool
  deriving DecidableEq, Repr

/-- A packet of the networks (01 R17, 08 R169, R174, 09 R188, R198, 15 R272). -/
inductive Body where
  | request (a : Access) (nacked : Bool)
  | refusal (core ctx out : Nat) (va : Word) (kind : Nat) (poison : Option Nat)
  | posted (core idx : Nat) (a : Access)
  | postedAck (core idx : Nat)
  | postedRefused (core idx : Nat) (reason : Nat)
  | msg (core ctx : Nat) (m : Msg) (cap : Word) (pgen : Nat) (nacks : Nat) (st : Nat) (pc : Word) (lid : Nat)
  | record (core ctx out : Nat) (header : BitVec 256) (r : Rec) (dst : Word) (pgen : Nat) (nacks : Nat) (st : Nat) (slot : Nat)
  | reply (core ctx : Nat) (dst : Word) (v : GReg) (lid : Nat) (pgen : Nat)
  | cancel (header : BitVec 256) (cls cmd core ctx out : Nat)
  | resume (header : BitVec 256) (cmd core ctx out : Nat)
  deriving DecidableEq, Repr

/-- A packet with its number. -/
structure Pkt where
  id : Nat
  body : Body
  deriving DecidableEq, Repr

/-- A translated piece of a destination: its first virtual address, its size and its first location. -/
structure Page where
  va : Nat
  size : Nat
  pa : Nat
  deriving DecidableEq, Repr

/-- Where a hire stands: on its way, accepted with slabs to compute, computed, landing (its deferred pages translated),
parked, or resumed (15 R274, 16 R279 to R288). -/
inductive HireStage where
  | inbox | queued | computed | landing | parked | resumed
  deriving DecidableEq, Repr

/-- A hire at an array (15 R262 to R274, 16 R279 to R288, 19 R294 to R304). `order` numbers its acceptance and `free` the
moment at which it became free to land, 0 before that. `array` is the bench whose array computed it. The `buf` and `scl`
lists are the operand buffers of the slab under way, `acc` the accumulators by row, and `poisR` and `poisC` say which
rows of A and of B had a poisoned granule. `park` is 1 more than the park slot that it holds. -/
structure Hire where
  id : Nat
  core : Nat
  ctx : Nat
  handle : Option Nat
  lid : Nat
  pgen : Nat
  header : BitVec 256
  a : GReg
  b : GReg
  d : GReg
  geom : Word
  hctl : Word
  scla : GReg
  sclb : GReg
  fmta : BitVec 5
  fmtb : BitVec 5
  tapset : BitVec 36
  stage : HireStage
  order : Nat
  free : Nat
  array : Nat
  slab : Nat
  retried : Bool
  loaded : Bool
  bufA : List (List Byte)
  bufB : List (List Byte)
  sclA : List (List Byte)
  sclB : List (List Byte)
  acc : List (List Word)
  poisR : List Bool
  poisC : List Bool
  pages : List Page
  deferred : List Nat
  rows : Nat
  fk : Nat
  poi : Bool
  tev : Bool
  park : Nat
  deriving DecidableEq, Repr

/-- One bench's array (16 R279 to R292): ARBCFG, `none` for its reset value, the hires of the bench's own masters, the
arbiter's `cur` and `left`, and the hire whose slab the array computes. -/
structure Bench where
  arbcfg : Option Word
  hires : List Hire
  cur : Option Nat
  left : Nat
  busy : Option Nat
  deriving DecidableEq, Repr

/-- A byte that a copy command is to land, with the poison of its source and the element that it belongs to (10 R211). -/
structure Landing where
  loc : Nat
  byte : Byte
  pois : Bool
  elem : Nat
  deriving DecidableEq, Repr

/-- A copy command at an engine (13 R248 to R260). `pos` is the first element not landed, `code` a final status that
COPY_COMPLETE is still to report, `buf` the bytes of granules that it has not yet landed, `rd` the granules that it has read,
with their poison, `round` the round of a collective and `p` the number of its members. -/
structure Copy where
  id : Nat
  core : Nat
  ctx : Nat
  handle : Option Nat
  lid : Nat
  pgen : Nat
  header : BitVec 256
  desc : List GReg
  skip : Nat
  accepted : Bool
  pages : List Page
  pos : Nat
  fk : Nat
  poi : Bool
  buf : List Landing
  rd : List (Nat × GReg × Bool)
  code : Nat
  round : Nat
  p : Nat
  deriving DecidableEq, Repr

/-- A stack-engine command (23 R348 to R359): form 0 is `satt` with a response, 1 with a handle, and 2 is `sblk`. `rows`,
`stats` and `pois` are the results of the queries, once it has been computed. -/
structure Stk where
  id : Nat
  core : Nat
  ctx : Nat
  form : Nat
  handle : Option Nat
  out : Nat
  lid : Nat
  pgen : Nat
  header : BitVec 256
  desc : List GReg
  idx : Nat
  value : Word
  pa : Nat
  accepted : Bool
  started : Bool
  pages : List Page
  rows : List (List (BitVec 16))
  stats : List (BitVec 32)
  pois : List Bool
  len : Nat
  acn : Nat
  fk : Nat
  poi : Bool
  deriving DecidableEq, Repr

/-- Level states (20 Table 191). -/
inductive LvlSt where
  | free | opened | complete | cancelling
  deriving DecidableEq, Repr

/-- A level slot (20 Table 191), with what its launch holds: whether the root task is still to be accepted, the
uniform capability, the pen, the pinned specialisation entry and the kernel record. -/
structure Level where
  st : LvlSt
  kind : Nat
  pv : Bool
  parent : Nat
  sealed : Bool
  cxl : Bool
  serial : Nat
  root : Bool
  quiet : Bool
  uniform : GReg
  pen : Nat
  spec : Option Nat
  deriving DecidableEq, Repr

/-- A queued trigger (20 R322): from a register with its patch list, or from a stream with its pairs and the offset of its
command's header. -/
structure Trig where
  gid : Nat
  reg : Bool
  list : Word
  pairs : List (BitVec 32 × BitVec 32)
  eofs : BitVec 32
  deriving DecidableEq, Repr

/-- A graph (20 R320, R322): what was uploaded, the trigger that runs, the list as that trigger read it, and the entry
that it launches next. -/
structure Graph where
  up : Bool
  slot : Nat
  pv : Bool
  parent : Nat
  list : Word
  nl : Nat
  cur : Option Trig
  entries : List (List (BitVec 32))
  next : Nat
  deriving DecidableEq, Repr

/-- A probe-table entry image of six granules (19 Table 180). -/
abbrev Probe := List GReg

/-- A barrier (09 R202, 24 R374): its generation, the count that the open round's first arrival fixed, and what other
packages have forwarded to it. The package's own arrivals are the outstanding results that wait at it. -/
structure Barrier where
  gen : Nat
  n : Option Nat
  far : Nat
  farMax : Word
  deriving DecidableEq, Repr

/-- A pen (01 R30, 20 R323): its rectangle, its generations and its barriers. -/
structure Pen where
  x : Nat
  y : Nat
  w : Nat
  h : Nat
  pgen : Nat
  gen : BitVec 16
  bars : Store Barrier
  deriving DecidableEq, Repr

/-- What a sharing interface saves of a core (09 R208): the core, and its 128 KiB local store with marks. -/
structure Saved where
  core : Core
  mem : Store Byte
  gran : Store (BitVec 3)
  deriving DecidableEq, Repr

/-- A nested INDIRECT buffer: its address, its length in words and the offset of the next word (20 R312). -/
structure Indirect where
  addr : Word
  len : Nat
  pos : Nat
  deriving DecidableEq, Repr

/-- A virtual interface (20 Tables 188 to 191). `named` holds, for each physical cluster, 1 more than the logical number that it
was given last (20 R325). -/
structure Vif where
  rbase : Word
  rsize : Word
  rhead : Word
  rtail : Word
  eofs : BitVec 32
  ecode : BitVec 8
  err : Bool
  run : Bool
  ovf : Bool
  eqbase : Word
  eqsize : Word
  eqhead : Word
  eqtail : Word
  eqdrop : Word
  pctrl : Word
  troot : Word
  share : Word
  cmap : Store Nat
  named : Store Nat
  savebase : Word
  nest : List Indirect
  began : Bool
  levels : Store Level
  graphs : Store Graph
  trigs : List Trig
  probes : Store Probe
  pens : List Pen
  bars : Store Barrier
  deficit : Int
  saved : Store Saved
  holds : Bool
  used : Nat
  turnEnding : Bool
  deriving DecidableEq, Repr

/-- A specialisation-cache entry (21 Table 198). `log` holds the virtual addresses and contents of the logged granules
and `logPages` their physical addresses; `image` has the residual words, which also lie in stack memory from `base` of the
residual window on, and `warn` and `fpc` the report of its build. -/
structure Spec where
  id : Nat
  key : BitVec 128
  digest : BitVec 256
  config : Word
  uniform : List Byte
  log : List (Nat × GReg)
  logPages : List Nat
  base : Nat
  image : List HWord
  backmap : List Word
  codeBase : Word
  entry : Nat
  warn : BitVec 16
  fpc : Word
  doomed : Bool
  deriving DecidableEq, Repr

/-- A die (24 Table 228, 11 R230, 21 R331). `injAt` is the injector that the last write of INJCTL went to, numbered as the targets
of INJECTOR_ACT are, and `booted` says that BOOTGO has released the die's control contexts. -/
structure Die where
  mkentry : Word
  kroot : Word
  errbase : Word
  errsize : Word
  errhead : Word
  errtail : Word
  errdrop : Word
  injsel : Word
  injctl : Word
  injAt : Nat
  seq : BitVec 16
  specs : List Spec
  specInj : Word
  tlbs : List (Nat × TlbEntry)
  failed : Bool
  booted : Bool
  deriving DecidableEq, Repr

/-- A KSL port (24 Table 229, R371, R372). `replays` counts the replays from the flit `nackSeq`, and
`queue` are the data flits that the full retry buffer keeps waiting, with their type, VC byte and payload. `sent` counts the flits
that have left, `parts` the payloads of the message that arrives on each virtual channel and `msgs` the messages that have
arrived whole, each with its channel, `lanes` are the injectors of its lanes, `laneAt` what `sent` was when each was armed, and `injected` says that an
injector has acted since its last record (11 R236). -/
structure Port where
  pstat : Word
  en : Bool
  txSeq : BitVec 16
  rxSeq : BitVec 16
  retry : List (BitVec 512)
  nackSeq : BitVec 16
  queue : List (Nat × Nat × BitVec 448)
  outbox : List (BitVec 512)
  inbox : List (BitVec 512)
  parts : Store (List (BitVec 448))
  msgs : List (Nat × List Byte)
  replays : Nat
  lanes : Store Word
  laneAt : Store Nat
  sent : Nat
  injected : Bool
  deriving DecidableEq, Repr

/-- A collective group's state on this package (13 R257, 24 R373): its next round. -/
structure Group where
  word : Word
  next : Option Word
  rounds : Nat
  deriving DecidableEq, Repr

/-- The security engine (24 R367, R369). -/
structure Security where
  boots : Word
  digHub : BitVec 256
  digLoader : BitVec 256
  digDevice : BitVec 256
  failStage : Nat
  report : List Byte
  deriving DecidableEq, Repr

/-- What the outside observer of a port was answered last: data, the C bits of its granules, and whether it was refused
(24 R365, R370, 11 R237). -/
structure Seen where
  data : BitVec 2048
  tags : BitVec 16
  status : Nat
  deriving DecidableEq, Repr

/-- A memory access from the hub die that has been received and is not yet performed: of the root ports 0 to 3 or of the hub
cores, 4 (24 R364, R365). An `msi` is performed after the writes of its port. -/
inductive HubOp where
  | access (pa : Nat) (wr : Bool) (data : List Byte) (size : Nat)
  | msi (data : Word)
  deriving DecidableEq, Repr

/-- The next move of the machine: an issue on a core, an issue whose instruction the core's checker finds wrong once, or
`again` (11 R227), or one of its other steps. -/
inductive Move where
  | issue (core : Nat)
  | mismatch (core : Nat) (again : Bool)
  | event (i : Instr)
  deriving DecidableEq, Repr

end Sys2Proof.Machine
end

