-- ==== Sys2Proof/Machine/State.lean ====
section
/-! DEFINITION. The machine state, the reasons to stop, and the state after reset. -/

namespace Sys2Proof.Machine

/-- Why the machine stops. -/
inductive Fault where
  /-- Raised by a step outside the instruction words that names a core, bench, engine, interface, die, port or context
  that the package does not have (01 R11, R12). Safe: no such step exists. -/
  | noSuchPart
  deriving DecidableEq, Repr

/-- Why an instruction has no meaning. -/
inductive Refusal where
  /-- Raised by the dispatch for an instruction that has no meaning yet. Safe: nothing can be proved of its effect. -/
  | notModelled (mnemonic : String)
  deriving DecidableEq, Repr

/-- The state. -/
structure State where
  cores : Store Core
  mem : List Host.Cell
  gran : Store (BitVec 3)
  owned : Store Nat
  claims : List (Nat × Nat)
  accepted : Store Word
  net : List Pkt
  waits : List Access
  benches : Store Bench
  copies : Store (List Copy)
  stks : Store (List Stk)
  vifs : Store Vif
  dies : Store Die
  lock : Bool
  freeze : Bool
  pwrcap : Word
  pwrnow : Word
  groups : Store Group
  ports : Store Port
  sec : Security
  hubSeen : Seen
  i3cSeen : Seen
  dbgSeen : Seen
  pcieSeen : Seen
  msis : List (Nat × Word)
  hubq : List (Nat × HubOp)
  events : List (Nat × List Byte)
  injDue : List Nat
  rowBits : Store Bool
  mitigated : Store Nat
  nextId : Nat
  freeCount : Nat
  agenda : List Move
  single : Option (Nat × Nat)
  turn : Nat
  curCore : Nat
  curCtx : Nat
  stalled : Bool
  opr : Op
  deriving DecidableEq, Repr

/-- A root capability of Table 43: all permissions of `perms`, OTYPE 0, with the bounds fields given. -/
def rootCap (perms e b t : Nat) (addr : Word) : GReg :=
  ⟨BitVec.ofNat 12 perms ++ 0#4 ++ BitVec.ofNat 6 e ++ BitVec.ofNat 21 b ++ BitVec.ofNat 21 t ++ addr, true⟩

/-- All permissions except X (04 Table 43). -/
def permsNoX : Nat := 0xDFF

/-- The self-window capability of g3 (04 Tables 35 and 43). -/
def selfWindowCap : GReg := rootCap permsNoX 0 0x1E0000 0 0xFFFFFFFFFFFE0000#64

/-- The program counter capability of a control context that begins at `entry` (04 Table 43). -/
def rootPcc (entry : Word) : GReg := rootCap 0xB02 27 0 0x100000 entry

/-- The g registers of a control context at reset (04 Table 43). Their ADDR is their base. DESIGN CHOICE (log 66): the table
gives bounds and permissions alone. -/
def rootRegs : Store GReg :=
  [(1, rootCap permsNoX 27 0 0x100000 0), (2, rootCap permsNoX 10 0 0x100000 0xFFFF800000000000#64), (3, selfWindowCap)]

/-- Control registers at reset, with code mode `cm` (04 Table 44). -/
def CtxRegs.init (cm : Bool) : CtxRegs :=
  { cm := cm, warn := 0, warnpc := 0, fmta := 3, fmtb := 3, scla := .null, sclb := .null, fpm := 0, fflags := 0,
    budget := 0, cyc := 0, tapset := 0 }

/-- A FREE helper (04 R71). -/
def Ctx.init : Ctx :=
  { st := .free, g := [], v := [], p := [], pcc := .null, nullG := 0, nullV := 0, cr := CtxRegs.init true, outs := [],
    orders := [], parked := false, yielding := [], traps := [], hflts := [], gang := [], gangSkip := 0, task := 0, ended := .none }

/-- A control context at reset (04 R91). Its null maps hold the registers of Table 43. DESIGN CHOICE (log 65). -/
def Ctx.control (entry : Word) : Ctx :=
  { Ctx.init with st := .live, g := rootRegs, pcc := rootPcc entry, nullG := 0xE }

/-- A bank in role PAD (08 R160, R161). -/
def Bank.init : Bank :=
  { role := .pad, head := 0, tail := 0, used := 0, items := [], pass := 0, boost := 0, chg := false }

/-- Supervisor registers at reset (04 Table 44). -/
def CoreRegs.init : CoreRegs :=
  { evec := .null, ecause := 0, epc := 0, eadr := 0, erpc := 0, eiter := 0, einfo := 0, lease := 0, ctxbase := 0 }

/-- A journal entry that is free (08 Table 84). -/
def Journal.init : Journal :=
  { st := 0, mask := 0, data := 0, pc := 0, line := 0, loc := 0, reason := 0, ctx := 0, op := none, id := 0, lid := 0,
    eng := false }

/-- A free reply slot (09 R196). -/
def ReplySlot.init : ReplySlot := ⟨.free, 0, 0⟩

/-- A free handle (01 R32). -/
def Handle.init : Handle := ⟨false, 0, 0, none, false⟩

/-- The register entries of a control context at reset: those of the registers that are not null. -/
def rootEntries : List Entry := [⟨0, .g 1, .live, true⟩, ⟨0, .g 2, .live, true⟩, ⟨0, .g 3, .live, true⟩]

/-- A core at reset; its control context begins at `entry` once released (08 R160, 24 R367). -/
def Core.init (entry : Word) (held : Bool) : Core :=
  { ctxs := [(0, Ctx.control entry)], cr := CoreRegs.init, held := held, evecSet := false, pending := [],
    lastIssuer := 10, banks := [(0, { Bank.init with role := .way }), (1, { Bank.init with role := .way })],
    chancfg := 0, drops := [], deque := [], reported := [], slots := [], handles := [], counters := [], journal := [],
    gather := [], taken := none, utlb := [], entries := rootEntries, flushing := [], injectors := [], startHeld := false,
    waiting := false }

/-- The core of an unlisted key: as package reset leaves it. -/
def Core.dflt : Core := Core.init 0 true

/-- A bench at reset (16 R280, Table 160). -/
def Bench.init : Bench := { arbcfg := none, hires := [], cur := none, left := 0, busy := none }

/-- A free level slot (20 Table 191). -/
def Level.init : Level :=
  { st := .free, kind := 0, pv := false, parent := 0, sealed := false, cxl := false, serial := 0, root := false,
    quiet := false, uniform := .null, pen := 0, spec := none }

/-- A graph never uploaded (20 R320). -/
def Graph.init : Graph :=
  { up := false, slot := 0, pv := false, parent := 0, list := 0, nl := 0, cur := none, entries := [], next := 0 }

/-- A barrier before its first arrival (09 R202). -/
def Barrier.init : Barrier := ⟨0, none, 0, 0⟩

/-- A virtual interface at package reset (20 Tables 188 and 189). -/
def Vif.init : Vif :=
  { rbase := 0, rsize := 12, rhead := 0, rtail := 0, eofs := 0, ecode := 0, err := false, run := false, ovf := false,
    eqbase := 0, eqsize := 4, eqhead := 0, eqtail := 0, eqdrop := 0, pctrl := 0, troot := 0, share := 1, cmap := [],
    named := [], savebase := 0, nest := [], began := false, levels := [], graphs := [], trigs := [], probes := [], pens := [],
    bars := [], deficit := 0, saved := [], holds := false, used := 0, turnEnding := false }

/-- A die at package reset (24 Table 228). -/
def Die.init : Die :=
  { mkentry := 0, kroot := 0, errbase := 0, errsize := 8, errhead := 0, errtail := 0, errdrop := 0, injsel := 0,
    injctl := 0, injAt := 0, seq := 0, specs := [], specInj := 0, tlbs := [], failed := false, booted := false }

/-- A KSL port at package reset (24 Table 229). -/
def Port.init : Port :=
  { pstat := 0, en := false, txSeq := 0, rxSeq := 0, retry := [], nackSeq := 0, queue := [], outbox := [], inbox := [],
    parts := [], msgs := [], replays := 0, lanes := [], laneAt := [], sent := 0, injected := false }

/-- A group word at package reset (24 Table 231). -/
def Group.init : Group := ⟨0, none, 0⟩

/-- The security engine (24 R369). -/
def Security.init : Security := ⟨0, 0, 0, 0, 0, []⟩

/-- Nothing answered yet. -/
def Seen.init : Seen := ⟨0, 0, 0⟩

/-- The operand of `nop` (06 Table 68). -/
def opNop : Op := ⟨false, false, 0, none, none, none, [], false⟩

/-- The machine right after package reset (01 R32, 24 R367). -/
def State.reset : State :=
  { cores := [], mem := [], gran := [], owned := [], claims := [], accepted := [], net := [], waits := [],
    benches := [], copies := [], stks := [], vifs := [], dies := [], lock := false, freeze := false,
    pwrcap := 2400, pwrnow := 0, groups := [], ports := [],
    sec := Security.init, hubSeen := Seen.init, i3cSeen := Seen.init, dbgSeen := Seen.init, pcieSeen := Seen.init,
    msis := [], hubq := [], events := [], injDue := [], rowBits := [], mitigated := [], nextId := 1, freeCount := 0,
    agenda := [], single := none, turn := 0, curCore := 0, curCtx := 0, stalled := false, opr := opNop }

end Sys2Proof.Machine
end

