-- ==== Sys2Proof/Machine/Cap.lean ====
section
/-! DEFINITION. Capabilities: fields, bounds, checks and derivations (04 R85 to R89). -/

namespace Sys2Proof.Machine

/-- Permission bits of PERMS (04 Table 40). -/
def pK : Nat := 0x001
def pY : Nat := 0x002
def pP : Nat := 0x004
def pF : Nat := 0x008
def pE : Nat := 0x010
def pM : Nat := 0x020
def pA : Nat := 0x040
def pSC : Nat := 0x080
def pLC : Nat := 0x100
def pX : Nat := 0x200
def pS : Nat := 0x400
def pL : Nat := 0x800

/-- The fields of Table 39. -/
def GReg.perms (c : GReg) : Nat := (c.data.extractLsb' 116 12).toNat
def GReg.otype (c : GReg) : Nat := (c.data.extractLsb' 112 4).toNat
def GReg.expo (c : GReg) : Nat := (c.data.extractLsb' 106 6).toNat
def GReg.base (c : GReg) : Nat := (c.data.extractLsb' 85 21).toNat
def GReg.topm (c : GReg) : Nat := (c.data.extractLsb' 64 21).toNat
def GReg.word (c : GReg) : Word := c.data.setWidth 64
def GReg.addr (c : GReg) : Nat := c.word.toNat

/-- A capability granule from its fields. -/
def packCap (perms otype e b t : Nat) (addr : Word) (tag : Bool) : GReg :=
  ⟨BitVec.ofNat 12 perms ++ BitVec.ofNat 4 otype ++ BitVec.ofNat 6 e ++ BitVec.ofNat 21 b ++ BitVec.ofNat 21 t ++ addr,
    tag⟩

/-- The same granule with another address. -/
def GReg.withAddr (c : GReg) (a : Word) : GReg := ⟨(c.data.extractLsb' 64 64) ++ a, c.tag⟩

/-- The same granule with another tag. -/
def GReg.withTag (c : GReg) (t : Bool) : GReg := ⟨c.data, t⟩

/-- The same granule with another object type. -/
def GReg.withOtype (c : GReg) (o : Nat) : GReg :=
  ⟨(c.data.extractLsb' 116 12) ++ BitVec.ofNat 4 o ++ (c.data.extractLsb' 0 112), c.tag⟩

/-- The same granule with other permissions. -/
def GReg.withPerms (c : GReg) (p : Nat) : GReg := ⟨BitVec.ofNat 12 p ++ (c.data.extractLsb' 0 116), c.tag⟩

/-- decode_bounds with E, B, T and an address given (04 R87). -/
def decodeBounds (e b t a : Nat) : Int × Int :=
  let w := e + 21
  let hi : Int := ((a / 2 ^ w) * 2 ^ w : Nat)
  let mid := a / 2 ^ e % 2 ^ 21
  let base : Int := hi + (b * 2 ^ e : Nat) - (if mid < b then ((2 ^ w : Nat) : Int) else 0)
  let top : Int := hi + (t * 2 ^ e : Nat) + (if t < mid then ((2 ^ w : Nat) : Int) else 0)
  (base, top)

/-- The bounds of a capability (04 R87). -/
def GReg.bounds (c : GReg) : Int × Int := decodeBounds c.expo c.base c.topm c.addr

/-- Whether a capability is representable at another address (04 R88). -/
def GReg.representable (c : GReg) (a : Nat) : Bool := decide (decodeBounds c.expo c.base c.topm a = c.bounds)

/-- Tagged with OTYPE 15 or E above 43: no use is allowed (04 R86). -/
def GReg.broken (c : GReg) : Bool := decide (c.otype = 15 ∨ 43 < c.expo)

/-- A trap that an instruction asks for: code, EADR and EINFO (11 Table 117). -/
structure TrapReq where
  code : Nat
  addr : Word
  info : Word
  deriving DecidableEq, Repr

/-- The trap codes of Table 117. -/
def tILL : Nat := 0x01
def tCAPT : Nat := 0x02
def tCAPB : Nat := 0x03
def tCAPP : Nat := 0x04
def tALN : Nat := 0x05
def tPGF : Nat := 0x06
def tPOST : Nat := 0x07
def tPOIS : Nat := 0x08
def tCHK : Nat := 0x09
def tBUDG : Nat := 0x0A
def tHFLT : Nat := 0x0B
def tTAP : Nat := 0x0C
def tCHAN : Nat := 0x0E
def tSVC : Nat := 0x0F
def tBRK : Nat := 0x10
def tPARK : Nat := 0x11

/-- The steps of check_cap in their order of precedence: tag and type, permissions, bounds (04 R87). `types` are the
object types that the use allows (04 R86). -/
def checkCap (c : GReg) (a : Word) (n : Nat) (perms : Nat) (types : List Nat) : Except TrapReq Unit :=
  if !c.tag then .error ⟨tCAPT, a, 1⟩
  else if c.broken || !types.contains c.otype then .error ⟨tCAPT, a, 2⟩
  else
    let missing := perms &&& (c.perms ^^^ 0xFFF)
    if missing ≠ 0 then .error ⟨tCAPP, a, BitVec.ofNat 64 missing⟩
    else
      let (b, t) := c.bounds
      if b ≤ (a.toNat : Int) ∧ ((a.toNat + n : Nat) : Int) ≤ t then .ok ()
      else .error ⟨tCAPB, a, BitVec.ofNat 64 n⟩

/-- check_cap of an unsealed capability. -/
def check (c : GReg) (a : Word) (n : Nat) (perms : Nat) : Except TrapReq Unit := checkCap c a n perms [0]

/-- encode_bounds from exponent `e` on, with `fuel` exponents left (04 R89): E, B, T and the encoded bounds. -/
def encodeBoundsFrom (b t : Nat) : Nat → Nat → Option (Nat × Nat × Nat × Nat × Nat)
  | _, 0 => none
  | e, fuel + 1 =>
    let lo := b / 2 ^ e * 2 ^ e
    let up := (t + 2 ^ e - 1) / 2 ^ e * 2 ^ e
    if up - lo < 2 ^ (e + 21) then some (e, lo / 2 ^ e % 2 ^ 21, up / 2 ^ e % 2 ^ 21, lo, up)
    else encodeBoundsFrom b t (e + 1) fuel

/-- encode_bounds (04 R89). -/
def encodeBounds (b t : Nat) : Option (Nat × Nat × Nat × Nat × Nat) := encodeBoundsFrom b t 0 44

/-- The conditions on a source that any derivation needs to keep its tag (04 R89). -/
def GReg.derivable (c : GReg) : Bool := c.tag && decide (c.otype = 0) && decide (c.expo ≤ 43)

/-- A capability with the bounds [b, b + n) around an address in it, with permissions and type, as the hardware makes
them (04 R91). -/
def makeCap (perms otype b n : Nat) (a : Word) : GReg :=
  match encodeBounds b (b + n) with
  | some (e, bm, tm, _, _) => packCap perms otype e bm tm a true
  | none => packCap perms otype 0 0 0 a false

end Sys2Proof.Machine
end

