-- ==== Sys2Proof/Machine/Geometry.lean ====
section
/-! DEFINITION. Where the parts sit: coordinates, clusters, benches, partitions and pens (01 R11, R12, R30), and the
one-home accessors of cores, contexts, interfaces, dies and pens. -/

namespace Sys2Proof.Machine

/-- Cores are numbered x + 96 y (01 R11). -/
def nCores : Nat := 4608

def coreX (c : Nat) : Nat := c % 96
def coreY (c : Nat) : Nat := c / 96

/-- Die of a core (01 Table 6). -/
def dieOf (c : Nat) : Nat := coreY c / 24 * 2 + coreX c / 48

/-- Physical cluster (01 Table 6). -/
def clusterOf (c : Nat) : Nat := dieOf c * 6 + coreY c % 24 / 12 * 3 + coreX c % 48 / 16

/-- Core index in the cluster (01 Table 6). -/
def cidxOf (c : Nat) : Nat := coreY c % 12 * 16 + coreX c % 16

/-- Bench in the cluster (01 Table 6). -/
def benchIn (c : Nat) : Nat := coreY c % 12 / 2 * 4 + coreX c % 16 / 4

/-- Bench number in the package: 24 × cluster + bench. -/
def benchOf (c : Nat) : Nat := clusterOf c * 24 + benchIn c

/-- Slot in the bench (01 Table 6). -/
def slotOf (c : Nat) : Nat := coreY c % 2 * 4 + coreX c % 4

/-- The core of a troupe slot of core `c`'s troupe (01 Table 6). -/
def troupeCore (c slot : Nat) : Nat := (coreY c / 2 * 2 + slot / 2) * 96 + (coreX c / 2 * 2 + slot % 2)

/-- The core of a physical cluster and a core index. -/
def coreAt (cl idx : Nat) : Nat :=
  (cl / 6 / 2 * 24 + cl % 6 / 3 * 12 + idx / 16) * 96 + (cl / 6 % 2 * 48 + cl % 6 % 3 * 16 + idx % 16)

/-- The core of a bench number and a slot of it (01 Table 6). -/
def benchCore (b slot : Nat) : Nat :=
  coreAt (b / 24) ((b % 24 / 4 * 2 + slot / 4) * 16 + (b % 24 % 4 * 4 + slot % 4))

/-- A core's state. -/
def State.core (s : State) (c : Nat) : Core := Store.get Core.dflt s.cores c

/-- Writes a core's state. -/
def State.setCore (s : State) (c : Nat) (k : Core) : State := { s with cores := Store.set Core.dflt s.cores c k }

/-- Changes a core's state. -/
def State.modCore (s : State) (c : Nat) (f : Core → Core) : State := s.setCore c (f (s.core c))

/-- A context of a core. -/
def Core.ctx (k : Core) (x : Nat) : Ctx := Store.get Ctx.init k.ctxs x

/-- Writes a context. -/
def Core.setCtx (k : Core) (x : Nat) (c : Ctx) : Core := { k with ctxs := Store.set Ctx.init k.ctxs x c }

/-- A context of the machine. -/
def State.ctx (s : State) (c x : Nat) : Ctx := (s.core c).ctx x

/-- Writes a context of the machine. -/
def State.setCtx (s : State) (c x : Nat) (v : Ctx) : State := s.modCore c (·.setCtx x v)

/-- Changes a context of the machine. -/
def State.modCtx (s : State) (c x : Nat) (f : Ctx → Ctx) : State := s.setCtx c x (f (s.ctx c x))

/-- A bank of a core. -/
def Core.bank (k : Core) (b : Nat) : Bank := Store.get Bank.init k.banks b

/-- Writes a bank. -/
def Core.setBank (k : Core) (b : Nat) (v : Bank) : Core := { k with banks := Store.set Bank.init k.banks b v }

/-- A virtual interface. -/
def State.vif (s : State) (v : Nat) : Vif := Store.get Vif.init s.vifs v

/-- Writes a virtual interface. -/
def State.setVif (s : State) (v : Nat) (i : Vif) : State := { s with vifs := Store.set Vif.init s.vifs v i }

/-- Changes a virtual interface. -/
def State.modVif (s : State) (v : Nat) (f : Vif → Vif) : State := s.setVif v (f (s.vif v))

/-- Changes every core, and every core that a sharing interface has saved (09 R208). -/
def State.everyCore (s : State) (f : Core → Core) : State :=
  let s := (s.cores.map Prod.fst).foldl (fun s c => s.modCore c f) s
  (s.vifs.map Prod.fst).foldl (fun s v => s.modVif v (fun i =>
    { i with saved := i.saved.map (fun p => (p.1, { p.2 with core := f p.2.core })) })) s

/-- Every core, and every core that a sharing interface has saved (09 R208). -/
def State.allCores (s : State) : List Core :=
  s.cores.map Prod.snd ++ s.vifs.flatMap (fun i => i.2.saved.map (fun p => p.2.core))

/-- A die. -/
def State.die (s : State) (d : Nat) : Die := Store.get Die.init s.dies d

/-- Changes a die. -/
def State.modDie (s : State) (d : Nat) (f : Die → Die) : State :=
  { s with dies := Store.set Die.init s.dies d (f (s.die d)) }

/-- A bench. -/
def State.bench (s : State) (b : Nat) : Bench := Store.get Bench.init s.benches b

/-- Changes a bench. -/
def State.modBench (s : State) (b : Nat) (f : Bench → Bench) : State :=
  { s with benches := Store.set Bench.init s.benches b (f (s.bench b)) }

/-- A KSL port. -/
def State.port (s : State) (q : Nat) : Port := Store.get Port.init s.ports q

/-- Changes a KSL port. -/
def State.modPort (s : State) (q : Nat) (f : Port → Port) : State :=
  { s with ports := Store.set Port.init s.ports q (f (s.port q)) }

/-- A collective group. -/
def State.group (s : State) (g : Nat) : Group := Store.get Group.init s.groups g

/-- Changes a collective group. -/
def State.modGroup (s : State) (g : Nat) (f : Group → Group) : State :=
  { s with groups := Store.set Group.init s.groups g (f (s.group g)) }

/-- The commands of a copy engine, numbered 2 × cluster + engine (01 R12). -/
def State.copyEng (s : State) (e : Nat) : List Copy := Store.get [] s.copies e

/-- Changes the commands of a copy engine. -/
def State.modCopy (s : State) (e : Nat) (f : List Copy → List Copy) : State :=
  { s with copies := Store.set [] s.copies e (f (s.copyEng e)) }

/-- The commands of a stack engine (01 R12). -/
def State.stkEng (s : State) (e : Nat) : List Stk := Store.get [] s.stks e

/-- Changes the commands of a stack engine. -/
def State.modStk (s : State) (e : Nat) (f : List Stk → List Stk) : State :=
  { s with stks := Store.set [] s.stks e (f (s.stkEng e)) }

/-- A fresh operation number. -/
def State.fresh (s : State) : Nat × State := (s.nextId, { s with nextId := s.nextId + 1 })

/-- PCTRL.EN, PRIV and HOME (20 Table 189). -/
def Vif.en (v : Vif) : Bool := v.pctrl.getLsbD 0
def Vif.priv (v : Vif) : Bool := v.pctrl.getLsbD 1
def Vif.home (v : Vif) : Nat := (v.pctrl.extractLsb' 2 2).toNat

/-- SHARE.GRP (20 Table 189). -/
def Vif.grp (v : Vif) : Nat := (v.share.extractLsb' 44 4).toNat

/-- The physical cluster of a logical cluster, 31 for none (20 Table 189). -/
def Vif.phys (v : Vif) (l : Nat) : Nat := if l < 24 then Store.get 31 v.cmap l else 31

/-- The logical cluster that maps to a physical cluster; of several, the one that was mapped last (20 R325). -/
def Vif.lcl (v : Vif) (p : Nat) : Option Nat :=
  let l := Store.get 0 v.named p
  if 0 < l ∧ v.phys (l - 1) = p then some (l - 1) else (List.range 24).find? (fun l => v.phys l == p)

/-- The enabled interfaces that map a physical cluster (20 R309). -/
def State.mappers (s : State) (p : Nat) : List Nat :=
  (s.vifs.filter (fun i => i.2.en && (i.2.lcl p).isSome)).map Prod.fst

/-- The enabled interface that holds a physical cluster: of several, the one whose turn it is (01 R30, 09 R208). -/
def State.vifOfCluster (s : State) (p : Nat) : Option Nat :=
  match s.mappers p with
  | [] => none
  | [v] => some v
  | vs => vs.find? (fun v => (s.vif v).holds)

/-- The interface of a core's partition. -/
def State.vifOf (s : State) (c : Nat) : Option Nat := s.vifOfCluster (clusterOf c)

/-- CORE.LCL: the logical cluster of a core, 31 outside every partition (04 Table 45). -/
def State.lclOf (s : State) (c : Nat) : Nat :=
  match s.vifOf c with
  | some v => ((s.vif v).lcl (clusterOf c)).getD 31
  | none => 31

/-- The core that a logical cluster and a core index name in the partition of core `c` (01 R14). A shared cluster that
another interface holds counts as unmapped. DESIGN CHOICE (log 45). -/
def State.coreNamed (s : State) (c l idx : Nat) : Option Nat :=
  match s.vifOf c with
  | none => none
  | some v =>
    let p := (s.vif v).phys l
    if p < 24 ∧ idx < 192 ∧ s.vifOfCluster p = some v then some (coreAt p idx) else none

/-- Whether a pen holds a core (01 R30). -/
def Pen.has (p : Pen) (c : Nat) : Bool :=
  decide (p.x ≤ coreX c ∧ coreX c < p.x + p.w ∧ p.y ≤ coreY c ∧ coreY c < p.y + p.h)

/-- The pen of a core: its interface, its number and the pen. -/
def State.penOf (s : State) (c : Nat) : Option (Nat × Nat × Pen) :=
  match s.vifOf c with
  | none => none
  | some v =>
    let ps := (s.vif v).pens
    match ps.findIdx? (fun p => p.has c) with
    | none => none
    | some i => (ps[i]?).map (fun p => (v, i, p))

/-- PGEN of a core's pen (01 R31); 0 outside every pen. -/
def State.pgenOf (s : State) (c : Nat) : Nat :=
  match s.penOf c with
  | some (_, _, p) => p.pgen
  | none => 0

/-- Changes a pen. -/
def State.modPen (s : State) (v i : Nat) (f : Pen → Pen) : State := s.modVif v (fun x => { x with pens := x.pens.modify i f })

/-- The cores of a pen, in ascending number. -/
def Pen.cores (p : Pen) : List Nat :=
  (List.range p.h).flatMap (fun dy => (List.range p.w).map (fun dx => (p.y + dy) * 96 + (p.x + dx)))

/-- Whether two cores lie in one pen. -/
def State.samePen (s : State) (a b : Nat) : Bool :=
  match s.penOf a, s.penOf b with
  | some (v, i, _), some (w, j, _) => v == w && i == j
  | _, _ => false

/-- The launch id of a task header (09 Table 93). -/
def lidOf (h : BitVec 128) : Nat := (h.extractLsb' 64 32).toNat

/-- The launch id of an operation that belongs to no launch: no launch id has it. -/
def noLid : Nat := 2 ^ 32

/-- The launch id of the task that a context runs; a control context runs none. -/
def State.lidAt (s : State) (core x : Nat) : Nat := if x = 0 then noLid else lidOf (s.ctx core x).task

/-- The interface, the slot and the serial number of a launch id (20 R315). -/
def lidVif (lid : Nat) : Nat := lid / 2 ^ 26 % 64
def lidSlot (lid : Nat) : Nat := lid / 2 ^ 20 % 64
def lidSerial (lid : Nat) : Nat := lid % 2 ^ 20

/-- A level slot of an interface. -/
def Vif.level (v : Vif) (n : Nat) : Level := Store.get Level.init v.levels n

/-- Changes a level slot. -/
def State.modLevel (s : State) (v n : Nat) (f : Level → Level) : State :=
  s.modVif v (fun i => { i with levels := Store.set Level.init i.levels n (f (i.level n)) })

/-- The level that a launch id names, when its slot still has that serial number. -/
def State.levelOf (s : State) (lid : Nat) : Option Level :=
  let l := (s.vif (lidVif lid)).level (lidSlot lid)
  if lid < noLid ∧ l.serial % 2 ^ 20 = lidSerial lid ∧ l.st ≠ .free then some l else none

/-- Whether the launch of a launch id has been cancelled or is complete (01 R28, 09 R199). An older serial number, one
that the 20-bit serial passed in its last half turn, is that of a launch whose slot has been freed since, which it is
only after completing. DEDUCED (log 42). -/
def State.launchOver (s : State) (lid : Nat) : Bool :=
  let l := (s.vif (lidVif lid)).level (lidSlot lid)
  let ahead := (l.serial + 2 ^ 20 - lidSerial lid) % 2 ^ 20
  decide (0 < ahead ∧ ahead < 2 ^ 19) ||
    (decide (ahead = 0 ∧ l.kind = 1) && (l.st == .complete || l.st == .cancelling))

end Sys2Proof.Machine
end

