-- ==== Sys2Proof/Machine/Fifo.lean ====
section
/-! DEFINITION. FIFO banks and deques (08 R164, R165, 09 R188, R192), and the counts of the launches (01 R27, 09 R378,
20 R316). -/

namespace Sys2Proof.Machine

/-- OPC of a message header (01 Table 9). -/
def Msg.opc (m : Msg) : Nat := (m.header.extractLsb' 112 16).toNat

/-- PRI and CHN of a message header. -/
def Msg.pri (m : Msg) : Nat := (m.header.extractLsb' 84 3).toNat
def Msg.chn (m : Msg) : Nat := (m.header.extractLsb' 80 4).toNat

/-- A task message (09 R194). -/
def Msg.isTask (m : Msg) : Bool := decide (m.opc = 0x102)

/-- The record in six granules. -/
def recOf (gs : List GReg) : Rec := ⟨gs.getD 0 .null, gs.getD 1 .null, (List.range 4).map (fun i => gs.getD (2 + i) .null)⟩

/-- The six granules of a record (09 Table 92). -/
def Rec.granules (r : Rec) : List GReg := r.header :: r.entry :: r.args

/-- LID and PIN of a record (09 Table 93). -/
def Rec.lid (r : Rec) : Nat := lidOf r.header.data
def Rec.pin (r : Rec) : Bool := r.header.data.getLsbD 27

/-- Whether a record stays in its core: it is pinned, or has a tagged argument that lacks K, which may not leave (09 R187).
DEDUCED (log 71). -/
def Rec.stays (r : Rec) : Bool := r.pin || r.args.any (fun a => a.tag && (a.perms &&& pK == 0))

/-- The bytes that a message occupies (08 R164). -/
def Msg.size (m : Msg) : Nat := 32 + 16 * m.body.length

/-- The bytes that an item of a bank occupies. -/
def Item.size : Item → Nat
  | .msg m => m.size
  | .pad n => n

/-- The granules of a message, the header first (01 R17). -/
def Msg.granules (m : Msg) : List GReg :=
  ⟨m.header.extractLsb' 0 128, false⟩ :: ⟨m.header.extractLsb' 128 128, false⟩ :: m.body

/-- Removes the item at the head. HEAD and TAIL return to 0 with USED (08 R164). -/
def Bank.pop (b : Bank) : Bank :=
  match b.items with
  | [] => b
  | i :: rest =>
    let used := b.used - i.size
    if used = 0 then { b with items := rest, used := 0, head := 0, tail := 0 }
    else { b with items := rest, used := used, head := (b.head + i.size) % 16384 }

/-- Whether an item is removed without being returned (08 R164). -/
def Item.dead : Item → Bool
  | .msg m => m.void
  | .pad _ => true

/-- Removes pad records and voided task messages from the head; `n` bounds their number. -/
def Bank.purgeN : Nat → Bank → Bank
  | 0, b => b
  | n + 1, b => if (b.items.head?.map Item.dead).getD false then Bank.purgeN n b.pop else b

/-- Removes every pad record and voided task message from the head. -/
def Bank.purge (b : Bank) : Bank := Bank.purgeN b.items.length b

/-- The message at the head of a purged bank. -/
def Bank.front (b : Bank) : Option Msg :=
  match b.items with
  | .msg m :: _ => some m
  | _ => none

/-- Places an arriving message; none is a NACK (08 R165). -/
def Bank.place (b : Bank) (m : Msg) : Option Bank :=
  let size := m.size
  if b.used = 16384 then none
  else if b.head < b.tail ∨ b.used = 0 then
    let e := 16384 - b.tail
    if size ≤ e then
      some { b with items := b.items ++ [.msg m], tail := (b.tail + size) % 16384, used := b.used + size }
    else if size ≤ b.head then
      some { b with items := b.items ++ [.pad e, .msg m], tail := size, used := b.used + e + size }
    else none
  else if size ≤ b.head - b.tail then
    some { b with items := b.items ++ [.msg m], tail := b.tail + size, used := b.used + size }
  else none

/-- The FIFO banks of a core in ascending number (09 R192). -/
def Core.fifoBanks (k : Core) : List Nat := (List.range 8).filter (fun b => (k.bank b).role == .fifo)

/-- The bank that serves a channel (09 R192). -/
def Core.chanBank (k : Core) (c : Nat) : Option Nat :=
  let f := k.fifoBanks
  if f.isEmpty then none else f[c % f.length]?

/-- A channel's priority and its drop setting in CHANCFG (04 Table 44, 09 R192). -/
def Core.chanPri (k : Core) (c : Nat) : Nat := (k.chancfg >>> (4 * c)).toNat % 8
def Core.chanDrop (k : Core) (c : Nat) : Bool := k.chancfg.getLsbD (4 * c + 3)

/-- A record enters a deque at the bottom, the end of the list; none when it holds 64 (09 R188). -/
def Core.push (k : Core) (r : Rec) : Option Core :=
  if 64 ≤ k.deque.length then none else some { k with deque := k.deque ++ [r] }

/-- Removes the record at the bottom (09 R188). -/
def Core.popBottom (k : Core) : Option (Rec × Core) :=
  k.deque.getLast?.map (fun r => (r, { k with deque := k.deque.dropLast }))

/-- Removes the topmost record that may leave (09 R190). -/
def takeUnpinned : List Rec → Option (Rec × List Rec)
  | [] => none
  | r :: rs => if r.stays then (takeUnpinned rs).map (fun p => (p.1, r :: p.2)) else some (r, rs)

/-- The mesh neighbours of a core that lie in its pen (09 R189). -/
def State.neighbours (s : State) (c : Nat) : List Nat :=
  let x := coreX c
  let y := coreY c
  ((if 0 < x then [c - 1] else []) ++ (if x < 95 then [c + 1] else []) ++ (if 0 < y then [c - 96] else []) ++
    (if y < 47 then [c + 96] else [])).filter (fun n => s.samePen c n)

/-- The better of two cores by a key, lower core index first among equals (09 R189, R190). -/
def betterCore (key : Nat → Nat) (a b : Nat) : Bool :=
  decide (key a < key b) || (decide (key a = key b) &&
    (decide (cidxOf a < cidxOf b) || (decide (cidxOf a = cidxOf b) && decide (a < b))))

/-- The best core of a list. -/
def bestCore (key : Nat → Nat) : List Nat → Option Nat
  | [] => none
  | c :: cs => match bestCore key cs with
    | none => some c
    | some d => if betterCore key d c then some d else some c

/-- The length that a neighbour reported last (09 R189). -/
def Core.reportOf (k : Core) (n : Nat) : Nat := Store.get 0 k.reported n

/-- The victim of a steal (09 R190): the neighbour with the largest reported length, never one that reported 0. -/
def State.victim (s : State) (c : Nat) : Option Nat :=
  let k := s.core c
  bestCore (fun n => 64 - k.reportOf n) ((s.neighbours c).filter (fun n => k.reportOf n != 0))

/-- What a message adds to the count of a launch: a task message that is not void. -/
def Msg.counts (m : Msg) (lid : Nat) : Bool := m.isTask && !m.void && lidOf (recOf m.body).header.data == lid

/-- What a core holds of a launch: queued records and task messages, live helpers, and a record that its control context
has taken (09 R378). -/
def Core.countOf (k : Core) (lid : Nat) : Nat :=
  (k.deque.filter (fun r => r.lid == lid)).length +
  (k.banks.map (fun b => (b.2.items.filter (fun i => match i with
    | .msg m => m.counts lid
    | .pad _ => false)).length)).sum +
  (k.ctxs.filter (fun c => c.1 != 0 && c.2.st != .free && lidOf c.2.task == lid)).length +
  (if k.taken = some lid then 1 else 0)

/-- The children of a level that are OPEN or CANCELLING (20 R316). -/
def Vif.children (v : Vif) (slot : Nat) : Nat :=
  (v.levels.filter (fun l => l.2.pv && l.2.parent == slot && (l.2.st == .opened || l.2.st == .cancelling))).length

/-- COUNT of a launch: with what sharing interfaces have saved, and its own children (01 R27, 09 R208, 20 R316). -/
def State.launchCount (s : State) (lid : Nat) : Nat :=
  (s.allCores.map (fun k => k.countOf lid)).sum +
  (s.net.filter (fun p => match p.body with
    | .msg _ _ m _ _ _ _ _ _ => m.counts lid
    | .record _ _ _ _ r _ _ _ _ _ => r.lid == lid
    | .reply _ _ _ _ l _ => l == lid
    | _ => false)).length +
  (s.benches.map (fun b => (b.2.hires.filter (fun h => h.lid == lid)).length)).sum +
  (s.copies.map (fun e => (e.2.filter (fun h => h.lid == lid)).length)).sum +
  (s.stks.map (fun e => (e.2.filter (fun h => h.lid == lid)).length)).sum +
  (match s.levelOf lid with | some l => l.root.toNat + (s.vif (lidVif lid)).children (lidSlot lid) | none => 0)

/-- COUNT of a level slot: of a graph, phase or job its children (20 R316, Table 191). -/
def State.levelCount (s : State) (v slot : Nat) : Nat :=
  let i := s.vif v
  let l := i.level slot
  if l.kind = 1 then s.launchCount (v * 2 ^ 26 + slot * 2 ^ 20 + l.serial % 2 ^ 20) else i.children slot

/-- Whether a launch's COUNT may rise (20 R316). -/
def State.countRoom (s : State) (lid : Nat) : Bool := decide (s.launchCount lid < 2 ^ 24 - 1)

end Sys2Proof.Machine
end

