-- ==== Sys2Proof/Config.lean ====
section
/-! DEFINITION. What the part fixes and the values that the spec leaves open. An opaque constant has no body: nothing
can be proved of its value. -/

namespace Sys2Proof.Config

/-- The result bits of a special function that is only bounded (07 R152): of the function, the width of the element
format, and the operand bits with the format's mantissa width above them. A value that the bound does not allow is
never used. -/
opaque special : Nat → Nat → Nat → Nat

/-- The task header that a control context's own sends and calls stand for, since it runs no task: bits [127:48] of it,
by the number of the operation (09 R194, R197, R204). -/
opaque controlTask : Nat → BitVec 128

/-- COUNT of a level that a task does not have (09 R204): by the number of the operation. -/
opaque missingLevel : Nat → BitVec 64

/-- Part-specific syndrome bits [62:0] of an error record: of the count of records made (11 Table 121). -/
opaque syndrome : Nat → BitVec 63

/-- An ML-DSA-65 signature (24 R369) over the first 200 bytes of a report: one byte of it, by its place. -/
opaque signatureByte : List Byte → Nat → Byte

/-- How the pens of every partition are laid out for the configuration digest (24 Table 233): the bytes of one pen's
rectangle. -/
opaque penBytes : Nat → Nat → Nat → Nat → Nat → Nat → List Byte

/-- The digest of a stage of the boot firmware that the security engine holds (24 R367, Table 233): of the stage, 0 for the
hub firmware, 1 for the loader and 2 for the device firmware, and the boot count. The firmware comes from outside. -/
opaque bootDigest : Nat → Nat → BitVec 256

/-- The payload of the flit that carries a partition barrier's arrivals, or its answer, to the next package (24 R371, R374): of
the arrivals or 0, the count or the generation, the maximum, and whether it is the answer. -/
opaque fwdPayload : Nat → Nat → BitVec 64 → Bool → BitVec 448

/-- Whether a flit of collective data goes on along its ring at a package of a rank (24 R373): of its payload and the rank. -/
opaque flitGoesOn : BitVec 448 → Nat → Bool

/-- The physical address bits above the set index, [39:14], of the line that a local-store bank in WAY role holds at a granule: of
the core, the bank and the granule (08 R162, 11 R236). -/
opaque wayGranule : Nat → Nat → Nat → Nat

/-- The granule of stack memory that an L2 controller holds at the granule that an injector names: of the die and that granule
(08 R163, 11 R236). -/
opaque l2Granule : Nat → Nat → Nat

/-- What the manual leaves open of the CRC-32 of a KSL flit, whose generator alone it gives (24 Table 234): the register's first
value, what is added at the end, and whether the bits of a byte go in with the lowest first. -/
opaque crcFirst : BitVec 32
opaque crcLast : BitVec 32
opaque crcLowFirst : Bool

/-- OPC of the message that carries a `callat` or a LAUNCH record, 0 and 1 (01 Table 9): the manual gives that of `send` and
`sendr` alone. -/
opaque recordOpc : Nat → BitVec 16

/-- Where the management path reads the number of the failing boot stage (24 R367): Table 226 gives no address for it. -/
opaque failStageAt : Nat

end Sys2Proof.Config
end

