-- ==== Sys2Proof/Decode.lean ====
section
/-! DEFINITION. Decoding instruction words (02 R33 to R44, R47) and encoding them (02 R60). -/

namespace Sys2Proof

/-- Why words decode to no instruction (02 R39, R40, R47), with the reason that EINFO gets (11 Table 118). `short`
says that the words end before the base word. -/
inductive DecodeErr where
  | reservedOp
  | pageAbove7
  | badChain
  | short
  deriving DecidableEq, Repr

/-- The part of a prefix chain read so far (02 R40). -/
structure Chain where
  npfx : Nat
  page : Nat
  ppag : Option PPag
  preg : Option PReg
  pvec : Option PVec
  pimm : List (BitVec 9)
  rsv : Bool
  deriving DecidableEq, Repr

/-- The chain before any prefix word. -/
def Chain.start : Chain := ⟨0, 0, none, none, none, [], false⟩

/-- The OP field of a word (02 Table 13). -/
def wordOp (w : HWord) : Nat := (w.extractLsb' 9 5).toNat

/-- A word with OP 28 to 31 is a prefix word (02 R34). -/
def isPrefix (w : HWord) : Bool := decide (28 ≤ wordOp w)

/-- The payload of a prefix word, or the operand bits of a base word. -/
def payload (w : HWord) : BitVec 9 := w.extractLsb' 0 9

/-- The PREG payload (02 Table 15). -/
def pregOf (p : BitVec 9) : PReg :=
  ⟨p.extractLsb' 5 4, p.getLsbD 4, p.getLsbD 3, p.getLsbD 2, p.extractLsb' 0 2⟩

/-- The scope and order of a PPAG payload (02 Table 15). -/
def ppagOf (p : BitVec 9) : PPag := ⟨p.extractLsb' 3 2, p.extractLsb' 0 3⟩

/-- The page of a PPAG payload. -/
def pageOf (p : BitVec 9) : Nat := (p.extractLsb' 5 4).toNat

/-- The PVEC payload (02 Table 15). -/
def pvecOf (p : BitVec 9) : PVec :=
  ⟨p.extractLsb' 6 3, p.extractLsb' 3 3, p.getLsbD 2, p.extractLsb' 0 2⟩

/-- One prefix word joins the chain, or makes it illegal (02 R39, R40). -/
def Chain.step (c : Chain) (w : HWord) : Except DecodeErr Chain :=
  if 4 ≤ c.npfx then .error .badChain
  else
    let p := payload w
    let c' := { c with npfx := c.npfx + 1, rsv := c.rsv || w.getLsbD 15 || w.getLsbD 14 }
    match wordOp w with
    | 28 => if 3 ≤ c.pimm.length then .error .badChain else .ok { c' with pimm := c.pimm ++ [p] }
    | 29 => if c.preg.isSome then .error .badChain else .ok { c' with preg := some (pregOf p) }
    | 30 => if c.ppag.isSome then .error .badChain
            else .ok { c' with ppag := some (ppagOf p), page := pageOf p }
    | _ => if c.pvec.isSome then .error .badChain else .ok { c' with pvec := some (pvecOf p) }

/-- The forms of page 0 by OP and X, minor code or format (02 Tables 20a to 20c). -/
def formPage0 (op : Nat) (w : BitVec 9) (_k0 : Bool) : Option (Op → Instr) :=
  match op, (w.getLsbD 0) with
  | 2, false => some .add
  | 2, true => some .sub
  | 4, false => some .and
  | 4, true => some .or
  | 5, false => some .xor
  | 5, true => some .andn
  | 6, false => some .shl
  | 6, true => some .shr
  | 7, false => some .sar
  | 7, true => some .rol
  | 8, false => some .slt
  | 8, true => some .sltu
  | 9, false => some .seq
  | 9, true => some .sne
  | 25, false => some .mul
  | 25, true => some .mulh
  | 0, false => some .mov
  | 0, true => some .neg
  | 1, _ => some .ldi
  | 3, _ => some .addi
  | 10, _ => some .bz
  | 11, _ => some .bnz
  | 12, _ => some .br
  | 13, _ => some .call
  | 14, false => some .jmp
  | 14, true => some .calli
  | 15, false => some .ld
  | 15, true => some .st
  | 16, false => some .ldc
  | 16, true => some .stc
  | 17, _ => some .slti
  | 18, _ => some .andi
  | 19, _ => some .ldhi
  | 20, false => some .cset
  | 20, true => some .cinc
  | 21, false => some .cbnd
  | 21, true => some .cperm
  | 22, false => some .cget
  | 22, true => some .ctag
  | 23, _ => some .mfc
  | 24, _ => some .mtc
  | 27, _ => some .svc
  | 26, _ =>
    match w.toNat with
    | 0 => some (fun _ => .nop)
    | 1 => some (fun _ => .doneUnit)
    | 2 => some (fun _ => .brk)
    | 3 => some (fun _ => .ret)
    | 4 => some (fun _ => .sched)
    | 5 => some (fun _ => .yield)
    | _ => none
  | _, _ => none

/-- The forms of page 1 by OP and X, minor code or format (02 Tables 20a to 20c). -/
def formPage1 (op : Nat) (w : BitVec 9) (_k0 : Bool) : Option (Op → Instr) :=
  match op, (w.getLsbD 0) with
  | 0, false => some .div
  | 0, true => some .divu
  | 1, false => some .rem
  | 1, true => some .remu
  | 2, false => some .min
  | 2, true => some .max
  | 3, false => some .minu
  | 3, true => some .maxu
  | 4, false => some .clz
  | 4, true => some .ctz
  | 5, false => some .popc
  | 5, true => some .rev
  | 6, false => some .sx
  | 6, true => some .zx
  | 7, false => some .bfx
  | 7, true => some .bfi
  | 8, false => some .csel
  | 8, true => some .cselz
  | 9, false => some .ldFe
  | 9, true => some .ldFec
  | 10, false => some .stFs
  | 10, true => some .stFw
  | 11, false => some .stN4
  | 11, true => some .ldf
  | 12, false => some .fadd
  | 12, true => some .fsub
  | 13, false => some .fmul
  | 13, true => some .fdiv
  | 14, false => some .fmin
  | 14, true => some .fmax
  | 15, false => some .fminp
  | 15, true => some .fmaxp
  | 16, false => some .fsqrt
  | 16, true => some .fabs
  | 17, false => some .fma
  | 17, true => some .fnma
  | 18, false => some .flt
  | 18, true => some .fle
  | 19, false => some .feq
  | 19, true => some .funOrd
  | 20, false => some .cvtif
  | 20, true => some .cvtfi
  | 21, false => some .cvtff
  | 21, true => some .fclass
  | 22, _ => some .blz
  | 23, _ => some .bgez
  | _, _ => none

/-- The forms of page 2 by OP and X, minor code or format (02 Tables 20a to 20c). -/
def formPage2 (op : Nat) (w : BitVec 9) (_k0 : Bool) : Option (Op → Instr) :=
  match op, (w.getLsbD 0) with
  | 0, false => some .vadd
  | 0, true => some .vsub
  | 1, false => some .vaddsat
  | 1, true => some .vsubsat
  | 2, false => some .vmul
  | 2, true => some .vmulh
  | 3, false => some .vmin
  | 3, true => some .vmax
  | 4, false => some .vand
  | 4, true => some .vor
  | 5, false => some .vxor
  | 5, true => some .vandn
  | 6, false => some .vshl
  | 6, true => some .vshr
  | 7, false => some .vabs
  | 7, true => some .vneg
  | 8, false => some .vceq
  | 8, true => some .vcne
  | 9, false => some .vclt
  | 9, true => some .vcle
  | 10, false => some .vsel
  | 10, true => some .vmov
  | 11, false => some .vbcast
  | 11, true => some .vidx
  | 12, false => some .vmac
  | 12, true => some .vdot4
  | 13, false => some .vpopc
  | 13, true => some .vclz
  | 14, false => some .pand
  | 14, true => some .por
  | 15, false => some .pxor
  | 15, true => some .pnot
  | 16, false => some .pcnt
  | 16, true => some .pfirst
  | 17, false => some .vext
  | 17, true => some .vins
  | 18, false => some .vrsum
  | 18, true => some .vrmax
  | 19, false => some .vrmin
  | 19, true => some .vrand
  | 20, false => some .vcvtw
  | 20, true => some .vcvtn
  | _, _ => none

/-- The forms of page 3 by OP and X, minor code or format (02 Tables 20a to 20c). -/
def formPage3 (op : Nat) (w : BitVec 9) (_k0 : Bool) : Option (Op → Instr) :=
  match op, (w.getLsbD 0) with
  | 0, false => some .vfadd
  | 0, true => some .vfsub
  | 1, false => some .vfmul
  | 1, true => some .vfdiv
  | 2, false => some .vfma
  | 2, true => some .vfnma
  | 3, false => some .vfmin
  | 3, true => some .vfmax
  | 4, false => some .vfminp
  | 4, true => some .vfmaxp
  | 5, false => some .vfsqrt
  | 5, true => some .vfrsqrt
  | 6, false => some .vfexp2
  | 6, true => some .vflog2
  | 7, false => some .vfrecip
  | 7, true => some .vftanh
  | 11, true => some .vfclass
  | 14, false => some .vfabs
  | 14, true => some .vfneg
  | 15, false => some .vscale
  | 16, false => some .vfsig
  | 16, true => some .vfgelu
  | 8, false => some .vfceq
  | 8, true => some .vfclt
  | 9, false => some .vfcle
  | 9, true => some .vfcun
  | 10, false => some .vcvt
  | 10, true => some .vcvti
  | 11, false => some .vcvtf
  | 12, false => some .vquant
  | 12, true => some .vdequant
  | 13, false => some .vfrsum
  | 13, true => some .vfrmax
  | 15, true => some .vfrnd
  | _, _ => none

/-- The forms of page 4 by OP and X, minor code or format (02 Tables 20a to 20c). -/
def formPage4 (op : Nat) (w : BitVec 9) (_k0 : Bool) : Option (Op → Instr) :=
  match op, (w.getLsbD 0) with
  | 0, false => some .vld
  | 0, true => some .vst
  | 1, false => some .vlds
  | 1, true => some .vsts
  | 2, false => some .vldx
  | 2, true => some .vstx
  | 3, false => some .vldFe
  | 3, true => some .vstFs
  | 11, false => some .vldp
  | 11, true => some .vstp
  | 4, false => some .vperm
  | 4, true => some .vperm2
  | 5, false => some .vsld
  | 5, true => some .vsrd
  | 6, false => some .vzip
  | 6, true => some .vunzip
  | 7, false => some .vcomp
  | 7, true => some .vexp
  | 8, false => some .gget
  | 8, true => some .gput
  | 9, false => some .gsum
  | 9, true => some .gmax
  | 10, false => some .gbcast
  | 12, false => some .vlut
  | 12, true => some .vlutb
  | 10, true => some (fun _ => .gsync)
  | _, _ => none

/-- The forms of page 5 by OP and X, minor code or format (02 Tables 20a to 20c). -/
def formPage5 (op : Nat) (w : BitVec 9) (k0 : Bool) : Option (Op → Instr) :=
  match op, (w.getLsbD 0) with
  | 0, false => some .hire
  | 0, true => some .hireR
  | 1, false => some .hwait
  | 1, true => some .hpoll
  | 2, false => some .copy
  | 3, false => some .cwait
  | 3, true => some .cpoll
  | 5, false => some .swait
  | 5, true => some .spoll
  | 6, false => some .efence
  | 6, true => some .ecnt
  | 8, false => some .cancel
  | 8, true => some .hstat
  | 2, true => some .copyR
  | 4, false => if k0 then some (fun _ => .sattHandle) else some .satt
  | 4, true => some .sblk
  | 7, false => some .tapsel
  | 7, true => some (fun _ => .tapst)
  | _, _ => none

/-- The forms of page 6 by OP and X, minor code or format (02 Tables 20a to 20c). -/
def formPage6 (op : Nat) (w : BitVec 9) (_k0 : Bool) : Option (Op → Instr) :=
  match op, (w.getLsbD 0) with
  | 0, false => some .amoadd
  | 0, true => some .amoswp
  | 1, false => some .amoand
  | 1, true => some .amoor
  | 2, false => some .amomin
  | 2, true => some .amomax
  | 3, false => some .cas
  | 3, true => some .casp
  | 5, false => some .send
  | 6, false => some .recv
  | 6, true => some .recvp
  | 7, false => some .callat
  | 7, true => some .retto
  | 8, false => some .dqpush
  | 8, true => some .dqpop
  | 9, false => some .dqsteal
  | 9, true => some .dqlen
  | 10, false => some .start
  | 10, true => some .join
  | 11, false => some .bar
  | 11, true => some .barq
  | 12, false => some .waitb
  | 12, true => some .setb
  | 13, false => some .lcnt
  | 13, true => some .lcancel
  | 4, _ => some (fun _ => .fence)
  | 5, true => some (fun _ => .sendr)
  | _, _ => none

/-- The forms of page 7 by OP and X, minor code or format (02 Tables 20a to 20c). -/
def formPage7 (op : Nat) (w : BitVec 9) (_k0 : Bool) : Option (Op → Instr) :=
  match op, (w.getLsbD 0) with
  | 1, false => some .mfcs
  | 1, true => some .mtcs
  | 2, false => some .tlbi
  | 3, false => some .bankcfg
  | 3, true => some .bankq
  | 4, false => some .probew
  | 4, true => some .prober
  | 5, false => some .pjr
  | 5, true => some .pjclr
  | 6, false => some .cseal
  | 6, true => some .cunseal
  | 7, false => some .lease
  | 7, true => some .leaseq
  | 0, _ =>
    match w.toNat with
    | 0 => some (fun _ => .eret)
    | 1 => some (fun _ => .wfi)
    | 2 => some (fun _ => .rcflush)
    | 3 => some (fun _ => .l1inv)
    | 4 => some (fun _ => .l1wb)
    | _ => none
  | 2, true => some (fun _ => .tlbia)
  | _, _ => none

/-- The form named by page, OP and the operand bits (02 R47). -/
def formOf (page op : Nat) (w : BitVec 9) (k0 : Bool) : Option (Op → Instr) :=
  match page with
  | 0 => formPage0 op w k0
  | 1 => formPage1 op w k0
  | 2 => formPage2 op w k0
  | 3 => formPage3 op w k0
  | 4 => formPage4 op w k0
  | 5 => formPage5 op w k0
  | 6 => formPage6 op w k0
  | 7 => formPage7 op w k0
  | _ => none

/-- Bit 0 of k: the lowest bit of the first PIMM (02 R41). -/
def Chain.k0 (c : Chain) : Bool :=
  match c.pimm with
  | [] => false
  | p :: _ => p.getLsbD 0

/-- A chain and the base word that ends it make an instruction and its operand (02 R40). -/
def Chain.finish (c : Chain) (w : HWord) : Except DecodeErr (Instr × Op) :=
  if 7 < c.page then .error .pageAbove7
  else
    match formOf c.page (wordOp w) (payload w) c.k0 with
    | none => .error .reservedOp
    | some f =>
      let o : Op := ⟨w.getLsbD 15, w.getLsbD 14, payload w, c.ppag, c.preg, c.pvec, c.pimm, c.rsv⟩
      .ok (f o, o)

/-- Reads one instruction after the chain `c`; answers it with the words that follow it. -/
def decodeFrom (c : Chain) : List HWord → Except DecodeErr ((Instr × Op) × List HWord)
  | [] => .error .short
  | w :: rest =>
    if isPrefix w then
      match c.step w with
      | .error e => .error e
      | .ok c' => decodeFrom c' rest
    else
      match c.finish w with
      | .error e => .error e
      | .ok i => .ok (i, rest)

/-- Decoding from the first word of an instruction onwards (02 R40). -/
def decode (ws : List HWord) : Except DecodeErr ((Instr × Op) × List HWord) := decodeFrom Chain.start ws

/-- The little-endian words that bytes hold (00 R6, 02 R33); an odd last byte is dropped. -/
def wordsOfBytes : List Byte → List HWord
  | b0 :: b1 :: rest => (b1 ++ b0) :: wordsOfBytes rest
  | _ => []

/-- Decoding from bytes, total on any bytes. -/
def decodeBytes (bs : List Byte) : Except DecodeErr ((Instr × Op) × List HWord) := decode (wordsOfBytes bs)

/-- A word of OP `op` with its M, T and operand bits (02 Table 13). -/
def mkWord (m t : Bool) (op : Nat) (x : BitVec 9) : HWord :=
  BitVec.ofBool m ++ BitVec.ofBool t ++ BitVec.ofNat 5 op ++ x

/-- The PPAG payload of a page and its modifiers. -/
def encPPag (page : Nat) (p : PPag) : BitVec 9 := BitVec.ofNat 4 page ++ p.scope ++ p.order

/-- The PREG payload. -/
def encPReg (p : PReg) : BitVec 9 :=
  p.b ++ BitVec.ofBool p.d4 ++ BitVec.ofBool p.a4 ++ BitVec.ofBool p.b4 ++ p.w

/-- The PVEC payload. -/
def encPVec (p : PVec) : BitVec 9 := p.et ++ p.pr ++ BitVec.ofBool p.z ++ p.sh

/-- The prefix words of an operand as opcode and payload, in the order of 02 R60. -/
def Op.prefixes (page : Nat) (o : Op) : List (Nat × BitVec 9) :=
  (match o.ppag with | some p => [(30, encPPag page p)] | none => []) ++
  (match o.preg with | some p => [(29, encPReg p)] | none => []) ++
  (match o.pvec with | some p => [(31, encPVec p)] | none => []) ++
  o.pimm.map (fun p => (28, p))

/-- Prefix words; the first carries the ignored T bit when the operand says that one is set. -/
def prefixWords (rsv : Bool) : List (Nat × BitVec 9) → List HWord
  | [] => []
  | (op, p) :: rest => mkWord false rsv op p :: rest.map (fun q => mkWord false false q.1 q.2)

/-- The words of an instruction of a form with an operand. -/
def encodeForm (f : Form) (o : Op) : List HWord :=
  prefixWords o.rsv (o.prefixes f.page) ++ [mkWord o.m o.t f.op o.opnd]

/-- The words of an instruction: of its own operand where it carries one, else of the operand given. A step without
words has none. -/
def encode (i : Instr) (o : Op) : List HWord :=
  match i.form? with
  | some f => encodeForm f (i.op?.getD o)
  | none => []

/-- How many words an operand's instruction has: its prefixes and its base word. -/
def Op.words (o : Op) : Nat :=
  (if o.ppag.isSome then 1 else 0) + (if o.preg.isSome then 1 else 0) + (if o.pvec.isSome then 1 else 0) +
    o.pimm.length + 1

/-- The words of an opcode-table number, in the order in which the hardware stores them. The table prints a two-word
row with its prefix word, which is stored first, in bits 31 to 16; where instead the low half is the prefix word, that
half is stored first. Zero words follow, up to the five words of the longest instruction. -/
def tableWords (nbits w : Nat) : List HWord :=
  let lo := BitVec.ofNat 16 w
  let hi := BitVec.ofNat 16 (w / 65536)
  if nbits ≤ 16 then [lo, 0, 0, 0, 0]
  else if isPrefix lo then [lo, hi, BitVec.ofNat 16 (w / 4294967296), BitVec.ofNat 16 (w / 281474976710656), 0]
  else [hi, lo, 0, 0, 0]

/-- The instruction that the decoder reads from an opcode-table number. -/
def decodeTableWord (nbits w : Nat) : Option Instr :=
  match decode (tableWords nbits w) with
  | .ok ((i, _), _) => some i
  | .error _ => none

end Sys2Proof
end

