-- ==== Sys2Proof/Machine/Float.lean ====
section
/-! DEFINITION. Number formats and the arithmetic rules: exact values, rounding, the IEEE operations and the narrow
formats (05 R94 to R115). -/

namespace Sys2Proof.Machine

/-- IEEE exception flags as in FFLAGS: NV 16, DZ 8, OF 4, UF 2, NX 1 (04 Table 46). -/
abbrev Flags := BitVec 5

/-- The flags. -/
def fNV : Flags := 16
def fDZ : Flags := 8
def fOF : Flags := 4
def fUF : Flags := 2
def fNX : Flags := 1

/-- A flag when a condition holds. -/
def flagIf (b : Bool) (f : Flags) : Flags := if b then f else 0

/-- The floating formats and TS8 (05 R95, R98). -/
inductive FFmt where
  | f64 | f32 | f16 | bf16 | e4m3 | e5m2 | e2m1 | ts8
  deriving DecidableEq, Repr

/-- Rounding modes (05 R103). -/
inductive RMode where
  | rne | rtz | rdn | rup | rna
  deriving DecidableEq, Repr

/-- FPM.RM; reserved values are never held (04 R92). -/
def RMode.ofBits : Nat → RMode
  | 1 => .rtz
  | 2 => .rdn
  | 3 => .rup
  | 4 => .rna
  | _ => .rne

/-- Width in bits. -/
def FFmt.width : FFmt → Nat
  | .f64 => 64 | .f32 => 32 | .f16 => 16 | .bf16 => 16 | .e4m3 => 8 | .e5m2 => 8 | .e2m1 => 4 | .ts8 => 8

/-- Mantissa bits (05 Table 47). -/
def FFmt.mant : FFmt → Nat
  | .f64 => 52 | .f32 => 23 | .f16 => 10 | .bf16 => 7 | .e4m3 => 3 | .e5m2 => 2 | .e2m1 => 1 | .ts8 => 0

/-- Exponent bias (05 Table 47). -/
def FFmt.bias : FFmt → Nat
  | .f64 => 1023 | .f32 => 127 | .f16 => 15 | .bf16 => 127 | .e4m3 => 7 | .e5m2 => 15 | .e2m1 => 1 | .ts8 => 0

/-- The encoding of the largest finite magnitude (05 Table 47). -/
def FFmt.maxFinite : FFmt → Nat
  | .f64 => 0x7FEFFFFFFFFFFFFF | .f32 => 0x7F7FFFFF | .f16 => 0x7BFF | .bf16 => 0x7F7F
  | .e4m3 => 0x7E | .e5m2 => 0x7B | .e2m1 => 7 | .ts8 => 0

/-- The default NaN; e2m1 and TS8 have none and give the value of Table 51. -/
def FFmt.nan : FFmt → Nat
  | .f64 => 0x7FF8000000000000 | .f32 => 0x7FC00000 | .f16 => 0x7E00 | .bf16 => 0x7FC0
  | .e4m3 => 0x7F | .e5m2 => 0x7E | .e2m1 => 0 | .ts8 => 0x77

/-- The four wide formats, which overflow as IEEE 754 says; the others saturate (05 R104). -/
def FFmt.wide : FFmt → Bool
  | .f64 | .f32 | .f16 | .bf16 => true
  | _ => false

/-- A number: NaN, an infinity, or the exact value (-1)^neg * m * 2^e. -/
inductive FV where
  | nan (signalling : Bool)
  | inf (neg : Bool)
  | fin (neg : Bool) (m : Nat) (e : Int)
  deriving DecidableEq, Repr

/-- Zero. -/
def FV.zero (neg : Bool) : FV := .fin neg 0 0

/-- An integer's value. -/
def FV.ofInt (i : Int) : FV := .fin (decide (i < 0)) i.natAbs 0

/-- Whether a number is NaN. -/
def FV.isNan : FV → Bool
  | .nan _ => true
  | _ => false

/-- Whether a number is a signalling NaN. -/
def FV.isSig : FV → Bool
  | .nan s => s
  | _ => false

/-- The sign of a number. -/
def FV.neg? : FV → Bool
  | .nan _ => false
  | .inf n => n
  | .fin n _ _ => n

/-- Negation of a number. -/
def FV.negate : FV → FV
  | .nan s => .nan s
  | .inf n => .inf (!n)
  | .fin n m e => .fin (!n) m e

/-- One TS8 term in units of 2^-6 (05 R98). -/
def ts8Term (s : Bool) (c : Nat) : Int :=
  if c = 7 then 0 else if s then -(2 ^ (6 - c) : Nat) else (2 ^ (6 - c) : Nat)

/-- The TS8 value in units of 2^-6 (05 R98). -/
def ts8Units (x : Nat) : Int :=
  ts8Term (x.testBit 7) (x / 16 % 8) + ts8Term (x.testBit 3) (x % 8)

/-- The number that an encoding holds (05 R95, R96, R98). -/
def FFmt.decode (f : FFmt) (bits : Nat) : FV :=
  match f with
  | .ts8 => let u := ts8Units (bits % 256); .fin (decide (u < 0)) u.natAbs (-6)
  | _ =>
    let w := f.width
    let p := f.mant
    let neg := bits.testBit (w - 1)
    let ex := bits / 2 ^ p % 2 ^ (w - 1 - p)
    let mt := bits % 2 ^ p
    let special := match f with
      | .e4m3 => decide (ex = 15 ∧ mt = 7)
      | .e2m1 => false
      | _ => decide (ex = 2 ^ (w - 1 - p) - 1)
    if special then
      match f with
      | .e4m3 => .nan false
      | _ => if mt = 0 then .inf neg else .nan (!(mt.testBit (p - 1)))
    else if ex = 0 then .fin neg mt (1 - (f.bias : Int) - p)
    else .fin neg (2 ^ p + mt) ((ex : Int) - f.bias - p)

/-- The integer nearest to m / 2^sh under a mode, and whether it is inexact. -/
def roundShift (mode : RMode) (neg : Bool) (m : Nat) (sh : Int) : Nat × Bool :=
  match sh with
  | .negSucc k => (m * 2 ^ (k + 1), false)
  | .ofNat k =>
    let q := m / 2 ^ k
    let r := m % 2 ^ k
    if r = 0 then (q, false)
    else
      let up := match mode with
        | .rne => decide (2 ^ k < 2 * r) || (decide (2 * r = 2 ^ k) && decide (q % 2 = 1))
        | .rtz => false
        | .rdn => neg
        | .rup => !neg
        | .rna => decide (2 ^ k ≤ 2 * r)
      (if up then q + 1 else q, true)

/-- The sign bit of a format put on a magnitude encoding. -/
def FFmt.signed (f : FFmt) (neg : Bool) (mag : Nat) : Nat := if neg then 2 ^ (f.width - 1) + mag else mag

/-- The encoding of infinity; formats without one give their largest finite value (05 Table 51). -/
def FFmt.infMag : FFmt → Nat
  | .f64 => 0x7FF0000000000000 | .f32 => 0x7F800000 | .f16 => 0x7C00 | .bf16 => 0x7F80
  | .e4m3 => 0x7E | .e5m2 => 0x7C | .e2m1 => 7 | .ts8 => 0

/-- How many bits a number has. -/
def bitLen (m : Nat) : Nat := if m = 0 then 0 else m.log2 + 1

/-- Rounds an exact finite non-zero value into an IEEE-like format (05 R102 to R104, Table 51). -/
def FFmt.roundFin (f : FFmt) (mode : RMode) (neg : Bool) (m : Nat) (e : Int) : Nat × Flags :=
  if m = 0 then (f.signed neg 0, 0)
  else
    let p : Int := f.mant
    let qmin : Int := 1 - (f.bias : Int) - p
    let qu : Int := e + (bitLen m : Int) - 1 - p
    let q := max qu qmin
    let (r, inexact) := roundShift mode neg m (q - e)
    let mag := (q - qmin).toNat * 2 ^ f.mant + r
    if f.maxFinite < mag then
      let res := if f.wide then
          match mode with
          | .rne | .rna => f.infMag
          | .rtz => f.maxFinite
          | .rdn => if neg then f.infMag else f.maxFinite
          | .rup => if neg then f.maxFinite else f.infMag
        else f.maxFinite
      (f.signed neg res, fOF ||| fNX)
    else
      let ru := (roundShift mode neg m (qu - e)).1
      let tiny := decide (qu < qmin) && decide (ru < 2 ^ (qmin + p - qu).toNat)
      (f.signed neg mag, flagIf inexact fNX ||| flagIf (inexact && tiny) fUF)

/-- The ts8 byte nearest to num / 2^k units under a mode: the canonical one (05 R99, R103). -/
def ts8Nearest (mode : RMode) (num : Int) (k : Nat) : Nat :=
  let den : Int := ((2 ^ k : Nat) : Int)
  let better (u v : Int) : Bool :=
    let du := (u * den - num).natAbs
    let dv := (v * den - num).natAbs
    match mode with
    | .rne => decide (du < dv) || (decide (du = dv) && decide (u.natAbs < v.natAbs))
    | .rna => decide (du < dv) || (decide (du = dv) && decide (v.natAbs < u.natAbs))
    | _ => decide (du < dv)
  let allowed (u : Int) : Bool :=
    match mode with
    | .rdn => decide (u * den ≤ num)
    | .rup => decide (num ≤ u * den)
    | .rtz => decide ((u * den).natAbs ≤ num.natAbs) && (decide (u = 0) || decide (u < 0) == decide (num < 0))
    | _ => true
  let best := (List.range 256).foldl (fun (b : Option Nat) x =>
    let u := ts8Units x
    if !allowed u then b
    else match b with
      | none => some x
      | some y => if better u (ts8Units y) then some x else b) none
  match best with
  | none => 0x77
  | some x => if ts8Units x = 0 then 0x77 else x

/-- Rounds an exact finite value into TS8 (05 R103, R104). -/
def roundTs8 (mode : RMode) (neg : Bool) (m : Nat) (e : Int) : Nat × Flags :=
  if m = 0 then (0x77, 0)
  else
    let k := (-(e + 6)).toNat
    let num0 : Nat := m * 2 ^ (e + 6).toNat
    let num : Int := if neg then -(num0 : Int) else num0
    if 128 * 2 ^ k < num0 then (if neg then 0x88 else 0, fOF ||| fNX)
    else
      let x := ts8Nearest mode num k
      let exact := decide (ts8Units x * ((2 ^ k : Nat) : Int) = num)
      let tiny := decide (num0 < 2 ^ k)
      (x, if exact then 0 else fNX ||| flagIf tiny fUF)

/-- Conversion of a number into a format under a mode: Table 51. -/
def FFmt.encode (f : FFmt) (mode : RMode) (x : FV) : Nat × Flags :=
  match f, x with
  | .ts8, .nan _ => (0x77, fNV)
  | .ts8, .inf n => (if n then 0x88 else 0, fNV)
  | .ts8, .fin n m e => roundTs8 mode n m e
  | .e2m1, .nan _ => (0, fNV)
  | f, .nan s => (f.nan, flagIf s fNV)
  | .e4m3, .inf n => (FFmt.e4m3.signed n 0x7E, fNV)
  | .e2m1, .inf n => (FFmt.e2m1.signed n 7, fNV)
  | f, .inf n => (f.signed n f.infMag, 0)
  | f, .fin n m e => f.roundFin mode n m e

/-- Exact sum of two finite signed magnitudes; an exact zero is +0 unless both signs are negative (05 R102). -/
def addFin (n1 : Bool) (m1 : Nat) (e1 : Int) (n2 : Bool) (m2 : Nat) (e2 : Int) : FV :=
  let e := min e1 e2
  let a : Int := (m1 * 2 ^ (e1 - e).toNat : Nat)
  let b : Int := (m2 * 2 ^ (e2 - e).toNat : Nat)
  let s := (if n1 then -a else a) + (if n2 then -b else b)
  if s = 0 then .fin (n1 && n2) 0 0 else .fin (decide (s < 0)) s.natAbs e

/-- Exact addition of numbers; ∞ − ∞ and NaN give NaN with the invalid flag where IEEE 754 says. -/
def FV.add (x y : FV) : FV × Flags :=
  match x, y with
  | .nan s, b => (.nan false, flagIf (s || b.isSig) fNV)
  | a, .nan s => (.nan false, flagIf (s || a.isSig) fNV)
  | .inf a, .inf b => if a = b then (.inf a, 0) else (.nan false, fNV)
  | .inf a, _ => (.inf a, 0)
  | _, .inf b => (.inf b, 0)
  | .fin n1 m1 e1, .fin n2 m2 e2 => (addFin n1 m1 e1 n2 m2 e2, 0)

/-- Exact product of numbers. -/
def FV.mul (x y : FV) : FV × Flags :=
  match x, y with
  | .nan s, b => (.nan false, flagIf (s || b.isSig) fNV)
  | a, .nan s => (.nan false, flagIf (s || a.isSig) fNV)
  | .inf a, .inf b => (.inf (a != b), 0)
  | .inf a, .fin n m _ => if m = 0 then (.nan false, fNV) else (.inf (a != n), 0)
  | .fin n m _, .inf a => if m = 0 then (.nan false, fNV) else (.inf (a != n), 0)
  | .fin n1 m1 e1, .fin n2 m2 e2 => (.fin (n1 != n2) (m1 * m2) (e1 + e2), 0)

/-- Quotient with a sticky bit, exact enough for every format. -/
def FV.div (x y : FV) : FV × Flags :=
  match x, y with
  | .nan s, b => (.nan false, flagIf (s || b.isSig) fNV)
  | a, .nan s => (.nan false, flagIf (s || a.isSig) fNV)
  | .inf _, .inf _ => (.nan false, fNV)
  | .inf a, .fin n _ _ => (.inf (a != n), 0)
  | .fin n _ _, .inf a => (.zero (a != n), 0)
  | .fin n1 m1 e1, .fin n2 m2 e2 =>
    if m2 = 0 then (if m1 = 0 then (.nan false, fNV) else (.inf (n1 != n2), fDZ))
    else if m1 = 0 then (.zero (n1 != n2), 0)
    else
      let k := 64 + bitLen m2
      let q := m1 * 2 ^ k / m2
      let st := if m1 * 2 ^ k % m2 = 0 then 0 else 1
      (.fin (n1 != n2) (2 * q + st) (e1 - e2 - k - 1), 0)

/-- The integer square root, bit by bit from bit `b` down. -/
def isqrt (n : Nat) : Nat → Nat → Nat
  | 0, r => r
  | b + 1, r => isqrt n b (if (r + 2 ^ b) * (r + 2 ^ b) ≤ n then r + 2 ^ b else r)

/-- Square root with a sticky bit. -/
def FV.sqrt (x : FV) : FV × Flags :=
  match x with
  | .nan s => (.nan false, flagIf s fNV)
  | .inf n => if n then (.nan false, fNV) else (.inf false, 0)
  | .fin n m e =>
    if m = 0 then (.zero n, 0)
    else if n then (.nan false, fNV)
    else
      let sh := 128 + ((e % 2 + 2) % 2).toNat
      let big := m * 2 ^ sh
      let r := isqrt big (bitLen big / 2 + 1) 0
      let st := if r * r = big then 0 else 1
      (.fin false (2 * r + st) ((e - sh) / 2 - 1), 0)

/-- a * b + c with one rounding to come; ∞ * 0 is invalid whatever c is (06 R126). -/
def FV.fma (a b c : FV) : FV × Flags :=
  let (p, f1) := a.mul b
  let (s, f2) := p.add c
  (s, f1 ||| f2)

/-- Order of two numbers that are not NaN, −0 equal to +0. -/
def FV.lt (x y : FV) : Bool :=
  match x, y with
  | .nan _, _ => false
  | _, .nan _ => false
  | .inf a, .inf b => a && !b
  | .inf a, .fin _ _ _ => a
  | .fin _ _ _, .inf b => !b
  | .fin n1 m1 e1, .fin n2 m2 e2 =>
    let e := min e1 e2
    let a : Int := (m1 * 2 ^ (e1 - e).toNat : Nat)
    let b : Int := (m2 * 2 ^ (e2 - e).toNat : Nat)
    decide ((if n1 then -a else a) < (if n2 then -b else b))

/-- Equality of two numbers that are not NaN, −0 equal to +0. -/
def FV.eqv (x y : FV) : Bool := !x.isNan && !y.isNan && !x.lt y && !y.lt x

/-- Whether a number is zero. -/
def FV.isZero : FV → Bool
  | .fin _ m _ => decide (m = 0)
  | _ => false

/-- The order of Table 53, −0 below +0. -/
def FV.ltSigned (x y : FV) : Bool := x.lt y || (x.isZero && y.isZero && x.neg? && !y.neg?)

/-- minimumNumber, maximumNumber and the propagating forms on encodings (05 Table 53). -/
def fminmax (f : FFmt) (isMax prop : Bool) (a b : Nat) : Nat × Flags :=
  let x := f.decode a
  let y := f.decode b
  let nv := flagIf (x.isSig || y.isSig) fNV
  if x.isNan && y.isNan then (f.nan, nv)
  else if x.isNan then (if prop then f.nan else b, nv)
  else if y.isNan then (if prop then f.nan else a, nv)
  else if isMax then (if x.ltSigned y then b else a, 0)
  else (if y.ltSigned x then b else a, 0)

/-- An operation on decoded numbers rounded once to nearest even (05 R102). -/
def FFmt.op1 (f : FFmt) (g : FV → FV × Flags) (a : Nat) : Nat × Flags :=
  let (r, fl) := g (f.decode a)
  let (b, fl') := f.encode .rne r
  (b, fl ||| fl')

/-- The same with two operands. -/
def FFmt.op2 (f : FFmt) (g : FV → FV → FV × Flags) (a b : Nat) : Nat × Flags :=
  let (r, fl) := g (f.decode a) (f.decode b)
  let (b, fl') := f.encode .rne r
  (b, fl ||| fl')

/-- Fused multiply-add a * b + c on encodings, the product negated when `n`. -/
def FFmt.fmaOp (f : FFmt) (n : Bool) (a b c : Nat) : Nat × Flags :=
  let x := f.decode a
  let (r, fl) := FV.fma (if n then x.negate else x) (f.decode b) (f.decode c)
  let (b, fl') := f.encode .rne r
  (b, fl ||| fl')

/-- Subtraction of numbers. -/
def FV.sub (x y : FV) : FV × Flags := x.add y.negate

/-- A number rounded to an integer and clamped to [lo, hi] (05 R105). -/
def FV.toInt (mode : RMode) (x : FV) (lo hi : Int) : Int × Flags :=
  match x with
  | .nan _ => (0, fNV)
  | .inf n => (if n then lo else hi, fNV)
  | .fin n m e =>
    let (r, inexact) := roundShift mode n m (-e)
    let v : Int := if n then -(r : Int) else r
    if v < lo then (lo, fNV) else if hi < v then (hi, fNV) else (v, flagIf inexact fNX)

/-- The class of Table 62. -/
def fclassBits (f : FFmt) (a : Nat) : Nat :=
  match f.decode a with
  | .nan s => if s then 256 else 512
  | .inf n => if n then 1 else 128
  | .fin n m _ =>
    let sub := decide (m < 2 ^ f.mant)
    if m = 0 then (if n then 8 else 16)
    else if n then (if sub then 4 else 2) else (if sub then 32 else 64)

/-- Multiplies a number by 2^k exactly. -/
def FV.scale (x : FV) (k : Int) : FV :=
  match x with
  | .fin n m e => .fin n m (e + k)
  | y => y

/-- Rounds a number to an integral value under a mode (07 R151). -/
def FV.integral (mode : RMode) (x : FV) : FV × Flags :=
  match x with
  | .fin n m e =>
    if m = 0 then (.fin n 0 0, 0)
    else
      let (r, inexact) := roundShift mode n m (-e)
      (.fin n r 0, flagIf inexact fNX)
  | .nan s => (.nan false, flagIf s fNV)
  | y => (y, 0)

end Sys2Proof.Machine
end

