-- ==== Sys2Proof/Machine/Operands.lean ====
section
/-! DEFINITION. The operand forms: registers, widths, immediates, orders and vector modifiers as an instruction's words
give them, with the fallback values of 02 Table 22 (02 R36 to R46, 06 R116). -/

namespace Sys2Proof

open Machine

/-- Whether the instruction has PREG (02 R42). -/
def Op.hasPreg (o : Op) : Bool := o.preg.isSome

/-- Register fields D, A and B, 5 bits each (02 R40). Without PREG the high bits are 0 and B is 0. -/
def Op.rd (o : Op) : Nat :=
  (o.opnd.extractLsb' 5 4).toNat + (match o.preg with | some p => if p.d4 then 16 else 0 | none => 0)

def Op.ra (o : Op) : Nat :=
  (o.opnd.extractLsb' 1 4).toNat + (match o.preg with | some p => if p.a4 then 16 else 0 | none => 0)

def Op.rb (o : Op) : Nat :=
  match o.preg with
  | some p => p.b.toNat + (if p.b4 then 16 else 0)
  | none => 0

/-- A predicate register is named by the low 3 bits of its field (02 R37). -/
def Op.pd (o : Op) : Nat := o.rd % 8
def Op.pa (o : Op) : Nat := o.ra % 8
def Op.pb (o : Op) : Nat := o.rb % 8

/-- The two sources of an F2 form: D and A without PREG, A and B with it (02 R37, R42, 06 R116). -/
def Op.s1 (o : Op) : Nat := if o.hasPreg then o.ra else o.rd
def Op.s2 (o : Op) : Nat := if o.hasPreg then o.rb else o.ra

/-- PREG W (02 R42). -/
def Op.w (o : Op) : Nat := match o.preg with | some p => p.w.toNat | none => 0

/-- The integer width n that W names (02 R42). -/
def Op.width (o : Op) : Nat := 64 / 2 ^ o.w

/-- The size of a scalar access in bytes and its log2, by W (08 R175). -/
def Op.bytes (o : Op) : Nat := o.width / 8
def Op.logBytes (o : Op) : Nat := 3 - o.w

/-- The float format that W names (02 R42). -/
def Op.ffmt (o : Op) : FFmt :=
  match o.w with
  | 0 => .f64
  | 1 => .f32
  | 2 => .f16
  | _ => .bf16

/-- k: the first `n` PIMM chunks, the lowest first (02 R41). -/
def kOf : Nat → List (BitVec 9) → Nat
  | 0, _ => 0
  | _, [] => 0
  | n + 1, p :: ps => p.toNat + 512 * kOf n ps

/-- k of up to three PIMMs. -/
def Op.k (o : Op) : Nat := kOf 3 o.pimm

/-- k of the first PIMM alone; 0 without one. -/
def Op.k1 (o : Op) : Nat := kOf 1 o.pimm

/-- k of the first two PIMMs. -/
def Op.k2 (o : Op) : Nat := kOf 2 o.pimm

/-- The number of PIMMs used, at most three. -/
def Op.nImm (o : Op) : Nat := min 3 o.pimm.length

/-- `x`, n bits wide, read as two's complement (00 Table 3). -/
def sextNat (n x : Nat) : Int := if 2 * (x % 2 ^ n) < 2 ^ n then (x % 2 ^ n : Nat) else (x % 2 ^ n : Nat) - (2 ^ n : Nat)

/-- The FI immediate before extension and its width (02 Table 16). -/
def Op.fiRaw (o : Op) : Nat := (o.opnd.extractLsb' 0 5).toNat + 32 * o.k
def Op.fiWidth (o : Op) : Nat := 5 + 9 * o.nImm

/-- The signed FI immediate. -/
def Op.fiImm (o : Op) : Int := sextNat o.fiWidth o.fiRaw

/-- The signed FB immediate (02 Table 16). -/
def Op.fbImm (o : Op) : Int := sextNat (9 + 9 * o.nImm) (o.opnd.toNat + 512 * o.k)

/-- The signed byte offset of a memory form; 0 without PIMM (02 Table 16). -/
def Op.off (o : Op) : Int := if o.nImm = 0 then 0 else sextNat (9 * o.nImm) o.k

/-- The order field; plain without PPAG (02 R43). -/
def Op.orderRaw (o : Op) : Nat := match o.ppag with | some p => p.order.toNat | none => 0

/-- The scope field; package without PPAG (02 R43). -/
def Op.scope (o : Op) : Nat := match o.ppag with | some p => p.scope.toNat | none => 2

/-- The orders of Table 17. -/
inductive MemOrder where
  | plain | acq | rel | ar | sc | rlx | eng
  deriving DecidableEq, Repr

/-- The order that a form's class takes for an order value, and whether it is a substitute (02 R45, Table 19). -/
def orderOf (c : OrdClass) (raw : Nat) : MemOrder × Bool :=
  match c, raw with
  | .none, 0 => (.plain, false)
  | .none, _ => (.plain, true)
  | .atomic, 0 => (.rlx, false)
  | _, 0 => (.plain, false)
  | .load, 1 => (.acq, false)
  | .store, 1 => (.rlx, true)
  | .atomic, 1 => (.acq, false)
  | .send, 1 => (.plain, true)
  | .engine, 1 => (.plain, true)
  | .load, 2 => (.plain, true)
  | _, 2 => (.rel, false)
  | .load, 3 => (.acq, true)
  | .atomic, 3 => (.ar, false)
  | _, 3 => (.rel, true)
  | .engine, 4 => (.rel, true)
  | _, 4 => (.sc, false)
  | .engine, 5 => (.plain, true)
  | _, 5 => (.rlx, false)
  | .load, 6 => (.plain, true)
  | .atomic, 6 => (.rlx, true)
  | _, 6 => (.eng, false)
  | .atomic, _ => (.rlx, false)
  | _, _ => (.plain, false)

/-- An instruction's order. -/
def Form.order (f : Form) (o : Op) : MemOrder := (orderOf f.cls o.orderRaw).1

/-- The element-type field; its default is 2 on every vector page (02 R44). -/
def Op.et (o : Op) : Nat := match o.pvec with | some p => p.et.toNat | none => 2

/-- The governing predicate register (02 R44). -/
def Op.pr (o : Op) : Nat := match o.pvec with | some p => p.pr.toNat | none => 0

/-- Zeroing (02 R44). -/
def Op.z (o : Op) : Bool := match o.pvec with | some p => p.z | none => false

/-- The raw shape field (02 R44). -/
def Op.sh (o : Op) : Nat := match o.pvec with | some p => p.sh.toNat | none => 0

/-- The bits that a vector form's shape covers; a gang shape on a form that has none is full (02 Tables 18 and 22). -/
def Op.shapeBits (o : Op) : Nat :=
  match o.sh with
  | 1 => 1024
  | 2 => 512
  | _ => 2048

/-- Integer element types of page 2: width and signedness (02 Table 18). -/
def Op.elemBits (o : Op) : Nat := 8 * 2 ^ (o.et % 4)
def Op.signed (o : Op) : Bool := decide (o.et < 4)

/-- Float element types of page 3; the narrow types are computed as bf16 (02 Tables 18 and 22). -/
def Op.vffmt (o : Op) : FFmt :=
  match o.et with
  | 1 => .f16
  | 2 => .f32
  | 3 => .f64
  | _ => .bf16

/-- Every element type of pages 3 and 4 (02 Table 18). -/
def etFmt : Nat → FFmt
  | 0 => .bf16
  | 1 => .f16
  | 2 => .f32
  | 3 => .f64
  | 4 => .e4m3
  | 5 => .e5m2
  | 6 => .e2m1
  | _ => .ts8

/-- The format that ET names on a conversion (07 R153). -/
def Op.etF (o : Op) : FFmt := etFmt o.et

/-- The format that k[2:0] names (07 Table 74). -/
def Op.kF (o : Op) : FFmt := etFmt (o.k1 % 8)

/-- The format that k[1:0] names on `vquant` and `vdequant`. -/
def Op.kqF (o : Op) : FFmt := etFmt (o.k1 % 4)

/-- The integer type that k[2:0] names: its width, and whether it is unsigned. -/
def Op.kInt (o : Op) : Nat × Bool := (8 * 2 ^ (o.k1 % 4), decide (4 ≤ o.k1 % 8))

/-- The part field k[6:3] (07 R153). -/
def Op.part (o : Op) : Nat := o.k1 / 8 % 16

end Sys2Proof
end

