-- ==== Sys2Proof/Machine/Flags.lean ====
section
/-! DEFINITION. The flag registers: the fallback cases that set WARN (02 R45, R46, R49, R50, Table 22) and the IEEE
flags of FFLAGS (05 R106, R107). -/

namespace Sys2Proof

open Machine

/-- Bits of WARN (02 Table 23). -/
def wORD : BitVec 7 := 0x01
def wVEC : BitVec 7 := 0x02
def wWID : BitVec 7 := 0x04
def wTYPE : BitVec 7 := 0x08
def wSCOPE : BitVec 7 := 0x10
def wBT : BitVec 7 := 0x20
def wRSV : BitVec 7 := 0x40

/-- A warning when a condition holds. -/
def warnIf (b : Bool) (w : BitVec 7) : BitVec 7 := if b then w else 0

/-- Pages 2, 3 and 4 are the vector pages (02 R47). -/
def Form.isVector (f : Form) : Bool := decide (2 ≤ f.page ∧ f.page ≤ 4)

/-- The gang forms (02 Table 22, 07 R156). -/
def Form.isGang (f : Form) : Bool := decide (f.page = 4 ∧ 8 ≤ f.op ∧ f.op ≤ 10)

/-- An order that Table 19 replaces, or any order on a form of class none; the value 111 is reserved. -/
def warnOrder (f : Form) (o : Op) : BitVec 7 :=
  if o.orderRaw = 7 then wRSV else warnIf (orderOf f.cls o.orderRaw).2 wORD

/-- A scope on a form of class none. -/
def warnScope (f : Form) (o : Op) : BitVec 7 := warnIf (decide (f.cls = .none) && decide (o.scope ≠ 2)) wSCOPE

/-- PVEC on a scalar page, a gang shape where none belongs, another shape on a gang form, a narrow type on page 3
arithmetic, and reserved PVEC fields. -/
def warnVec (f : Form) (o : Op) : BitVec 7 :=
  match o.pvec with
  | none => warnIf (f.isVector && f.isGang) wVEC
  | some v =>
    if !f.isVector then wVEC
    else
      warnIf (f.isGang && decide (v.sh ≠ 3)) wVEC ||| warnIf (!f.isGang && decide (v.sh = 3)) wVEC |||
      warnIf (decide (f.page = 3) && f.usesEt && !(decide (f.op = 10) || (decide (f.op = 11) && decide (f.sel = some 0))
        || decide (f.op = 12)) && decide (4 ≤ v.et.toNat)) wTYPE |||
      warnIf (decide (f.page = 4 ∧ f.op = 9) && decide (4 ≤ v.et.toNat)) wRSV |||
      warnIf (decide (f.page = 4 ∧ (f.op = 1 ∨ f.op = 2)) && decide (v.et = 6)) wRSV |||
      warnIf ((!f.usesEt && decide (v.et ≠ 0)) || (!f.usesPr && decide (v.pr ≠ 0)) || (!f.usesZ && v.z) ||
        (!f.usesSh && !f.isGang && decide (v.sh ≠ 0))) wRSV

/-- PREG fields that the form does not use. -/
def warnReg (f : Form) (o : Op) : BitVec 7 :=
  match o.preg with
  | none => 0
  | some p =>
    warnIf (f.isVector && decide (p.w ≠ 0)) wWID |||
    warnIf (!f.isVector && !f.usesW && decide (p.w ≠ 0)) wRSV |||
    warnIf ((decide (f.bUse = .none) && (decide (p.b ≠ 0) || p.b4)) ||
      (decide (f.bUse = .p) && (p.b.getLsbD 3 || p.b4)) ||
      ((decide (f.fmt ≠ .f2) || decide (f.aUse = .none) || decide (f.aUse = .p)) && p.a4) ||
      ((decide (f.dUse = .none) || decide (f.dUse = .p)) && p.d4)) wRSV

/-- Base-word fields that the form does not use, with bit 0 of the fence code. -/
def warnField (f : Form) (o : Op) : BitVec 7 :=
  warnIf (match f.fmt with
    | .f2 =>
      (decide (f.dUse = .none) && decide (o.opnd.extractLsb' 5 4 ≠ 0)) ||
      (decide (f.dUse = .p) && o.opnd.getLsbD 8) ||
      (decide (f.aUse = .none) && decide (o.opnd.extractLsb' 1 4 ≠ 0)) ||
      (decide (f.aUse = .p) && o.opnd.getLsbD 4)
    | .fz => decide (f.page = 6 ∧ f.op = 4) && o.opnd.getLsbD 0
    | _ => false) wRSV

/-- The part field of a form that pairs elements of different widths, and the ratio of the widths (07 R149, R150, R153). -/
def Form.part? (f : Form) (o : Op) : Option (Nat × Nat) :=
  let ratio := fun (a b : Nat) => max a b / min a b
  match f.page, f.op, f.sel with
  | 3, 10, some 0 => some (o.part, ratio o.etF.width o.kF.width)
  | 3, 10, _ => some (o.part, ratio o.etF.width o.kInt.1)
  | 3, 11, some 0 => some (o.part, ratio o.etF.width o.kInt.1)
  | 3, 12, _ => some (o.part, ratio o.etF.width o.kqF.width)
  | 2, 20, some 1 => some (o.k1 % 2, if o.elemBits = 64 then 1 else 2)
  | _, _, _ => none

/-- PIMMs or bits of k that the form does not use, the bits of a part field above the part number (07 R150), and the reserved
values with a substitute of `vfrnd` and the invalidations. -/
def warnImm (f : Form) (o : Op) : BitVec 7 :=
  let k := kOf f.kMax o.pimm
  warnIf (decide (f.kMax < o.pimm.length) || decide (k &&& f.kMask ≠ k) ||
    (match f.part? o with | some (q, r) => decide (r ≤ q) | none => false) ||
    (decide (f.page = 3 ∧ f.op = 15 ∧ f.sel = some 1) && decide (5 ≤ k % 8)) ||
    (decide (f.page = 7 ∧ f.op = 2) && decide (k % 4 = 3))) wRSV

/-- Every fallback case of Table 22 that the encoding alone decides. -/
def warnBits (f : Form) (o : Op) : BitVec 7 :=
  warnOrder f o ||| warnScope f o ||| warnVec f o ||| warnReg f o ||| warnField f o ||| warnImm f o |||
    warnIf (f.side && o.t) wBT ||| warnIf o.rsv wRSV

/-- A fallback sets its bits in WARN, and WARNPC when WARN was zero (02 R50). -/
def Machine.CtxRegs.addWarn (r : CtxRegs) (pc : Word) (w : BitVec 7) : CtxRegs :=
  if w = 0 then r
  else { r with warn := r.warn ||| w.setWidth 64, warnpc := if r.warn = 0 then pc &&& ~~~1#64 else r.warnpc }

/-- FFLAGS with flags ORed in (05 R106). -/
def Machine.CtxRegs.addFlags (r : CtxRegs) (f : Flags) : CtxRegs := { r with fflags := r.fflags ||| f.setWidth 64 }

/-! ## The fence sets and the order of a form (10 R211 to R217) -/

/-- The fence sets: loads, stores, sends, engine commands in bits 0 to 3 (10 Table 99). -/
def setL : BitVec 4 := 1
def setS : BitVec 4 := 2
def setM : BitVec 4 := 4
def setE : BitVec 4 := 8
def setAll : BitVec 4 := 15

/-- The sets of an operation by its ordering class (10 Table 99). -/
def OrdClass.sets : OrdClass → BitVec 4
  | .none => 0
  | .load => setL
  | .store => setS
  | .atomic => setL ||| setS
  | .send => setM
  | .engine => setM ||| setE

/-- The forms that set F to 1 are performed after every earlier load and store (10 R217). -/
def Form.setsF (f : Form) : Bool :=
  (decide (f.page = 1) && decide (f.op = 10)) || (decide (f.page = 4) && decide (f.op = 3) && decide (f.sel = some 1))

/-- The full/empty loads, which are performed before every later load and store (10 R217). -/
def Form.loadsF (f : Form) : Bool :=
  (decide (f.page = 1) && decide (f.op = 9)) || (decide (f.page = 4) && decide (f.op = 3) && decide (f.sel = some 0))

/-- `start` and `eret` (10 R216, 11 R226). -/
def Form.isStart (f : Form) : Bool := decide (f.page = 6 ∧ f.op = 10 ∧ f.sel = some 0)
def Form.isEret (f : Form) : Bool := decide (f.page = 7 ∧ f.op = 0 ∧ f.sel = some 0)

/-- The waits and takes that act as acquires whatever their order field says (10 R215, R218). -/
def Form.acquires (f : Form) : Bool :=
  (decide (f.page = 5) && (decide (f.op = 1) || decide (f.op = 3) || decide (f.op = 5) ||
    (decide (f.op = 6) && decide (f.sel = some 0)))) ||
  (decide (f.page = 6) && ((decide (f.op = 8) && decide (f.sel = some 1)) || (decide (f.op = 9) && decide (f.sel = some 0)) ||
    (decide (f.op = 10) && decide (f.sel = some 1)))) ||
  decide (f.page = 0 ∧ f.op = 26 ∧ f.sel = some 4)

/-- The earlier operations after which an operation must be performed, by sets (10 R212, R213, R216, R217). -/
def Form.waitsFor (f : Form) (o : Op) : BitVec 4 :=
  let byOrder : BitVec 4 := match f.order o with
    | .rel | .ar | .sc => setAll
    | .eng => setS ||| setE
    | _ => 0
  byOrder ||| (if f.isEret then setAll else 0) ||| (if f.setsF || f.isStart then setL ||| setS else 0)

/-- `sched` removes a task, which is a load of 10 Table 99; the other minor codes of its opcode are in no set. -/
def Form.isSched (f : Form) : Bool := decide (f.page = 0 ∧ f.op = 26 ∧ f.sel = some 4)

/-- The fence sets of a form's own operation (10 Table 99). -/
def Form.sets (f : Form) : BitVec 4 := if f.isSched then setL else f.cls.sets

/-- `ldc`, which through a reply slot is a full/empty load (08 R175). -/
def Form.isLdc (f : Form) : Bool := decide (f.page = 0 ∧ f.op = 16 ∧ f.sel = some 0)

/-- The later operations that must wait until an operation is performed, by sets (10 R212, R213, R217). -/
def Form.blocks (f : Form) (o : Op) : BitVec 4 :=
  let byOrder : BitVec 4 := match f.order o with
    | .acq | .ar | .sc => setAll
    | .eng => setE
    | _ => 0
  byOrder ||| (if f.acquires then setAll else 0) ||| (if f.loadsF then setL ||| setS else 0)

end Sys2Proof
end

