-- ==== Sys2Proof/Machine/Mem.lean ====
section
/-! DEFINITION. Memory: bytes, the F, C and poison marks of granules, ownership of lines by engines (08 R160 to R163,
11 R228, 01 R20). A byte is named by its location: the 40-bit physical address in stack memory, or
2^40 + core × 2^17 + offset in a core's local store. -/

namespace Sys2Proof.Machine

/-- Where local stores begin among the locations. -/
def lsBase : Nat := 2 ^ 40

/-- The location of an offset in a core's local store. -/
def lsLoc (core off : Nat) : Nat := lsBase + core * 2 ^ 17 + off

/-- Whether a location lies in stack memory. -/
def isStack (loc : Nat) : Bool := decide (loc < lsBase)

/-- The core of a local-store location. -/
def locCore (loc : Nat) : Nat := (loc - lsBase) / 2 ^ 17

/-- The offset of a local-store location in its core's store. -/
def locOff (loc : Nat) : Nat := (loc - lsBase) % 2 ^ 17

/-- The bank of a local-store location. -/
def locBank (loc : Nat) : Nat := locOff loc / 2 ^ 14

/-- A byte of memory that nothing has written reads as zero. DESIGN CHOICE (log 3). -/
def unwritten : Byte := 0

/-- The canonical form of the memory: addresses strictly rising, and no entry equal to what an unlisted address reads
as. -/
def Memory.wf (m : List Host.Cell) : Bool := Store.wf unwritten m

/-- One byte. -/
def State.byte (s : State) (loc : Nat) : Byte := Store.get unwritten s.mem loc

/-- `n` bytes from a location, the lowest first. -/
def State.bytes (s : State) (loc : Nat) : Nat → List Byte
  | 0 => []
  | n + 1 => s.byte loc :: s.bytes (loc + 1) n

/-- The little-endian number that bytes hold (00 R6). -/
def leNat : List Byte → Nat
  | [] => 0
  | b :: bs => b.toNat + 256 * leNat bs

/-- The `n` low bytes of a number, little-endian (00 R6). -/
def toLE (x : Nat) : Nat → List Byte
  | 0 => []
  | n + 1 => BitVec.ofNat 8 x :: toLE (x / 256) n

/-- A little-endian number of `n` bytes in memory. -/
def State.nat (s : State) (loc n : Nat) : Nat := leNat (s.bytes loc n)

/-- An 8-byte word of memory. -/
def State.word (s : State) (loc : Nat) : Word := BitVec.ofNat 64 (s.nat loc 8)

/-- Writes bytes at consecutive locations. -/
def writeMem (m : List Host.Cell) (loc : Nat) : List Byte → List Host.Cell
  | [] => m
  | b :: bs => writeMem (Store.set unwritten m loc b) (loc + 1) bs

/-- PPN, X and SCAN of a leaf: the fields whose change ends the acceptance of a page (08 R172). -/
def leafMask : Word := 0xFFFFFF0108#64

/-- After a write, an accepted leaf keeps ACC exactly when PPN, X and SCAN are unchanged (08 R172). -/
def fixAcc (s : State) (lo n : Nat) : List (Nat × Word) → State
  | [] => s
  | (e, w) :: rest =>
    let s := fixAcc s lo n rest
    if lo < e + 8 ∧ e < lo + n then
      let leaf := s.word e
      if leaf &&& leafMask = w then { s with mem := writeMem s.mem e (toLE ((leaf ||| 0x200#64).toNat) 8) }
      else { s with mem := writeMem s.mem e (toLE ((leaf &&& ~~~0x200#64).toNat) 8),
                    accepted := Store.set 0 s.accepted e 0 }
    else s

/-- ARM and N of an injector's control word (11 Table 123). -/
def injArmed (w : Word) : Bool := w.getLsbD 63
def injN (w : Word) : Nat := (w.extractLsb' 0 32).toNat

/-- The injector of a PAD or FIFO bank that a write of `n` bytes sets off: an armed one that names a granule written
(11 R236). Injectors are numbered 8 × core + bank. -/
def State.injMet (s : State) (loc n : Nat) : List Nat :=
  if isStack loc || n = 0 then []
  else
    let k := s.core (locCore loc)
    let w := Store.get 0 k.injectors (locBank loc)
    let g := lsLoc (locCore loc) (locBank loc * 16384 + 16 * injN w)
    if injArmed w && (k.bank (locBank loc)).role != .way && decide (g < loc + n ∧ loc < g + 16) then
      [8 * locCore loc + locBank loc]
    else []

/-- Writes bytes to memory. A store to a page-table leaf writes A, D and, in a leaf that is not accepted, ACC as it writes
any byte, although 08 Table 85 gives these fields to the hardware: what a leaf in memory is, a store cannot know. A walk that
uses the leaf takes such an ACC away. DESIGN CHOICE (log 67). -/
def State.write (s : State) (loc : Nat) (bs : List Byte) : State :=
  let met := (s.injMet loc bs.length).filter (fun i => !s.injDue.contains i)
  fixAcc { s with mem := writeMem s.mem loc bs, injDue := s.injDue ++ met } loc bs.length s.accepted

/-- The marks of the granule of a location: F, C and poison in bits 0, 1 and 2 (08 R163, 11 R228). -/
def State.marks (s : State) (loc : Nat) : BitVec 3 := Store.get 0 s.gran (loc / 16)

def State.fBit (s : State) (loc : Nat) : Bool := (s.marks loc).getLsbD 0
def State.cBit (s : State) (loc : Nat) : Bool := (s.marks loc).getLsbD 1
def State.poison (s : State) (loc : Nat) : Bool := (s.marks loc).getLsbD 2

/-- Writes the marks of the granule of a location. -/
def State.setMarks (s : State) (loc : Nat) (f c p : Bool) : State :=
  { s with gran := Store.set 0 s.gran (loc / 16) (BitVec.ofBool p ++ BitVec.ofBool c ++ BitVec.ofBool f) }

/-- Writes F. -/
def State.setF (s : State) (loc : Nat) (f : Bool) : State := s.setMarks loc f (s.cBit loc) (s.poison loc)

/-- Writes C. -/
def State.setC (s : State) (loc : Nat) (c : Bool) : State := s.setMarks loc (s.fBit loc) c (s.poison loc)

/-- Writes the poison mark. -/
def State.setPoison (s : State) (loc : Nat) (p : Bool) : State := s.setMarks loc (s.fBit loc) (s.cBit loc) p

/-- The granule at a location with its C bit. -/
def State.granule (s : State) (loc : Nat) : GReg := ⟨BitVec.ofNat 128 (s.nat (loc / 16 * 16) 16), s.cBit loc⟩

/-- The first locations of the granules that `n` bytes at `loc` touch. -/
def granules (loc n : Nat) : List Nat :=
  if n = 0 then [] else (List.range ((loc + n - 1) / 16 - loc / 16 + 1)).map (fun i => (loc / 16 + i) * 16)

/-- Whether `n` bytes at `loc` cover the granule that begins at `g` whole. -/
def covers (loc n g : Nat) : Bool := decide (loc ≤ g ∧ g + 16 ≤ loc + n)

/-- A poisoned granule that a write of `n` bytes would touch only in part (11 R228). -/
def State.partPoison (s : State) (loc n : Nat) : Option Nat :=
  (granules loc n).find? (fun g => s.poison g && !covers loc n g)

/-- A poisoned granule that a read of `n` bytes would touch (11 R228). -/
def State.readPoison (s : State) (loc n : Nat) : Option Nat := (granules loc n).find? s.poison

/-- A store of bytes: C is cleared in every granule touched, F is kept or set, and poison is cleared where all 16 bytes
are written (04 R90, 08 R175, 11 R228). -/
def State.store (s : State) (loc : Nat) (bs : List Byte) (setF : Bool) : State :=
  let s := (granules loc bs.length).foldl (fun s g =>
    s.setMarks g (setF || s.fBit g) false (s.poison g && !covers loc bs.length g)) s
  s.write loc bs

/-- A store of a whole granule with its tag (08 R175). -/
def State.storeGranule (s : State) (loc : Nat) (v : GReg) : State :=
  (s.setMarks loc (s.fBit loc) v.tag false).write (loc / 16 * 16) (toLE v.data.toNat 16)

/-- Writes bytes each at its own location. -/
def State.writeEach (s : State) : List (Nat × Byte) → State
  | [] => s
  | (l, b) :: xs => (s.write l [b]).writeEach xs

/-- One landing write of bytes that lie in the granule of `g`, each with its poison: F becomes 1 and C 0, poison is cleared when
all 16 bytes are written and set when a landed byte is poisoned (01 R21, 10 R211, 11 R228). -/
def State.landGranule (s : State) (g : Nat) (xs : List Landing) : State :=
  let all := (List.range 16).all (fun i => xs.any (fun x => x.loc == g / 16 * 16 + i))
  (s.setMarks g true false (xs.any Landing.pois || (s.poison g && !all))).writeEach (xs.map (fun x => (x.loc, x.byte)))

/-- A landing write of an engine: F becomes 1 and C the bit given in every granule touched (01 R21); poison is cleared
where all 16 bytes are written and set when the landed data is poisoned. -/
def State.landBytes (s : State) (loc : Nat) (bs : List Byte) (c pois : Bool) : State :=
  let s := (granules loc bs.length).foldl (fun s g =>
    s.setMarks g true c (pois || (s.poison g && !covers loc bs.length g))) s
  s.write loc bs

/-- The line of a location: 64 bytes in a local store, 256 in stack memory (01 R20). -/
def lineOf (loc : Nat) : Nat := if isStack loc then loc / 256 * 256 else loc / 64 * 64

/-- The bytes of a line. -/
def lineSize (loc : Nat) : Nat := if isStack loc then 256 else 64

/-- The command that owns the line of a location; 0 when none does. -/
def State.owner (s : State) (loc : Nat) : Nat := Store.get 0 s.owned (lineOf loc)

/-- The lines that `n` bytes at `loc` touch, none of which lies across two memories. -/
def linesOf (loc n : Nat) : List Nat :=
  if n = 0 then []
  else (List.range ((loc + n - 1) / lineSize loc - loc / lineSize loc + 1)).map
    (fun i => (loc / lineSize loc + i) * lineSize loc)

/-- Whether an engine owns a byte of `n` bytes at `loc`. -/
def State.ownedAny (s : State) (loc n : Nat) : Bool := (linesOf loc n).any (fun l => s.owner l != 0)

/-- Whether a command that is none of `own` owns a byte of `n` bytes at `loc`. -/
def State.ownedBut (s : State) (own : List Nat) (loc n : Nat) : Bool :=
  (linesOf loc n).any (fun l => s.owner l != 0 && !own.contains (s.owner l))

/-- Whether a command other than `cmd` owns a byte of `n` bytes at `loc`. -/
def State.ownedOther (s : State) (cmd loc n : Nat) : Bool := s.ownedBut [cmd] loc n

/-- Whether a command owns every line that it has claimed. -/
def State.ownsAll (s : State) (cmd : Nat) : Bool := !s.claims.any (fun c => c.2 == cmd)

/-- The sixteen bytes of each granule of a value list, as records and messages are laid in memory. -/
def granuleBytes (gs : List GReg) : List Byte := gs.flatMap (fun g => toLE g.data.toNat 16)

/-- Writes granules at consecutive locations, with their tags where `tags` allows them (04 R90). -/
def State.storeGranules (s : State) (loc : Nat) (tags : Bool) : List GReg → State
  | [] => s
  | g :: gs => (s.storeGranule loc (g.withTag (g.tag && tags))).storeGranules (loc + 16) tags gs

/-- Reads `n` granules from a location, with their C bits where `tags` allows them. -/
def State.granulesAt (s : State) (loc : Nat) (tags : Bool) : Nat → List GReg
  | 0 => []
  | n + 1 => (let g := s.granule loc; g.withTag (g.tag && tags)) :: s.granulesAt (loc + 16) tags n

end Sys2Proof.Machine
end

