-- ==== Sys2Proof/Machine/Access.lean ====
section
/-! DEFINITION. How a home performs an access, the requests that wait at homes, and how answers reach their contexts
(01 R22, 08 R174 to R182, 09 R203, 11 R228). -/

namespace Sys2Proof.Machine

/-- What the home does with an access: performs it, keeps it waiting, refuses it because it would write a poisoned
granule in part, or finds poison. -/
inductive Perf where
  | done (s : State) (v : RVal)
  | wait
  | refused (loc : Nat)
  | poison (loc : Nat)

/-- The byte a context reads: from its own held lines first (08 R167). -/
def byteOv (s : State) (ov : List Gather) (loc : Nat) : Byte :=
  match ov.find? (fun l => decide (l.loc ≤ loc ∧ loc < l.loc + 64) && l.mask.getLsbD (loc - l.loc)) with
  | some l => l.data.extractLsb' (8 * (loc - l.loc)) 8
  | none => s.byte loc

/-- `n` bytes as a context reads them. -/
def bytesOv (s : State) (ov : List Gather) (loc : Nat) : Nat → List Byte
  | 0 => []
  | n + 1 => byteOv s ov loc :: bytesOv s ov (loc + 1) n

/-- The number a context reads. -/
def natOv (s : State) (ov : List Gather) (loc n : Nat) : Nat := leNat (bytesOv s ov loc n)

/-- The number of bytes of an element. -/
def Elem.size (e : Elem) : Nat := max 1 (e.width / 8)

/-- The bytes that an access touches. -/
def Access.touch (a : Access) : List (Nat × Nat) :=
  match a.op with
  | .load n _ _ => [(a.loc, n)]
  | .loadCap _ _ => [(a.loc, 16)]
  | .loadFlags => [(a.loc / 16 * 16, 16)]
  | .store n _ _ _ => [(a.loc, n)]
  | .storeCap _ => [(a.loc, 16)]
  | .nibble _ _ => [(a.loc, 1)]
  | .amo _ n _ _ => [(a.loc, n)]
  | .casp _ _ _ => [(a.loc, 16)]
  | .setb _ => [(a.loc, 8)]
  | .waitb _ => [(a.loc, 8)]
  | .vload es _ _ => es.map (fun e => (e.loc, e.size))
  | .vstore es _ _ => es.map (fun e => (e.loc, e.size))
  | .pload => [(a.loc, 32)]
  | .pstore _ => [(a.loc, 32)]

/-- Whether an access waits for the release of an owned line; the full/empty loads do not (01 Table 10). -/
def AccOp.recalls : AccOp → Bool
  | .load _ fe _ => fe == .plain
  | .loadCap _ slot => !slot
  | .vload _ fe _ => fe == .plain
  | _ => true

/-- Whether an access counts among the 32 waiting requests of its home (08 R176, 09 R203). -/
def AccOp.counted : AccOp → Bool
  | .load _ fe _ => fe != .plain
  | .loadCap _ slot => slot
  | .store _ _ _ w => w
  | .vload _ fe _ => fe != .plain
  | .waitb _ => true
  | _ => false

/-- The reply slot at a location of a local store, with its core (09 Table 91). -/
def slotAt (loc : Nat) : Option (Nat × Nat) :=
  if isStack loc then none
  else
    let off := locOff loc
    if 0x1FC00 ≤ off then some (locCore loc, (off - 0x1FC00) / 16) else none

/-- Frees the reply slot at a location (09 R198). -/
def State.freeSlotAt (s : State) (loc : Nat) : State :=
  match slotAt loc with
  | some (c, i) => s.modCore c (fun k => { k with slots := Store.set ReplySlot.init k.slots i ReplySlot.init })
  | none => s

/-- The function of an atomic at a width of n bits (08 Table 89): the new value, when one is written. -/
def AmoFn.apply (f : AmoFn) (n : Nat) (old v cmp : Nat) : Option Nat :=
  let sg (x : Nat) : Int := if x < 2 ^ (n - 1) then (x : Int) else (x : Int) - (2 ^ n : Nat)
  match f with
  | .add => some ((old + v) % 2 ^ n)
  | .swp => some v
  | .and => some (old &&& v)
  | .or => some (old ||| v)
  | .smin => some (if sg old ≤ sg v then old else v)
  | .smax => some (if sg v ≤ sg old then old else v)
  | .cas => if old = cmp then some v else none

/-- The value of an element in memory. -/
def Elem.read (s : State) (ov : List Gather) (e : Elem) : Nat :=
  natOv s ov e.loc e.size / 2 ^ e.bit % 2 ^ e.width

/-- Puts the low `w` bits of `x` at bit `lane` of a vector register. -/
def vput (v : VReg) (lane w x : Nat) : VReg :=
  let m : VReg := (BitVec.ofNat 2048 (2 ^ w - 1)) <<< lane
  (v &&& ~~~m) ||| ((BitVec.ofNat 2048 (x % 2 ^ w)) <<< lane)

/-- `w` bits at bit `lane` of a vector register. -/
def vget (v : VReg) (lane w : Nat) : Nat := (v >>> lane).toNat % 2 ^ w

/-- Writes one element's bytes: a 4-bit element keeps the other nibble of its byte (05 R100). -/
def Elem.write (s : State) (e : Elem) (x : Nat) (setF : Bool) : State :=
  let keep := s.nat e.loc e.size
  let y := if e.width < 8 then
      keep - (keep / 2 ^ e.bit % 2 ^ e.width) * 2 ^ e.bit + (x % 2 ^ e.width) * 2 ^ e.bit
    else x
  s.store e.loc (toLE y e.size) setF

/-- Whether an element writes the nibble at bit `bit` of the byte at a location. -/
def Elem.writesNibble (e : Elem) (loc bit : Nat) : Bool :=
  decide (e.loc ≤ loc ∧ loc < e.loc + e.size) && (decide (8 ≤ e.width) || e.bit == bit)

/-- Whether the elements together cover every nibble of a granule. -/
def elemsCover (es : List Elem) (g : Nat) : Bool :=
  (List.range 16).all (fun i => es.any (fun e => e.writesNibble (g + i) 0) && es.any (fun e => e.writesNibble (g + i) 4))

/-- The granules that elements touch. -/
def elemGranules (es : List Elem) : List Nat := (es.map (fun e => e.loc / 16 * 16)).dedup

/-- Performs an access at its home in one step; a load reads through its held lines. -/
def perform (s : State) (a : Access) : Perf :=
  let ov := a.held
  if a.op.recalls && a.touch.any (fun p => s.ownedAny p.1 p.2) then .wait
  else
    match a.op with
    | .load n fe slot =>
      if fe ≠ .plain ∧ !s.fBit a.loc then .wait
      else match s.readPoison a.loc n with
        | some g => .poison g
        | none =>
          let v := RVal.g (GReg.ofWord (BitVec.ofNat 64 (natOv s ov a.loc n)))
          let s1 := if fe = .waitClear then s.setF a.loc false else s
          .done (if slot ∧ fe = .waitClear then s1.freeSlotAt a.loc else s1) v
    | .loadCap lc slot =>
      if slot ∧ !s.fBit a.loc then .wait
      else match s.readPoison a.loc 16 with
        | some g => .poison g
        | none =>
          let held := ov.any (fun l => decide (l.loc / 64 = a.loc / 64) && (l.mask >>> (a.loc - l.loc)).setWidth 16 != 0)
          let g : GReg := ⟨BitVec.ofNat 128 (natOv s ov a.loc 16), s.cBit a.loc && lc && !held⟩
          .done (if slot then (s.setF a.loc false).freeSlotAt a.loc else s) (.g g)
    | .loadFlags =>
      match s.readPoison a.loc 1 with
      | some g => .poison g
      | none => .done s (.g (GReg.ofWord (BitVec.ofNat 64 ((s.fBit a.loc).toNat + 2 * (s.cBit a.loc).toNat))))
    | .store n v setF waitE =>
      if waitE ∧ s.fBit a.loc then .wait
      else match s.partPoison a.loc n with
        | some g => .refused g
        | none => .done (s.store a.loc (toLE v.toNat n) setF) .none
    | .storeCap v => .done (s.storeGranule a.loc v) .none
    | .nibble high v =>
      match s.partPoison a.loc 1 with
      | some g => .refused g
      | none =>
        let b := s.byte a.loc
        let b' := if high then v ++ b.extractLsb' 0 4 else b.extractLsb' 4 4 ++ v
        .done (s.store a.loc [b'] false) .none
    | .amo f n v cmp =>
      match s.readPoison a.loc n with
      | some g => .poison g
      | none =>
        let old := s.nat a.loc n
        let r := RVal.g (GReg.ofWord (BitVec.ofNat 64 old))
        match f.apply (8 * n) old (v.toNat % 2 ^ (8 * n)) (cmp.toNat % 2 ^ (8 * n)) with
        | some x => .done (s.store a.loc (toLE x n) false) r
        | none => .done s r
    | .casp cmp new lc =>
      match s.readPoison a.loc 16 with
      | some g => .poison g
      | none =>
        let old := s.granule a.loc
        let s1 := if old = cmp then s.storeGranule a.loc new else s
        .done s1 (.g (old.withTag (old.tag && lc)))
    | .setb v =>
      match s.partPoison a.loc 8 with
      | some g => .refused g
      | none => .done (s.store a.loc (toLE ((s.word a.loc) ||| v).toNat 8) false) .none
    | .waitb mask =>
      match s.readPoison a.loc 8 with
      | some g => .poison g
      | none =>
        let w := BitVec.ofNat 64 (natOv s ov a.loc 8)
        if w &&& mask = mask then .done s (.g (GReg.ofWord w)) else .wait
    | .vload es fe base =>
      if fe ≠ .plain ∧ (elemGranules es).any (fun g => !s.fBit g) then .wait
      else match (elemGranules es).find? s.poison with
        | some g => .poison g
        | none => .done s (.v (es.foldl (fun v e => vput v e.lane e.width (e.read s ov)) base))
    | .vstore es v setF =>
      match (elemGranules es).find? (fun g => s.poison g && !elemsCover es g) with
      | some g => .refused g
      | none =>
        let s1 := es.foldl (fun s e => e.write s (vget v e.lane e.width) setF) s
        .done ((elemGranules es).foldl (fun s g => if s.poison g then s.setPoison g false else s) s1) .none
    | .pload =>
      match s.readPoison a.loc 32 with
      | some g => .poison g
      | none => .done s (.p (BitVec.ofNat 256 (natOv s ov a.loc 32)))
    | .pstore v => .done (s.store a.loc (toLE v.toNat 32) false) .none

/-- Why the home of a location refuses an access from another core: the bank is not in PAD role (08 R169, 01 R15). A
fence refuses what is in flight when it rises (11 R231). -/
def State.homeRefuses (s : State) (loc : Nat) : Option Nat :=
  if isStack loc then none
  else if ((s.core (locCore loc)).bank (locBank loc)).role ≠ .pad then some 2
  else none

/-- The locations whose homes an access reaches. -/
def Access.homes (a : Access) : List Nat := a.touch.map Prod.fst

/-- Puts what an outstanding result now waits for. -/
def State.deliver (s : State) (core ctx out : Nat) (w : Wait) : State :=
  s.modCtx core ctx (fun c => { c with outs := c.outs.map (fun o => if o.id = out then { o with wait := w } else o) })

/-- Sends a packet. -/
def State.sendPkt (s : State) (b : Body) : State :=
  let (i, s) := s.fresh
  { s with net := s.net ++ [⟨i, b⟩] }

/-- A packet of the networks. -/
def State.pkt? (s : State) (id : Nat) : Option Body := (s.net.find? (fun p => p.id == id)).map Pkt.body

/-- Takes a packet away. -/
def State.dropPkt (s : State) (id : Nat) : State := { s with net := s.net.filter (fun p => p.id != id) }

/-- Replaces a packet. -/
def State.setPkt (s : State) (id : Nat) (b : Body) : State :=
  { s with net := s.net.map (fun p => if p.id = id then ⟨id, b⟩ else p) }

/-- The access kind of EINFO for a refused access: 0 load, 1 store, 3 atomic (11 Table 117). -/
def AccOp.kind : AccOp → Nat
  | .load _ _ _ | .loadCap _ _ | .loadFlags | .waitb _ | .vload _ _ _ | .pload => 0
  | .store _ _ _ _ | .storeCap _ | .nibble _ _ | .setb _ | .vstore _ _ _ | .pstore _ => 1
  | .amo _ _ _ _ | .casp _ _ _ => 3

/-- The virtual address of a poisoned granule that an access touches (11 Table 117). -/
def Access.poisonVa (a : Access) (g : Nat) : Word :=
  match a.op with
  | .vload es _ _ | .vstore es _ _ =>
    match es.find? (fun e => e.loc / 16 == g / 16) with
    | some e => e.va &&& ~~~15#64
    | none => a.va
  | _ => a.va + BitVec.ofNat 64 (g / 16 * 16) - BitVec.ofNat 64 a.loc

/-- The refusal response of an access (01 R15, 11 R228). -/
def State.refuse (s : State) (a : Access) (poison : Option Nat) : State :=
  s.sendPkt (.refusal a.core a.ctx a.out (match poison with | some g => a.poisonVa g | none => a.va) a.op.kind poison)

/-- The answer of a performed access goes back to its context. -/
def State.answer (s : State) (a : Access) (v : RVal) : State := s.deliver a.core a.ctx a.out (.ready v 0)

/-- Whether two lists of byte ranges share a byte. -/
def overlap (x y : List (Nat × Nat)) : Bool :=
  x.any (fun p => y.any (fun q => decide (p.1 < q.1 + q.2 ∧ q.1 < p.1 + p.2)))

/-- Whether an access of one of `before` touches bytes of `a` and is of the same context (10 R212). Two loads that wait for
F are served in the passes of 08 R176 alone, whoever sent them (DEDUCED: log 51). -/
def behind (before : List Access) (a : Access) : Bool :=
  before.any (fun b => b.core == a.core && b.ctx == a.ctx &&
    !(b.op.counted && a.op.counted && b.op.kind == 0 && a.op.kind == 0) && overlap b.touch a.touch)

/-- The first waiting access, in order of arrival, that its home can now answer; accesses of one context to the same
bytes keep their order. -/
def servable (s : State) (before : List Access) : List Access → Option (Access × Perf)
  | [] => none
  | a :: rest =>
    if behind before a then servable s (before ++ [a]) rest
    else
      match perform s a with
      | .wait => servable s (before ++ [a]) rest
      | r => some (a, r)

/-- Serves waiting accesses in order of arrival, one at a time, until none can be served (08 R176, 01 R22). -/
def serveFuel : Nat → State → State
  | 0, s => s
  | n + 1, s =>
    match servable s [] s.waits with
    | none => s
    | some (a, r) =>
      let rest := s.waits.erase a
      match r with
      | .done s' v => serveFuel n ({ s' with waits := rest }.answer a v)
      | .refused g => serveFuel n ({ s with waits := rest }.refuse a (some g))
      | .poison g => serveFuel n ({ s with waits := rest }.refuse a (some g))
      | .wait => s

/-- Serves every waiting access that can be served. -/
def State.serve (s : State) : State := serveFuel s.waits.length s

/-- The full/empty and `waitb` requests of a context are withdrawn at their homes or on their way (09 Table 98). -/
def State.withdraw (s : State) (core ctx : Nat) : State :=
  { s with
    waits := s.waits.filter (fun a => !(a.op.counted && a.core == core && a.ctx == ctx))
    net := s.net.filter (fun p => match p.body with
      | .request a _ => !(a.op.counted && a.core == core && a.ctx == ctx)
      | _ => true) }

/-- How many requests wait at a core's home (08 R176). -/
def State.waitsAt (s : State) (core : Nat) : Nat :=
  (s.waits.filter (fun a => a.op.counted && !isStack a.loc && locCore a.loc == core)).length

end Sys2Proof.Machine
end

