-- ==== Sys2Proof/Machine/Gather.lean ====
section
/-! DEFINITION. The store gather buffer and the posted-store journal (08 R167 to R170), and how engine commands take and
release lines (01 R20 to R22). -/

namespace Sys2Proof.Machine

/-- A journal entry of a core. -/
def Core.jent (k : Core) (i : Nat) : Journal := Store.get Journal.init k.journal i

/-- The lowest free journal entry (08 R169). -/
def Core.freeJournal (k : Core) : Option Nat := (List.range 32).find? (fun i => (k.jent i).st == 0)

/-- The byte elements of a masked line. -/
def maskElems (loc : Nat) (va : Word) (mask : BitVec 64) : List Elem :=
  ((List.range 64).filter (fun i => mask.getLsbD i)).map (fun i => ⟨8 * i, 8, loc + i, 0, va + BitVec.ofNat 64 i⟩)

/-- A store as it leaves its core for another core's local store: one journal entry and one packet. None while the
journal is full (08 R169). -/
def State.post (s : State) (a : Access) (mask : BitVec 64) (id : Nat) : Option State :=
  let k := s.core a.core
  match k.freeJournal with
  | none => none
  | some i =>
    let j : Journal :=
      { st := 1, mask := mask, data := 0, pc := a.pc, line := a.va &&& ~~~63#64, loc := a.loc / 64 * 64, reason := 0,
        ctx := a.ctx, op := some a.op, id := id, lid := a.lid, eng := a.eng }
    let s := s.setCore a.core { k with journal := Store.set Journal.init k.journal i j }
    some (s.sendPkt (.posted a.core i { a with lease := k.cr.lease.toNat, pgen := s.pgenOf a.core }))

/-- The access of a held line. -/
def Gather.access (l : Gather) (core : Nat) : Access :=
  { op := .vstore (maskElems l.loc l.va l.mask) (l.data.setWidth 2048) false, loc := l.loc, va := l.va, core := core,
    ctx := l.ctx, out := l.id, pc := l.pc, lid := l.lid, lease := 0, pgen := 0, eng := l.eng, held := [] }

/-- An asynchronous trap becomes pending for a context; its PC is filled in when it is raised (11 R224). -/
def State.pendTrap (s : State) (core ctx code : Nat) (addr info : Word) : State :=
  s.modCtx core ctx (fun c => { c with traps := c.traps ++ [⟨code, ctx, true, 0, 0, addr, info⟩] })

/-- The access of a held line without the elements that would write a poisoned granule in part, and the first granule of
those (11 R228). -/
def State.landable (s : State) (core : Nat) (l : Gather) : Access × Option Nat :=
  let es := maskElems l.loc l.va l.mask
  let bad := (elemGranules es).filter (fun g => s.poison g && !elemsCover es g)
  ({ l.access core with
     op := .vstore (es.filter (fun e => !bad.contains (e.loc / 16 * 16))) (l.data.setWidth 2048) false }, bad.head?)

/-- A held line of stack memory reaches its home, where it waits while an engine owns the line (01 Table 10). Bytes that would
write a poisoned granule in part are refused, with POIS for the storing context (11 R228). -/
def State.landLine (s : State) (core : Nat) (l : Gather) : State :=
  let (a, bad) := s.landable core l
  let s1 := match perform s a with
    | .done s' _ => s'.serve
    | _ => { s with waits := s.waits ++ [a] }
  match bad with
  | none => s1
  | some g => s1.pendTrap core l.ctx tPOIS ((l.access core).poisonVa g) l.pc

/-- Takes a held line out of the buffer. -/
def State.unhold (s : State) (core : Nat) (l : Gather) : State :=
  s.modCore core (fun k => { k with gather := k.gather.erase l })

/-- A held line leaves the buffer: to stack memory, or as a posted store. None while the journal is full. -/
def State.drainLine (s : State) (core : Nat) (l : Gather) : Option State :=
  if l.remote then ((s.unhold core l).post (l.access core) l.mask l.id)
  else some ((s.unhold core l).landLine core l)

/-- Drains lines in order; the Bool says whether all of them left. -/
def drainLines (core : Nat) : List Gather → State → State × Bool
  | [], s => (s, true)
  | l :: ls, s =>
    match s.drainLine core l with
    | some s' => drainLines core ls s'
    | none => (s, false)

/-- Drains the held lines of a core that satisfy a test, in program order (08 R167, Table 83). -/
def State.drainWhere (s : State) (core : Nat) (p : Gather → Bool) : State × Bool :=
  drainLines core ((s.core core).gather.filter p) s

/-- Drains every held line of a context. -/
def State.drainCtx (s : State) (core ctx : Nat) : State × Bool := s.drainWhere core (fun l => l.ctx == ctx)

/-- Whether a held line shares a byte with byte ranges. -/
def Gather.meets (l : Gather) (ts : List (Nat × Nat)) : Bool := overlap [(l.loc, 64)] ts

/-- Whether an access of a context to bytes is still under way in the networks or waits at a home (10 R212). -/
def State.underWay (s : State) (core ctx : Nat) (ts : List (Nat × Nat)) : Bool :=
  s.waits.any (fun a => a.core == core && a.ctx == ctx && overlap a.touch ts) ||
    s.net.any (fun p => match p.body with
      | .request a _ => a.core == core && a.ctx == ctx && overlap a.touch ts
      | .posted _ _ a => a.core == core && a.ctx == ctx && overlap a.touch ts
      | _ => false)

/-- A held line is recalled because an engine takes its line: to stack memory its bytes go at once, and to another core's store
it leaves as any held line does, with a journal entry, and stays held while the journal is full (01 R20, 08 R167, R169). -/
def State.recallLine (s : State) (core : Nat) (l : Gather) : State := (s.drainLine core l).getD s

/-- Engine ownership recalls the held lines of some bytes from every core. -/
def State.recallHeld (s : State) (ts : List (Nat × Nat)) : State :=
  (s.cores.map Prod.fst).foldl (fun s c =>
    ((s.core c).gather.filter (fun l => l.meets ts)).foldl (fun s l => s.recallLine c l) s) s

/-! ## Ownership -/

/-- The home directory of a line: a stack, or a core. -/
def lineHome (l : Nat) : Nat := if isStack l then l / 2 ^ 36 else 16 + locCore l

/-- The access that a packet carries to its home. -/
def Body.access? : Body → Option Access
  | .request a _ => some a
  | .posted _ _ a => some a
  | _ => none

/-- Whether an access on its way to the bytes `ts` will reach its home without a wait at it: `stuck` are those before it that
will not, because an engine owns a byte of theirs, they may wait for F, or an older access of their context waits there. -/
def arrivesSoon (s : State) (ts : List (Nat × Nat)) : List Access → List Pkt → Bool
  | _, [] => false
  | stuck, p :: rest =>
    match p.body.access? with
    | none => arrivesSoon s ts stuck rest
    | some a =>
      if a.op.counted || behind s.waits a || behind stuck a || a.touch.any (fun t => s.ownedAny t.1 t.2) then
        arrivesSoon s ts (stuck ++ [a]) rest
      else overlap a.touch ts || arrivesSoon s ts stuck rest

/-- Whether bytes of a line are still held, or on their way to it, so that a claim of the line has to wait for them: dirty data
reaches a line before it is taken (01 R20). -/
def State.dirtyAhead (s : State) (l : Nat) : Bool :=
  let ts := [(l, lineSize l)]
  s.cores.any (fun c => c.2.gather.any (fun h => h.meets ts)) || arrivesSoon s ts [] s.net

/-- The first claim that can be granted: its line is free and no dirty byte of it is on its way, no earlier claim names the line,
and its command waits for no lower line of the same home (01 R20, R22). -/
def State.grantable (s : State) (before : List (Nat × Nat)) : List (Nat × Nat) → Option (Nat × Nat)
  | [] => none
  | c :: rest =>
    if s.owner c.1 = 0 && !before.any (fun b => b.1 == c.1 || (b.2 == c.2 && lineHome b.1 == lineHome c.1)) &&
        !s.dirtyAhead c.1 then some c
    else s.grantable (before ++ [c]) rest

/-- Grants claims until none can be granted. -/
def grantFuel : Nat → State → State
  | 0, s => s
  | n + 1, s =>
    match s.grantable [] s.claims with
    | none => s
    | some c => grantFuel n { s with owned := Store.set 0 s.owned c.1 c.2, claims := s.claims.erase c }

/-- Grants every claim that can be granted, once the held bytes of the free lines have been recalled. -/
def State.grant (s : State) : State :=
  let free := s.claims.filter (fun c => s.owner c.1 == 0)
  grantFuel s.claims.length (s.recallHeld (free.map (fun c => (c.1, lineSize c.1))))

/-- A command claims lines, given in ascending order: it takes those that are free, and waits for the others behind the
commands that already wait for them (01 R20, R22). -/
def State.claim (s : State) (cmd : Nat) (lines : List Nat) : State :=
  let new := lines.filter (fun l => s.owner l != cmd && !s.claims.contains (l, cmd))
  ({ s with claims := s.claims ++ new.map (fun l => (l, cmd)) }).grant

/-- A command releases one line (01 R21). -/
def State.release (s : State) (cmd line : Nat) : State :=
  if s.owner line = cmd then ({ s with owned := Store.set 0 s.owned (lineOf line) 0 }).grant else s

/-- A command releases every line and waits for none (01 R21). -/
def State.releaseAll (s : State) (cmd : Nat) : State :=
  ({ s with claims := s.claims.filter (fun c => c.2 != cmd), owned := s.owned.filter (fun p => p.2 != cmd) }).grant

/-- Puts bytes into a held line. -/
def Gather.put (l : Gather) (off : Nat) (bs : List Byte) (pc : Word) (eng : Bool) : Gather :=
  let n := bs.length
  let m : BitVec 64 := (BitVec.ofNat 64 (2 ^ n - 1)) <<< off
  let wide : BitVec 512 := (BitVec.ofNat 512 (2 ^ (8 * n) - 1)) <<< (8 * off)
  { l with mask := l.mask ||| m, data := (l.data &&& ~~~wide) ||| ((BitVec.ofNat 512 (leNat bs)) <<< (8 * off)), pc := pc,
           eng := l.eng || eng }

/-- A plain store enters the gather buffer. False while a line that must leave first cannot (08 R168, R169). -/
def State.gatherStore (s : State) (a : Access) (remote : Bool) (bs : List Byte) : State × Bool :=
  let loc := a.loc / 64 * 64
  let held := (s.core a.core).gather
  match held.find? (fun l => l.ctx == a.ctx && l.loc == loc) with
  | some l =>
    let l' := l.put (a.loc - loc) bs a.pc a.eng
    let s1 := s.modCore a.core (fun k => { k with gather := k.gather.map (fun x => if x = l then l' else x) })
    if l'.mask = BitVec.allOnes 64 then
      match s1.drainLine a.core l' with
      | some s2 => (s2, true)
      | none => (s, false)
    else (s1, true)
  | none =>
    let room := if held.length < 8 then some s else match held with
      | l :: _ => s.drainLine a.core l
      | [] => some s
    match room with
    | none => (s, false)
    | some s1 =>
      let (id, s2) := s1.fresh
      let new : Gather := { ctx := a.ctx, loc := loc, va := a.va &&& ~~~63#64, remote := remote, mask := 0, data := 0,
                            pc := a.pc, lid := a.lid, eng := a.eng, id := id }
      (s2.modCore a.core (fun k => { k with gather := k.gather ++ [new.put (a.loc - loc) bs a.pc a.eng] }), true)

end Sys2Proof.Machine
end

