-- ==== Sys2Proof/Machine/Translate.lean ====
section
/-! DEFINITION. Addresses: the address map and the windows (01 R13 to R15), translation (08 R171 to R173) and the page
scanner (02 R52). -/

namespace Sys2Proof.Machine

/-- Access kinds as EINFO gives them (11 Table 117). -/
def kLoad : Nat := 0
def kStore : Nat := 1
def kFetch : Nat := 2
def kAtomic : Nat := 3

/-- A PGF at a walk level; level 0 is a refused region (11 Table 117). -/
def pgf (a : Word) (kind level : Nat) : TrapReq := ⟨tPGF, a, BitVec.ofNat 64 (kind + 4 * level)⟩

/-- ALN for an alignment of 2^k bytes; 15 is a crossing of banks (11 Table 117). -/
def aln (a : Word) (k : Nat) : TrapReq := ⟨tALN, a, BitVec.ofNat 64 k⟩

/-- ILL with a reason of Table 118. -/
def ill (a : Word) (reason : Nat) : TrapReq := ⟨tILL, a, BitVec.ofNat 64 reason⟩

/-- CAPP for a write to a FROZEN page (11 Table 117). -/
def frozen (a : Word) : TrapReq := ⟨tCAPP, a, 0x1000⟩

/-- The bits of an address that index a level's table (08 R171). -/
def vaIndex (va lvl : Nat) : Nat :=
  match lvl with
  | 1 => va / 2 ^ 39 % 256
  | 2 => va / 2 ^ 30 % 512
  | 3 => va / 2 ^ 21 % 512
  | _ => va / 2 ^ 16 % 32

/-- log2 of the page that a leaf of a level maps (08 R171). -/
def pageBits (lvl : Nat) : Nat :=
  match lvl with
  | 2 => 30
  | 3 => 21
  | _ => 16

/-- log2 of the size of a level's table (08 R171). -/
def tableBits (lvl : Nat) : Nat :=
  match lvl with
  | 1 => 11
  | 4 => 8
  | _ => 12

/-- Fields of a page-table entry (08 Table 85). -/
def leafV (e : Word) : Bool := e.getLsbD 0
def leafR (e : Word) : Bool := e.getLsbD 1
def leafW (e : Word) : Bool := e.getLsbD 2
def leafX (e : Word) : Bool := e.getLsbD 3
def leafFrz (e : Word) : Bool := e.getLsbD 7
def leafScan (e : Word) : Bool := e.getLsbD 8
def leafPpn (e : Word) : Nat := (e.extractLsb' 16 24).toNat

/-- A leaf found by a walk: its level, its value and where it lies. -/
structure Leaf where
  level : Nat
  e : Word
  addr : Nat
  deriving DecidableEq, Repr

/-- The level of a walk that waits: an engine owns the line of an entry, which a coherent read waits for (08 R171, 01
Table 10). -/
def waitLvl : Nat := 9

/-- A request of no trap: the access waits and is tried again. -/
def waitReq : TrapReq := ⟨0, 0, 0⟩

/-- What a failed walk comes to: PGF at its level, or a wait. -/
def walkFail (va : Word) (kind lvl : Nat) : TrapReq := if lvl = waitLvl then waitReq else pgf va kind lvl

/-- The walk from a table at `t` on level `lvl`, with `fuel` levels left; the error is the level that fails (08 R171). -/
def walkFrom (s : State) (va : Nat) : Nat → Nat → Nat → Except Nat Leaf
  | 0, _, lvl => .error lvl
  | fuel + 1, t, lvl =>
    let a := t + 8 * vaIndex va lvl
    let e := s.word a
    if s.ownedAny a 8 then .error waitLvl
    else if !leafV e || e.extractLsb' 40 24 ≠ 0 then .error lvl
    else if !leafR e && !leafW e && !leafX e then
      if lvl = 4 then .error lvl
      else walkFrom s va fuel ((e.extractLsb' 8 32).toNat * 256 / 2 ^ tableBits (lvl + 1) * 2 ^ tableBits (lvl + 1)) (lvl + 1)
    else if lvl = 1 ∨ leafPpn e % 2 ^ (pageBits lvl - 16) ≠ 0 then .error lvl
    else .ok ⟨lvl, e, a⟩

/-- The walk from a root register (08 R171). -/
def walk (s : State) (root : Word) (va : Nat) : Except Nat Leaf :=
  walkFrom s va 4 (((root.extractLsb' 11 29).toNat) * 2048) 1

/-- The physical address that a leaf gives (08 R171). -/
def Leaf.pa (l : Leaf) (va : Nat) : Nat := leafPpn l.e * 65536 + va % 2 ^ pageBits l.level

/-- Whether a leaf allows an access: PGF without its permission, CAPP for a write to a FROZEN page (08 R171). -/
def Leaf.allows (l : Leaf) (va : Word) (kind : Nat) : Except TrapReq Unit :=
  let ok := if kind = kFetch then leafX l.e else if kind = kLoad then leafR l.e else leafW l.e
  if !ok then .error (pgf va kind l.level)
  else if (kind = kStore ∨ kind = kAtomic) ∧ leafFrz l.e then .error (frozen va)
  else .ok ()

/-- The bits A and D that an access sets in its leaf (08 R171). -/
def adBits (kind : Nat) : Word := if kind = kStore ∨ kind = kAtomic then 0x60 else 0x20

/-- Whether a page is ACCEPTED: its leaf still holds the PPN, X and SCAN that the scanner accepted (02 R52, 08 R172). -/
def State.isAccepted (s : State) (l : Leaf) : Bool :=
  let w := Store.get 0 s.accepted l.addr
  w != 0 && w == (l.e &&& leafMask)

/-- Sets A, and D for a write, by one atomic update of the entry (08 R171). ACC of a leaf that the scanner has not accepted does not
stand, whatever software has written there (08 Table 85). -/
def State.setAD (s : State) (l : Leaf) (kind : Nat) : State :=
  let e := s.word l.addr
  let e' := (if s.isAccepted l then e else e &&& ~~~0x200#64) ||| adBits kind
  if e = e' then s else s.write l.addr (toLE e'.toNat 8)

/-- Translation without a TLB, as the engines and the ringmaster make it: through a root, for an access (24 R366). -/
def State.translateRoot (s : State) (root : Word) (va : Word) (kind : Nat) : Except TrapReq (State × Nat) :=
  if 2 ^ 47 ≤ va.toNat then .error (pgf va kind 0)
  else
    match walk s root va.toNat with
    | .error lvl => .error (walkFail va kind lvl)
    | .ok l =>
      match l.allows va kind with
      | .error t => .error t
      | .ok () => .ok (s.setAD l kind, l.pa va.toNat)

/-- The table root of a context: KROOT for a control context, TROOT of the interface for a helper (24 R366). -/
def State.rootOf (s : State) (core ctx : Nat) : Word :=
  if ctx = 0 then (s.die (dieOf core)).kroot
  else match s.vifOf core with
    | some v => (s.vif v).troot
    | none => 0

/-- Whether a cached translation serves an address of a context (08 R173). -/
def TlbEntry.hits (t : TlbEntry) (kernel : Bool) (vif va : Nat) : Bool :=
  t.kernel == kernel && (kernel || t.vif == vif) && t.vpn == va / 2 ^ pageBits t.level

/-- Whether a scanned word sequence may follow: why the scanner refuses a page, with the byte offset of the first word
of the offending instruction (02 R52). -/
structure ScanErr where
  off : Nat
  reason : Nat
  deriving DecidableEq, Repr

/-- The reason of Table 118 for words that do not decode. -/
def DecodeErr.reason : DecodeErr → Nat
  | .reservedOp => 0
  | .pageAbove7 => 1
  | .badChain => 2
  | .short => 7

/-- Scans the words of a page: from word `i` of `n`, in the chain `c` that began at word `first` (02 R52). It decodes linearly:
a base word that has prefixes is not decoded once more without them, although the rule's last sentence says that it was.
DESIGN CHOICE (log 68). -/
def scanFrom (rd : Nat → HWord) : Nat → Nat → Nat → Chain → Option ScanErr
  | 0, _, first, c => if c.npfx = 0 then none else some ⟨2 * first, 7⟩
  | n + 1, i, first, c =>
    let w := rd i
    if c.npfx ≠ 0 ∧ i % 32768 = 0 then some ⟨2 * first, 3⟩
    else if isPrefix w then
      match c.step w with
      | .error e => some ⟨2 * first, DecodeErr.reason e⟩
      | .ok c' => scanFrom rd n (i + 1) first c'
    else
      match c.finish w with
      | .error e => some ⟨2 * first, DecodeErr.reason e⟩
      | .ok (i', o) =>
        match i'.form? with
        | some f => if warnBits f o ≠ 0 then some ⟨2 * first, 6⟩ else scanFrom rd n (i + 1) (i + 1) Chain.start
        | none => scanFrom rd n (i + 1) (i + 1) Chain.start

/-- Scans a page that begins at physical address `pa` (02 R52). -/
def scanPage (s : State) (pa bits : Nat) : Option ScanErr :=
  scanFrom (fun i => BitVec.ofNat 16 (s.nat (pa + 2 * i) 2)) (2 ^ (bits - 1)) 0 0 Chain.start

/-- The scanner runs when an executable translation with SCAN is installed: it sets ACC or refuses (02 R52). -/
def State.scanLeaf (s : State) (l : Leaf) (va : Nat) : Except TrapReq State :=
  let page := va / 2 ^ pageBits l.level * 2 ^ pageBits l.level
  if leafW l.e then .error (ill (BitVec.ofNat 64 page) 8)
  else
    match scanPage s (l.pa page) (pageBits l.level) with
    | some e => .error (ill (BitVec.ofNat 64 (page + e.off)) e.reason)
    | none =>
      .ok { s.write l.addr (toLE ((s.word l.addr) ||| 0x200).toNat 8) with
            accepted := Store.set 0 s.accepted l.addr (l.e &&& leafMask) }

/-- Whether two cached translations are of one page of one interface. -/
def TlbEntry.same (t u : TlbEntry) : Bool := t.kernel == u.kernel && t.vif == u.vif && t.level == u.level && t.vpn == u.vpn

/-- A TLB's list with a new translation first, and at most 4,096 of its cluster (08 R173). -/
def addTlb (l : List (Nat × TlbEntry)) (cl : Nat) (t : TlbEntry) : List (Nat × TlbEntry) :=
  let l' := (cl, t) :: l.filter (fun p => !(p.1 == cl && p.2.same t))
  if (l'.filter (fun p => p.1 == cl)).length ≤ 4096 then l' else (l'.reverse.eraseP (fun p => p.1 == cl)).reverse

/-- Puts a translation into the micro-TLB of a core and the TLB of its cluster (08 R173). -/
def State.installTlb (s : State) (core : Nat) (t : TlbEntry) : State :=
  let s := s.modCore core (fun k => { k with utlb := (t :: k.utlb.filter (fun u => !u.same t)).take 32 })
  s.modDie (dieOf core) (fun d => { d with tlbs := addTlb d.tlbs (clusterOf core) t })

/-- The interface number that tags a core's translations. -/
def State.vifNo (s : State) (core : Nat) : Nat := (s.vifOf core).getD 64

/-- A cached translation of a context's address: the micro-TLB first, then the cluster's (08 R173). -/
def State.tlbFind (s : State) (core ctx va : Nat) : Option TlbEntry :=
  let hit := fun (t : TlbEntry) => t.hits (ctx == 0) (s.vifNo core) va
  match (s.core core).utlb.find? hit with
  | some t => some t
  | none => ((s.die (dieOf core)).tlbs.find? (fun p => p.1 == clusterOf core && hit p.2)).map Prod.snd

/-- The residual window of die 0; those of the other dies follow, 4 MiB each (21 R328). -/
def residualBase : Nat := 0x7FFFFF000000

/-- Whether an address lies in a residual window. -/
def isResidual (a : Nat) : Bool := decide (residualBase ≤ a ∧ a < residualBase + 4 * 0x400000)

/-- The leaf that translates an address of a context: from a TLB, or by a walk that installs it, scanning the page when the
translation is executable and asks for it (08 R171, R173, 02 R52). A page that the scanner refuses traps the fetch that
caused the scan; for another access its translation is used and not installed, so that a fetch scans it again
(DEDUCED: log 68). -/
def State.leafFor (s : State) (core ctx : Nat) (va : Word) (kind : Nat) : Except TrapReq (State × Leaf) :=
  match s.tlbFind core ctx va.toNat with
  | some t =>
    if t.leaf &&& adBits kind = adBits kind then .ok (s, ⟨t.level, t.leaf, t.eaddr⟩) else walkIt
  | none => walkIt
where
  walkIt : Except TrapReq (State × Leaf) :=
    match walk s (s.rootOf core ctx) va.toNat with
    | .error lvl => .error (walkFail va kind lvl)
    | .ok l =>
      match l.allows va kind with
      | .error t => .error t
      | .ok () =>
        let scan := leafX l.e && leafScan l.e && !s.isAccepted l && !isResidual va.toNat
        match (if scan then s.scanLeaf l va.toNat else .ok s) with
        | .error t =>
          if kind = kFetch then .error t
          else
            let s1 := s.setAD l kind
            .ok (s1, ⟨l.level, s1.word l.addr, l.addr⟩)
        | .ok s1 =>
          let s2 := s1.setAD l kind
          let e := s2.word l.addr
          .ok (s2.installTlb core ⟨ctx == 0, s.vifNo core, va.toNat / 2 ^ pageBits l.level, l.level, e, l.addr⟩,
            ⟨l.level, e, l.addr⟩)

/-- translate(va, access) of a context (08 R171). -/
def State.translate (s : State) (core ctx : Nat) (va : Word) (kind : Nat) : Except TrapReq (State × Nat) :=
  match s.leafFor core ctx va kind with
  | .error t => .error t
  | .ok (s1, l) =>
    match l.allows va kind with
    | .error t => .error t
    | .ok () => .ok (s1, l.pa va.toNat)

/-- Where an address leads: stack memory, or a core's local store (01 R13, R14). -/
inductive Place where
  | stack
  | store (core off : Nat)
  | refused
  deriving DecidableEq, Repr

/-- Classifies an address for a core (01 R13, Tables 7 and 8). -/
def State.classify (s : State) (core : Nat) (va : Word) : Place :=
  let a := va.toNat
  if a < 2 ^ 47 then .stack
  else if 0xFFFFFFFFFFFE0000 ≤ a then .store core (a - 0xFFFFFFFFFFFE0000)
  else if 0xFFFF800000000000 ≤ a ∧ a < 0xFFFF800040000000 then
    match s.coreNamed core (a / 2 ^ 25 % 32) (a / 2 ^ 17 % 256) with
    | some c => .store c (a % 2 ^ 17)
    | none => .refused
  else .refused

/-- Whether an address lies in a window (02 R46). -/
def isWindow (va : Word) : Bool := decide (2 ^ 47 ≤ va.toNat)

/-- The local-store-window address of an offset of a core's local store, with the core's logical cluster (01 Table 8). -/
def State.windowAddr (s : State) (core off : Nat) : Word :=
  BitVec.ofNat 64 (0xFFFF800000000000 + s.lclOf core * 2 ^ 25 + cidxOf core * 2 ^ 17 + off)

/-- Whether `n` bytes at an address of a window stay within one bank (08 R174). -/
def oneBank (va : Word) (n : Nat) : Bool := decide (n = 0) || va.toNat / 2 ^ 14 == (va.toNat + n - 1) / 2 ^ 14

/-- The rest of R174 after check_cap: alignment to 2^al bytes, one bank, region, and translation. Answers the location,
and whether it lies in another core's local store. The own bank must be in PAD role (01 R15). -/
def State.locate (s : State) (core ctx : Nat) (va : Word) (n al kind : Nat) : Except TrapReq (State × Nat × Bool) :=
  if va.toNat % 2 ^ al ≠ 0 then .error (aln va al)
  else if isWindow va && !oneBank va n then .error (aln va 15)
  else
    match s.classify core va with
    | .refused => .error (pgf va kind 0)
    | .stack =>
      match s.translate core ctx va kind with
      | .error t => .error t
      | .ok (s', pa) => .ok (s', pa, false)
    | .store c off =>
      if c = core then
        if ((s.core core).bank (off / 2 ^ 14)).role = .pad then .ok (s, lsLoc c off, false) else .error (pgf va kind 0)
      else .ok (s, lsLoc c off, true)

end Sys2Proof.Machine
end

