-- ==== Sys2Proof/Machine/Report.lean ====
section
/-! DEFINITION. What the machine reports: entries of the ringmasters' event queues (20 R326) and records of the dies'
error arbiters (11 R230, 24 R366). -/

namespace Sys2Proof.Machine

/-- Counts a dropped event (20 R326). -/
def State.dropEvent (s : State) (v : Nat) : State :=
  s.modVif v (fun i => { i with eqdrop := if i.eqdrop = 0xFFFFFFFF then i.eqdrop else i.eqdrop + 1 })

/-- The pin count of a specialisation entry: the launches that run from it (21 R332, Table 198). -/
def State.pins (s : State) (id : Nat) : Nat :=
  (s.vifs.map (fun p => (p.2.levels.filter (fun l =>
    (l.2.st == .opened || l.2.st == .cancelling) && l.2.spec == some id)).length)).sum

/-- Whether a specialisation entry is pinned (21 R332). -/
def State.pinned (s : State) (id : Nat) : Bool := s.pins id != 0

/-- Specialisation entries that are to be dropped go when they are unpinned (21 R333). -/
def State.dropDoomed (s : State) : State :=
  (s.dies.map Prod.fst).foldl (fun s d => s.modDie d (fun k =>
    { k with specs := k.specs.filter (fun e => !(e.doomed && !s.pinned e.id)) })) s

/-- A write to a FROZEN page was refused: the specialisation entries that have logged a granule of the page of 2^bits
bytes are invalidated (21 R333). -/
def State.frozenHit (s : State) (pa bits : Nat) : State :=
  ((s.dies.map Prod.fst).foldl (fun s d => s.modDie d (fun k => { k with specs := k.specs.map (fun e =>
    if e.logPages.any (fun g => g / 2 ^ bits == pa / 2 ^ bits) then { e with doomed := true } else e) })) s).dropDoomed

/-- The same for an address that a root register translates. -/
def State.frozenAt (s : State) (root : Word) (va : Nat) : State :=
  match walk s root va with
  | .ok l => if leafFrz l.e then s.frozenHit (l.pa va) (pageBits l.level) else s
  | .error _ => s

/-- Writes one 32-byte entry into an interface's event queue, or drops it; a write that a FROZEN page refuses invalidates
specialisation entries. None while an engine owns a line that it would read or write (20 R326, 21 R333, 01 Table 10). -/
def State.tryEvent (s : State) (v : Nat) (bs : List Byte) : Option State :=
  let i := s.vif v
  let size := 2 ^ (i.eqsize.toNat % 16)
  if (i.eqtail - i.eqhead).toNat = size then some (s.dropEvent v)
  else
    let va := i.eqbase + BitVec.ofNat 64 (32 * (i.eqtail.toNat % size))
    match s.translateRoot i.troot va kStore with
    | .error t =>
      if t = waitReq then none
      else some ((if t.code = tCAPP then s.frozenAt i.troot va.toNat else s).dropEvent v)
    | .ok (s', pa) =>
      if s'.ownedAny pa 32 then none
      else some ((s'.store pa bs false).serve.modVif v (fun j => { j with eqtail := j.eqtail + 1 }))

/-- The error arbiter of a die writes a record into its ring, or drops it and counts that in ERRDROP, which saturates; ERRTAIL
advances with the write. None while an engine owns the line (24 R366, 01 Table 10). -/
def State.tryRecord (s : State) (d : Nat) (bs : List Byte) : Option State :=
  let k := s.die d
  let size := 2 ^ (k.errsize.toNat % 16)
  let pa := (k.errbase.toNat + 32 * (k.errtail.toNat % size)) % 2 ^ 40
  if (k.errtail - k.errhead).toNat = size then
    some (s.modDie d (fun k => { k with errdrop := if k.errdrop = BitVec.allOnes 64 then k.errdrop else k.errdrop + 1 }))
  else if s.ownedAny pa 32 then none
  else some ((s.store pa bs false).serve.modDie d (fun k => { k with errtail := k.errtail + 1 }))

/-- Posts an entry of the event queue of interface `q`, or a record of die `q - 64`; one that has to wait is written later, in
its order. -/
def State.postEvent (s : State) (q : Nat) (bs : List Byte) : State :=
  let later := { s with events := s.events ++ [(q, bs)] }
  if s.events.any (fun e => e.1 == q) then later
  else (if q < 64 then s.tryEvent q bs else s.tryRecord (q - 64) bs).getD later

/-- Writes the entries that have waited and need to no longer. -/
def State.flushEvents (s : State) : State :=
  s.events.foldl (fun s e => s.postEvent e.1 e.2) { s with events := [] }

/-- The bytes of an event entry other than a tap event (20 Table 194): KIND, VIID, bytes 2 and 3, bytes 4 to 7, bytes 8
to 15, LID, and bytes 20 to 31. -/
def eventBytes (kind v b2 b3 b4 : Nat) (w8 : Word) (lid rest : Nat) : List Byte :=
  [BitVec.ofNat 8 kind, BitVec.ofNat 8 v, BitVec.ofNat 8 b2, BitVec.ofNat 8 b3] ++ toLE b4 4 ++ toLE w8.toNat 8 ++
    toLE lid 4 ++ toLE rest 12

/-- Posts an event that has only bytes 2, 3, 8 to 15 and a launch id. -/
def State.event (s : State) (kind v b2 b3 : Nat) (w8 : Word) (lid : Nat) : State :=
  s.postEvent v (eventBytes kind v b2 b3 0 w8 lid 0)

/-- An error record (11 Table 121). -/
structure ErrRec where
  cls : Nat
  code : Nat
  kind : Nat
  ctx : Nat
  loc : Nat
  addr : Word
  pc : Word
  injected : Bool
  deriving DecidableEq, Repr

/-- The bytes of an error record. -/
def ErrRec.bytes (r : ErrRec) (seq : BitVec 16) (synd : BitVec 63) : List Byte :=
  [BitVec.ofNat 8 r.cls, BitVec.ofNat 8 r.code] ++ toLE seq.toNat 2 ++ [BitVec.ofNat 8 r.kind, BitVec.ofNat 8 r.ctx] ++
    toLE r.loc 2 ++ toLE r.addr.toNat 8 ++ toLE r.pc.toNat 8 ++ toLE (BitVec.ofBool r.injected ++ synd).toNat 8

/-- A record of the error arbiter of a die (11 R230, 24 R366). The syndrome is a free value. -/
def State.errorRecord (s : State) (d : Nat) (r : ErrRec) : State :=
  let bs := r.bytes (s.die d).seq (Config.syndrome s.freeCount)
  (({ s with freeCount := s.freeCount + 1 } : State).modDie d (fun k => { k with seq := k.seq + 1 })).postEvent (64 + d) bs

/-- WHERE of a core: x in [6:0], y in [13:8] (11 Table 121). -/
def whereCore (c : Nat) : Nat := coreX c + 256 * coreY c

/-- A record whose cause lies at a core. -/
def State.coreError (s : State) (c cls code ctx : Nat) (addr pc : Word) : State :=
  s.errorRecord (dieOf c) ⟨cls, code, 0, ctx, whereCore c, addr, pc, false⟩

end Sys2Proof.Machine
end

