-- ==== Sys2Proof/Machine/Engine.lean ====
section
/-! DEFINITION. How engine commands end: status words, handles and counters, release of lines (01 R21, R24, R25, R28,
15 R274, R278, 13 R258, 23 R358), and how an engine finds an address. -/

namespace Sys2Proof.Machine

/-- Engine classes: arrays, copy engines, stack engines (15 R277). -/
def clsArray : Nat := 0
def clsCopy : Nat := 1
def clsStack : Nat := 2

/-- A handle of a core. -/
def Core.handle (k : Core) (cls h : Nat) : Handle := Store.get Handle.init k.handles (cls * 64 + h)

/-- Writes a handle. -/
def Core.setHandle (k : Core) (cls h : Nat) (v : Handle) : Core :=
  { k with handles := Store.set Handle.init k.handles (cls * 64 + h) v }

/-- The lowest free handle of a class (15 R273). -/
def Core.freeHandle (k : Core) (cls : Nat) : Option Nat :=
  (List.range 64).find? (fun h => !(k.handle cls h).used)

/-- A counted-command counter (15 R278). -/
def Core.counter (k : Core) (cls : Nat) : Counter := Store.get ⟨0, false⟩ k.counters cls

/-- Writes a counter. -/
def Core.setCounter (k : Core) (cls : Nat) (c : Counter) : Core :=
  { k with counters := Store.set ⟨0, false⟩ k.counters cls c }

/-- A command completes: its handle gets the status, or its counter falls, in one step (01 R25, 15 R278). The handle of
a context that has become FREE is freed. -/
def State.complete (s : State) (core cls cmd : Nat) (handle : Option Nat) (status : Word) : State :=
  s.modCore core (fun k =>
    match handle with
    | some h =>
      let v := k.handle cls h
      if v.used ∧ v.cmd = cmd then
        k.setHandle cls h (if v.orphan then Handle.init else { v with done := some status })
      else k
    | none =>
      let c := k.counter cls
      k.setCounter cls ⟨c.n - 1, c.err || status.extractLsb' 0 4 != 1⟩)

/-- The status word of a hire (15 Table 155). -/
def Hire.status (h : Hire) (code : Nat) : Word :=
  BitVec.ofNat 64 (code + 16 * h.poi.toNat + 32 * h.fk + 256 * h.tev.toNat + 65536 * h.rows)

/-- The hire of a number at a bench. -/
def Bench.find (b : Bench) (id : Nat) : Option Hire := b.hires.find? (fun h => h.id == id)

/-- Replaces a hire. -/
def Bench.put (b : Bench) (h : Hire) : Bench :=
  { b with hires := b.hires.map (fun x => if x.id = h.id then h else x) }

/-- HCTL.UNORD (15 Table 150). -/
def Hire.unord (h : Hire) : Bool := h.hctl.getLsbD 24

/-- Whether a hire may begin to land: every hire of its master that was accepted before it has completed (16 R282). -/
def Bench.mayLand (b : Bench) (h : Hire) : Bool :=
  h.unord || !b.hires.any (fun x => x.core == h.core && x.stage != .inbox && decide (x.order < h.order))

/-- Numbers the computed hires that have become free to land. -/
def Bench.markFree (b : Bench) (n : Nat) : Bench :=
  { b with hires := b.hires.map (fun h =>
      if h.stage = .computed ∧ h.free = 0 ∧ b.mayLand h then { h with free := n } else h) }

/-- Computed hires that have become free to land are numbered in the order in which they did (16 R284). -/
def State.markFree (s : State) (bench : Nat) : State :=
  let (n, s1) := s.fresh
  if (s.bench bench).markFree n = s.bench bench then s else s1.modBench bench (fun b => b.markFree n)

/-- A hire ends: its lines are released, it leaves the array, and its status is final (15 R274). -/
def State.endHire (s : State) (bench : Nat) (h : Hire) (code : Nat) : State :=
  let s := s.releaseAll h.id
  let s := s.modBench bench (fun b => { b with hires := b.hires.filter (fun x => x.id != h.id) })
  let s := (s.benches.filter (fun p => p.2.busy == some h.id)).foldl (fun s p =>
    s.modBench p.1 (fun b => { b with busy := none })) s
  ((s.markFree bench).complete h.core clsArray h.id h.handle (h.status code)).serve

/-- The weight, target and fail bits of a bench's ARBCFG (16 Table 160). -/
def arbReset (b : Nat) : Word := BitVec.ofNat 64 (0x11111111 + (if b % 2 = 0 then b % 24 + 1 else b % 24 - 1) * 2 ^ 48 + 2 ^ 62)

/-- ARBCFG of a bench. -/
def State.arb (s : State) (b : Nat) : Word := (s.bench b).arbcfg.getD (arbReset b)

/-- FAIL. -/
def State.failed (s : State) (b : Nat) : Bool := (s.arb b).getLsbD 63

/-- The array that serves a bench's masters: its own, or after a failure its target's; none when it has no target
(16 R291, R292). -/
def State.servedBy (s : State) (b : Nat) : Option Nat :=
  if !s.failed b then some b
  else
    let t := ((s.arb b).extractLsb' 48 5).toNat
    let a := b / 24 * 24 + t
    if (s.arb b).getLsbD 62 ∧ t ≤ 23 ∧ a ≠ b ∧ !s.failed a then some a else none

/-- The cores that an array serves, in serving order: its own bench's slots, then those of rerouted benches
(16 R280). Of several rerouted benches it serves all, in the order of their numbers. DESIGN CHOICE (log 89). -/
def State.serving (s : State) (a : Nat) : List Nat :=
  let guests := (List.range 24).filter (fun i => a / 24 * 24 + i != a && s.servedBy (a / 24 * 24 + i) == some a)
  let benches := (if s.servedBy a = some a then [a] else []) ++ guests.map (fun i => a / 24 * 24 + i)
  benches.flatMap (fun b => (List.range 8).map (benchCore b))

/-- Fields of the descriptor (13 Tables 130 and 131). -/
def Copy.gran (c : Copy) (i : Nat) : GReg := c.desc.getD i .null
def Copy.fld (c : Copy) (g lo n : Nat) : Nat := ((c.gran g).data.extractLsb' lo n).toNat
def Copy.src (c : Copy) : GReg := c.gran 0
def Copy.dst (c : Copy) : GReg := c.gran 1
def Copy.aux (c : Copy) : GReg := c.gran 2
def Copy.recCap (c : Copy) : GReg := c.gran 3
def Copy.op (c : Copy) : Nat := c.fld 4 0 4
def Copy.stype (c : Copy) : Nat := c.fld 4 4 4
def Copy.dtype (c : Copy) : Nat := c.fld 4 8 4
def Copy.scale (c : Copy) : Nat := c.fld 4 12 2
def Copy.red (c : Copy) : Nat := c.fld 4 14 2
def Copy.grp (c : Copy) : Nat := c.fld 4 16 4
def Copy.eng (c : Copy) : Nat := c.fld 4 20 1
def Copy.cl (c : Copy) : Nat := c.fld 4 21 5
def Copy.owncl (c : Copy) : Bool := (c.gran 4).data.getLsbD 26
def Copy.dext (c : Copy) : Nat := c.fld 4 64 64
def Copy.n0 (c : Copy) : Nat := c.fld 5 0 32
def Copy.n1 (c : Copy) : Nat := c.fld 5 32 32
def Copy.n2 (c : Copy) : Nat := c.fld 5 64 32

/-- PROG: the first element that is not landed (13 Table 135). -/
def Copy.prog (c : Copy) : Nat := (c.buf.map Landing.elem).foldl min c.pos

/-- The status word of a copy command (13 Table 135). -/
def Copy.status (c : Copy) (code : Nat) : Word :=
  BitVec.ofNat 64 (code + 16 * c.poi.toNat + 32 * c.fk + 65536 * c.prog)

/-- Lands what a copy command has buffered of the granules at `gs`, one write each, where it still owns the line
(10 R211). -/
def Copy.landBuf (c : Copy) (s : State) (gs : List Nat) : State :=
  gs.dedup.foldl (fun s g => if s.owner g = c.id then
    s.landGranule g (c.buf.filter (fun x => x.loc / 16 == g / 16)) else s) s

/-- Lands everything that a copy command has buffered. -/
def Copy.flush (c : Copy) (s : State) : State := c.landBuf s (c.buf.map (fun x => x.loc / 16 * 16))

/-- A copy command leaves its engine and completes. -/
def State.endCopy (s : State) (eng : Nat) (c : Copy) (code : Nat) : State :=
  let s := ((c.flush s).releaseAll c.id).modCopy eng (fun cs => cs.filter (fun x => x.id != c.id))
  (s.complete c.core clsCopy c.id c.handle (Copy.status { c with buf := [] } code)).serve

/-- The status word of a stack command (23 Table 221). -/
def Stk.status (c : Stk) (code : Nat) : Word :=
  BitVec.ofNat 64 (code + 16 * c.poi.toNat + 32 * c.fk + 65536 * c.acn + 2 ^ 32 * c.len)

/-- A stack command leaves its engine and completes: form 0 answers its destination, form 1 its handle, form 2 is
counted (23 R349, R356, R357). -/
def State.endStk (s : State) (eng : Nat) (c : Stk) (code : Nat) : State :=
  let s := (s.releaseAll c.id).modStk eng (fun cs => cs.filter (fun x => x.id != c.id))
  (if c.form = 0 then s.deliver c.core c.ctx c.out (.ready (.g (GReg.ofWord (c.status code))) 0)
   else s.complete c.core clsStack c.id c.handle (c.status code)).serve

/-- Every handle that a context holds when it becomes FREE: a completed one is freed, the others are freed when their
command completes (13 R259, 15 R278). -/
def Core.orphanHandles (k : Core) (ctx : Nat) : Core :=
  { k with handles := k.handles.filterMap (fun p =>
      if p.2.used && p.2.ctx == ctx then
        (if p.2.done.isSome then none else some (p.1, { p.2 with orphan := true }))
      else some p) }

/-- Cancels the hires that satisfy a test (01 R28). -/
def State.cancelHires (s : State) (bench : Nat) (p : Hire → Bool) : State :=
  ((s.bench bench).hires.filter p).foldl (fun s h => s.endHire bench h 2) s

/-- Marks the copy commands that satisfy a test as CANCELLED; COPY_COMPLETE reports them (13 R260). -/
def State.cancelCopies (s : State) (eng : Nat) (p : Copy → Bool) : State :=
  s.modCopy eng (fun cs => cs.map (fun c => if p c ∧ c.code = 0 then { c with code := 2 } else c))

/-- Cancels the stack commands that satisfy a test; a landing is one step, so none has begun to land (23 R359). -/
def State.cancelStks (s : State) (eng : Nat) (p : Stk → Bool) : State :=
  ((s.stkEng eng).filter p).foldl (fun s c => s.endStk eng c 2) s

/-- Why an engine cannot read or write an address: no translation, no permission, a FROZEN page, a region that is none,
or a bank that is not in PAD role; or it waits for a line of the table that another command owns (08 R171). -/
inductive EngErr where
  | trans | perm | frozen | region | bank | wait
  deriving DecidableEq, Repr

/-- The location of an address as an engine reaches it for a core: through the table of the core's interface, or in a
PAD bank of the partition (24 R366, 15 R271). -/
def State.engLoc (s : State) (core va kind : Nat) : Except EngErr (State × Nat) :=
  match s.classify core (BitVec.ofNat 64 va) with
  | .refused => .error .region
  | .store c off => if ((s.core c).bank (off / 2 ^ 14)).role = .pad then .ok (s, lsLoc c off) else .error .bank
  | .stack =>
    match s.vifOf core with
    | none => .error .trans
    | some v =>
      match walk s (s.vif v).troot va with
      | .error lvl => .error (if lvl = waitLvl then .wait else .trans)
      | .ok l =>
        match l.allows (BitVec.ofNat 64 va) kind with
        | .error t => .error (if t.code = tCAPP then .frozen else .perm)
        | .ok () => .ok (s.setAD l kind, l.pa va)

/-- The size of the pieces in which an engine reaches memory: a bank of a local store. A page of any size is made of such
pieces (08 R160, R171). -/
def pieceSize : Nat := 16384

/-- The pieces of `n` bytes at an address: addresses and lengths. -/
def pieces (va n : Nat) : List (Nat × Nat) :=
  if n = 0 then []
  else (List.range ((va + n - 1) / pieceSize - va / pieceSize + 1)).map (fun i =>
    let lo := max va ((va / pieceSize + i) * pieceSize)
    (lo, min (va + n) ((va / pieceSize + i + 1) * pieceSize) - lo))

/-- Applies a step to every bench, copy engine or stack engine that holds commands. -/
def State.forBenches (s : State) (f : State → Nat → State) : State := (s.benches.map Prod.fst).foldl f s
def State.forCopies (s : State) (f : State → Nat → State) : State := (s.copies.map Prod.fst).foldl f s
def State.forStks (s : State) (f : State → Nat → State) : State := (s.stks.map Prod.fst).foldl f s

end Sys2Proof.Machine
end

