-- ==== Sys2Proof/Machine/CopyWalk.lean ====
section
/-! DEFINITION. The elements of a copy command: types, strides, and where its elements lie (13 R250 to R252). -/

namespace Sys2Proof.Machine

/-- Copy types (13 Table 133). -/
inductive CType where
  | flt (f : FFmt) | int (bytes : Nat) | raw (bytes : Nat)
  deriving DecidableEq, Repr

/-- The type of a code. -/
def cType : Nat → CType
  | 0 => .flt .bf16
  | 1 => .flt .f16
  | 2 => .flt .f32
  | 3 => .flt .f64
  | 4 => .flt .e4m3
  | 5 => .flt .e5m2
  | 6 => .flt .e2m1
  | 7 => .flt .ts8
  | 8 => .int 1
  | 9 => .int 2
  | 10 => .int 4
  | 11 => .int 8
  | 12 => .raw 1
  | 13 => .raw 2
  | 14 => .raw 4
  | _ => .raw 8

/-- The width of a type in bits. -/
def CType.bits : CType → Nat
  | .flt f => f.width
  | .int n => 8 * n
  | .raw n => 8 * n

/-- Whether a type is raw. -/
def CType.isRaw : CType → Bool
  | .raw _ => true
  | _ => false

/-- The strides of the descriptor (13 Table 130). -/
def Copy.stride (c : Copy) (i : Nat) : Int := sextNat 32 (c.fld 6 (32 * i) 32)

/-- The number of elements (13 R252). -/
def Copy.total (c : Copy) : Nat := c.n0 * c.n1 * c.n2

/-- Element widths in bits; a tag copy moves granules (13 Table 132). -/
def Copy.sbits (c : Copy) : Nat := if c.op = 4 then 128 else (cType c.stype).bits
def Copy.dbits (c : Copy) : Nat := if c.op = 4 then 128 else (cType c.dtype).bits

/-- Element sizes in whole bytes. -/
def Copy.ssz (c : Copy) : Nat := max 1 (c.sbits / 8)
def Copy.dsz (c : Copy) : Nat := max 1 (c.dbits / 8)

/-- A tile of elements: its first address, strides of dimensions 1 and 2, and the element width in bits. -/
structure Walk where
  base : Nat
  s1 : Int
  s2 : Int
  bits : Nat
  deriving DecidableEq, Repr

/-- The source and destination walks of a strided operation; one-dimensional ones have no strides (13 R252). -/
def Copy.srcWalk (c : Copy) : Walk := ⟨c.src.addr, c.stride 0, c.stride 1, c.sbits⟩
def Copy.dstWalk (c : Copy) : Walk := ⟨c.dst.addr, c.stride 2, c.stride 3, c.dbits⟩

/-- The address of the byte of element i, and its nibble (13 R252). -/
def Copy.pos? (c : Copy) (w : Walk) (i : Nat) : Int × Bool :=
  let i0 := i % c.n0
  let i1 := i / c.n0 % c.n1
  let i2 := i / c.n0 / c.n1
  ((w.base : Int) + i2 * w.s2 + i1 * w.s1 + (i0 * w.bits / 8 : Nat), w.bits == 4 && i0 % 2 == 1)

/-- The rows of the elements that are not skipped, as extents (13 R252, R254). -/
def Copy.rowSpans (c : Copy) (w : Walk) : List (Nat × Nat) :=
  let first := min c.skip c.total
  (List.range (c.n1 * c.n2 - first / c.n0)).map (fun r =>
    let row := first / c.n0 + r
    let i0 := if r = 0 then first % c.n0 else 0
    let lo := (c.pos? w (row * c.n0 + i0)).1.toNat
    let hi := (c.pos? w (row * c.n0)).1.toNat + (c.n0 * w.bits + 7) / 8
    (lo, hi - lo))

/-- idx[i] of a gather as it stands in memory; none where it cannot be read now. -/
def State.idxNow (s : State) (c : Copy) (i : Nat) : Option Nat :=
  match s.engLoc c.core (c.aux.addr + 4 * i) kLoad with
  | .ok (s1, loc) => some (s1.nat loc 4)
  | .error _ => none

/-- The extents that a command reads: of its source, and of its index or scale table (13 Table 132, R253). -/
def State.copyReads (s : State) (c : Copy) : List (Nat × Nat) :=
  let first := min c.skip c.total
  (match c.op with
    | 0 | 4 => c.rowSpans c.srcWalk
    | 1 => (List.range (c.total - first)).filterMap (fun k =>
        (s.idxNow c (first + k)).map (fun x => (c.src.addr + x * c.ssz, c.ssz)))
    | 3 => []
    | _ => [(c.src.addr + first * c.ssz, (c.n0 - first) * c.ssz)]) ++
  (if c.op = 1 ∨ c.op = 2 then [(c.aux.addr + 4 * first, 4 * (c.total - first))]
   else if c.scale ≠ 0 then [(c.aux.addr + first / 32, (c.total + 31) / 32 - first / 32)] else [])

end Sys2Proof.Machine
end

