-- ==== Sys2Proof/Machine/Lanes.lean ====
section
/-! DEFINITION. Vector lanes: elements, predicates, writes under a predicate, and the reduction tree (04 R74, 05 R113,
R114, 07 R141, R142). -/

namespace Sys2Proof.Machine

/-- A lane's result and the IEEE flags it raises. -/
abbrev LaneFn := Nat → Nat × Flags

/-- Whether element `i` of width `e` is active under a predicate register's bits (07 R141). -/
def pbit (pr : Nat) (p : PredReg) (i e : Nat) : Bool := decide (pr = 0) || p.getLsbD (i * e / 8)

/-- The number whose `e`-bit digits are the list's elements, the lowest first. -/
def joinLanes (e : Nat) : List Nat → Nat
  | [] => 0
  | x :: xs => x % 2 ^ e + 2 ^ e * joinLanes e xs

/-- Writes the lanes of a vector result under a predicate (07 R142): `act` says which elements are active, `z` selects
zeroing, `bits` is the shape's width. The flags are those of the active lanes. -/
def laneWrite (old : VReg) (e bits : Nat) (z : Bool) (act : Nat → Bool) (f : LaneFn) : VReg × Flags :=
  let n := bits / e
  let rs := (List.range n).map (fun i => if act i then f i else (if z then 0 else vget old (i * e) e, 0))
  let low := BitVec.ofNat 2048 (joinLanes e (rs.map Prod.fst))
  let high := if z then 0 else (old >>> bits) <<< bits
  (high ||| low, rs.foldl (fun fl r => fl ||| r.2) 0)

/-- A predicate written from elements of `e` bits: the same value in all bits under an element; inactive elements and
bits above the shape are 0 (04 R74). -/
def predWrite (e bits : Nat) (act : Nat → Bool) (f : Nat → Bool) : PredReg :=
  let b := max 1 (e / 8)
  (List.range (bits / e)).foldl (fun p i =>
    if act i && f i then p ||| ((BitVec.ofNat 256 (2 ^ b - 1)) <<< (i * e / 8)) else p) 0

/-- One level of the reduction tree (05 R113). -/
def pairUp (op : Nat → Nat → Nat × Flags) : List Nat → List Nat × Flags
  | a :: b :: rest =>
    let (r, fl) := op a b
    let (rs, fl') := pairUp op rest
    (r :: rs, fl ||| fl')
  | xs => (xs, 0)

/-- The reduction tree, with `fuel` levels (05 R113). -/
def reduceTree (op : Nat → Nat → Nat × Flags) : Nat → List Nat → Nat × Flags
  | 0, xs => (xs.headD 0, 0)
  | k + 1, xs =>
    match xs with
    | [] => (0, 0)
    | [x] => (x, 0)
    | xs =>
      let (ys, fl) := pairUp op xs
      let (r, fl') := reduceTree op k ys
      (r, fl ||| fl')

/-- −0 of a format: the identity of the floating sums (05 R113). -/
def FFmt.negZero (f : FFmt) : Nat := 2 ^ (f.width - 1)

/-- The format in which a floating tree adds: f32 for bf16 and f16, else the element type (05 R113). -/
def FFmt.treeFmt : FFmt → FFmt
  | .bf16 | .f16 => .f32
  | f => f

/-- A floating tree sum of encodings: each node rounded to the tree's format, the root once to the element type. -/
def treeSum (f : FFmt) (xs : List Nat) : Nat × Flags :=
  let g := f.treeFmt
  if f = g then reduceTree (g.op2 FV.add) 12 xs
  else
    let ys := xs.map (fun x => (g.encode .rne (f.decode x)))
    let fl0 := ys.foldl (fun a y => a ||| y.2) 0
    let (r, fl1) := reduceTree (g.op2 FV.add) 12 (ys.map Prod.fst)
    let (b, fl2) := f.encode .rne (g.decode r)
    (b, fl0 ||| fl1 ||| fl2)

/-- A floating tree maximumNumber (05 R113). -/
def treeMax (f : FFmt) (xs : List Nat) : Nat × Flags := reduceTree (fminmax f true false) 12 xs

end Sys2Proof.Machine
end

