-- ==== Sys2Proof/Machine/Regs.lean ====
section
/-! DEFINITION. Registers: reads and writes of g, v and p registers, the null maps, superseded results and the register
cache (04 R73, R74, R79 to R83). -/

namespace Sys2Proof.Machine

/-- A g register; g0 reads as null (04 R73). -/
def Ctx.rg (c : Ctx) (r : Nat) : GReg := if r = 0 then GReg.null else Store.get GReg.null c.g r

/-- A v register. -/
def Ctx.rv (c : Ctx) (r : Nat) : VReg := Store.get 0 c.v r

/-- A p register; p0 reads as all ones (02 R44). -/
def Ctx.rp (c : Ctx) (r : Nat) : PredReg := if r = 0 then BitVec.allOnes 256 else Store.get 0 c.p r

/-- A write supersedes every outstanding result of its register (04 R82). -/
def Ctx.supersede (c : Ctx) (d : Dest) : Ctx :=
  { c with outs := c.outs.map (fun o => if o.dest = d then { o with sup := true } else o) }

/-- Writes a g register; writes to g0 are dropped (04 R73, R79). -/
def Ctx.putG (c : Ctx) (r : Nat) (x : GReg) : Ctx :=
  if r = 0 then c
  else { c with g := Store.set GReg.null c.g r x, nullG := c.nullG ||| (1#32 <<< r) }

/-- Writes a v register (04 R79). -/
def Ctx.putV (c : Ctx) (r : Nat) (x : VReg) : Ctx :=
  { c with v := Store.set 0 c.v r x, nullV := c.nullV ||| (1#32 <<< r) }

/-- Writes a p register; writes to p0 are dropped (02 R44). -/
def Ctx.putP (c : Ctx) (r : Nat) (x : PredReg) : Ctx := if r = 0 then c else { c with p := Store.set 0 c.p r x }

/-- Writes the register that a result goes to. -/
def Ctx.putDest (c : Ctx) (d : Dest) (v : RVal) : Ctx :=
  match d, v with
  | .g r, .g x => c.putG r x
  | .v r, .v x => c.putV r x
  | .p r, .p x => c.putP r x
  | _, _ => c

/-- Whether a register has entries: the g registers but g0, and the v registers (04 R79). -/
def Dest.hasEntry : Dest → Bool
  | .g r => r != 0
  | .v _ => true
  | _ => false

/-- Whether a register is of the v file. -/
def Dest.isV : Dest → Bool
  | .v _ => true
  | _ => false

/-- Whether an entry is that of a register of a context. -/
def Entry.of (e : Entry) (ctx : Nat) (d : Dest) : Bool := e.ctx == ctx && e.reg == d

/-- The entry of a register (04 R79). -/
def Core.entry (k : Core) (ctx : Nat) (d : Dest) : Option Entry := k.entries.find? (fun e => e.of ctx d)

/-- Drops the entry of a register. -/
def Core.dropEntry (k : Core) (ctx : Nat) (d : Dest) : Core := { k with entries := k.entries.filter (fun e => !e.of ctx d) }

/-- A register that is written has a live, dirty entry, the last used (04 Table 37). -/
def Core.touchEntry (k : Core) (ctx : Nat) (d : Dest) : Core :=
  if d.hasEntry then { k with entries := ⟨ctx, d, .live, true⟩ :: k.entries.filter (fun e => !e.of ctx d) } else k

/-- An access to an entry makes it live and the last used (04 Table 37). -/
def Core.useEntry (k : Core) (ctx : Nat) (d : Dest) : Core :=
  match k.entry ctx d with
  | some e => { k with entries := { e with st := .live } :: k.entries.filter (fun e => !e.of ctx d) }
  | none => k

/-- An instruction writes a register of a context: later arrivals for it are discarded. -/
def State.setReg (s : State) (core ctx : Nat) (d : Dest) (v : RVal) : State :=
  s.modCore core (fun k => (k.setCtx ctx (((k.ctx ctx).supersede d).putDest d v)).touchEntry ctx d)

/-- Results of a register that were issued before an arriving one are superseded by it (04 R82). -/
def supersedeBefore (d : Dest) (id : Nat) : List Outst → List Outst
  | [] => []
  | o :: os => if o.id = id then o :: os else (if o.dest = d then { o with sup := true } else o) :: supersedeBefore d id os

/-- An arriving result writes its register. -/
def State.arriveReg (s : State) (core ctx id : Nat) (d : Dest) (v : RVal) : State :=
  s.modCore core (fun k =>
    let c := (k.ctx ctx).putDest d v
    (k.setCtx ctx { c with outs := supersedeBefore d id c.outs }).touchEntry ctx d)

/-- The executing context. -/
def State.cx (s : State) : Ctx := s.ctx s.curCore s.curCtx

/-- Changes the executing context. -/
def State.modCx (s : State) (f : Ctx → Ctx) : State := s.modCtx s.curCore s.curCtx f

/-- The executing core. -/
def State.ck (s : State) : Core := s.core s.curCore

/-- Registers of the executing context. -/
def State.g (s : State) (r : Nat) : GReg := s.cx.rg r
def State.v (s : State) (r : Nat) : VReg := s.cx.rv r
def State.p (s : State) (r : Nat) : PredReg := s.cx.rp r

/-- Writes of the executing context's registers. -/
def State.setG (s : State) (r : Nat) (x : GReg) : State := s.setReg s.curCore s.curCtx (.g r) (.g x)
def State.setV (s : State) (r : Nat) (x : VReg) : State := s.setReg s.curCore s.curCtx (.v r) (.v x)
def State.setP (s : State) (r : Nat) (x : PredReg) : State := s.setReg s.curCore s.curCtx (.p r) (.p x)

/-- put(D, x) at n = 64 (06 R117). -/
def State.put (s : State) (r : Nat) (x : Word) : State := s.setG r (GReg.ofWord x)

/-- put(D, x) of a natural number. -/
def State.putNat (s : State) (r : Nat) (x : Nat) : State := s.put r (BitVec.ofNat 64 x)

/-- The PC of the executing context. -/
def State.pc (s : State) : Word := s.cx.pcc.word

/-- The launch id of the executing context's task. -/
def State.lid (s : State) : Nat := s.lidAt s.curCore s.curCtx

/-- Raises IEEE flags in the executing context (05 R106). -/
def State.raiseFlags (s : State) (f : Flags) : State := s.modCx (fun c => { c with cr := c.cr.addFlags f })

/-- A fallback that depends on the address sets its bit, in checked mode only (02 R46, R93). -/
def State.warn (s : State) (w : BitVec 7) : State :=
  s.modCx (fun c => if c.cr.cm then c else { c with cr := c.cr.addWarn c.pcc.word w })

/-- A new outstanding result of the executing context (04 R82, 09 R184). -/
def State.addOut (s : State) (o : Outst) : State := s.modCx (fun c => { c with outs := c.outs ++ [o] })

/-- The g and v registers that are pending; a `gput` and a `gsync` count as 07 R143 says. A result whose destination is g0, which
has no entry, counts as one of a register. DESIGN CHOICE (log 82): 04 R81 does not say. -/
def Ctx.pendingG (c : Ctx) : Nat :=
  ((c.outs.filter (fun o => !o.sup)).filterMap (fun o => match o.dest with | .g r => some r | _ => none)).dedup.length +
    (c.outs.filter (fun o => o.wait == .gput false)).length

def Ctx.pendingV (c : Ctx) : Nat :=
  ((c.outs.filter (fun o => !o.sup)).filterMap (fun o => match o.dest with | .v r => some r | _ => none)).dedup.length +
    (c.outs.filter (fun o => o.wait == .gput true || (o.wait == .gang && o.dest == .none))).length

/-- Whether a register is pending. -/
def Ctx.isPending (c : Ctx) (d : Dest) : Bool := c.outs.any (fun o => !o.sup && o.dest == d)

/-- Whether the limits of R81 allow one more pending entry. -/
def Ctx.roomFor (c : Ctx) (d : Dest) : Bool :=
  match d with
  | .g _ => c.isPending d || decide (c.pendingG < 8)
  | .v _ => c.isPending d || decide (c.pendingV < 4)
  | _ => true

/-! ## The register cache -/

/-- The address of a register's slot in a context block (04 R76, Table 36); `.none` stands for the PCC. -/
def blockAddr (base : Word) (ctx : Nat) (d : Dest) : Nat :=
  (base.toNat + ctx * 16384 +
    (match d with | .g r => 16 * r | .p r => 0x200 + 32 * r | .v r => 0x400 + 256 * r | .none => 0x300)) % 2 ^ 40

/-- The size of a register's slot. -/
def slotSize : Dest → Nat
  | .g _ | .none => 16
  | .p _ => 32
  | .v _ => 256

/-- The registers of a context that its null maps say it holds (04 R79). -/
def Ctx.heldRegs (c : Ctx) : List Dest :=
  ((List.range 32).filter (fun r => c.nullG.getLsbD r)).map Dest.g ++
    ((List.range 32).filter (fun r => c.nullV.getLsbD r)).map Dest.v

/-- Whether the null maps of a context hold a register. -/
def Ctx.holds (c : Ctx) : Dest → Bool
  | .g r => r != 0 && c.nullG.getLsbD r
  | .v r => c.nullV.getLsbD r
  | _ => false

/-- What a register of a context holds. -/
def Ctx.val (c : Ctx) : Dest → RVal
  | .g r => .g (c.rg r)
  | .v r => .v (c.rv r)
  | .p r => .p (c.rp r)
  | .none => .g c.pcc

/-- Whether a register is evicted: it is held, and no entry has it (04 Table 37). -/
def Core.evicted (k : Core) (ctx : Nat) (d : Dest) : Bool := (k.ctx ctx).holds d && (k.entry ctx d).isNone

/-- Writes a value to a register's slot of its block; the slots of g0 and p0 are never written (04 Table 36, R80). -/
def State.writeSlot (s : State) (core ctx : Nat) (d : Dest) (v : RVal) : State :=
  let a := blockAddr (s.core core).cr.ctxbase ctx d
  match v with
  | .g x => if d = .g 0 then s else s.storeGranule a x
  | .v x => s.store a (toLE x.toNat 256) false
  | .p x => if d = .p 0 then s else s.store a (toLE x.toNat 32) false
  | .none => s

/-- Reads a register's slot of its block (04 R80). -/
def State.readSlot (s : State) (core ctx : Nat) (d : Dest) : RVal :=
  let a := blockAddr (s.core core).cr.ctxbase ctx d
  match d with
  | .v _ => .v (BitVec.ofNat 2048 (s.nat a 256))
  | .p _ => .p (BitVec.ofNat 256 (s.nat a 32))
  | _ => .g (s.granule a)

/-- Writes a register back to its block, where there is one; its entry is clean from then on (04 R78, R80). -/
def State.writeBack (s : State) (core ctx : Nat) (d : Dest) : State :=
  if (s.core core).cr.ctxbase = 0 then s
  else (s.writeSlot core ctx d ((s.ctx core ctx).val d)).modCore core (fun k =>
    { k with entries := k.entries.map (fun e => if e.of ctx d then { e with dirty := false } else e) })

/-- A register's value is read from its block into its context, with a clean entry, the last used: a fill (04 R80). -/
def State.fill (s : State) (core ctx : Nat) (d : Dest) : State :=
  let v := s.readSlot core ctx d
  s.modCore core (fun k => (k.setCtx ctx ((k.ctx ctx).putDest d v)).dropEntry ctx d |> fun k =>
    { k with entries := ⟨ctx, d, .live, false⟩ :: k.entries })

/-- The entry that is replaced in a file: the least recently used that is not pending and that the instruction does not use
(04 R80). -/
def Core.victim (k : Core) (v : Bool) (keep : List (Nat × Dest)) : Option Entry :=
  k.entries.reverse.find? (fun e => e.reg.isV == v && !(k.ctx e.ctx).isPending e.reg && !keep.contains (e.ctx, e.reg))

/-- How many entries a file has: 128 g and 64 v (04 R79). -/
def fileSize (v : Bool) : Nat := if v then 64 else 128

/-- Why a register cannot be brought in now: its slot, or the slot of the entry to be replaced, lies in a line that an
engine owns, or its slot is poisoned. -/
inductive Bring where
  | ok (s : State)
  | wait
  | pois (a : Nat)

/-- Makes room for `need` more entries of a file: while there is not enough, the victim leaves, written back when it is dirty
(04 R80). With no context blocks nothing leaves (R78): the registers of the control context fit, and helpers are all FREE. -/
def makeRoom (core : Nat) (v : Bool) (keep : List (Nat × Dest)) (need : Nat) : Nat → State → Bring
  | 0, s => .ok s
  | fuel + 1, s =>
    let k := s.core core
    if k.cr.ctxbase = 0 ∨ (k.entries.filter (fun e => e.reg.isV == v)).length + need ≤ fileSize v then .ok s
    else match k.victim v keep with
      | none => .ok s
      | some e =>
        if e.dirty && s.ownedAny (blockAddr k.cr.ctxbase e.ctx e.reg) (slotSize e.reg) then .wait
        else makeRoom core v keep need fuel
          (((if e.dirty then s.writeBack core e.ctx e.reg else s)).modCore core (fun k => k.dropEntry e.ctx e.reg))

/-- A register that is to be written gets an entry, which holds its old value until then (04 Table 37). -/
def State.newEntry (s : State) (core ctx : Nat) (d : Dest) : State :=
  s.modCore core (fun k => { k with entries := ⟨ctx, d, .live, false⟩ :: k.entries })

/-- Brings a register of a context of a core in, for an instruction that uses the registers `keep`: an entry becomes live, an
evicted register is filled, and a register that is to be written for the first time gets an entry (04 R79 to R81); a FREE helper
owns none (Table 34). A poisoned slot is found when it is filled. DESIGN CHOICE (log 65). -/
def State.bring (s : State) (core ctx : Nat) (d : Dest) (write : Bool) (keep : List (Nat × Dest)) : Bring :=
  let k := s.core core
  if !d.hasEntry || (k.ctx ctx).st == .free then .ok s
  else if (k.entry ctx d).isSome then .ok (s.modCore core (fun k => k.useEntry ctx d))
  else if (k.ctx ctx).holds d then
    let a := blockAddr k.cr.ctxbase ctx d
    if s.ownedAny a (slotSize d) then .wait
    else match makeRoom core d.isV keep 1 1 s with
      | .ok s1 => match s1.readPoison a (slotSize d) with
        | some g => .pois g
        | none => .ok (s1.fill core ctx d)
      | r => r
  else if write then
    match makeRoom core d.isV keep 1 1 s with
    | .ok s1 => .ok (s1.newEntry core ctx d)
    | r => r
  else .ok s

/-- Brings registers in, one after another: each with its core and context, and whether it is written. -/
def bringAll (keep : List (Nat × Dest)) : List (Nat × Nat × Dest × Bool) → State → Bring
  | [], s => .ok s
  | (c, x, d, w) :: rest, s =>
    match s.bring c x d w keep with
    | .ok s' => bringAll keep rest s'
    | r => r

/-- Whether a register's slot lies in a line that an engine owns, so that a write-back of it waits (01 Table 10). -/
def State.slotOwned (s : State) (core ctx : Nat) (d : Dest) : Bool :=
  let b := (s.core core).cr.ctxbase
  b != 0 && s.ownedAny (blockAddr b ctx d) (slotSize d)

/-- Registers that `rcflush` still has to write back and that no result goes to any more are written back: their results have
arrived or were refused (11 R239). One whose slot an engine owns waits for its release. -/
def State.settleFlush (s : State) (core : Nat) : State :=
  let due := (s.core core).flushing.filter (fun p => !(s.ctx core p.1).isPending p.2 && !s.slotOwned core p.1 p.2)
  let s1 := due.foldl (fun s p => s.writeBack core p.1 p.2) s
  s1.modCore core (fun k => { k with flushing := k.flushing.filter (fun p => !due.contains p) })

/-- A register of another context as a debugger access reads it (04 R78, Table 38): a live entry is written back and its
block read, an evicted register is read from its block, and a pending one from its entry. Predicates and the PCC, which
have no entries, are written back as registers too, and while an engine owns the slot the value is the entry's, without a
write-back (DEDUCED: log 65). -/
def State.debugReg (s : State) (core ctx : Nat) (d : Dest) : State × RVal :=
  let k := s.core core
  let c := k.ctx ctx
  if k.cr.ctxbase = 0 ∨ (d.hasEntry ∧ (c.isPending d ∨ !c.holds d)) then (s, c.val d)
  else if k.evicted ctx d then (s, s.readSlot core ctx d)
  else if s.slotOwned core ctx d then (s, c.val d)
  else ((s.writeBack core ctx d).modCore core (fun k => k.useEntry ctx d), c.val d)

/-- A register of another context as a debugger access writes it: the entry is written back and invalidated, and the value
goes to the block (04 R84); with no blocks it goes to the entry (R78). A result under way to the register is discarded.
DESIGN CHOICE (log 65). -/
def State.debugPut (s : State) (core ctx : Nat) (d : Dest) (v : RVal) : State :=
  if (s.core core).cr.ctxbase = 0 then s.setReg core ctx d v
  else
    let s1 := if (s.core core).evicted ctx d then s else s.writeBack core ctx d
    ((s1.setReg core ctx d v).modCore core (fun k => k.dropEntry ctx d)).writeSlot core ctx d v

end Sys2Proof.Machine
end

