-- ==== Sys2Proof/Machine/Gang.lean ====
section
/-! DEFINITION. Collective rounds of the gang units (07 R156, R158, R159). -/

namespace Sys2Proof.Machine

/-- A parked context resumes when no outstanding result is left that a switch marker waits for (09 R184). -/
def Ctx.settle (c : Ctx) : Ctx := { c with parked := c.parked && c.outs.any Outst.mark }

/-- Takes an outstanding result away. -/
def Ctx.dropOut (c : Ctx) (id : Nat) : Ctx := Ctx.settle { c with outs := c.outs.filter (fun o => o.id != id) }

/-- An outstanding result arrives: it is written unless superseded, its flags are ORed in, and a park that waits for it
ends (04 R82, 09 R184); a register that `rcflush` still has to write back is written back (11 R239). -/
def State.finishOut (s : State) (core x : Nat) (o : Outst) (v : RVal) (fl : Flags) : State :=
  let s1 := if o.sup || o.dest == .none then s else s.arriveReg core x o.id o.dest v
  (s1.modCtx core x (fun c => let d := c.dropOut o.id; { d with cr := d.cr.addFlags fl })).settleFlush core

/-- The outstanding result of a number arrives at once with a word: the answer to a form whose result is immediate
(15 Table 154). -/
def State.answerNow (s : State) (core x out : Nat) (w : Word) : State :=
  match (s.ctx core x).outs.find? (fun o => o.id == out) with
  | some o => s.finishOut core x o (.g (GReg.ofWord w)) 0
  | none => s

/-- Element widths of page 4 (07 Table 76). -/
def width4 (et : Nat) : Nat :=
  match et with
  | 0 | 1 => 16
  | 2 => 32
  | 3 => 64
  | 6 => 4
  | _ => 8

/-- The element type of `gsum` and `gmax`; a reserved one is taken as f32 (07 R158). -/
def gangFmt (et : Nat) : FFmt :=
  match et with
  | 0 => .bf16
  | 1 => .f16
  | 3 => .f64
  | _ => .f32

/-- What a member contributes to a lane: its element, or the identity where it is inactive or brought no data. -/
def gangLane (identity e i : Nat) (m : Option Gang) : Nat :=
  match m with
  | some g => if g.op ≠ .sync ∧ g.pred.getLsbD (i * e / 8) then vget g.src (i * e) e else identity
  | none => identity

/-- The result of a member of a complete round, over the contributions of slots 0 to 3, with its flags (07 R158). Lanes that
keep their value keep what the destination held when the member issued (07 R140). -/
def gangResult (g : Gang) (ms : List (Option Gang)) : VReg × Flags :=
  let old := g.old
  match g.op with
  | .sync => (old, 0)
  | .bcast slot =>
    let src : VReg := match (ms[slot]?).join with
      | some m => if m.op = .sync then 0 else m.src
      | none => 0
    let e := width4 g.et.toNat
    laneWrite old e 2048 g.z (fun i => g.pred.getLsbD (i * e / 8)) (fun i => (vget src (i * e) e, 0))
  | .sum =>
    let f := gangFmt g.et.toNat
    laneWrite old f.width 2048 g.z (fun i => g.pred.getLsbD (i * f.width / 8))
      (fun i => treeSum f (ms.map (gangLane f.negZero f.width i)))
  | .max =>
    let f := gangFmt g.et.toNat
    laneWrite old f.width 2048 g.z (fun i => g.pred.getLsbD (i * f.width / 8))
      (fun i => treeMax f (ms.map (gangLane f.nan f.width i)))

/-- What a member has brought to the round that is to complete next: nothing if it does not join that round or has not
issued its collective. -/
def Ctx.brought (c : Ctx) : Option Gang := if c.gangSkip = 0 then c.gang.head? else none

/-- A member of a complete round takes its result: its destination is written unless a later write superseded it. A member that
is to join a later round is one round nearer to it. -/
def State.gangTake (s : State) (core x : Nat) (ms : List (Option Gang)) : State :=
  let c := s.ctx core x
  match c.brought with
  | none => s.modCtx core x (fun c => { c with gangSkip := c.gangSkip - 1 })
  | some g =>
    let (r, fl) := gangResult g ms
    let sup := c.outs.any (fun o => o.id == g.out && o.sup)
    let s := if g.op = .sync || sup then s else s.arriveReg core x g.out (.v g.dst) (.v r)
    s.modCtx core x (fun c => { (c.dropOut g.out) with gang := c.gang.tail, cr := c.cr.addFlags fl })

/-- The cores of a core's troupe, by slot. -/
def troupe (core : Nat) : List Nat := (List.range 4).map (troupeCore core)

/-- The number of rounds of a core's gang unit that have begun and are not complete: a member that joins the round after the
next `n` and has brought `m` collectives has begun the round `n + m` (07 R158). -/
def State.openRounds (s : State) (core x : Nat) : Nat :=
  (troupe core).foldl (fun n m => let c := s.ctx m x; if c.gang.isEmpty then n else max n (c.gangSkip + c.gang.length)) 0

/-- Completes rounds of a gang unit: the next one completes when it has begun and every member that is not FREE and joins it
has brought its collective (07 R158). -/
def gangFuel : Nat → State → Nat → Nat → State
  | 0, s, _, _ => s
  | n + 1, s, core, x =>
    let cs := (troupe core).map (fun m => s.ctx m x)
    if s.openRounds core x = 0 then
      (troupe core).foldl (fun s m => s.modCtx m x (fun c => { c with gangSkip := 0 })) s
    else if cs.any (fun c => c.st != .free && decide (c.gangSkip = 0) && c.gang.isEmpty) then s
    else
      let ms := cs.map Ctx.brought
      gangFuel n ((troupe core).foldl (fun s m => s.gangTake m x ms) s) core x

/-- Completes every round of a gang unit that can complete. A member started after rounds have begun joins the next one. -/
def State.gangRound (s : State) (core x : Nat) : State := gangFuel (s.openRounds core x + 1) s core x

end Sys2Proof.Machine
end

