-- ==== Sys2Proof/Machine/Reset.lean ====
section
/-! DEFINITION. How a unit ends (09 R198, R200, R209), how a level completes (20 R316), and resets of pens
(11 R231, 01 R31, R32). -/

namespace Sys2Proof.Machine

/-- The launch id of a level slot (20 R315). -/
def mkLid (v slot serial : Nat) : Nat := v * 2 ^ 26 + slot * 2 ^ 20 + serial % 2 ^ 20

/-- Every reply slot that waits as an ORPHAN for a launch becomes FREE when the launch is complete (09 R198). -/
def State.freeOrphans (s : State) (lid : Nat) : State :=
  s.everyCore (fun k => { k with slots := k.slots.filter (fun p => !(p.2.st == .orphan && p.2.lid == lid)) })

/-- A level becomes COMPLETE and posts event 0x01, with the launch id of a launch (20 R316, R326). -/
def State.completeLevel (s : State) (v slot : Nat) (cxl : Bool) : State :=
  let l := (s.vif v).level slot
  let launch := decide (l.kind = 1)
  let lid := if launch then mkLid v slot l.serial else 0
  let s := (s.modLevel v slot (fun l => { l with st := .complete, cxl := cxl, root := false, quiet := false })).event
    0x01 v slot cxl.toNat 0 lid
  (if launch then s.freeOrphans lid else s).dropDoomed

/-- The reply slots of a context that becomes FREE (09 R198). -/
def State.releaseSlots (s : State) (core ctx : Nat) : State :=
  let f := fun i => s.fBit (lsLoc core (0x1FC00 + 16 * i))
  s.modCore core (fun k => { k with slots := k.slots.filterMap (fun p =>
    if p.2.st == .busy && p.2.ctx == ctx then
      (if f p.1 then none else some (p.1, { p.2 with st := .orphan }))
    else some p) })

/-- The cycles of a helper that ends are charged to the interface that holds its core in a sharing turn (09 R208). -/
def State.chargeCyc (s : State) (core x : Nat) : State :=
  match s.vifOf core with
  | none => s
  | some v =>
    if (s.mappers (clusterOf core)).length < 2 then s
    else s.modVif v (fun i => { i with used := i.used + (s.ctx core x).cr.cyc.toNat })

/-- A helper becomes FREE: its held stores leave, its waits end, its reply slots and handles change, and its HFLTs become
pending in the control context (04 Table 34, 09 R200, R209, 16 R287). -/
def State.freeCtx (s : State) (core x : Nat) (how : Ended) : State :=
  let s := (s.drainCtx core x).1
  let s := s.chargeCyc core x
  let s := (s.withdraw core x).releaseSlots core x
  let s := s.modCore core (fun k =>
    let c := k.ctx x
    let late := (c.traps.filter (fun t => t.code == tHFLT) ++ c.hflts).map (fun t => { t with pc := 0, ilen := 1 })
    let k := (k.orphanHandles x).setCtx x { Ctx.init with ended := how }
    { k with pending := k.pending ++ late, flushing := k.flushing.filter (fun p => p.1 != x),
             entries := k.entries.filter (fun e => e.ctx != x),
             ctxs := k.ctxs.map (fun p => (p.1, { p.2 with yielding := p.2.yielding.filter (fun y => y != x) })) })
  s.gangRound core x

/-- Which core sent a packet. -/
def Body.sender : Body → Option Nat
  | .request a _ => some a.core
  | .posted c _ _ => some c
  | .msg c _ _ _ _ _ _ _ _ => some c
  | .record c _ _ _ _ _ _ _ _ _ => some c
  | .reply c _ _ _ _ _ => some c
  | .cancel _ _ _ c _ _ => some c
  | .resume _ _ c _ _ => some c
  | _ => none

/-- The core whose answer a packet carries. -/
def Body.answered : Body → Option Nat
  | .refusal c _ _ _ _ _ => some c
  | .postedAck c _ => some c
  | .postedRefused c _ _ => some c
  | _ => none

/-- The core that a local-store-window address names, in the partition of a core (01 R14). -/
def State.windowCore (s : State) (core : Nat) (a : Word) : Option Nat :=
  s.coreNamed core ((a.extractLsb' 25 5).toNat) ((a.extractLsb' 17 8).toNat)

/-- What becomes of a packet when a pen is fenced: packets of the pen are discarded, and packets into it are refused or
return to their sender (11 R231, R235). -/
def State.fencePkt (s : State) (inPen : Nat → Bool) (p : Pkt) : Option Pkt :=
  let mine := match p.body.sender with | some c => inPen c | none => false
  let answer := match p.body.answered with | some c => inPen c | none => false
  if mine || answer then none
  else
    match p.body with
    | .request a _ =>
      if a.homes.any (fun l => !isStack l && inPen (locCore l)) then
        some ⟨p.id, .refusal a.core a.ctx a.out a.va a.op.kind none⟩
      else some p
    | .posted c i a =>
      if a.homes.any (fun l => !isStack l && inPen (locCore l)) then some ⟨p.id, .postedRefused c i 1⟩ else some p
    | .msg c x m cap pg nk st pc lid =>
      if st = 0 ∧ ((s.windowCore c cap).any inPen) then some ⟨p.id, .msg c x m cap pg nk 1 pc lid⟩ else some p
    | .record c x out hd r dst pg nk st slot =>
      if st = 0 ∧ ((s.windowCore c dst).any inPen) then some ⟨p.id, .record c x out hd r dst pg nk 1 slot⟩ else some p
    | .reply c _ dst _ _ _ => if (s.windowCore c dst).any inPen then none else some p
    | _ => some p

/-- Whether a command owns a line in a local store of a pen, or waits for one. -/
def State.ownsIn (s : State) (inPen : Nat → Bool) (cmd : Nat) : Bool :=
  (s.owned.any (fun p => p.2 == cmd && !isStack p.1 && inPen (locCore p.1))) ||
    s.claims.any (fun p => p.2 == cmd && !isStack p.1 && inPen (locCore p.1))

/-- Whether an address of a command's core leads into a local store of a pen. -/
def State.leadsInto (s : State) (inPen : Nat → Bool) (core : Nat) (va : Word) : Bool :=
  match s.classify core va with
  | .store c _ => inPen c
  | _ => false

/-- Whether a byte of an extent lies in a local store of a pen. -/
def State.spanIn (s : State) (inPen : Nat → Bool) (core : Nat) (p : Nat × Nat) : Bool :=
  decide (2 ^ 47 < p.1 + p.2) && (pieces p.1 p.2).any (fun q => s.leadsInto inPen core (BitVec.ofNat 64 q.1))

/-- Whether a copy has something to read in a pen (13 R261). -/
def State.readsIn (s : State) (inPen : Nat → Bool) (c : Copy) : Bool :=
  (s.copyReads c).any (s.spanIn inPen c.core)

/-- Whether a copy has something to write in a pen: its destination, or its REC (13 R261). -/
def Copy.writesIn (inPen : Nat → Bool) (c : Copy) : Bool :=
  c.pages.any (fun p => !isStack p.pa && inPen (locCore p.pa))

/-- Whether the array that holds a hire lies in a pen; a hire that is not yet computed is held by the array that serves its
bench (16 R291). -/
def State.heldIn (s : State) (inPen : Nat → Bool) (b : Nat) (h : Hire) : Bool :=
  let array := if h.stage = .inbox ∨ h.stage = .queued then s.servedBy b else some h.array
  match array with
  | some a => (List.range 8).all (fun i => inPen (benchCore a i))
  | none => false

/-- A copy of another pen that touches a fenced one is to end with FK 6: it gives up its lines in the pen, and COPY_COMPLETE
reports it (13 R258, R261). One that is to be reported already loses its REC there. A collective ends with FK 6 too, not with the
FK 5 of a round that another member's fault ends. DESIGN CHOICE (log 93). -/
def State.fenceCopy (s : State) (inPen : Nat → Bool) (e : Nat) (c : Copy) : State :=
  let out := fun (l : Nat) => isStack l || !inPen (locCore l)
  let s := c.flush s
  let s := s.modCopy e (fun cs => cs.map (fun x => if x.id = c.id then
      { x with code := if x.code = 0 then 3 else x.code, fk := if x.code = 0 then 6 else x.fk,
               buf := [], pages := x.pages.filter (fun p => out p.pa) } else x))
  { s with owned := s.owned.filter (fun p => p.2 != c.id || out p.1)
           claims := s.claims.filter (fun p => p.2 != c.id || out p.1) }

/-- Engine commands at a pen reset: those of the pen's cores and the hires at its arrays end CANCELLED, and those of others that
touch the pen end with their fault of a fenced core (01 R31, 13 R261, 15 R271, 16 R288, 23 R362). -/
def State.fenceEngines (s : State) (inPen : Nat → Bool) : State :=
  let s0 := s
  let s := s.forBenches (fun s b =>
    let s := s.cancelHires b (fun h => inPen h.core || s0.heldIn inPen b h)
    ((s.bench b).hires.filter (fun h => s.ownsIn inPen h.id)).foldl (fun s h => s.endHire b { h with fk := 5 } 3) s)
  let s := s.forCopies (fun s e =>
    let s := ((s.copyEng e).filter (fun c => inPen c.core)).foldl (fun s c => s.endCopy e c 2) s
    ((s.copyEng e).filter (fun c => c.accepted && (s.ownsIn inPen c.id || (decide (c.code = 0) && (c.writesIn inPen || s.readsIn inPen c))))).foldl
      (fun s c => s.fenceCopy inPen e c) s)
  (s.forStks (fun s e =>
    let s := s.cancelStks e (fun c => inPen c.core)
    ((s.stkEng e).filter (fun c => s.ownsIn inPen c.id)).foldl (fun s c => s.endStk e { c with fk := 5 } 3) s)).grant.serve

/-- Drops the marks and bytes of a bank that enters PAD (08 R161). -/
def State.zeroBank (s : State) (core b : Nat) : State :=
  let lo := lsLoc core (b * 16384)
  { s with mem := s.mem.filter (fun p => !(decide (lo ≤ p.1 ∧ p.1 < lo + 16384)))
           gran := s.gran.filter (fun p => !(decide (lo / 16 ≤ p.1 ∧ p.1 < lo / 16 + 1024))) }

/-- The roles of the banks after a reset (08 R160). -/
def resetRole (b : Nat) : Role := if b < 2 then .way else .pad

/-- One core in the reset state, with its control context at MKENTRY or held; banks that newly enter PAD hold zero, the
others keep their contents (11 R231, 08 R160, R161, 24 R368). -/
def State.resetCore (s : State) (c : Nat) (hold : Bool) (gen : BitVec 16) : State :=
  let k := s.core c
  let s := (List.range 8).foldl (fun s b =>
    if resetRole b = .pad ∧ (k.bank b).role ≠ .pad then s.zeroBank c b else s) s
  let k' := Core.init (s.die (dieOf c)).mkentry (k.held || hold)
  s.setCore c { k' with cr := { k'.cr with lease := gen }, injectors := k.injectors }

/-- What an interface has saved of a core that it does not hold, in the reset state: banks that stay PAD keep their bytes and
marks (09 R208, 11 R231, 24 R368). -/
def State.resetSaved (s : State) (c : Nat) (hold : Bool) (gen : BitVec 16) (x : Saved) : Saved :=
  let stays := fun (b : Nat) => resetRole b != .pad || (x.core.bank b).role == .pad
  let k := Core.init (s.die (dieOf c)).mkentry (x.core.held || hold)
  { core := { k with cr := { k.cr with lease := gen } }
    mem := x.mem.filter (fun p => stays (locBank p.1))
    gran := x.gran.filter (fun p => stays (locBank (16 * p.1))) }

/-- A core in the reset state, with a lease generation and its boot address; it issues nothing on a die that has not been booted,
or that has stopped (24 R367, R376). -/
def State.freshCore (s : State) (c : Nat) (gen : BitVec 16) : Core :=
  let d := s.die (dieOf c)
  let k := Core.init d.mkentry ((s.core c).held && (!d.booted || d.failed))
  { k with cr := { k.cr with lease := gen } }

/-- A pen reset acts on what an interface has saved of cores that another one holds; cores of which nothing is saved yet begin in
the reset state, held when the reset leaves them held (09 R208, 24 R368). -/
def State.resetAway (s : State) (v : Nat) (cs : List Nat) (hold : Bool) (gen : BitVec 16) : State :=
  s.modVif v (fun x => cs.foldl (fun x c =>
    match x.saved.find? (fun q => q.1 == c) with
    | some q => { x with saved := Store.insert c (s.resetSaved c hold gen q.2) (x.saved.drop c) }
    | none =>
      if hold then
        { x with saved := Store.insert c (s.resetSaved c hold gen ⟨s.freshCore c gen, [], []⟩) (x.saved.drop c) }
      else x) x)

/-- Releases what waits at the homes: accesses of the reset cores vanish, and those of others that wait there are
refused. -/
def State.fenceWaits (s : State) (inPen : Nat → Bool) : State :=
  let out := s.waits.filter (fun a => !inPen a.core && a.homes.any (fun l => !isStack l && inPen (locCore l)))
  let s := { s with waits := s.waits.filter (fun a =>
    !inPen a.core && !(a.homes.any (fun l => !isStack l && inPen (locCore l)))) }
  out.foldl (fun s a => s.refuse a none) s

/-- Steps 1 to 4 of R231 for a set of cores. -/
def State.fenceCores (s : State) (inPen : Nat → Bool) : State :=
  let s := { s with net := s.net.filterMap (fun p => s.fencePkt inPen p) }
  let s := s.fenceWaits inPen
  let s := (s.cores.map Prod.fst).foldl (fun s c =>
    if inPen c then s.modCore c (fun k => { k with gather := [], handles := [], counters := [] }) else s) s
  s.fenceEngines inPen

/-- The control contexts of launches of a pen end: their level registers read complete (01 R32, 11 R231). -/
def State.endLaunches (s : State) (v i : Nat) : State :=
  (List.range 64).foldl (fun s n =>
    let l := (s.vif v).level n
    if l.kind = 1 ∧ l.pen = i ∧ (l.st = .opened ∨ l.st = .cancelling) then s.completeLevel v n true else s) s

/-- A pen reset (11 R231). The helpers that it removes are charged in a sharing turn (09 R208), and an array's `cur` becomes the
last of its serving order (16 R280). `hold` leaves its control contexts held (24 R368). On a shared core that another interface
holds it acts on the saved state (09 R208). -/
def State.penReset (s : State) (v i : Nat) (hold : Bool) : State :=
  match (s.vif v).pens[i]? with
  | none => s
  | some p =>
    let mine := fun c => p.has c && s.vifOf c == some v
    let here := p.cores.filter mine
    let s1 := (s.fenceCores mine).endLaunches v i
    let s1 := here.foldl (fun s c => ((s.core c).ctxs.filter (fun x => x.1 != 0 && x.2.st != .free)).foldl (fun s x =>
      s.chargeCyc c x.1) s) s1
    let s2 := s1.modPen v i (fun p => { p with pgen := (p.pgen + 1) % 65536, gen := p.gen + 1 })
    let s3 := s2.resetAway v (p.cores.filter (fun c => !mine c)) hold (p.gen + 1)
    let s4 := ((here.map benchOf).dedup).foldl (fun s b =>
      s.modBench b (fun x => { x with cur := (s.serving b).getLast?, left := 0, busy := none })) s3
    here.foldl (fun s c => s.resetCore c hold (p.gen + 1)) s4

/-- A reset that hardware starts at a core: its error record, and the reset of its pen, or of that core alone when it
lies in no pen (11 R222, R231). -/
def State.hardReset (s : State) (core cls code ctx : Nat) (addr pc : Word) (hold : Bool) : State :=
  let s := s.coreError core cls code ctx addr pc
  match s.penOf core with
  | some (v, i, _) => s.penReset v i hold
  | none => (s.fenceCores (fun c => c == core)).resetCore core hold ((s.core core).cr.lease + 1)

end Sys2Proof.Machine
end

