-- ==== Sys2Proof/Machine/Fetch.lean ====
section
/-! DEFINITION. Fetching the words of one instruction (02 R39, R40, R51, 04 R75, 01 R13, 11 R228, 21 R343). -/

namespace Sys2Proof.Machine

/-- The index of a residual word at an address. -/
def Spec.wordAt (e : Spec) (a : Word) : Option Nat :=
  if e.base ≤ a.toNat ∧ a.toNat < e.base + 2 * e.image.length then some ((a.toNat - e.base) / 2) else none

/-- The original PC and the iteration of a PC in residual code (21 Table 202). -/
def State.residualPc (s : State) (a : Word) : Option (Word × Word) :=
  if !isResidual a.toNat then none
  else
    match (s.dies.flatMap (fun d => d.2.specs)).find? (fun e => (e.wordAt a).isSome) with
    | none => none
    | some e => match e.wordAt a with
      | none => none
      | some i => (e.backmap[i]?).map (fun b =>
          (e.codeBase + (b.extractLsb' 0 32).setWidth 64, (b.extractLsb' 32 16).setWidth 64))

/-- Why a word cannot be fetched: a trap, or a line that an engine owns (01 Table 10). -/
inductive FetchErr where
  | trap (t : TrapReq)
  | hold

/-- One word of the instruction at `pc` (02 R40). A fetch from a residual window is one from an ACCEPTED page (21 R328). -/
def State.fetchWord (s : State) (core x : Nat) (pc a : Word) : Except FetchErr (State × HWord) :=
  let c := s.ctx core x
  match check (c.pcc.withAddr pc) a 2 pX with
  | .error t => .error (.trap t)
  | .ok () =>
    if 2 ^ 47 ≤ a.toNat then .error (.trap (pgf a kFetch 0))
    else
      match s.leafFor core x a kFetch with
      | .error t => .error (.trap t)
      | .ok (s1, l) =>
        match l.allows a kFetch with
        | .error t => .error (.trap t)
        | .ok () =>
          let pa := l.pa a.toNat
          if c.cr.cm && !s1.isAccepted l && !isResidual a.toNat then .error (.trap (ill pc 9))
          else if s1.ownedAny pa 2 then .error .hold
          else if s1.poison pa then .error (.trap ⟨tPOIS, a, pc⟩)
          else .ok (s1, BitVec.ofNat 16 (s1.nat pa 2))

/-- The instruction at a PC with the number of its words, or why there is none. -/
inductive Fetched where
  | ok (s : State) (i : Instr) (o : Op) (words : Nat)
  | trap (s : State) (t : TrapReq) (words : Nat)
  | hold

/-- Fetches from address `a` on, `n` words of the chain being read and `fuel` words left (02 R40). -/
def fetchFrom (core x : Nat) (pc : Word) : Nat → State → Chain → Word → Nat → Fetched
  | 0, s, _, _, n => .trap s (ill pc 2) n
  | fuel + 1, s, ch, a, n =>
    match s.fetchWord core x pc a with
    | .error (.trap t) => .trap s t (n + 1)
    | .error .hold => .hold
    | .ok (s1, w) =>
      if isPrefix w then
        match ch.step w with
        | .error e => .trap s1 (ill pc (DecodeErr.reason e)) (n + 1)
        | .ok ch' =>
          if (a + 2).toNat / 65536 ≠ pc.toNat / 65536 then .trap s1 (ill pc 3) (n + 1)
          else fetchFrom core x pc fuel s1 ch' (a + 2) (n + 1)
      else
        match ch.finish w with
        | .error e => .trap s1 (ill pc (DecodeErr.reason e)) (n + 1)
        | .ok (i, o) => .ok s1 i o (n + 1)

/-- Fetches the instruction of a context at an address. An odd PC, which a divert, a `start`, an `mtcs` or the resumption
of a helper can leave, raises ALN there (02 R33; DEDUCED: log 50). -/
def State.fetchAt (s : State) (core x : Nat) (pc : Word) : Fetched :=
  if pc.getLsbD 0 then .trap s (aln pc 1) 1 else fetchFrom core x pc 5 s Chain.start pc 0

/-- Words of the instruction at a PC (11 Table 116). -/
def State.wordsAt (s : State) (core x : Nat) (pc : Word) : Nat :=
  match s.fetchAt core x pc with
  | .ok _ _ _ n => n
  | .trap _ _ n => n
  | .hold => 1

end Sys2Proof.Machine
end

