-- ==== Sys2Proof/Machine/Ops.lean ====
section
/-! DEFINITION. Taking a trap and returning from one (11 R222 to R226), retiring an instruction (09 R183, R184, R207),
the order between a context's operations (10 R210 to R219), and the issue of memory accesses (08 R174). -/

namespace Sys2Proof.Machine

/-! ## Traps -/

/-- Fields of ECAUSE (11 Table 116). -/
def ecCode (e : Word) : Nat := (e.extractLsb' 0 8).toNat
def ecCtx (e : Word) : Nat := (e.extractLsb' 12 4).toNat
def ecIlen (e : Word) : Nat := (e.extractLsb' 19 3).toNat
def ecHnd (e : Word) : Bool := e.getLsbD 23
def ecAct (e : Word) : Nat := (e.extractLsb' 24 2).toNat

/-- ECAUSE of a trap that is taken: HND set and ACT 0 (11 R223). -/
def Trap.ecause (t : Trap) : Word :=
  BitVec.ofNat 64 (t.code + t.ctx * 2 ^ 12 + t.ilen * 2 ^ 19 + t.async.toNat * 2 ^ 22 + 2 ^ 23)

/-- Whether EVEC can be entered (11 R223). -/
def evecOk (e : GReg) : Bool := e.tag && (decide (e.otype = 0) || decide (e.otype = 1)) && (e.perms &&& pX != 0)

/-- The trap registers as trap entry leaves them; a PC in residual code is named by its original PC (11 R223). -/
def CoreRegs.enter (r : CoreRegs) (t : Trap) (res : Option (Word × Word)) : CoreRegs :=
  match res with
  | some (orig, iter) =>
    { r with ecause := t.ecause, epc := orig, erpc := t.pc ||| 1, eiter := iter, eadr := t.addr, einfo := t.info }
  | none => { r with ecause := t.ecause, epc := t.pc, erpc := 0, eiter := 0, eadr := t.addr, einfo := t.info }

/-- The control context continues at EVEC, or the pen is reset (11 R223, 24 R368). -/
def State.vector (s : State) (core : Nat) (t : Trap) : State :=
  let k := s.core core
  if evecOk k.cr.evec then
    s.modCtx core 0 (fun c => { c with pcc := k.cr.evec.withOtype 0, yielding := [] })
  else s.hardReset core 2 t.code t.ctx t.addr t.pc (!k.evecSet)

/-- Trap entry, in one step of the control context (11 R223). -/
def State.takeTrap (s : State) (core : Nat) (t : Trap) : State :=
  let res := s.residualPc t.pc
  (s.modCore core (fun k => { k with cr := k.cr.enter t res, waiting := false })).vector core t

/-- A trap of the control context itself: taken at once, or a double fault (11 R222). A POIS resets the pen (11 R228),
and a `brk` while a trap is handled diverts to EVEC again. -/
def State.ownTrap (s : State) (core : Nat) (t : Trap) : State :=
  let k := s.core core
  if t.code = tPOIS then s.hardReset core 2 t.code 0 t.addr t.pc false
  else if !ecHnd k.cr.ecause then s.takeTrap core t
  else if t.code = tBRK then
    let e := (k.cr.ecause &&& ~~~0xF0FF#64) ||| BitVec.ofNat 64 tBRK
    (s.modCore core (fun k => { k with cr := { k.cr with ecause := e, epc := t.pc } })).vector core t
  else s.hardReset core 2 t.code 0 t.addr t.pc false

/-- A trap is raised on behalf of a context: its held stores leave, a helper becomes STOPPED and its trap pending, and
the control context takes its own (04 Table 34, 08 R167, 11 R222). Poison that a helper consumes makes an error record
(11 R230). -/
def State.raiseTrap (s : State) (core x : Nat) (t : Trap) : State :=
  let s := (s.drainCtx core x).1
  if x = 0 then s.ownTrap core t
  else
    (if t.code = tPOIS then s.coreError core 2 t.code x t.addr t.pc else s).modCore core (fun k =>
      let k := k.setCtx x { k.ctx x with st := .stopped }
      { k with pending := k.pending ++ [t],
               ctxs := k.ctxs.map (fun p => (p.1, { p.2 with yielding := p.2.yielding.filter (fun y => y != x) })) })

/-- Where an asynchronous trap of a context says that it goes on: at its next instruction (11 R224); a POST goes on at the
fence that orders the refused store, when the context has issued nothing after that fence (10 R219). DEDUCED (log 69). -/
def State.resumePc (s : State) (core x code : Nat) : Word :=
  let k := s.core core
  let c := k.ctx x
  let refused := (k.journal.filter (fun p => p.2.st == 2 && p.2.ctx == x)).map (fun p => p.2.id)
  let fence := c.orders.findSome? (fun r => r.redo.bind (fun a =>
    if a.2 = c.pcc.word ∧ r.ids.any refused.contains then some a.1 else none))
  if code = tPOST then fence.getD c.pcc.word else c.pcc.word

/-- An asynchronous trap of a context (11 R224). It stays pending while a held store of the context cannot leave (08 R167). -/
def State.raiseAsync (s : State) (core x code : Nat) (addr info : Word) : State :=
  match (s.ctx core x).st with
  | .live =>
    match s.drainCtx core x with
    | (s, true) =>
      let pc := s.resumePc core x code
      s.raiseTrap core x ⟨code, x, true, pc, s.wordsAt core x pc, addr, info⟩
    | (s, false) => s.pendTrap core x code addr info
  | .stopped => s.pendTrap core x code addr info
  | .free => s

/-- A trap that goes to the storing or sending context when it is LIVE, and otherwise to the control context
(08 R166, R170). -/
def State.raiseLive (s : State) (core x code : Nat) (addr info : Word) : State :=
  if (s.ctx core x).st = .live then s.raiseAsync core x code addr info else s.raiseAsync core 0 code addr info

/-- Raises the first trap that waits for a context before the context next issues (11 R224). -/
def State.deliverTrap (s : State) (core x : Nat) : State :=
  match (s.ctx core x).traps with
  | [] => s
  | t :: ts =>
    let s := s.modCtx core x (fun c => { c with traps := ts })
    s.raiseAsync core x t.code t.addr t.info

/-- The control context takes the pending helper trap that was raised first (11 R222). -/
def State.takePending (s : State) (core : Nat) : State :=
  match (s.core core).pending with
  | [] => s
  | t :: ts => (s.modCore core (fun k => { k with pending := ts })).takeTrap core t

/-- Whether the control context takes a helper trap at a trap point now (11 R222). -/
def State.trapDue (s : State) (core : Nat) : Bool :=
  let k := s.core core
  !k.pending.isEmpty && !ecHnd k.cr.ecause

/-! ## Retiring -/

/-- What an instruction does: it retires, with the PC moved on or set; raises a trap with no effect; is held; retires
and then raises a trap at the next instruction; or has already put its context in its next state. -/
inductive Eff where
  | next (s : State)
  | jump (s : State) (pcc : GReg)
  | trap (t : TrapReq)
  | hold (s : State)
  | after (s : State) (t : TrapReq)
  | taken (s : State)

/-- A context has issued: it is the last issuer, and no `yield` waits for it any more (09 R183, 06 R137). -/
def Core.issued (k : Core) (x : Nat) : Core :=
  { k with lastIssuer := x, waiting := if x = 0 then false else k.waiting,
           ctxs := k.ctxs.map (fun p => (p.1, { p.2 with yielding := p.2.yielding.filter (fun y => y != x) })) }

/-- The addresses in memory that a form of pages 5 and 6 accesses beside those that the load and store forms check: of a channel
or reply slot, and of the block that it reads or writes. Of an engine command that is its descriptor, of `sblk` its base, and not
the operands and destinations that the descriptor names. DESIGN CHOICE (log 83): 02 R46 does not say which address counts. -/
def Ctx.reached (c : Ctx) (f : Form) (o : Op) : List Word :=
  match f.page, f.op, f.sel with
  | 6, 5, some 0 => [(c.rg o.rd).word, (c.rg o.ra).word]
  | 6, 5, _ => [(c.rg o.rd).word]
  | 6, 7, some 1 => [(c.rg o.rd).word]
  | 6, 6, _ | 6, 8, _ | 6, 9, some 0 | 6, 10, some 0 | 5, 0, some 0 | 5, 2, _ | 5, 4, _ => [(c.rg o.ra).word]
  | _, _, _ => []

/-- The fallback warnings of an instruction: those of its encoding, and a system scope that a window narrows (02 R46, R49). -/
def Ctx.warns (c : Ctx) (f : Form) (o : Op) : BitVec 7 :=
  warnBits f o ||| warnIf (decide (f.cls ≠ .none) && decide (o.scope = 3) && (c.reached f o).any isWindow) wSCOPE

/-- An instruction retires: fallback warnings in checked mode, CYC, the PC, and the park of a switch marker (02 R49 to
R51, 04 Table 44, 09 R184). `was` is the context at issue. -/
def State.retire (s : State) (f : Form) (o : Op) (was : Ctx) (pcc : Option GReg) : State :=
  s.modCore s.curCore (fun k =>
    let c := k.ctx s.curCtx
    let cr := if was.cr.cm then c.cr else c.cr.addWarn was.pcc.word (was.warns f o)
    let pcc' := pcc.getD (c.pcc.withAddr (was.pcc.word + BitVec.ofNat 64 (2 * o.words)))
    (k.setCtx s.curCtx { c with cr := { cr with cyc := cr.cyc + 1 }, pcc := pcc', parked := o.m && c.outs.any Outst.mark }).issued
      s.curCtx)

/-- A helper's CYC reaches its BUDGET (09 R207). -/
def Ctx.budgetOut (c : Ctx) : Bool := c.cr.budget != 0 && c.cr.cyc == c.cr.budget

/-- Raises BUDG for a context (09 R207). -/
def State.raiseBudg (s : State) (core x : Nat) : State := s.raiseAsync core x tBUDG 0 (s.ctx core x).cr.cyc

/-- Takes the first pending HFLT of a context off its list (15 R275). -/
def State.popHflt (s : State) (core x : Nat) : Option (State × Trap) :=
  match (s.ctx core x).hflts with
  | [] => none
  | t :: ts => some (s.modCtx core x (fun c => { c with hflts := ts }), t)

/-- Raises the first HFLT of the executing context at its current PC (15 R275, 16 R287). -/
def State.raiseHflt (s : State) : State :=
  match s.popHflt s.curCore s.curCtx with
  | none => s
  | some (s', t) => s'.raiseAsync s.curCore s.curCtx tHFLT t.addr t.info

/-- What follows a retirement: an HFLT at a switch marker, and BUDG (15 R275, 09 R207). An `hpoll` with M = 1 counts as the next
instruction with M = 1 there. DESIGN CHOICE (log 10): R275 says also that `hpoll` takes no HFLT. -/
def State.afterRetire (s : State) (o : Op) : State :=
  let c := s.core s.curCore
  let s := if o.m && (c.ctx s.curCtx).st == .live then s.raiseHflt else s
  if s.curCtx ≠ 0 ∧ (s.ctx s.curCore s.curCtx).budgetOut ∧ (s.ctx s.curCore s.curCtx).st ≠ .free then
    s.raiseBudg s.curCore s.curCtx
  else s

/-! ## Order -/

/-- Whether an outstanding result has been performed. -/
def Wait.performed : Wait → Bool
  | .ready _ _ => true
  | _ => false

/-- The fence sets of an access (10 Table 99). -/
def AccOp.sets (op : AccOp) : BitVec 4 :=
  if op.kind = 0 then setL else if op.kind = 1 then setS else setL ||| setS

/-- The operations of a context that are not yet performed, with their fence sets (10 R211). An engine command is performed
when it is accepted and owns its destination lines. -/
def State.unperformed (s : State) (core x : Nat) : List (Nat × BitVec 4) :=
  let k := s.core core
  ((k.ctx x).outs.filter (fun o => !o.wait.performed)).map (fun o => (o.id, o.sets)) ++
  (k.journal.filter (fun p => p.2.st == 1 && p.2.ctx == x)).map (fun p => (p.2.id, setS)) ++
  (k.gather.filter (fun l => l.ctx == x)).map (fun l => (l.id, setS)) ++
  s.net.filterMap (fun p => match p.body with
    | .msg c y _ _ _ _ _ _ _ => if c = core ∧ y = x then some (p.id, setM) else none
    | .record c y _ _ _ _ _ _ _ _ => if c = core ∧ y = x then some (p.id, setM) else none
    | .reply c y _ _ _ _ => if c = core ∧ y = x then some (p.id, setM) else none
    | .cancel _ _ _ c y _ => if c = core ∧ y = x then some (p.id, setM ||| setE) else none
    | .resume _ _ c y _ => if c = core ∧ y = x then some (p.id, setM ||| setE) else none
    | _ => none) ++
  s.benches.flatMap (fun b => (b.2.hires.filter (fun h => h.core == core && h.ctx == x &&
    (h.stage == .inbox || (h.stage == .queued && !s.ownsAll h.id)))).map
    (fun h => (h.id, setM ||| setE))) ++
  s.copies.flatMap (fun e => (e.2.filter (fun h => h.core == core && h.ctx == x &&
    (!h.accepted || !s.ownsAll h.id))).map
    (fun h => (h.id, setM ||| setE))) ++
  s.stks.flatMap (fun e => (e.2.filter (fun h => h.core == core && h.ctx == x &&
    (!h.accepted || !s.ownsAll h.id))).map
    (fun h => (h.id, setM ||| setE))) ++
  (s.waits.filter (fun a => a.core == core && a.ctx == x)).map (fun a => (a.out, a.op.sets))

/-- The operations of some sets that are not yet performed. -/
def pendingOf (u : List (Nat × BitVec 4)) (sets : BitVec 4) : List Nat :=
  (u.filter (fun p => p.2 &&& sets != 0)).map Prod.fst

/-- Drops the orders whose operations have all been performed. -/
def liveOrders (u : List (Nat × BitVec 4)) (os : List Order) : List Order :=
  os.filter (fun r => r.ids.any (fun i => u.any (fun p => p.1 == i)))

/-- The held stores that must leave first leave, and the Bool says whether the operation may be issued now: everything
that must precede it has been performed (10 R212, R219). -/
def State.orderGate (s : State) (f : Form) (o : Op) : State × Bool :=
  let (core, x) := (s.curCore, s.curCtx)
  let need := f.waitsFor o
  let (s, left) := if need &&& setS != 0 then s.drainCtx core x else (s, true)
  let u := s.unperformed core x
  let s := s.modCtx core x (fun c => { c with orders := liveOrders u c.orders })
  let blocked := (s.ctx core x).orders.any (fun r => r.succ &&& f.sets != 0)
  (s, left && !blocked && (pendingOf u need).isEmpty)

/-- The later operations that must wait until an operation is performed; an `ldc` through a reply slot takes F as `ld.fec` does
(08 R175, 10 R217). -/
def State.blocks (s : State) (f : Form) (o : Op) : BitVec 4 :=
  f.blocks o ||| (if f.isLdc ∧ (s.g o.ra).otype = 3 then setL ||| setS else 0)

/-- After an operation has issued: the order `b` that it puts on later ones. -/
def State.orderAfter (s : State) (b : BitVec 4) (first : Nat) : State :=
  if b = 0 then s
  else
    let ids := ((s.unperformed s.curCore s.curCtx).filter (fun p => decide (first ≤ p.1))).map Prod.fst
    if ids.isEmpty then s
    else s.modCx (fun c => { c with orders := c.orders ++ [⟨b, ids, none⟩] })

/-! ## One instruction -/

/-- The table through which the stores of a form go: of `sblk` that of the partition, whatever the context (23 R357). -/
def State.storeRoot (s : State) (f : Form) : Word :=
  s.rootOf s.curCore (if f.page = 5 ∧ f.op = 4 ∧ f.sel = some 1 then 1 else s.curCtx)

/-- Puts an instruction's effect into the machine (09 R183, 11 R224). A trap waits until the held stores of its context can leave
(08 R167). -/
def State.conclude (s : State) (f : Form) (o : Op) (e : Eff) : State :=
  let c := s.cx
  let first := s.nextId
  match e with
  | .hold s' => { s' with stalled := true }
  | .trap t =>
    match s.drainCtx s.curCore s.curCtx with
    | (s, false) => { s with stalled := true }
    | (s, true) =>
      let s := if t.code = tCAPP ∧ t.info = 0x1000 then s.frozenAt (s.storeRoot f) t.addr.toNat else s
      (s.modCore s.curCore (fun k => k.issued s.curCtx)).raiseTrap s.curCore s.curCtx
        ⟨t.code, s.curCtx, false, c.pcc.word, o.words, t.addr, t.info⟩
  | .taken s' => s'
  | .next s' => ((s'.orderAfter (s.blocks f o) first).retire f o c none).afterRetire o
  | .jump s' pcc => ((s'.orderAfter (s.blocks f o) first).retire f o c (some pcc)).afterRetire o
  | .after s' t =>
    let s1 := (s'.orderAfter (s.blocks f o) first).retire f o c none
    (s1.raiseAsync s.curCore s.curCtx t.code t.addr t.info).afterRetire { o with m := false }

/-- Runs one instruction of the executing context: `body` is what the instruction itself does. Page 7 is legal in the
control context only (11 R238). -/
def run (f : Form) (o : Op) (s : State) (body : State → Eff) : State :=
  if f.page = 7 ∧ s.curCtx ≠ 0 then s.conclude f o (.trap (ill s.pc 4))
  else
    match s.orderGate f o with
    | (s1, true) => s1.conclude f o (body s1)
    | (s1, false) => s1.conclude f o (.hold s1)

/-- An instruction word's meaning, which may depend on its form: the form comes from the syntax. -/
def wordF (i : Instr) (o : Op) (s : State) (body : Form → State → Eff) : Host.Outcome State Fault Refusal :=
  match i.form? with
  | some f => .next (run f o s (body f))
  | none => .next s

/-- An instruction word's meaning. -/
def word (i : Instr) (o : Op) (s : State) (body : State → Eff) : Host.Outcome State Fault Refusal :=
  wordF i o s (fun _ => body)

/-- An instruction that a helper may not execute, or a control context may not (11 Table 118). -/
def controlOnly (s : State) (e : Eff) : Eff := if s.curCtx ≠ 0 then .trap (ill s.pc 4) else e
def helperOnly (s : State) (e : Eff) : Eff := if s.curCtx = 0 then .trap (ill s.pc 4) else e

/-- What a failed check comes to: its trap, or a wait for a line that an engine owns (01 Table 10). -/
def failed (s : State) (t : TrapReq) : Eff := if t = waitReq then .hold s else .trap t

/-- A check that may fail before the instruction has any effect. -/
def checked {α : Type} (s : State) (r : Except TrapReq α) (f : α → Eff) : Eff :=
  match r with
  | .ok a => f a
  | .error t => failed s t

/-- A copy of a whole value to a register, to memory, or into a message or record: one with OTYPE 15 is not allowed
(04 R86). -/
def copied (v : GReg) (e : Eff) : Eff := if v.tag && v.otype == 15 then .trap ⟨tCAPT, v.word, 2⟩ else e

/-- Return from a trap (11 R226). A return of the control context to an odd address raises ALN at the `eret` (02 R33;
DEDUCED: log 50). -/
def State.eretEff (s : State) : Eff :=
  let r := s.ck.cr
  if !ecHnd r.ecause then .trap (ill s.pc 10)
  else
    let c := ecCtx r.ecause
    let a0 := if r.erpc.getLsbD 0 then r.erpc &&& ~~~1#64 else r.epc
    let a := if ecCode r.ecause = tSVC then a0 + BitVec.ofNat 64 (2 * ecIlen r.ecause) else a0
    let done := fun (s : State) => s.modCore s.curCore (fun k =>
      { k with cr := { k.cr with ecause := k.cr.ecause &&& ~~~0x800000#64 } })
    if c = 0 then (if a.getLsbD 0 then .trap (aln a 1) else .jump (done s) (s.cx.pcc.withAddr a))
    else if ecCode r.ecause ≠ tCHK ∧ c ≤ 10 ∧ (s.ctx s.curCore c).st = .stopped then
      match ecAct r.ecause with
      | 0 => .next (done (s.modCtx s.curCore c (fun h => { h with st := .live, pcc := h.pcc.withAddr a })))
      | 1 => .next (done (s.freeCtx s.curCore c .cancelled))
      | 2 => .next (done s)
      | _ => .next (done (s.warn wRSV))
    else .next (done s)

/-! ## Memory accesses -/

/-- A result under way: a new outstanding result of the executing context. -/
def State.startOut (s : State) (d : Dest) (w : Wait) (sets : BitVec 4) (touch : List (Nat × Nat)) : State :=
  let (id, s1) := s.fresh
  s1.addOut ⟨id, d, false, true, w, sets, touch, s.pc⟩

/-- An operation of the executing context that no switch marker waits for. -/
def State.startQuiet (s : State) (w : Wait) (sets : BitVec 4) (touch : List (Nat × Nat)) : State :=
  let (id, s1) := s.fresh
  s1.addOut ⟨id, .none, false, false, w, sets, touch, s.pc⟩

/-- Holds while the limits of R81 allow no further pending entry for a destination. -/
def withRoom (s : State) (d : Dest) (e : Eff) : Eff := if s.cx.roomFor d then e else .hold s

/-- An outstanding result whose value is known at issue (06 R118, 07 R143). -/
def later (s : State) (d : Dest) (v : RVal) (fl : Flags) : Eff :=
  withRoom s d (.next (s.startOut d (.ready v fl) 0 []))

/-- A plain load reads through its context's held lines (08 R167). -/
def AccOp.reads : AccOp → Bool
  | .load _ fe _ => fe == .plain
  | .loadCap _ slot => !slot
  | .vload _ fe _ => fe == .plain
  | .pload => true
  | _ => false

/-- The held lines of the executing context. -/
def State.ownHeld (s : State) : List Gather := s.ck.gather.filter (fun l => l.ctx == s.curCtx)

/-- The access of the executing context. -/
def State.mkAccess (s : State) (op : AccOp) (loc : Nat) (va : Word) (f : Form) (o : Op) : Access :=
  { op := op, loc := loc, va := va, core := s.curCore, ctx := s.curCtx, out := s.nextId, pc := s.pc, lid := s.lid,
    lease := s.ck.cr.lease.toNat, pgen := s.pgenOf s.curCore, eng := decide (f.order o = .eng),
    held := if op.reads then s.ownHeld else [] }

/-- System scope on an access through a window is narrowed, which sets W.SCOPE in checked mode (02 R46). -/
def State.scopeWarn (s : State) (f : Form) (o : Op) (va : Word) : State :=
  if isWindow va && decide (f.cls ≠ .none) && decide (o.scope = 3) then s.warn wSCOPE else s

/-- The held lines that leave before an access: those of other contexts to its lines, and the context's own unless
`keep` (08 Table 83). -/
def State.drainFor (s : State) (a : Access) (keep : Bool) : State × Bool :=
  s.drainWhere a.core (fun l => l.meets a.touch && (l.ctx != a.ctx || !keep))

/-- Whether an access waits in its home behind an earlier one of its context, or in the network. -/
def State.mustQueue (s : State) (a : Access) : Bool := behind s.waits a

/-- An access keeps waiting at its home (08 R176); the context's own home takes 32 counted requests. -/
def State.queue (s : State) (a : Access) (d : Dest) (sets : BitVec 4) (mark : Bool) : Eff :=
  if a.op.counted && !isStack a.loc && decide (32 ≤ s.waitsAt (locCore a.loc)) then .hold s
  else
    let s1 := if mark then s.startOut d .away sets a.touch else s.startQuiet .away sets a.touch
    .next { s1 with waits := s1.waits ++ [a] }

/-- Issues an access to stack memory or to the context's own local store. `mark` says that it is an outstanding result
whether or not it completes at once. -/
def issueHome (s0 : State) (a : Access) (d : Dest) (sets : BitVec 4) (mark : Bool) : Eff :=
  match s0.drainFor a a.op.reads with
  | (s, false) => .hold s
  | (s, true) =>
    let a := { a with out := s.nextId }
    if s.mustQueue a then s.queue a d sets mark
    else
      match perform s a with
      | .wait => s.queue a d sets mark
      | .done s1 v =>
        let s2 := s1.serve
        .next (if mark then s2.startOut d (.ready v 0) sets [] else s2)
      | .refused g => .trap ⟨tPOIS, a.poisonVa g, a.pc⟩
      | .poison g =>
        let t : TrapReq := ⟨tPOIS, a.poisonVa g, a.pc⟩
        match a.op with
        | .amo _ n _ _ => if n < 16 then .trap t else .after s t
        | _ => .after s t

/-- Issues an access to another core's local store as a request that the home answers (08 R169, R174). A load reads through the
lines that its context holds, which stay held (R167). -/
def issueRequest (s0 : State) (a : Access) (d : Dest) (sets : BitVec 4) : Eff :=
  match s0.drainFor a a.op.reads with
  | (s, false) => .hold s
  | (s, true) =>
    if s.mustQueue a then .hold s
    else
      let a := { a with out := s.nextId }
      .next ((s.startOut d .away sets a.touch).sendPkt (.request a false))

/-- Issues a store to another core's local store that takes a journal entry at once (08 R169). -/
def issuePosted (s0 : State) (a : Access) (mask : BitVec 64) : Eff :=
  match s0.drainFor a false with
  | (s, false) => .hold s
  | (s, true) =>
    if s.mustQueue a then .hold s
    else
      let (id, s1) := s.fresh
      match s1.post a mask id with
      | some s2 => .next s2
      | none => .hold s

/-- Issues a plain store of up to 8 bytes: it may be held in the gather buffer (08 R167, R168). -/
def issueStore (s0 : State) (a : Access) (bs : List Byte) (remote : Bool) (plain : Bool) : Eff :=
  if !remote && !isStack a.loc then issueHome s0 a .none setS false
  else if !plain then
    (if remote then issuePosted s0 a ((BitVec.ofNat 64 (2 ^ bs.length - 1)) <<< (a.loc % 64))
     else issueHome s0 a .none setS false)
  else if !remote && (s0.ownedAny a.loc bs.length || s0.mustQueue a) then issueHome s0 a .none setS false
  else
    match if remote then none else s0.partPoison a.loc bs.length with
    | some g => .trap ⟨tPOIS, a.poisonVa g, a.pc⟩
    | none =>
      match s0.drainFor a true with
      | (s, false) => .hold s
      | (s, true) =>
        match s.gatherStore a remote bs with
        | (s1, true) => .next s1
        | (s1, false) => .hold s1

/-! ## Beginning an issue -/

/-- What an issue of a context comes to: it is over, or an instruction is to be executed. -/
inductive Issue where
  | over (s : State)
  | exec (i : Instr) (s : State)

/-- The register of a field. -/
def useReg (u : RegUse) (r : Nat) : Dest :=
  match u with
  | .g => .g r
  | .v => .v r
  | .p => .p (r % 8)
  | .none => .none

/-- Whether a form is that of a page, an op and a selector. -/
def formAt (f : Form) (page op sel : Nat) : Bool :=
  decide (f.page = page ∧ f.op = op) && (f.sel.getD 0 == sel)

/-- Forms of pages 0 to 4 whose D is a source whatever else they name; `vsel` has three sources (07 Table 71). -/
def readsD (f : Form) : Bool :=
  (decide (f.page = 0) && [3, 10, 11, 17, 18, 19].contains f.op) ||
  (decide (f.page = 1) && ([8, 17, 22, 23].contains f.op || formAt f 1 7 1)) ||
  formAt f 2 10 0 || formAt f 2 12 0 || formAt f 2 12 1 || formAt f 2 17 1 || formAt f 3 2 0 || formAt f 3 2 1 ||
  formAt f 4 4 1

/-- Forms whose D field names a source or an authority only. -/
def sourceD (f : Form) : Bool :=
  [(0, 10, 0), (0, 11, 0), (0, 15, 1), (0, 16, 1), (0, 24, 0), (0, 27, 0), (1, 10, 0), (1, 10, 1), (1, 11, 0), (1, 22, 0),
   (1, 23, 0), (4, 0, 1), (4, 1, 1), (4, 2, 1), (4, 3, 1), (4, 8, 1), (4, 11, 1), (5, 7, 0), (6, 5, 0), (6, 5, 1),
   (6, 7, 1), (6, 12, 1), (7, 1, 1), (7, 2, 0), (7, 2, 1), (7, 4, 0), (7, 4, 1), (7, 5, 0)].any
    (fun p => formAt f p.1 p.2.1 p.2.2)

/-- Forms with two sources, which without PREG are D and A, so that they name no B (02 R37, R42). -/
def twoSources (f : Form) : Bool := decide (f.page ≤ 4) && !readsD f && !(decide (f.page = 4) && decide (f.op ≤ 3))

/-- The registers that an instruction names in its fields, with whether it writes them: of a form with an immediate D alone, of a
`tapsel` that clears none, and of a gang reach those of the file that k names (02 R37, 07 R157, 19 R307). -/
def fieldUses (f : Form) (o : Op) : List (Dest × Bool) :=
  if f.page = 4 ∧ f.op = 8 then
    let u := if o.k1.testBit 2 then RegUse.v else RegUse.g
    if f.sel = some 0 then [(useReg u o.rd, true)] else [(useReg u o.ra, false)]
  else if formAt f 5 7 0 && o.k1.testBit 2 then []
  else
    (if f.fmt = .f2 then [(useReg f.aUse o.ra, false)] else []) ++
      (if o.hasPreg || !twoSources f then [(useReg f.bUse o.rb, false)] else []) ++ [(useReg f.dUse o.rd, !sourceD f)]

/-- The registers that an instruction uses without naming them: lk of a linking jump and of `ret`, g8 of `sched`, g4 to g7 of
`sendr` and `callat`, and the g register of the context itself that `mtcs` writes (06 R131, 09 R194, R197, R201, 11 R240). -/
def Ctx.impliedUses (c : Ctx) (x : Nat) (f : Form) (o : Op) : List (Dest × Bool) :=
  if formAt f 0 13 0 || formAt f 0 14 1 then [(.g 15, true)]
  else if formAt f 0 26 3 then [(.g 15, false)]
  else if formAt f 0 26 4 then [(.g 8, true)]
  else if formAt f 6 5 1 || formAt f 6 7 0 then [(.g 4, false), (.g 5, false), (.g 6, false), (.g 7, false)]
  else if formAt f 7 1 1 && decide (64 ≤ o.k1 % 128 ∧ o.k1 % 128 < 96 ∧ (c.rg o.ra).addr % 16 = x) then
    [(.g (o.k1 % 128 - 64), true)]
  else []

/-- The register of a gang peer that an instruction reaches: its core, the register, and whether it is written (07 R157). -/
def peerOf (f : Form) (o : Op) (core : Nat) : List (Nat × Dest × Bool) :=
  if f.page = 4 ∧ f.op = 8 then
    let v := o.k1.testBit 2
    let m := troupeCore core (o.k1 % 4)
    if f.sel = some 0 then [(m, if v then .v o.ra else .g o.ra, false)] else [(m, if v then .v o.rd else .g o.rd, true)]
  else []

/-- Brings in the registers of an instruction of a context, and makes room for the seven of a helper that it starts
(04 R79 to R81, R83). -/
def State.bringFor (s : State) (core x : Nat) (f : Form) (o : Op) : Bring :=
  let own := fieldUses f o
  let peer := peerOf f o core
  let keep := own.map (fun p => (x, p.1)) ++ peer.map (fun p => (x, p.2.1))
  match bringAll keep (own.map (fun p => (core, x, p.1, p.2)) ++ peer.map (fun p => (p.1, x, p.2.1, p.2.2))) s with
  | .ok s1 =>
    let more := (s1.ctx core x).impliedUses x f o
    let keep := keep ++ more.map (fun p => (x, p.1))
    match bringAll keep (more.map (fun p => (core, x, p.1, p.2))) s1 with
    | .ok s2 => if f.isStart then makeRoom core false keep 7 7 s2 else .ok s2
    | r => r
  | r => r

/-- Whether a context waits until an engine has accepted its command or answered its `hire.r` or `cancel`: the instruction that
issued it holds the context (01 R19, 13 R254, 15 R273, R276, R277). -/
def State.awaitsEngine (s : State) (core x : Nat) : Bool :=
  s.benches.any (fun b => b.2.hires.any (fun h => h.core == core && h.ctx == x && h.stage == .inbox)) ||
    s.copies.any (fun e => e.2.any (fun c => c.core == core && c.ctx == x && !c.accepted)) ||
    s.stks.any (fun e => e.2.any (fun c => c.core == core && c.ctx == x && !c.accepted)) ||
    s.net.any (fun p => match p.body with
      | .cancel _ _ _ c y _ => c == core && y == x
      | .resume _ _ c y _ => c == core && y == x
      | _ => false)

/-- A context issues: a trap that waits for it is raised, or its next instruction is fetched and its registers are brought in;
a fetch that fails raises its trap (09 R183, 11 R224). -/
def State.beginIssue (s0 : State) (core x : Nat) : Issue :=
  let s := { s0 with curCore := core, curCtx := x, stalled := false }
  let trap := fun (s1 : State) (t : TrapReq) (n : Nat) =>
    if t = waitReq then Issue.over { s with stalled := true }
    else match s1.drainCtx core x with
      | (s2, false) => .over { s2 with stalled := true }
      | (s2, true) => .over ((s2.modCore core (fun k => k.issued x)).raiseTrap core x
          ⟨t.code, x, false, (s.ctx core x).pcc.word, n, t.addr, t.info⟩)
  if !(s.ctx core x).traps.isEmpty then
    match s.drainCtx core x with
    | (s2, false) => .over { s2 with stalled := true }
    | (s2, true) => .over (s2.deliverTrap core x)
  else if s.awaitsEngine core x then .over { s with stalled := true }
  else
    match s.fetchAt core x (s.ctx core x).pcc.word with
    | .hold => .over { s with stalled := true }
    | .trap s1 t n => trap s1 t n
    | .ok s1 i o n =>
      match i.form? with
      | none => .exec i { s1 with opr := o }
      | some f =>
        match s1.bringFor core x f o with
        | .ok s2 => .exec i { s2 with opr := o }
        | .wait => .over { s with stalled := true }
        | .pois a => trap s1 ⟨tPOIS, BitVec.ofNat 64 a, (s.ctx core x).pcc.word⟩ n

/-- Whether a context may issue, but for a `yield` (09 R183). -/
def Core.readyBut (k : Core) (x : Nat) : Bool :=
  let c := k.ctx x
  !k.held && c.st == .live && !c.parked

/-- The helpers that a `yield` still waits for: those that became parked, STOPPED or FREE do not count (06 R137). -/
def Core.yieldsTo (k : Core) (x : Nat) : List Nat := (k.ctx x).yielding.filter k.readyBut

/-- The contexts in the order in which the core tries them: the control context with a trap pending, then the ready
contexts after the last issuer, and those that have yielded last (09 R183). -/
def Core.tryOrder (k : Core) : List Nat :=
  let ring := ((List.range 11).map (fun i => (k.lastIssuer + 1 + i) % 11)).filter k.readyBut
  let first := if !k.pending.isEmpty && k.readyBut 0 then [0] else []
  (first ++ ring.filter (fun x => (k.yieldsTo x).isEmpty) ++ ring.filter (fun x => !(k.yieldsTo x).isEmpty)).dedup

end Sys2Proof.Machine
end

