-- ==== Sys2Proof/Machine/Blocks.lean ====
section
/-! DEFINITION. Blocks of memory that an instruction reads or writes through a capability: records, messages, argument
blocks and engine operands (08 R174, 09 R187, R191, R194, R195). -/

namespace Sys2Proof.Machine

/-- The pieces of consecutive locations of `n` bytes at an address, with the alignment and region checks of R174. A
block in stack memory may cross one page boundary. -/
def State.locateBlock (s : State) (core ctx : Nat) (va : Word) (n al kind : Nat) : Except TrapReq (State × Segs) :=
  if va.toNat % 2 ^ al ≠ 0 then .error (aln va al)
  else if n = 0 then .ok (s, [])
  else if isWindow va then
    match s.locate core ctx va n 0 kind with
    | .error t => .error t
    | .ok (s1, loc, _) => .ok (s1, [(loc, n)])
  else
    let n1 := min n (65536 - va.toNat % 65536)
    match s.locate core ctx va n1 0 kind with
    | .error t => .error t
    | .ok (s1, loc, _) =>
      if n1 = n then .ok (s1, [(loc, n)])
      else
        match s1.locate core ctx (va + BitVec.ofNat 64 n1) (n - n1) 0 kind with
        | .error t => .error t
        | .ok (s2, loc2, _) => .ok (s2, [(loc, n1), (loc2, n - n1)])

/-- The granule locations of a block that begins on a granule. -/
def segGranules (g : Segs) : List Nat := g.flatMap (fun p => granules p.1 p.2)

/-- Whether an engine owns a byte of a block. -/
def State.ownedSegs (s : State) (g : Segs) : Bool := g.any (fun p => s.ownedAny p.1 p.2)

/-- The first poisoned granule of a block, with its offset. -/
def State.poisonSegs (s : State) (g : Segs) : Option Nat := (segGranules g).findIdx? s.poison

/-- The granules of a block, with their C bits where `tags` allows them. -/
def State.readSegs (s : State) (g : Segs) (tags : Bool) : List GReg :=
  (segGranules g).map (fun l => let x := s.granule l; x.withTag (x.tag && tags))

/-- Writes granules over a block, with their tags where `tags` allows them. -/
def State.writeSegs (s : State) (g : Segs) (tags : Bool) (gs : List GReg) : State :=
  (((segGranules g).zip gs).foldl (fun s p => s.storeGranule p.1 (p.2.withTag (p.2.tag && tags))) s).serve

/-- Whether the home of a block in another core's local store refuses an access (01 R15). -/
def State.segsRefused (s : State) (core : Nat) (g : Segs) : Bool :=
  g.any (fun p => !isStack p.1 && locCore p.1 != core && (s.homeRefuses p.1).isSome)

/-- A message header from its fields (01 Table 9). No reply is asked. -/
def mkHeader (opc pgen viid len pri chn kind dcl didx orcl oridx ctx hnd : Nat) : BitVec 256 :=
  0#128 ++ BitVec.ofNat 16 opc ++ BitVec.ofNat 16 pgen ++ BitVec.ofNat 6 viid ++
    BitVec.ofNat 3 len ++ BitVec.ofNat 3 pri ++ BitVec.ofNat 4 chn ++ BitVec.ofNat 3 kind ++ BitVec.ofNat 5 dcl ++
    BitVec.ofNat 8 didx ++ BitVec.ofNat 5 orcl ++ BitVec.ofNat 8 oridx ++ BitVec.ofNat 4 ctx ++ BitVec.ofNat 7 hnd ++ 0#40

/-- The header of a message that the executing core composes: OPC, LEN, PRI, CHN, KIND, DCL, DIDX, the context that it names and
HND (01 Table 9). -/
def State.header (s : State) (opc len pri chn kind dcl didx ctx hnd : Nat) : BitVec 256 :=
  mkHeader opc (s.pgenOf s.curCore) (s.vifNo s.curCore) len pri chn kind dcl didx (s.lclOf s.curCore) (cidxOf s.curCore) ctx hnd

/-- HND: the handle, or bit 46 for a counted command (01 Table 9). -/
def hndOf (h : Option Nat) : Nat := h.getD 64

/-- Whether a receiver discards a header: its reserved bits are not zero, or its KIND is reserved (01 R17). -/
def headerBad (h : BitVec 256) : Bool := h.extractLsb' 0 40 != 0 || h.getLsbD 79

/-- Reaches a block through a capability: the checks of R174 in their order. A bank of another core that is not in PAD role
answers with a refusal, which raises PGF asynchronously (01 R15). Held lines of the block leave first, and an owned line,
or an earlier access of the context to the block that is still under way, holds the context (10 R212). -/
def withBlock (s : State) (c : GReg) (n al perms : Nat) (kind : Nat) (k : State → Segs → Eff) : Eff :=
  checked s (check c c.word n perms) (fun _ =>
    checked s (s.locateBlock s.curCore s.curCtx c.word n al kind) (fun r =>
      if r.1.segsRefused s.curCore r.2 then .after r.1 ⟨tPGF, c.word, BitVec.ofNat 64 (kind + 32)⟩
      else
        match r.1.drainWhere s.curCore (fun l => l.meets r.2) with
        | (s1, false) => .hold s1
        | (s1, true) => if s1.ownedSegs r.2 || s1.underWay s.curCore s.curCtx r.2 then .hold s1 else k s1 r.2))

/-- The address of a poisoned granule of a block at an address. -/
def segPoisonVa (va : Word) (i : Nat) : Word := va + BitVec.ofNat 64 (16 * i)

/-- Reads a block that an instruction consumes: a poisoned granule raises POIS (11 R228). -/
def readBlock (s : State) (c : GReg) (n al : Nat) (k : State → List GReg → Eff) : Eff :=
  withBlock s c n al pL kLoad (fun s1 g =>
    match s1.poisonSegs g with
    | some i => .after s1 ⟨tPOIS, segPoisonVa c.word i, s.pc⟩
    | none => k s1 (s1.readSegs g (c.perms &&& pLC != 0)))

end Sys2Proof.Machine
end

