-- ==== Sys2Proof/Machine/EngMem.lean ====
section
/-! DEFINITION. How the engines reach memory: translation through their interface, reads, and the destination lines that
they own (01 R20 to R22, 13 R255, 15 R271, 23 R352, 24 R366). -/

namespace Sys2Proof.Machine

/-- A landing at the first of some pieces that cannot be written was refused: when its page is FROZEN, specialisation
entries are invalidated (21 R333). -/
def State.frozenLanding (s : State) (core : Nat) (ps : List (Nat × Nat)) : State :=
  let bad := ps.find? (fun p => match s.engLoc core p.1 kStore with
    | .error e => e != .bank && e != .wait
    | .ok _ => false)
  match bad, s.vifOf core with
  | some p, some v => s.frozenAt (s.vif v).troot p.1
  | _, _ => s

/-- What an engine's read gives: the bytes and whether a granule was poisoned, or that it waits for a line which another
command owns (01 Table 10), or why it fails. -/
inductive EngRd where
  | ok (s : State) (bs : List Byte) (pois : Bool)
  | wait
  | err (e : EngErr)

/-- Reads pieces one after another; lines that the commands `own` own do not make it wait. -/
def engReadPieces (core : Nat) (own : List Nat) : List (Nat × Nat) → State → EngRd
  | [], s => .ok s [] false
  | (va, n) :: rest, s =>
    match s.engLoc core va kLoad with
    | .error .wait => .wait
    | .error e => .err e
    | .ok (s1, loc) =>
      if s1.ownedBut own loc n then .wait
      else
        match engReadPieces core own rest s1 with
        | .ok s2 bs p => .ok s2 (s1.bytes loc n ++ bs) ((s1.readPoison loc n).isSome || p)
        | r => r

/-- A command's read of `n` bytes at an address (10 R218). -/
def State.engRead (s : State) (core cmd va n : Nat) : EngRd := engReadPieces core [cmd] (pieces va n) s

/-- The location of an address in translated pieces. -/
def pageLoc (ps : List Page) (va : Nat) : Option Nat :=
  (ps.find? (fun p => decide (p.va ≤ va ∧ va < p.va + p.size))).map (fun p => p.pa + (va - p.va))

/-- The pieces of consecutive locations of `n` bytes at an address. -/
def pageSegs (ps : List Page) (va n : Nat) : Segs :=
  (pieces va n).filterMap (fun b => (pageLoc ps b.1).map (fun l => (l, b.2)))

/-- The lines of pieces of consecutive locations. -/
def segLines (g : Segs) : List Nat := g.flatMap (fun p => linesOf p.1 p.2)

/-- Puts a number into a rising list that has none twice. -/
def insertNat (x : Nat) : List Nat → List Nat
  | [] => [x]
  | y :: ys => if x < y then x :: y :: ys else if x = y then y :: ys else y :: insertNat x ys

/-- A list of numbers in rising order, none twice. -/
def sortNats (xs : List Nat) : List Nat := xs.foldr insertNat []

/-- A command takes lines in ascending order; held bytes of them reach the lines first (01 R20). -/
def State.claimLines (s : State) (cmd : Nat) (lines : List Nat) : State := s.claim cmd (sortNats lines)

/-- The bytes of pieces. -/
def State.readPieces (s : State) (g : Segs) : List Byte := g.flatMap (fun p => s.bytes p.1 p.2)

/-- Splits bytes that begin at a location by granule: the location of each part and its bytes with their poison. -/
def byGranule : Nat → Nat → List (Byte × Bool) → List (Nat × List (Byte × Bool))
  | 0, _, _ => []
  | _, _, [] => []
  | fuel + 1, loc, xs =>
    let n := 16 - loc % 16
    (loc, xs.take n) :: byGranule fuel (loc + n) (xs.drop n)

/-- Lands bytes at a location, granule by granule; a granule is poisoned when any of its landed bytes is (01 R21,
11 R228). -/
def State.landAt (s : State) (loc : Nat) (xs : List (Byte × Bool)) : State :=
  (byGranule (xs.length / 16 + 2) loc xs).foldl (fun s p =>
    s.landBytes p.1 (p.2.map Prod.fst) false (p.2.any Prod.snd)) s

/-- Whether a landing would write a poisoned granule in part (11 R228). -/
def State.landRefused (s : State) (g : Segs) : Bool := g.any (fun p => (s.partPoison p.1 p.2).isSome)

/-- Lands bytes over pieces. -/
def State.landSegs (s : State) : Segs → List (Byte × Bool) → State
  | [], _ => s
  | p :: rest, xs => (s.landAt p.1 (xs.take p.2)).landSegs rest (xs.drop p.2)

end Sys2Proof.Machine
end

