-- ==== Sys2Proof/Machine/Ksl.lean ====
section
/-! DEFINITION. The flits of the KSL ports, the injectors of their lanes, and what the package sends along the ring of a group
(24 R371 to R374, 11 R236). -/

namespace Sys2Proof.Machine

/-- Fields of PSTAT (24 Table 229). -/
def Port.state (p : Port) : Nat := (p.pstat.extractLsb' 0 2).toNat
def Port.lanesUp (p : Port) : BitVec 4 := p.pstat.extractLsb' 4 4
def Port.retrains (p : Port) : Nat := (p.pstat.extractLsb' 8 8).toNat

/-- A port with a state, lanes in use and retrainings. -/
def Port.withStat (p : Port) (st : Nat) (lanes : BitVec 4) (n : Nat) : Port :=
  { p with pstat := BitVec.ofNat 64 (st + lanes.toNat * 16 + n * 256) }

/-- Fields of a flit (24 Table 234). -/
def flitType (f : BitVec 512) : Nat := (f.extractLsb' 0 8).toNat
def flitSeq (f : BitVec 512) : BitVec 16 := f.extractLsb' 16 16
def flitVc (f : BitVec 512) : Nat := (f.extractLsb' 8 8).toNat
def flitPayload (f : BitVec 512) : BitVec 448 := f.extractLsb' 32 448

/-- The generator of the CRC-32 of a flit (24 Table 234). -/
def crcGen : BitVec 32 := 0x04C11DB7

/-- One bit goes into the register of the CRC: the remainder of a division by the generator. -/
def crcStep (r : BitVec 32) (b : Bool) : BitVec 32 := if r.getLsbD 31 != b then (r <<< 1) ^^^ crcGen else r <<< 1

/-- The bits of bytes 0 to 59 in the order in which they are divided. -/
def crcBits (x : BitVec 480) : List Bool :=
  (List.range 480).map (fun i => x.getLsbD (if Config.crcLowFirst then i else i / 8 * 8 + (7 - i % 8)))

/-- The CRC-32 over bytes 0 to 59 of a flit (24 Table 234). What the manual leaves open of it is free (log 80). -/
def crc32 (x : BitVec 480) : BitVec 32 := (crcBits x).foldl crcStep Config.crcFirst ^^^ Config.crcLast

/-- Whether a flit's CRC is that of its bytes. -/
def flitOk (f : BitVec 512) : Bool := f.extractLsb' 480 32 == crc32 (f.extractLsb' 0 480)

/-- A flit with its type, its VC byte, its number and its payload. -/
def mkFlit (ty vc : Nat) (seq : BitVec 16) (payload : BitVec 448) : BitVec 512 :=
  let body : BitVec 480 := payload ++ seq ++ BitVec.ofNat 8 vc ++ BitVec.ofNat 8 ty
  crc32 body ++ body

/-- A flit leaves a port. -/
def Port.push (p : Port) (f : BitVec 512) : Port := { p with outbox := p.outbox ++ [f], sent := p.sent + 1 }

/-- Flits leave a port again, in place of those that were to leave. -/
def Port.resend (p : Port) (fs : List (BitVec 512)) : Port := fs.foldl Port.push { p with outbox := [] }

/-- A new flit of data: it takes the next number, and is kept in the retry buffer of 256 flits until it is acknowledged; it waits
while the buffer is full (24 R372). While the port is not up it only stands there, and leaves after training. -/
def Port.sendData (p : Port) (ty vc : Nat) (payload : BitVec 448) : Port :=
  if 256 ≤ p.retry.length then { p with queue := p.queue ++ [(ty, vc, payload)] }
  else
    let f := mkFlit ty vc p.txSeq payload
    { (if p.state = 2 then p.push f else p) with txSeq := p.txSeq + 1, retry := p.retry ++ [f] }

/-- The bytes of a core-network message as its flits carry them: the message, then its side-band C bits, the lowest granule's
first (24 R371). That the C bits follow the message, two bytes of them, is the model's reading. DESIGN CHOICE (log 80). -/
def Msg.payload (m : Msg) : List Byte :=
  granuleBytes m.granules ++ toLE (m.granules.zipIdx.map (fun p => p.1.tag.toNat * 2 ^ p.2)).sum 2

/-- Cuts bytes into payloads of 56; `fuel` bounds their number. -/
def payloads : Nat → List Byte → List (BitVec 448)
  | 0, _ => []
  | _, [] => []
  | n + 1, bs => BitVec.ofNat 448 (leNat (bs.take 56)) :: payloads n (bs.drop 56)

/-- A core-network message of up to 256 bytes leaves as at most 5 flits of its virtual channel, the last one marked (24 R371).
No field of a message names a package, so nothing in this package is known to leave so (log 80). -/
def Port.sendMsg (p : Port) (vc : Nat) (m : Msg) : Port :=
  let xs := payloads 5 m.payload
  xs.zipIdx.foldl (fun p x => p.sendData 1 (vc % 8 + if x.2 + 1 = xs.length then 8 else 0) x.1) p

/-- A message flit that has arrived in its order: its payload joins those of its virtual channel, and with its last flit the
message is whole (24 R371). -/
def Port.rebuild (p : Port) (f : BitVec 512) : Port :=
  let vc := flitVc f % 8
  let xs := Store.get [] p.parts vc ++ [flitPayload f]
  if flitType f ≠ 1 then p
  else if flitVc f / 8 % 2 = 1 then
    { p with parts := Store.set [] p.parts vc [], msgs := p.msgs ++ [(vc, xs.flatMap (fun x => toLE x.toNat 56))] }
  else { p with parts := Store.set [] p.parts vc xs }

/-- The flits that waited for room in the retry buffer leave, as far as there is room. -/
def Port.sendQueued (p : Port) : Port := p.queue.foldl (fun p x => p.sendData x.1 x.2.1 x.2.2) { p with queue := [] }

/-- ACT, SEL and the disarmed word of an injector (11 Table 123). -/
def injAct (w : Word) : Nat := (w.extractLsb' 60 3).toNat
def injSel (w : Word) : Nat := (w.extractLsb' 32 16).toNat
def disarm (w : Word) : Word := w &&& ~~~0x8000000000000000#64

/-- A flit with one bit flipped. Which bit is the model's own: the lowest of the payload, since SEL names the lane.
DESIGN CHOICE (log 72). -/
def corruptBit (f : BitVec 512) : BitVec 512 := f ^^^ (1#512 <<< 32)

/-- The place among the flits that have not left the outbox of the flit that a lane's injector acts on: the N-th since it was
armed, once that has left (11 Table 123). -/
def Port.laneDue (p : Port) (l : Nat) : Option Nat :=
  let w := Store.get 0 p.lanes l
  let n := Store.get 0 p.laneAt l + max 1 (injN w)
  if injArmed w && decide (n ≤ p.sent) && decide (p.sent - n < p.outbox.length) then some (p.outbox.length - 1 - (p.sent - n))
  else none

/-- A lane's injector acts and disarms: a flit is corrupted or dropped; a delayed one only leaves later (11 Table 123). -/
def Port.laneAct (p : Port) (l : Nat) : Port :=
  match p.laneDue l with
  | none => p
  | some i =>
    let w := Store.get 0 p.lanes l
    let p := { p with lanes := Store.set 0 p.lanes l (disarm w), injected := p.injected || decide (injAct w < 2) }
    match injAct w with
    | 0 => { p with outbox := p.outbox.modify i corruptBit }
    | 1 => { p with outbox := p.outbox.eraseIdx i }
    | _ => p

/-- A record of a port: its die is that of the port's number, four to a die. It says whether the cause was injected
(11 R236). -/
def State.portError (s : State) (q cls : Nat) : State :=
  (s.errorRecord (q / 4 % 4) ⟨cls, 0, 4, 0, q, 0, 0, (s.port q).injected⟩).modPort q (fun p => { p with injected := false })

/-- Fields of a GROUP word (24 Table 231). -/
def grpV (w : Word) : Bool := w.getLsbD 63
def grpP (w : Word) : Nat := (w.extractLsb' 48 12).toNat + 1
def grpRank (w : Word) : Nat := (w.extractLsb' 32 12).toNat
def grpVif (w : Word) : Nat := (w.extractLsb' 16 6).toNat
def grpNext (w : Word) : Nat := (w.extractLsb' 8 4).toNat

/-- A partition barrier of an interface spans packages when the group of its number is defined and names the interface
(24 R374). -/
def State.spans (s : State) (v b : Nat) : Bool :=
  let w := (s.group b).word
  grpV w && grpVif w == v

/-- Whether a round of a group is open: of its collective copies, or of the partition barrier that travels on it (24 R373,
R374). -/
def State.roundOpen (s : State) (g : Nat) : Bool :=
  s.copies.any (fun e => e.2.any (fun c => decide (5 ≤ c.op) && c.grp == g && c.accepted && decide (c.code = 0))) ||
    (let v := grpVif (s.group g).word
     s.spans v g && (Store.get Barrier.init (s.vif v).bars g).n.isSome)

/-- A GROUP word written while a round was open takes effect when none is (24 R373). -/
def State.settleGroup (s : State) (g : Nat) : State :=
  if s.roundOpen g then s
  else match (s.group g).next with
    | some w => s.modGroup g (fun x => { x with word := w, next := none })
    | none => s

/-- A partition barrier's news goes along the ring of its group, toward the next rank: the arrivals that a package has counted,
or the answer of rank 0. What a flit's payload holds of it the spec does not say: a free value (24 R371, R374). -/
def State.sendBarrier (s : State) (g arrivals n : Nat) (max : Word) (fin : Bool) : State :=
  s.modPort (grpNext (s.group g).word) (fun p => p.sendData 2 (8 + 16 * g) (Config.fwdPayload arrivals n max fin))

/-- A flit of collective data that a port has delivered: when it came from PREV of its group, the package forwards it to NEXT
(24 R373). Where a flit ends its way the payload says, whose layout the spec does not give: a free value (log 80). -/
def State.forwardFlit (s : State) (q : Nat) (f : BitVec 512) : State :=
  let g := flitVc f / 16
  let w := (s.group g).word
  if flitType f = 2 ∧ w.getLsbD 63 ∧ (w.extractLsb' 0 4).toNat = q ∧
      Config.flitGoesOn (flitPayload f) (w.extractLsb' 32 12).toNat then
    s.modPort (grpNext w) (fun p => p.sendData 2 (flitVc f) (flitPayload f))
  else s

end Sys2Proof.Machine
end

