-- ==== Sys2Proof/Machine/Levels.lean ====
section
/-! DEFINITION. The levels of work and their cancellation (01 R27, R28, 09 R204, 20 R315 to R318). -/

namespace Sys2Proof.Machine

/-- The slot of a level of a task, by the chain of parents; `n` bounds its length (09 R204, 20 R315). -/
def Vif.climb (v : Vif) (kind : Nat) : Nat → Nat → Option Nat
  | 0, _ => none
  | n + 1, slot =>
    let l := v.level slot
    if l.st = .free then none
    else if l.kind = kind then some slot
    else if l.pv then Vif.climb v kind n l.parent
    else none

/-- The slot of a level of the launch that a launch id names. -/
def State.levelSlot (s : State) (lid kind : Nat) : Option Nat :=
  match s.levelOf lid with
  | none => none
  | some l => if l.kind = 1 then (s.vif (lidVif lid)).climb kind 64 (lidSlot lid) else none

/-- The slots beneath a set of slots, with it; `n` bounds the depth (01 R28). A level may be OPEN beneath one that a pen reset has
made COMPLETE. -/
def Vif.beneath (v : Vif) : Nat → List Nat → List Nat
  | 0, xs => xs
  | n + 1, xs =>
    let more := (List.range 64).filter (fun i =>
      !xs.contains i && (v.level i).pv && xs.contains (v.level i).parent && (v.level i).st != .free)
    if more.isEmpty then xs else Vif.beneath v n (xs ++ more)

/-- Whether a message is a task message of one of the launches. -/
def Msg.ofLids (m : Msg) (lids : List Nat) : Bool := m.isTask && lids.contains (lidOf (recOf m.body).header.data)

/-- Voids a task message of a cancelled launch (01 R28). -/
def Msg.voidFor (m : Msg) (lids : List Nat) : Msg := if m.ofLids lids then { m with void := true } else m

/-- A core drops what it holds of cancelled launches: records leave its deque, task messages in its banks are voided, and
a record that its control context has taken stops counting (01 R28). -/
def Core.dropLids (k : Core) (lids : List Nat) : Core :=
  { k with
    deque := k.deque.filter (fun r => !lids.contains r.lid)
    banks := k.banks.map (fun b => (b.1, { b.2 with items := b.2.items.map (fun i => match i with
      | .msg m => .msg (m.voidFor lids)
      | .pad n => .pad n) }))
    taken := match k.taken with
      | some l => if lids.contains l then none else some l
      | none => none }

/-- Records on their way of cancelled launches are discarded; the `callat` that sent one is no longer outstanding. -/
def State.dropRecords (s : State) (lids : List Nat) : State :=
  s.net.foldl (fun s p => match p.body with
    | .record c x out _ r _ _ _ _ _ =>
      if lids.contains r.lid then (s.dropPkt p.id).modCtx c x (fun k => k.dropOut out) else s
    | .msg c x m cap pg nk st pc lid => s.setPkt p.id (.msg c x (m.voidFor lids) cap pg nk st pc lid)
    | _ => s) s

/-- The queued work of cancelled launches is discarded, that which a sharing interface has saved too, and their engine
commands that have not landed end CANCELLED
(01 R28). -/
def State.cancelWork (s : State) (lids : List Nat) : State :=
  let s := (s.everyCore (fun k => k.dropLids lids)).dropRecords lids
  let s := s.forBenches (fun s b => s.cancelHires b (fun h => lids.contains h.lid))
  let s := s.forCopies (fun s e => s.cancelCopies e (fun c => lids.contains c.lid))
  s.forStks (fun s e => s.cancelStks e (fun c => lids.contains c.lid))

/-- Cancels a level slot that is OPEN, with every OPEN level beneath it; the Bool says whether it was (20 R318). -/
def State.cancelLevel (s : State) (v slot : Nat) : State × Bool :=
  if ((s.vif v).level slot).st ≠ .opened then (s, false)
  else
    let all := ((s.vif v).beneath 64 [slot]).filter (fun i => ((s.vif v).level i).st == .opened)
    let lids := (all.filter (fun i => ((s.vif v).level i).kind == 1)).map
      (fun i => mkLid v i ((s.vif v).level i).serial)
    let s := all.foldl (fun s i => s.modLevel v i (fun l => { l with st := .cancelling, root := false })) s
    (s.cancelWork lids, true)

end Sys2Proof.Machine
end

