-- ==== Sys2Proof/Machine/Tasks.lean ====
section
/-! DEFINITION. Messages, remote calls, deques, helpers, barriers, levels, fences and the scheduler (09 R186 to R205,
R378). -/

namespace Sys2Proof.Machine

/-! ## Records and names -/

/-- The checks of a record (09 R187). `leaves` says that its arguments leave the core, so that each needs K (01 R18); one with
OTYPE 15 may not be placed in a record (04 R86). -/
def checkRec (r : Rec) (leaves : Bool) : Except TrapReq Unit :=
  let e := r.entry
  if !e.tag then .error ⟨tCAPT, e.word, 1⟩
  else if e.broken || decide (e.otype ≠ 1) then .error ⟨tCAPT, e.word, 2⟩
  else if e.perms &&& pX = 0 then .error ⟨tCAPP, e.word, BitVec.ofNat 64 pX⟩
  else
    match r.args.find? (fun a => a.tag && (a.otype == 15 || (leaves && a.perms &&& pK == 0))) with
    | some a => .error (if a.otype = 15 then ⟨tCAPT, a.word, 2⟩ else ⟨tCAPP, a.word, BitVec.ofNat 64 pK⟩)
    | none => .ok ()

/-- The header of the task that the executing context runs. A control context runs none: a free value. -/
def State.task (s : State) : BitVec 128 := if s.curCtx = 0 then Config.controlTask s.nextId else s.cx.task

/-- A record header from its fields (09 Table 93); `ids` supplies LID and GID. -/
def recHeader (budget : Nat) (ids : BitVec 128) (rv : Bool) (rlcl rcidx ridx : Nat) : GReg :=
  ⟨BitVec.ofNat 32 budget ++ ids.extractLsb' 48 48 ++ BitVec.ofBool rv ++ BitVec.ofNat 5 rlcl ++ BitVec.ofNat 8 rcidx ++
    BitVec.ofNat 6 ridx ++ 0#28, false⟩

/-- A record header with the LID and GID of another header (09 R194). -/
def withIds (h : GReg) (ids : BitVec 128) : GReg :=
  ⟨h.data.extractLsb' 96 32 ++ ids.extractLsb' 48 48 ++ h.data.extractLsb' 0 48, h.tag⟩

/-- The core that a core name word names; none when it is refused (09 Table 95). -/
def State.namedCore (s : State) (w : Word) : Option Nat :=
  if w.getLsbD 16 then some s.curCore
  else s.coreNamed s.curCore (w.extractLsb' 8 5).toNat (w.extractLsb' 0 8).toNat

/-- The local-store-window address of offset 0 of the core that a name word names (01 Table 8). -/
def nameAddr (w : Word) : Word := 0xFFFF800000000000#64 ||| ((w &&& 0x1FFF) <<< 17)

/-- The offset of reply slot `i` in its core's local store (09 Table 91). -/
def slotOff (i : Nat) : Nat := 0x1FC00 + 16 * i

/-- A reply-slot capability (09 R196). -/
def slotCap (perms : Nat) (a : Word) : GReg := makeCap perms 3 a.toNat 16 a

/-! ## Sends -/

/-- The send-buffer slots of a core that are in use (09 R194). A `callat` record and a `retto` reply in flight take one, as a
message does. DESIGN CHOICE (log 84). -/
def State.sendSlots (s : State) (core : Nat) : Nat :=
  (s.net.filter (fun p => match p.body with
    | .msg c _ _ _ _ _ _ _ _ => c == core
    | .record c _ _ _ _ _ _ _ _ _ => c == core
    | .reply c _ _ _ _ _ => c == core
    | _ => false)).length

/-- Holds while no send-buffer slot is free (09 R194), or while the launch's COUNT may not rise (20 R316). -/
def withSlot (s : State) (lid : Option Nat) (e : Eff) : Eff :=
  if 8 ≤ s.sendSlots s.curCore then .hold s
  else match lid with
    | some l => if s.countRoom l then e else .hold s
    | none => e

/-- The header of a message to a core (01 Table 9, 09 R194); `dst` is a local-store-window address that names the receiver and,
in its low bits, priority and channel. -/
def State.msgHeader (s : State) (opc len : Nat) (dst : Word) : BitVec 256 :=
  s.header opc len (dst.extractLsb' 4 3).toNat (dst.extractLsb' 0 4).toNat 0 (dst.extractLsb' 25 5).toNat
    (dst.extractLsb' 17 8).toNat s.curCtx 0

/-- Sends a composed message (09 R194). -/
def sendMsg (s : State) (c : GReg) (opc : Nat) (body : List GReg) (pois : List Bool) (lid : Option Nat) : Eff :=
  match s.windowCore s.curCore c.word with
  | none => .trap (pgf c.word kLoad 0)
  | some _ =>
    withSlot s lid
      (let m : Msg := { header := s.msgHeader opc (body.length / 2) c.word, body := body, void := false, pois := pois }
       .next (s.sendPkt (.msg s.curCore s.curCtx m c.word (s.pgenOf s.curCore) 0 0 s.pc (lid.getD noLid))))

/-- Why a granule may not be placed in a message to another core: it has OTYPE 15, or lacks K (01 R18, 04 R86). -/
def placeBad (g : GReg) (va : Word) : Option TrapReq :=
  if !g.tag then none
  else if g.otype = 15 then some ⟨tCAPT, va, 2⟩
  else if g.perms &&& pK = 0 then some ⟨tCAPP, va, BitVec.ofNat 64 pK⟩
  else none

/-- The first granule of a body read at an address that may not be placed in a message; the entry of a task record is checked
as such (09 R194). -/
def bodyBad (task : Bool) (va : Word) (gs : List GReg) : Option TrapReq :=
  gs.zipIdx.findSome? (fun p => if task ∧ p.2 = 1 then none else placeBad p.1 (segPoisonVa va p.2))

/-- SEND (R194). -/
def execSend (o : Op) (s : State) : Host.Outcome State Fault Refusal :=
  word (.send o) o s (fun s =>
    let c := s.g o.rd
    let a := s.g o.ra
    let nb := o.k1 % 8
    let task := o.k1.testBit 3
    checked s (checkCap c c.word 0 pM [2]) (fun _ =>
      if task ∧ nb ≠ 3 then .trap (ill s.pc 10)
      else
        withBlock s a (32 * nb) 5 pL kLoad (fun s1 g =>
          match if task then s1.poisonSegs g else none with
          | some i => .after s1 ⟨tPOIS, segPoisonVa a.word i, s.pc⟩
          | none =>
            let gs := s1.readSegs g (a.perms &&& pLC != 0)
            let ids := s1.task
            let gs' := if task then gs.modify 0 (fun h => withIds h ids) else gs
            checked s (if task then checkRec (recOf gs) false else .ok ()) (fun _ =>
              match bodyBad task a.word gs' with
              | some t => .trap t
              | none =>
                sendMsg s1 c (if task then 0x102 else 0x100) gs' ((segGranules g).map s1.poison)
                  (if task then some (lidOf ids) else none)))))

/-- SENDR: g4 to g7 as two body flits (R194). -/
def execSendr (s : State) : Host.Outcome State Fault Refusal :=
  word .sendr s.opr s (fun s =>
    let c := s.g s.opr.rd
    let gs := [s.g 4, s.g 5, s.g 6, s.g 7]
    checked s (checkCap c c.word 0 pM [2]) (fun _ =>
      match gs.findSome? (fun x => placeBad x x.word) with
      | some t => .trap t
      | none => sendMsg s c 0x101 gs [] none))

/-- CALLAT (R197). Its message has a header as every message has, whose OPC the spec does not give: a free value (log 85). A name
that is unmapped raises PGF before the record is checked: DESIGN CHOICE (log 86). The reply slot is written as a store writes, so
that it waits while an engine owns the slot's line (01 R22). -/
def execCallat (o : Op) (s : State) : Host.Outcome State Fault Refusal :=
  word (.callat o) o s (fun s =>
    let core := s.curCore
    let ids := s.task
    let args := [s.g 4, s.g 5, s.g 6, s.g 7]
    let name := (s.g o.rb).word
    match s.namedCore name with
    | none => .trap (pgf (nameAddr name) kLoad 0)
    | some target =>
      checked s (checkRec ⟨.null, s.g o.ra, args⟩ (target != core)) (fun _ =>
        match (List.range 64).find? (fun i => (Store.get ReplySlot.init s.ck.slots i).st == .free) with
        | none => .hold s
        | some i =>
          withSlot s (some (lidOf ids))
            (let budget := min s.cx.cr.budget.toNat (2 ^ 32 - 1)
             let r : Rec := ⟨recHeader budget ids true (s.lclOf core) (cidxOf core) i, s.g o.ra, args⟩
             let loc := lsLoc core (slotOff i)
             if s.ownedAny loc 16 then .hold s else
             let s1 := (s.storeGranule loc .null).setMarks loc false false false
             let s2 := s1.modCore core (fun k =>
               { k with slots := Store.set ReplySlot.init k.slots i ⟨.busy, s.curCtx, lidOf ids⟩ })
             let s3 := s2.setG o.rd (slotCap (pL ||| pLC ||| pF) (s.windowAddr core (slotOff i)))
             let out := s3.nextId
             .next (((s3.startOut .none .away setM []).sendPkt
               (.record core s.curCtx out (s.msgHeader (Config.recordOpc 0).toNat 3 (s.windowAddr target 0)) r
                 (s.windowAddr target 0) (s.pgenOf core) 0 0 i)).serve))))

/-- The reply slot that a local-store-window address names. -/
def isSlotAddr (a : Word) : Bool :=
  decide (a.toNat / 2 ^ 30 = 0xFFFF800000000000 / 2 ^ 30 ∧ a.toNat / 2 ^ 17 % 256 < 192 ∧ 0x1FC00 ≤ a.toNat % 2 ^ 17 ∧
    a.toNat % 16 = 0)

/-- RETTO (R198). -/
def execRetto (o : Op) (s : State) : Host.Outcome State Fault Refusal :=
  word (.retto o) o s (fun s =>
    let c := s.g o.rd
    let v := s.g o.ra
    let a := c.word
    let (b, t) := c.bounds
    if !c.tag then .trap ⟨tCAPT, a, 1⟩
    else if c.broken || decide (c.otype ≠ 3) then .trap ⟨tCAPT, a, 2⟩
    else if c.perms &&& pS = 0 then .trap ⟨tCAPP, a, BitVec.ofNat 64 pS⟩
    else if !isSlotAddr a || !decide (b ≤ (a.toNat : Int) ∧ ((a.toNat + 16 : Nat) : Int) ≤ t) then .trap ⟨tCAPT, a, 2⟩
    else if (s.windowCore s.curCore a).isNone then .trap (pgf a kLoad 0)
    else match placeBad v v.word with
    | some t => .trap t
    | none =>
      let lid := lidOf s.task
      withSlot s (some lid)
        (.next (s.sendPkt (.reply s.curCore s.curCtx a v lid (s.pgenOf s.curCore)))))

/-! ## Receives -/

/-- The self-window address of the first poisoned granule of the message at the head of a bank (11 R228, Table 117). -/
def State.headPoison (s : State) (core b : Nat) (m : Msg) : Option Word :=
  let off := b * 16384 + ((s.core core).bank b).head
  ((List.range (m.size / 16)).find? (fun i => s.poison (lsLoc core (off + 16 * i)))).map
    (fun i => BitVec.ofNat 64 (0xFFFFFFFFFFFE0000 + off + 16 * i))

/-- A task message that is taken: a control context holds its record (09 R378). -/
def Core.takes (k : Core) (x : Nat) (m : Msg) : Core :=
  if m.isTask ∧ x = 0 then { k with taken := some (lidOf (recOf m.body).header.data) } else k

/-- Removes the message at the head of a bank for `recv`, `recvp` or `sched`; the bank's PASS and BOOST are cleared
(09 R195, R201). -/
def State.takeHead (s : State) (core b : Nat) : State :=
  s.modCore core (fun k => k.setBank b { (k.bank b).pop with pass := 0, boost := 0 })

/-- Removes pad records and voided task messages from the head of a bank. -/
def State.purgeBank (s : State) (core b : Nat) : State := s.modCore core (fun k => k.setBank b (k.bank b).purge)

/-- A `recv` that waits: its context, its outstanding result, and where it writes. -/
structure Waiter where
  ctx : Nat
  out : Nat
  segs : Segs
  tags : Bool
  pc : Word

/-- The first `recv` that waits on a bank, in the order in which they reached it (09 R195). -/
def Core.firstRecv (k : Core) (b : Nat) : Option Waiter :=
  (k.ctxs.flatMap (fun c => c.2.outs.filterMap (fun o => match o.wait with
    | .recv ch g tags => if k.chanBank ch = some b then some ⟨c.1, o.id, g, tags, o.pc⟩ else none
    | _ => none))).foldl (fun best w => match best with
      | none => some w
      | some v => if w.out < v.out then some w else some v) none

/-- What `recv` returns: header[127:64] (09 R195). -/
def Msg.result (m : Msg) : GReg := GReg.ofWord (m.header.extractLsb' 64 64)

/-- A waiting `recv` takes a message (09 R195, 11 R228). One that is poisoned leaves the bank and is written nowhere, as at
`recvp` and `sched`. DESIGN CHOICE (log 87). -/
def State.giveMsg (s : State) (core b : Nat) (m : Msg) (w : Waiter) : State :=
  let bad := s.headPoison core b m
  let s := (s.takeHead core b).modCore core (fun k => k.takes w.ctx m)
  match bad with
  | some va => (s.modCtx core w.ctx (fun c => c.dropOut w.out)).pendTrap core w.ctx tPOIS va w.pc
  | none => (s.writeSegs w.segs w.tags m.granules).deliver core w.ctx w.out (.ready (.g m.result) 0)

/-- Serves the `recv`s that wait on a bank, in order, while it holds a message; `n` bounds their number. -/
def serveRecvFuel : Nat → State → Nat → Nat → State
  | 0, s, _, _ => s
  | n + 1, s, core, b =>
    match (s.core core).firstRecv b with
    | none => s
    | some w =>
      let s := s.purgeBank core b
      match ((s.core core).bank b).front with
      | none => s
      | some m => if s.ownedSegs w.segs then s else serveRecvFuel n (s.giveMsg core b m w) core b

/-- Serves the `recv`s of a bank. -/
def State.serveRecv (s : State) (core b : Nat) : State := serveRecvFuel 1024 s core b

/-- The address of a channel of the executing core (09 R195). -/
def State.ownChannel (s : State) (ch : Nat) : Word := s.windowAddr s.curCore ch

/-- RECV (R195). -/
def execRecv (o : Op) (s : State) : Host.Outcome State Fault Refusal :=
  word (.recv o) o s (fun s =>
    let ch := o.k1 % 16
    let a := s.g o.ra
    withRoom s (.g o.rd) (withBlock s a 256 5 pS kStore (fun s1 g =>
      match s1.ck.chanBank ch with
      | none => .trap ⟨tCHAN, s.ownChannel ch, BitVec.ofNat 64 ch⟩
      | some b => .next ((s1.startOut (.g o.rd) (.recv ch g (a.perms &&& pSC != 0)) setL []).serveRecv s.curCore b))))

/-- RECVP: it never waits, and answers 0 when no message is there for it (R195). -/
def execRecvp (o : Op) (s : State) : Host.Outcome State Fault Refusal :=
  word (.recvp o) o s (fun s =>
    let ch := o.k1 % 16
    let a := s.g o.ra
    withBlock s a 256 5 pS kStore (fun s1 g =>
      match s1.ck.chanBank ch with
      | none => .trap ⟨tCHAN, s.ownChannel ch, BitVec.ofNat 64 ch⟩
      | some b =>
        let s2 := s1.purgeBank s.curCore b
        match (s2.ck.bank b).front, s2.ck.firstRecv b with
        | some m, none =>
          let s3 := (s2.takeHead s.curCore b).modCore s.curCore (fun k => k.takes s.curCtx m)
          match s2.headPoison s.curCore b m with
          | some va => .after s3 ⟨tPOIS, va, s.pc⟩
          | none => .next ((s3.writeSegs g (a.perms &&& pSC != 0) m.granules).setG o.rd m.result)
        | _, _ => .next (s2.putNat o.rd 0)))

/-! ## Deques -/

/-- A result that is known at issue. -/
def State.known (s : State) (d : Nat) (v : Nat) (sets : BitVec 4) : State :=
  s.startOut (.g d) (.ready (.g (GReg.ofWord (BitVec.ofNat 64 v))) 0) sets []

/-- DQPUSH (R191). -/
def execDqpush (o : Op) (s : State) : Host.Outcome State Fault Refusal :=
  word (.dqpush o) o s (fun s =>
    withRoom s (.g o.rd) (readBlock s (s.g o.ra) 96 4 (fun s1 gs =>
      let r := recOf gs
      checked s (checkRec r false) (fun _ =>
        match s1.ck.push r with
        | none => .next (s1.known o.rd 0 setM)
        | some k => if s1.countRoom r.lid then .next ((s1.setCore s.curCore k).known o.rd 1 setM) else .hold s1))))

/-- The record that a control context holds (09 R378). -/
def State.holdRec (s : State) (core : Nat) (r : Rec) : State := s.modCore core (fun k => { k with taken := some r.lid })

/-- DQPOP (R191). -/
def execDqpop (o : Op) (s : State) : Host.Outcome State Fault Refusal :=
  word (.dqpop o) o s (fun s => controlOnly s (withRoom s (.g o.rd)
    (let a := s.g o.ra
     withBlock s a 96 4 pS kStore (fun s1 g =>
      match s1.ck.popBottom with
      | none => .next (s1.known o.rd 0 setL)
      | some (r, k) =>
        .next ((((s1.setCore s.curCore k).holdRec s.curCore r).writeSegs g (a.perms &&& pSC != 0) r.granules).known o.rd 1
          setL)))))

/-- DQSTEAL: the victim answers in a step of its own (R190, R191). -/
def execDqsteal (o : Op) (s : State) : Host.Outcome State Fault Refusal :=
  word (.dqsteal o) o s (fun s => controlOnly s (withRoom s (.g o.rd)
    (let a := s.g o.ra
     withBlock s a 96 4 pS kStore (fun s1 g =>
      match s1.victim s.curCore with
      | none => .next (s1.known o.rd 0 setL)
      | some _ => .next (s1.startOut (.g o.rd) (.steal g (a.perms &&& pSC != 0)) setL [])))))

/-- DQLEN (R191). -/
def execDqlen (o : Op) (s : State) : Host.Outcome State Fault Refusal :=
  word (.dqlen o) o s (fun s =>
    let w := (s.g o.ra).word
    match s.namedCore w with
    | none => .trap (pgf (nameAddr w) kLoad 0)
    | some c => .next (s.putNat o.rd (if c = s.curCore then s.ck.deque.length else s.ck.reportOf c)))

/-! ## Helpers -/

/-- g1 of a new helper: the callee reply capability of the slot that its record names (09 R197). -/
def calleeCap (h : BitVec 128) : GReg :=
  if h.getLsbD 47 then
    slotCap (pS ||| pK) (0xFFFF800000000000#64 ||| ((h.extractLsb' 34 13).setWidth 64 <<< 17) |||
      BitVec.ofNat 64 (slotOff (h.extractLsb' 28 6).toNat))
  else .null

/-- A new helper (04 Table 35). `k` is the control context that starts it and `uniform` the launch's capability. -/
def newHelper (k : Ctx) (r : Rec) (uniform : GReg) (skip : Nat) : Ctx :=
  let h := r.header.data
  let regs : List (Nat × GReg) := [(1, calleeCap h), (2, uniform), (3, selfWindowCap)] ++
    (List.range 4).map (fun i => (4 + i, r.args.getD i .null))
  { Ctx.init with
    st := .live, g := regs.foldl (fun m p => Store.set GReg.null m p.1 p.2) [], nullG := 0xFE,
    pcc := r.entry.withOtype 0, task := h, gangSkip := skip,
    cr := { CtxRegs.init k.cr.cm with fmta := k.cr.fmta, fmtb := k.cr.fmtb, fpm := k.cr.fpm,
                                      budget := (h.extractLsb' 96 32).setWidth 64 } }

/-- The lowest FREE helper (09 R199). -/
def Core.freeHelper (k : Core) : Option Nat := ((List.range 10).map (· + 1)).find? (fun x => (k.ctx x).st == .free)

/-- The register entries of a helper that starts: those of g1 to g7, dirty, and none that an earlier unit left (04 R79). -/
def Core.startEntries (k : Core) (x : Nat) : Core :=
  { k with entries := (List.range 7).map (fun i => ⟨x, .g (i + 1), .live, true⟩) ++ k.entries.filter (fun e => e.ctx != x) }

/-- START (R199). A COUNT that may not rise holds it (20 R316). -/
def execStart (o : Op) (s : State) : Host.Outcome State Fault Refusal :=
  word (.start o) o s (fun s => controlOnly s (if s.ck.startHeld then .hold s else
    readBlock s (s.g o.ra) 96 4 (fun s1 gs =>
      let r := recOf gs
      checked s (checkRec r false) (fun _ =>
        match s1.ck.freeHelper with
        | none => .next (s1.putNat o.rd 0)
        | some x =>
          if s1.launchOver r.lid || s1.ck.cr.ctxbase == 0 then .next (s1.putNat o.rd 0)
          else if !s1.countRoom r.lid && s1.ck.taken != some r.lid then .hold s1
          else
            let uniform := match s1.levelOf r.lid with
              | some l => l.uniform
              | none => .null
            let h := newHelper s1.cx r uniform (s1.openRounds s.curCore x)
            .next ((s1.modCore s.curCore (fun k => ({ k.setCtx x h with taken := none }).startEntries x)).putNat o.rd x)))))

/-- The value that `join` writes (09 R200). -/
def Ended.code : Ended → Nat
  | .done => 1
  | .cancelled => 2
  | .none => 3

/-- JOIN: it holds at the instruction, which is a trap point (R200, 11 R222). -/
def execJoin (o : Op) (s : State) : Host.Outcome State Fault Refusal :=
  word (.join o) o s (fun s => controlOnly s
    (let x := (s.g o.ra).addr % 16
     if x = 0 ∨ 10 < x then .trap (ill s.pc 10)
     else if s.trapDue s.curCore then .taken (s.takePending s.curCore)
     else
       let h := s.ctx s.curCore x
       if h.st ≠ .free then .hold (s.modCore s.curCore (fun k => { k with waiting := true }))
       else .next ((s.modCtx s.curCore x (fun h => { h with ended := .none })).putNat o.rd h.ended.code)))

/-- DONE (R137, R200): HFLTs come first; then it waits as a switch marker does, the held stores leave, and the helper
becomes FREE. -/
def execDoneUnit (s : State) : Host.Outcome State Fault Refusal :=
  word .doneUnit s.opr s (fun s => helperOnly s
    (match s.popHflt s.curCore s.curCtx with
     | some _ => .taken s.raiseHflt
     | none =>
       if s.cx.outs.any Outst.mark then .hold s
       else
         match s.drainCtx s.curCore s.curCtx with
         | (s1, false) => .hold s1
         | (s1, true) => .taken ((s1.modCore s.curCore (fun k => k.issued s.curCtx)).freeCtx s.curCore s.curCtx .done)))

/-! ## Barriers -/

/-- A participant that waits at a barrier: its core, context, result, value and whether it takes the maximum. -/
structure Arrival where
  core : Nat
  ctx : Nat
  out : Nat
  v : Word
  withMax : Bool

/-- The participants of a set of cores that wait at a barrier (09 R202). -/
def State.arrivals (s : State) (mem : Nat → Bool) (pkg : Bool) (id : Nat) : List Arrival :=
  (s.cores.filter (fun c => mem c.1)).flatMap (fun c => c.2.ctxs.flatMap (fun x => x.2.outs.filterMap (fun o =>
    match o.wait with
    | .bar m p i _ v => if p = pkg ∧ i = id then some ⟨c.1, x.1, o.id, v, m⟩ else none
    | _ => none)))

/-- The greater of two words, unsigned. -/
def maxWord (a b : Word) : Word := if a.toNat < b.toNat then b else a

/-- A round completes: every participant gets the generation or the maximum (09 R202). -/
def State.barComplete (s : State) (as : List Arrival) (gen : Nat) (far : Word) : State :=
  let m := (as.filter Arrival.withMax).foldl (fun x a => maxWord x a.v) far
  as.foldl (fun s a => s.deliver a.core a.ctx a.out
    (.ready (.g (GReg.ofWord (if a.withMax then m else BitVec.ofNat 64 gen))) 0)) s

/-- The barrier after an arrival, and whether its round is complete: the first arrival of a round fixes the count. -/
def Barrier.arrive (b : Barrier) (n here : Nat) : Barrier × Bool :=
  let want := b.n.getD n
  if want ≤ here + b.far then (⟨(b.gen + 1) % 65536, none, 0, 0⟩, true) else ({ b with n := some want }, false)

/-- Rank 0's answer to a round goes on along the ring, unless the next package is rank 0 (24 R374). -/
def State.barAnswer (s : State) (id gen : Nat) (max : Word) : State :=
  let w := (s.group id).word
  if w.extractLsb' 32 12 = w.extractLsb' 48 12 then s else s.sendBarrier id 0 gen max true

/-- Rank 0 completes the round of a partition barrier that stands at `b`: its own participants get the generation and the
maximum over all packages, and the other packages are sent both (24 R374). A GROUP word that waited for the round's end takes
effect (R373). -/
def State.barRound (s : State) (v id : Nat) (as : List Arrival) (b : Barrier) : State :=
  let max := (as.filter Arrival.withMax).foldl (fun x a => maxWord x a.v) b.farMax
  ((s.modVif v (fun i => { i with bars := Store.set Barrier.init i.bars id ⟨(b.gen + 1) % 65536, none, 0, 0⟩ })).barComplete
    as b.gen max |>.barAnswer id b.gen max).settleGroup id

/-- The arrival of a partition that spans packages: rank 0 counts it, and completes the round with it; another rank sends it on
toward rank 0, with the largest contribution that it has seen (24 R374). -/
def State.barSpan (s : State) (v id n : Nat) (as : List Arrival) : State :=
  let b := Store.get Barrier.init (s.vif v).bars id
  let put := fun (s : State) (y : Barrier) => s.modVif v (fun i => { i with bars := Store.set Barrier.init i.bars id y })
  if (s.group id).word.extractLsb' 32 12 = 0 then
    let (b', full) := b.arrive n as.length
    if full then s.barRound v id as b else put s b'
  else
    let max := (as.filter Arrival.withMax).foldl (fun x a => maxWord x a.v) b.farMax
    (put s { b with n := some (b.n.getD n) }).sendBarrier id 1 (b.n.getD n) max false

/-- An arrival at a barrier of the executing core's pen or partition (09 R202). -/
def State.barArrive (s : State) (pkg : Bool) (id n : Nat) : State :=
  if pkg then
    match s.vifOf s.curCore with
    | none => if n ≤ 1 then s.barComplete (s.arrivals (fun c => c == s.curCore) true id) 0 0 else s
    | some v =>
      let as := s.arrivals (fun c => s.vifOf c == some v) true id
      let b := Store.get Barrier.init (s.vif v).bars id
      if s.spans v id then s.barSpan v id n as
      else
        let (b', full) := b.arrive n as.length
        let s := s.modVif v (fun i => { i with bars := Store.set Barrier.init i.bars id b' })
        if full then s.barComplete as b.gen 0 else s
  else
    match s.penOf s.curCore with
    | none => if n ≤ 1 then s.barComplete (s.arrivals (fun c => c == s.curCore) false id) 0 0 else s
    | some (v, i, p) =>
      let as := s.arrivals p.has false id
      let b := Store.get Barrier.init p.bars id
      let (b', full) := b.arrive n as.length
      let s := s.modPen v i (fun p => { p with bars := Store.set Barrier.init p.bars id b' })
      if full then s.barComplete as b.gen 0 else s

/-- A barrier form. -/
def barForm (o : Op) (s : State) (withMax : Bool) (v : Word) (n : Nat) : Eff :=
  let pkg := o.k1.testBit 4
  let id := o.k1 % 16
  withRoom s (.g o.rd) (.next ((s.startOut (.g o.rd) (.bar withMax pkg id n v) 0 []).barArrive pkg id n))

/-- BAR (R202). -/
def execBar (o : Op) (s : State) : Host.Outcome State Fault Refusal :=
  word (.bar o) o s (fun s => barForm o s false 0 ((s.g o.ra).addr % 65536))

/-- BARQ (R202). -/
def execBarq (o : Op) (s : State) : Host.Outcome State Fault Refusal :=
  word (.barq o) o s (fun s => barForm o s true (s.g o.ra).word ((s.g o.rb).addr % 65536))

/-! ## Levels and fences -/

/-- The level selector of `lcnt` and `lcancel` (09 R204). -/
def levelSel (o : Op) (s : State) (k : Nat → Eff) : Eff :=
  let n := (s.g o.ra).addr % 8
  if n = 0 ∨ 4 < n ∨ (s.curCtx ≠ 0 ∧ n ≠ 1) then .trap (ill s.pc 10) else k n

/-- LCNT: a level that the task does not have has no count, a free value (R204). -/
def execLcnt (o : Op) (s : State) : Host.Outcome State Fault Refusal :=
  word (.lcnt o) o s (fun s => levelSel o s (fun n =>
    let lid := lidOf s.task
    let v := match s.levelSlot lid n with
      | some slot => BitVec.ofNat 64 (s.levelCount (lidVif lid) slot)
      | none => Config.missingLevel s.nextId
    later s (.g o.rd) (.g (GReg.ofWord v)) 0))

/-- LCANCEL (R204). -/
def execLcancel (o : Op) (s : State) : Host.Outcome State Fault Refusal :=
  word (.lcancel o) o s (fun s => levelSel o s (fun n =>
    let lid := lidOf s.task
    match s.levelSlot lid n with
    | some slot =>
      let (s1, ok) := s.cancelLevel (lidVif lid) slot
      .next (s1.putNat o.rd ok.toNat)
    | none => .next (s.putNat o.rd 0)))

/-- The predecessor and successor sets of a fence code, as sets L, S, M, E in bits 0 to 3 (02 Table 21). -/
def fencePred (o : Op) : BitVec 4 := revSets (o.opnd.extractLsb' 5 4)
where
  /-- Codes list the sets L, S, M, E from the high bit down. -/
  revSets (x : BitVec 4) : BitVec 4 :=
    (x.extractLsb' 0 1 ++ x.extractLsb' 1 1 ++ x.extractLsb' 2 1 ++ x.extractLsb' 3 1)

/-- The successor set. -/
def fenceSucc (o : Op) : BitVec 4 := fencePred.revSets (o.opnd.extractLsb' 1 4)

/-- FENCE: it retires at issue; with PS held stores leave first (R205). Its order remembers where it stands, for a POST of a store
that it orders (10 R219). -/
def execFence (s : State) : Host.Outcome State Fault Refusal :=
  let o := s.opr
  word .fence o s (fun s =>
    match if fencePred o &&& setS != 0 then s.drainCtx s.curCore s.curCtx else (s, true) with
    | (s1, false) => .hold s1
    | (s1, true) =>
      let ids := pendingOf (s1.unperformed s.curCore s.curCtx) (fencePred o)
      let redo := (s.pc, s.pc + BitVec.ofNat 64 (2 * o.words))
      if ids.isEmpty || (fenceSucc o == 0 && fencePred o &&& setS == 0) then .next s1
      else .next (s1.modCx (fun c => { c with orders := c.orders ++ [⟨fenceSucc o, ids, some redo⟩] })))

/-! ## The scheduler -/

/-- The task buffer of a core (09 Table 91). -/
def taskBuf (core : Nat) : Nat := lsLoc core 0x1FB80

/-- Writes a record to the task buffer (09 R201). -/
def State.bufferRec (s : State) (core : Nat) (r : Rec) : State :=
  (s.storeGranules (taskBuf core) true r.granules).serve

/-- Purges every FIFO bank of a core. -/
def State.purgeAll (s : State) (core : Nat) : State :=
  ((s.core core).fifoBanks).foldl (fun s b => s.purgeBank core b) s

/-- The banks whose head is a task message, with its priority (09 R201). -/
def Core.candidates (k : Core) : List (Nat × Nat) :=
  k.fifoBanks.filterMap (fun b => match (k.bank b).front with
    | some m => if m.isTask then some (b, m.pri) else none
    | none => none)

/-- Whether a candidate goes before another: higher effective priority, then higher BOOST, then lower bank. -/
def Core.before (k : Core) (x y : Nat × Nat) : Bool :=
  let ex := min 7 (x.2 + (k.bank x.1).boost)
  let ey := min 7 (y.2 + (k.bank y.1).boost)
  decide (ey < ex) || (decide (ey = ex) && (decide ((k.bank y.1).boost < (k.bank x.1).boost) ||
    (decide ((k.bank y.1).boost = (k.bank x.1).boost) && decide (x.1 < y.1))))

/-- The candidate that is chosen. -/
def Core.choose (k : Core) : Option Nat :=
  (k.candidates.foldl (fun best c => match best with
    | none => some c
    | some b => if k.before c b then some c else some b) none).map Prod.fst

/-- PASS of a candidate that was not chosen rises, and BOOST after sixteen (09 R201). -/
def Bank.passed (b : Bank) : Bank :=
  if b.pass + 1 = 16 then { b with pass := 0, boost := b.boost + 1 } else { b with pass := b.pass + 1 }

/-- Takes the chosen bank's head, as `recv` does (09 R201). -/
def State.schedTake (s : State) (core b : Nat) (m : Msg) : State :=
  let cs := (s.core core).candidates
  let s := s.takeHead core b
  let s := cs.foldl (fun s c =>
    if c.1 = b then s else s.modCore core (fun k => k.setBank c.1 (k.bank c.1).passed)) s
  s.holdRec core (recOf m.body)

/-- SCHED (R201): a trap point (11 R222). A record held before stops counting here, whether or not another is found (11 R377).
DEDUCED (log 47). -/
def execSched (s : State) : Host.Outcome State Fault Refusal :=
  word .sched s.opr s (fun s => controlOnly s
    (if s.trapDue s.curCore then .taken (s.takePending s.curCore)
     else if s.ownedAny (taskBuf s.curCore) 96 then .hold s
     else
       withRoom s (.g 8)
         (let s1 := (s.purgeAll s.curCore).modCore s.curCore (fun k => { k with taken := none })
          match s1.ck.choose with
          | some b =>
            (match (s1.ck.bank b).front with
             | some m =>
               let s2 := s1.schedTake s.curCore b m
               match s1.headPoison s.curCore b m with
               | some va => .after s2 ⟨tPOIS, va, s.pc⟩
               | none => .next ((s2.bufferRec s.curCore (recOf m.body)).known 8 1 setL)
             | none => .next (s1.known 8 0 setL))
          | none =>
            match s1.ck.popBottom with
            | some (r, k) => .next ((((s1.setCore s.curCore k).holdRec s.curCore r).bufferRec s.curCore r).known 8 2 setL)
            | none =>
              match s1.victim s.curCore with
              | none => .next (s1.known 8 0 setL)
              | some _ => .next (s1.startOut (.g 8) .schedSteal setL []))))

end Sys2Proof.Machine
end

