-- ==== Sys2Proof/Machine/Array.lean ====
section
/-! DEFINITION. The dense array: the hire descriptor and its checks, acceptance, the slabs and their sums, the arbiter,
the checksum column and the failure of an array (05 R97 to R101, R109, R110, 15 R262 to R273, 16 R279 to R292). -/

namespace Sys2Proof.Machine

/-! ## The descriptor -/

/-- Operand formats by the FMT code (04 Table 46). -/
inductive OpFmt where
  | int8 | flt (f : FFmt) | w1 | w2
  deriving DecidableEq, Repr

/-- The format of an FMT code. -/
def opFmt : Nat → Option OpFmt
  | 0 => some .int8
  | 1 => some (.flt .e4m3)
  | 2 => some (.flt .e5m2)
  | 3 => some (.flt .bf16)
  | 4 => some (.flt .f16)
  | 5 => some (.flt .e2m1)
  | 6 => some (.flt .ts8)
  | 7 => some .w1
  | 8 => some .w2
  | _ => none

/-- bits(f) (15 R265). -/
def OpFmt.bits : OpFmt → Nat
  | .int8 => 8
  | .flt f => f.width
  | .w1 => 1
  | .w2 => 2

/-- Destination formats (15 Table 151): an integer type of so many bytes, or a float. -/
inductive DFmt where
  | int (bytes : Nat) | flt (f : FFmt)
  deriving DecidableEq, Repr

/-- The format of a DFMT code. -/
def dFmt : Nat → Option DFmt
  | 0 => some (.int 1)
  | 1 => some (.int 4)
  | 2 => some (.flt .f32)
  | 3 => some (.flt .f64)
  | 4 => some (.flt .bf16)
  | 5 => some (.flt .f16)
  | 6 => some (.flt .e4m3)
  | 7 => some (.flt .e5m2)
  | 8 => some (.flt .ts8)
  | 9 => some (.int 8)
  | _ => none

/-- dsize in bytes. -/
def DFmt.size : DFmt → Nat
  | .int n => n
  | .flt f => f.width / 8

/-- round_dest: nearest even, an integer clamped to its type and NaN to 0 (05 R111, 15 R270). -/
def DFmt.round (d : DFmt) (x : FV) : Nat :=
  match d with
  | .int n =>
    let (v, _) := x.toInt .rne (-(2 ^ (8 * n - 1) : Nat)) ((2 ^ (8 * n - 1) : Nat) - 1)
    (v % (2 ^ (8 * n) : Nat)).toNat
  | .flt f => (f.encode .rne x).1

/-- The value that a destination holds. -/
def DFmt.value (d : DFmt) (x : Nat) : FV :=
  match d with
  | .int n => FV.ofInt (sextNat (8 * n) x)
  | .flt f => f.decode x

/-- Fields of GEOM and HCTL (15 Table 150). -/
def Hire.k (h : Hire) : Nat := (h.geom.extractLsb' 0 16).toNat + 1
def Hire.m (h : Hire) : Nat := (h.geom.extractLsb' 16 7).toNat + 1
def Hire.n (h : Hire) : Nat := (h.geom.extractLsb' 24 7).toNat + 1
def Hire.sa (h : Hire) : Nat := 16 * (h.geom.extractLsb' 32 16).toNat
def Hire.sb (h : Hire) : Nat := 16 * (h.geom.extractLsb' 48 16).toNat
def Hire.sd (h : Hire) : Nat := 16 * (h.hctl.extractLsb' 0 16).toNat
def Hire.mode (h : Hire) : Nat := (h.hctl.extractLsb' 20 2).toNat
def Hire.epi (h : Hire) : Bool := h.hctl.getLsbD 22
def Hire.tap (h : Hire) : Bool := h.hctl.getLsbD 23
def Hire.mapOfs (h : Hire) : Nat := 2 * (h.hctl.extractLsb' 32 16).toNat

/-- The operand formats; a code that the checks at issue refuse stands as int8. -/
def Hire.fA (h : Hire) : OpFmt := (opFmt (h.fmta.extractLsb' 0 4).toNat).getD .int8
def Hire.fB (h : Hire) : OpFmt := (opFmt (h.fmtb.extractLsb' 0 4).toNat).getD .int8

/-- The destination format. -/
def Hire.fD (h : Hire) : DFmt := (dFmt (h.hctl.extractLsb' 16 4).toNat).getD (.int 1)

/-- Whether block scales apply to A or to B (15 R267). -/
def Hire.scaledA (h : Hire) : Bool := h.fmta.getLsbD 4
def Hire.scaledB (h : Hire) : Bool := h.fmtb.getLsbD 4

/-- Integer accumulation (05 R109, 15 R266). -/
def Hire.intAcc (h : Hire) : Bool :=
  h.fA == .int8 && (h.fB == .int8 || h.fB == .w1 || h.fB == .w2)

/-- Row extents in bytes (15 R265). -/
def Hire.rowA (h : Hire) : Nat := (h.k * h.fA.bits + 7) / 8
def Hire.rowB (h : Hire) : Nat := (h.k * h.fB.bits + 7) / 8
def Hire.rowD (h : Hire) : Nat := h.n * h.fD.size

/-- Tile extents in bytes (15 R265). -/
def Hire.extA (h : Hire) : Nat := h.sa * (h.m - 1) + h.rowA
def Hire.extB (h : Hire) : Nat := h.sb * (h.n - 1) + h.rowB
def Hire.extD (h : Hire) : Nat := h.sd * (h.m - 1) + h.rowD

/-- The address of row i of D. -/
def Hire.rowAddr (h : Hire) (i : Nat) : Nat := h.d.addr + h.sd * i

/-- The number of groups of 32 elements of k (15 R267). -/
def Hire.groups (h : Hire) : Nat := h.k / 32

/-- The number of slabs (16 R280). -/
def Hire.slabs (h : Hire) : Nat := (h.k + 127) / 128

/-- The modes and formats of Table 152. -/
def modeOk (mode : Nat) (a b : OpFmt) : Bool :=
  let mac := fun (f : OpFmt) => f != .w1 && f != .w2 && f != .flt .ts8
  match mode with
  | 0 => mac a && mac b
  | 1 => mac a && b == .flt .ts8
  | 2 => mac a && a != .flt .e2m1 && (b == .w1 || b == .w2)
  | _ => false

/-- GEOM, HCTL and the sampled formats are valid under R264 to R267. -/
def Hire.valid (h : Hire) : Bool :=
  (opFmt (h.fmta.extractLsb' 0 4).toNat).isSome && (opFmt (h.fmtb.extractLsb' 0 4).toNat).isSome &&
  (dFmt (h.hctl.extractLsb' 16 4).toNat).isSome && !h.geom.getLsbD 31 && !h.geom.getLsbD 23 &&
  h.hctl.extractLsb' 48 16 == 0 && !h.hctl.getLsbD 31 && modeOk h.mode h.fA h.fB &&
  (h.fB != .w2 || decide (h.k % 32 = 0)) &&
  (!(h.scaledA || h.scaledB) || (decide (h.k % 32 = 0) && !h.intAcc))

/-- The tap record's offset in the master's local store (19 R295). -/
def Hire.recOfs (h : Hire) : Nat := (h.mapOfs + 2 * h.m + 15) / 16 * 16

/-- Where a tile may lie: user stack memory, or a store of the master's own logical cluster, of the master's own store a bank in
PAD role; the role of another core's bank is tested when it is read (15 R271). -/
def State.tilePlace (s : State) (core : Nat) (va : Word) : Bool :=
  match s.classify core va with
  | .stack => true
  | .store c off => clusterOf c == clusterOf core && (c != core || ((s.core c).bank (off / 2 ^ 14)).role == .pad)
  | .refused => false

/-- An extent that a hire names, with what its capability must allow and the alignment of its address. -/
structure Tile where
  cap : GReg
  va : Word
  size : Nat
  perms : Nat
  al : Nat
  deriving DecidableEq, Repr

/-- The extents of a hire in the order of their checks (15 R273); `desc` is the descriptor's capability. -/
def Hire.tiles (h : Hire) (desc : GReg) : List Tile :=
  [⟨h.a, h.a.word, h.extA, pL ||| pE, 4⟩, ⟨h.b, h.b.word, h.extB, pL ||| pE, 4⟩,
   ⟨h.d, h.d.word, h.extD, pS ||| pE ||| (if h.epi then pL else 0), Nat.log2 h.fD.size⟩] ++
  (if h.scaledA then [⟨h.scla, h.scla.word, h.m * h.groups, pL ||| pE, 0⟩] else []) ++
  (if h.scaledB then [⟨h.sclb, h.sclb.word, h.n * h.groups, pL ||| pE, 0⟩] else []) ++
  (if h.tap then [⟨desc, 0xFFFFFFFFFFFE0000#64 + BitVec.ofNat 64 h.mapOfs, 2 * h.m, pL, 0⟩] else [])

/-- The first check of a list that fails. -/
def firstErr : List (Except TrapReq Unit) → Except TrapReq Unit
  | [] => .ok ()
  | .ok () :: rest => firstErr rest
  | .error t :: _ => .error t

/-- The checks of a hire at issue, after those of its descriptor (15 R273, 19 R295). -/
def Hire.checks (h : Hire) (s : State) (desc : GReg) : Except TrapReq Unit :=
  let ts := h.tiles desc
  let need := fun (b : Bool) (t : TrapReq) => if b then Except.ok () else Except.error t
  firstErr ([need h.valid (ill s.pc 10)] ++
    ts.map (fun t => check t.cap t.va t.size t.perms) ++
    ts.map (fun t => need (s.tilePlace s.curCore t.va) (ill s.pc 10)) ++
    ts.map (fun t => need (decide (t.va.toNat % 2 ^ t.al = 0)) (aln t.va t.al)) ++
    ts.map (fun t => need (!isWindow t.va || oneBank t.va t.size) (aln t.va 15)) ++
    [need (!h.tap || h.mapOfs / 2 ^ 14 == (h.recOfs + 79) / 2 ^ 14)
      (aln (0xFFFFFFFFFFFE0000#64 + BitVec.ofNat 64 h.recOfs) 15)])

/-- The hire that a descriptor and the registers of the executing context give (15 R263, R267). -/
def State.sampleHire (s : State) (gs : List GReg) : Hire :=
  let cr := s.cx.cr
  let w := (gs.getD 3 .null).data
  { id := s.nextId, core := s.curCore, ctx := s.curCtx, handle := none, lid := s.lid, pgen := s.pgenOf s.curCore, header := 0,
    a := gs.getD 0 .null, b := gs.getD 1 .null, d := gs.getD 2 .null, geom := w.extractLsb' 0 64,
    hctl := w.extractLsb' 64 64, scla := if cr.fmta.getLsbD 4 then cr.scla else .null,
    sclb := if cr.fmtb.getLsbD 4 then cr.sclb else .null, fmta := cr.fmta.extractLsb' 0 5, fmtb := cr.fmtb.extractLsb' 0 5,
    tapset := cr.tapset.extractLsb' 0 36, stage := .inbox, order := 0, free := 0, array := 0, slab := 0, retried := false,
    loaded := false, bufA := [], bufB := [], sclA := [], sclB := [], acc := [], poisR := [], poisC := [], pages := [],
    deferred := [], rows := 0, fk := 0, poi := false, tev := false, park := 0 }

/-- The entries that a master holds in its hire queue of 4, with the hires on their way to it (15 R272, 16 R279). -/
def Bench.queued (b : Bench) (core : Nat) : Nat :=
  (b.hires.filter (fun h => h.core == core && (h.stage == .inbox || h.stage == .queued))).length

/-- How a command is counted at issue: by a handle, or by its counter when D is 0; the state afterwards writes the handle.
None while no handle is free or the counter is at its end (01 Table 11). -/
def State.takeHandle (s : State) (cls d cmd : Nat) : Option (State × Option Nat) :=
  let k := s.ck
  if d = 0 then
    let c := k.counter cls
    if c.n = 65535 then none else some (s.setCore s.curCore (k.setCounter cls { c with n := c.n + 1 }), none)
  else
    match k.freeHandle cls with
    | none => none
    | some h => some (((s.setCore s.curCore (k.setHandle cls h ⟨true, s.curCtx, cmd, none, false⟩)).putNat d h), some h)

/-- Whether COUNT of the executing context's launch may rise (20 R316). -/
def State.mayCount (s : State) : Bool := decide (s.lid = noLid) || s.countRoom s.lid

/-! ## Acceptance -/

/-- Translates the pieces of a destination in stack memory: those that translate for a write and are not FROZEN, and the
first addresses of the others (16 R283). None while a walk waits. -/
def State.hirePages (s : State) (core : Nat) : List (Nat × Nat) → Option (State × List Page × List Nat)
  | [] => some (s, [], [])
  | (va, n) :: rest =>
    match s.engLoc core va kStore with
    | .error .wait => none
    | .ok (s1, pa) => (s1.hirePages core rest).map (fun r => (r.1, ⟨va, n, pa⟩ :: r.2.1, r.2.2))
    | .error _ => (s.hirePages core rest).map (fun r => (r.1, r.2.1, va :: r.2.2))

/-- The lines of the destination rows in translated pieces. -/
def Hire.lines (h : Hire) (ps : List Page) : List Nat :=
  (List.range h.m).flatMap (fun i => segLines (pageSegs ps (h.rowAddr i) h.rowD))

/-- The lines of a hire's tap record (19 R295). -/
def Hire.recLines (h : Hire) : List Nat := if h.tap then linesOf (lsLoc h.core h.recOfs) 80 else []

/-- A bank of a local store that a hire would land in is not in PAD role (15 R271). -/
def Hire.badBank (h : Hire) (s : State) : Bool :=
  (isWindow h.d.word && (match s.engLoc h.core h.d.addr kStore with | .ok _ => false | .error _ => true)) ||
  (h.tap && (((s.core h.core).bank (h.mapOfs / 2 ^ 14)).role != .pad))

/-- HIRE_ACCEPT (16 R283, 15 R271, R273, 01 R20, R31): the array takes a hire into its master's queue. A hire that would
land in a bank that is not PAD ends with FAULT and FK 5. DEDUCED (log 31). -/
def execHireAccept (bench cmd : Nat) (s : State) : Host.Outcome State Fault Refusal :=
  if 576 ≤ bench then .fault .noSuchPart
  else
    match (s.bench bench).find cmd with
    | none => .next s
    | some h =>
      if h.stage ≠ .inbox then .next s
      else if headerBad h.header then
        .next (s.modBench bench (fun b => { b with hires := b.hires.filter (fun x => x.id != h.id) }))
      else if (s.pgenOf h.core) ≠ h.pgen ∨ (s.servedBy bench).isNone then .next (s.endHire bench h 2)
      else if h.badBank s then .next (s.endHire bench { h with fk := 5 } 3)
      else
        match s.hirePages h.core (pieces h.d.addr h.extD) with
        | none => .next s
        | some (s1, ps, ds) =>
          let (n, s2) := s1.fresh
          let h := { h with stage := .queued, order := n, pages := ps, deferred := ds }
          .next ((s2.modBench bench (fun b => b.put h)).claimLines h.id (h.lines ps ++ h.recLines))

/-! ## Slabs -/

/-- The earliest hire of a list by its acceptance. -/
def earliest : List Hire → Option Hire
  | [] => none
  | h :: hs => match earliest hs with
    | some g => if g.order < h.order then some g else some h
    | none => some h

/-- The hire that a master computes (16 R279). -/
def State.current (s : State) (core : Nat) : Option Hire :=
  earliest ((s.bench (benchOf core)).hires.filter (fun h => h.core == core && h.stage == .queued))

/-- A master whose output buffer is full behind a parked hire is blocked when its current hire has UNORD = 0
(16 R286). -/
def State.blocked (s : State) (core : Nat) (h : Hire) : Bool :=
  let b := s.bench (benchOf core)
  let mine := b.hires.filter (fun x => x.core == core)
  !h.unord && mine.any (fun x => x.stage == .parked || x.stage == .resumed || (x.stage == .landing && x.park != 0)) &&
    mine.any (fun x => x.stage == .computed && !b.mayLand x)

/-- Whether a master is eligible at a slab boundary (16 R279). -/
def State.eligible (s : State) (core : Nat) : Bool :=
  match s.current core with
  | none => false
  | some h => !s.blocked core h

/-- The weight of a master (16 R281). -/
def State.weight (s : State) (core : Nat) : Nat :=
  max 1 (((s.arb (benchOf core)).extractLsb' (4 * slotOf core) 4).toNat)

/-- The first eligible master after `cur` in serving order, wrapping; with none, `cur` is the bench's own slot 7, the last of
its serving order at package reset (16 R280). -/
def State.nextMaster (s : State) (order : List Nat) (cur : Option Nat) : Option Nat :=
  let i := match cur with
    | none => 8
    | some c => match order.findIdx? (fun x => x == c) with
      | some i => i + 1
      | none => 0
  (order.drop i ++ order.take i).find? s.eligible

/-- The bytes of a row of an operand that hold elements `k0` to `k1 - 1`: offset and length (15 R269, 05 R100). -/
def OpFmt.span (f : OpFmt) (k0 k1 : Nat) : Nat × Nat :=
  match f with
  | .w2 => (k0 / 32 * 8, (k1 + 31) / 32 * 8 - k0 / 32 * 8)
  | _ => (k0 * f.bits / 8, (k1 * f.bits + 7) / 8 - k0 * f.bits / 8)

/-- What the operand reads of a slab give. -/
inductive Loaded where
  | ok (s : State) (rows : List (List Byte)) (pois : List Bool)
  | wait
  | fault (fk : Nat)

/-- FK of a source that cannot be read (15 Table 155). -/
def srcFk : EngErr → Nat
  | .trans | .wait => 1
  | .perm | .frozen => 2
  | .region | .bank => 5

/-- Reads rows of `n` bytes at the given addresses. -/
def loadRows (core cmd n : Nat) : List Nat → State → Loaded
  | [], s => .ok s [] []
  | va :: rest, s =>
    match s.engRead core cmd va n with
    | .wait => .wait
    | .err e => .fault (srcFk e)
    | .ok s1 bs p =>
      match loadRows core cmd n rest s1 with
      | .ok s2 rows ps => .ok s2 (bs :: rows) (p :: ps)
      | r => r

/-- Combines poison flags of the same rows. -/
def orFlags (a b : List Bool) (n : Nat) : List Bool := (List.range n).map (fun i => a.getD i false || b.getD i false)

/-- Loads one operand of the slab and its scales: `base` and `stride` of the tile, `rows` rows, its format, and the scale
table. -/
def loadOperand (h : Hire) (f : OpFmt) (base stride rows : Nat) (scaled : Bool) (scl : GReg) (s : State) :
    Except (Option Nat) (State × List (List Byte) × List (List Byte) × List Bool) :=
  let k0 := 128 * h.slab
  let k1 := min (k0 + 128) h.k
  let (off, n) := f.span k0 k1
  match loadRows h.core h.id n ((List.range rows).map (fun i => base + stride * i + off)) s with
  | .wait => .error none
  | .fault fk => .error (some fk)
  | .ok s1 xs ps =>
    if !scaled then .ok (s1, xs, [], ps)
    else
      let g0 := k0 / 32
      let g1 := (k1 + 31) / 32
      match loadRows h.core h.id (g1 - g0) ((List.range rows).map (fun i => scl.addr + i * h.groups + g0)) s1 with
      | .wait => .error none
      | .fault fk => .error (some fk)
      | .ok s2 ys qs => .ok (s2, xs, ys, orFlags ps qs rows)

/-- Reads the operands of a hire's slab into its buffers. A source that fails ends the hire; a line that another command
owns makes the read wait (16 R279). -/
def State.loadSlab (s : State) (h : Hire) : State :=
  let bench := benchOf h.core
  if !s.ownsAll h.id then s
  else
    match loadOperand h h.fA h.a.addr h.sa h.m h.scaledA h.scla s with
    | .error none => s
    | .error (some fk) => s.endHire bench { h with fk := fk } 3
    | .ok (s1, a, sa, pa) =>
      match loadOperand h h.fB h.b.addr h.sb h.n h.scaledB h.sclb s1 with
      | .error none => s
      | .error (some fk) => s.endHire bench { h with fk := fk } 3
      | .ok (s2, b, sb, pb) =>
        s2.modBench bench (fun x => x.put { h with
          loaded := true, bufA := a, bufB := b, sclA := sa, sclB := sb, poisR := orFlags h.poisR pa h.m,
          poisC := orFlags h.poisC pb h.n, poi := h.poi || pa.any id || pb.any id })

/-- SLAB_BOUNDARY (16 R280): the arbiter chooses, and the slab's operands are read when they can be. -/
def execSlabBoundary (bench : Nat) (s : State) : Host.Outcome State Fault Refusal :=
  if 576 ≤ bench then .fault .noSuchPart
  else
    let b := s.bench bench
    if b.busy.isSome then .next s
    else
      let order := s.serving bench
      let stay := match b.cur with
        | some c => if order.contains c && s.eligible c && decide (0 < b.left) then some c else none
        | none => none
      let pick := match stay with
        | some c => some (c, b.left - 1)
        | none => (s.nextMaster order b.cur).map (fun c => (c, s.weight c - 1))
      match pick with
      | none => .next s
      | some (c, left) =>
        match s.current c with
        | none => .next s
        | some h =>
          let s1 := s.modBench bench (fun b => { b with cur := some c, left := left, busy := some h.id })
          .next (s1.loadSlab h)

/-! ## Sums -/

/-- Element `i` of a row's bytes, whose first element is `k0` (05 R98, R100). -/
def OpFmt.elem (f : OpFmt) (bs : List Byte) (k0 i : Nat) : FV :=
  match f with
  | .int8 => FV.ofInt ((bs.getD i 0).toInt)
  | .flt g =>
    if g.width = 4 then
      let b := (bs.getD ((k0 + i) / 2 - k0 / 2) 0).toNat
      g.decode (if (k0 + i) % 2 = 0 then b % 16 else b / 16)
    else
      let n := g.width / 8
      g.decode (leNat ((bs.drop (n * i)).take n))
  | .w1 => if (bs.getD ((k0 + i) / 8 - k0 / 8) 0).getLsbD ((k0 + i) % 8) then FV.ofInt 1 else FV.ofInt (-1)
  | .w2 =>
    let u := i / 32 * 8
    let lo := leNat ((bs.drop u).take 4)
    let hi := leNat ((bs.drop (u + 4)).take 4)
    FV.ofInt ((if lo.testBit (i % 32) then 1 else 0) - (if hi.testBit (i % 32) then 2 else 0))

/-- The exact sum of numbers, the first on its own (05 R110). -/
def sumFV : List FV → FV
  | [] => .zero false
  | x :: xs => xs.foldl (fun a y => (a.add y).1) x

/-- A block scale (05 R97). -/
def scaleVal (x : Byte) : FV := if x = 255 then .nan false else .fin false 1 ((x.toNat : Int) - 127)

/-- S of a group: the exact products summed and scaled (05 R109, R110). -/
def groupSum (xs ys : List FV) (sa sb : Option Byte) : FV :=
  let s := sumFV ((xs.zip ys).map (fun p => (p.1.mul p.2).1))
  let s := match sa with | some b => (s.mul (scaleVal b)).1 | none => s
  match sb with | some b => (s.mul (scaleVal b)).1 | none => s

/-- One step of an accumulator (05 R109). -/
def accStep (int : Bool) (acc : Word) (s : FV) : Word :=
  if int then
    match s with
    | .fin n m e => acc + BitVec.ofInt 64 ((if n then -1 else 1) * (m * 2 ^ e.toNat : Nat))
    | _ => acc
  else BitVec.ofNat 64 (FFmt.f64.encode .rne ((FFmt.f64.decode acc.toNat).add s).1).1

/-- The accumulator of one output after the groups of a slab, the elements of its row and column given by group. -/
def accSlab (int : Bool) (acc : Word) (as bs : List (List FV)) (sa sb : List Byte) : Word :=
  ((List.range as.length).foldl (fun acc g =>
    accStep int acc (groupSum (as.getD g []) (bs.getD g []) sa[g]? sb[g]?)) acc)

/-- The elements of a row of a slab in groups of 32. -/
def slabGroups (f : OpFmt) (bs : List Byte) (k0 n : Nat) : List (List FV) :=
  (List.range ((n + 31) / 32)).map (fun g =>
    (List.range (min 32 (n - 32 * g))).map (fun i => f.elem bs k0 (32 * g + i)))

/-- The present elements of the slab in the operand buffers, by row of A or column of B and by group (15 R269). -/
def Hire.slabElems (h : Hire) : List (List (List FV)) × List (List (List FV)) :=
  let k0 := 128 * h.slab
  let n := min 128 (h.k - k0)
  (h.bufA.map (fun r => slabGroups h.fA r k0 n), h.bufB.map (fun r => slabGroups h.fB r k0 n))

/-- Whether a value is a number. -/
def FV.isNum : FV → Bool
  | .fin _ _ _ => true
  | _ => false

/-- The exact contribution of a slab to the outputs of row `i`, by column and group (16 R290). -/
def Hire.rowSums (h : Hire) (i : Nat) : List (List FV) :=
  let (as, bs) := h.slabElems
  let row := as.getD i []
  (List.range h.n).map (fun j => (List.range row.length).map (fun g =>
    groupSum (row.getD g []) ((bs.getD j []).getD g []) (h.sclA.getD i [])[g]? (h.sclB.getD j [])[g]?))

/-- r[i]: the sum of the slab's contributions to row `i` (16 R290). -/
def Hire.checkR (h : Hire) (i : Nat) : FV := sumFV ((h.rowSums i).map sumFV)

/-- c[i]: the row of A times the sums of the columns of B, which the extra column of cells forms (16 R290). -/
def Hire.checkC (h : Hire) (i : Nat) : FV :=
  let (as, bs) := h.slabElems
  let row := as.getD i []
  let scale := fun (x : FV) (b : Option Byte) => match b with | some b => (x.mul (scaleVal b)).1 | none => x
  sumFV ((List.range row.length).map (fun g =>
    let xs := row.getD g []
    sumFV ((List.range xs.length).map (fun q =>
      let col := sumFV ((List.range h.n).map (fun j =>
        scale (((bs.getD j []).getD g []).getD q (.zero false)) (h.sclB.getD j [])[g]?))
      scale ((xs.getD q (.zero false)).mul col).1 (h.sclA.getD i [])[g]?))))

/-- Whether row `i` is compared: its slab holds no NaN and no infinite product (16 R290). -/
def Hire.compared (h : Hire) (i : Nat) : Bool := (h.rowSums i).all (fun gs => gs.all FV.isNum)

/-- Whether the check finds a row that disagrees: of the compared rows one whose sums differ, or any when the cells have
computed one of its sums wrong, as `wrong` says (16 R290). -/
def Hire.mismatched (h : Hire) (wrong : Bool) : Bool :=
  (List.range h.m).any (fun i => h.compared i && (wrong || (match ((h.checkC i).add (h.checkR i).negate).1 with
    | .fin _ m _ => m != 0
    | _ => true)))

/-- A slab is added to the accumulators (16 R290, 15 R268). -/
def Hire.addSlab (h : Hire) : Hire :=
  let (as, bs) := h.slabElems
  let acc := (List.range h.m).map (fun i =>
    let row := h.acc.getD i []
    (List.range h.n).map (fun j =>
      accSlab h.intAcc (row.getD j 0) (as.getD i []) (bs.getD j []) (h.sclA.getD i []) (h.sclB.getD j [])))
  { h with acc := acc, slab := h.slab + 1, loaded := false, retried := false, bufA := [], bufB := [], sclA := [], sclB := [] }

/-- An error record of a bench's array (11 Table 121). -/
def State.arrayError (s : State) (bench cls : Nat) : State :=
  s.errorRecord (bench / 144) ⟨cls, 0, 1, 0, bench, 0, 0, false⟩

/-- Benches whose array has failed and that have no target end every hire not yet computed (16 R292). -/
def State.sweepBenches (s : State) : State :=
  s.forBenches (fun s b => if (s.servedBy b).isNone then s.cancelHires b (fun h => h.stage == .queued) else s)

/-- An array fails (16 R291): the hire whose slab failed starts again at slab 0. Hires of other masters that it has computed in part
keep their sums and go on from there at the target. DESIGN CHOICE (log 88). -/
def State.failArray (s : State) (a : Nat) (h : Hire) : State :=
  let s := s.arrayError a 3
  let s := s.modBench a (fun b => { b with arbcfg := some ((b.arbcfg.getD (arbReset a)) ||| 0x8000000000000000#64), busy := none })
  let s := s.modBench (benchOf h.core) (fun b => b.put { h with
    slab := 0, retried := false, loaded := false, acc := [], poisR := [], poisC := [], poi := false, bufA := [], bufB := [],
    sclA := [], sclB := [] })
  s.sweepBenches

/-- A slab has been computed and agreed: it is added, and a hire whose last slab it was goes to the landing path
(16 R279, R280). -/
def State.slabAdded (s : State) (a : Nat) (h : Hire) : State :=
  let s := if h.retried then s.arrayError a 0 else s
  let h' := h.addSlab
  let h' := if h'.slab = h'.slabs then { h' with stage := .computed, array := a } else h'
  let s := (s.modBench a (fun b => { b with busy := none })).modBench (benchOf h.core) (fun b => b.put h')
  s.markFree (benchOf h.core)

/-- A hire by its number, at whichever bench it is queued. -/
def State.hire (s : State) (id : Nat) : Option Hire := (s.benches.flatMap (fun b => b.2.hires)).find? (fun h => h.id == id)

/-- SLAB_DONE (16 R290, R291). `mismatch` says that the cells have computed a sum of the check wrong; the operands are read
first if they still have to be. -/
def execSlabDone (bench : Nat) (mismatch : Bool) (s : State) : Host.Outcome State Fault Refusal :=
  if 576 ≤ bench then .fault .noSuchPart
  else
    match (s.bench bench).busy.bind s.hire with
    | none => .next s
    | some h0 =>
      let s := if h0.loaded then s else s.loadSlab h0
      match s.hire h0.id with
      | none => .next s
      | some h =>
        if !h.loaded then .next s
        else if !h.mismatched mismatch then .next (s.slabAdded bench h)
        else if !h.retried then .next (s.modBench (benchOf h.core) (fun b => b.put { h with retried := true }))
        else .next (s.failArray bench h)

/-- ARBCFG (16 R281, Table 160): FAIL is kept, reserved fields stay 0. -/
def State.writeArb (s : State) (bench : Nat) (val : Word) : State :=
  (s.modBench bench (fun b =>
    let w := (val &&& 0x401F0000FFFFFFFF#64) ||| ((b.arbcfg.getD (arbReset bench)) &&& 0x8000000000000000#64)
    { b with arbcfg := if w = arbReset bench then none else some w })).sweepBenches

/-- ARBCFG. -/
def execArbcfg (bench : Nat) (val : BitVec 64) (s : State) : Host.Outcome State Fault Refusal :=
  if 576 ≤ bench then .fault .noSuchPart else .next (s.writeArb bench val)

/-! ## The instructions -/

/-- The header of a message to the array of the executing core's bench (15 R272). -/
def State.arrHeader (s : State) (opc len ctx hnd : Nat) : BitVec 256 :=
  s.header opc len 0 0 1 (s.lclOf s.curCore) (benchIn s.curCore) ctx hnd

/-- HIRE (15 R273). -/
def execHire (o : Op) (s : State) : Host.Outcome State Fault Refusal :=
  word (.hire o) o s (fun s =>
    let ga := s.g o.ra
    withBlock s ga 64 4 (pL ||| pLC) kLoad (fun s1 g =>
      match s1.poisonSegs g with
      | some i => .after s1 ⟨tPOIS, segPoisonVa ga.word i, s.pc⟩
      | none =>
        let h := s1.sampleHire (s1.readSegs g true)
        checked s (h.checks s1 ga) (fun _ =>
          let b := benchOf s1.curCore
          if 4 ≤ (s1.bench b).queued s1.curCore ∨ !s1.mayCount then .hold s1
          else
            let (id, s2) := s1.fresh
            match s2.takeHandle clsArray o.rd id with
            | none => .hold s1
            | some (s3, hd) =>
              .next (s3.modBench b (fun x => { x with hires := x.hires ++ [{ h with
                id := id, handle := hd, header := s1.arrHeader 0x300 4 s1.curCtx (hndOf hd) }] })))))

/-- The handle of a class that a context names: allocated to that context. A helper does not name a handle that an
earlier unit of its context left behind. -/
def Core.named (k : Core) (cls x h : Nat) (control : Bool) : Option Handle :=
  let v := k.handle cls h
  if v.used ∧ v.ctx = x ∧ (control ∨ !v.orphan) then some v else none

/-- A context consumes the final status of a handle: D is written and the handle freed; TEV raises TAP and PARKFULL
raises PARK, at the next instruction (15 R275). -/
def consumeHire (s : State) (d h : Nat) (st : Word) (now : Bool) : Eff :=
  let s1 := s.modCore s.curCore (fun k => k.setHandle clsArray h Handle.init)
  let code := st.extractLsb' 0 4
  if st.getLsbD 8 then .after (s1.put d st) ⟨tTAP, 0, BitVec.ofNat 64 h⟩
  else if code = 5 then .after (s1.put d st) ⟨tPARK, 0, BitVec.ofNat 64 h⟩
  else .next (if now then s1.put d st else s1.known d st.toNat 0)

/-- HWAIT (15 R275): the instruction itself waits, since an HFLT makes it have no effect. -/
def execHwait (o : Op) (s : State) : Host.Outcome State Fault Refusal :=
  word (.hwait o) o s (fun s =>
    let h := (s.g o.ra).addr % 64
    withRoom s (.g o.rd)
      (match s.ck.named clsArray s.curCtx h false with
       | none => .next (s.known o.rd 4 0)
       | some v =>
         if !s.cx.hflts.isEmpty then .taken (s.modCore s.curCore (fun k => k.issued s.curCtx)).raiseHflt
         else
           match v.done with
           | none => .hold s
           | some st => consumeHire s o.rd h st false))

/-- HPOLL (15 R275). -/
def execHpoll (o : Op) (s : State) : Host.Outcome State Fault Refusal :=
  word (.hpoll o) o s (fun s =>
    let h := (s.g o.ra).addr % 64
    match s.ck.named clsArray s.curCtx h false with
    | none => .next (s.putNat o.rd 4)
    | some v =>
      match v.done with
      | none => .next (s.putNat o.rd 0)
      | some st => consumeHire s o.rd h st true)

/-- HIRE_R (15 R276): D is written when the array answers the resume message, and the context issues nothing before (Table 154). -/
def execHireR (o : Op) (s : State) : Host.Outcome State Fault Refusal :=
  word (.hireR o) o s (fun s =>
    let w := (s.g o.ra).addr
    let x := if s.curCtx = 0 then w / 256 % 16 else s.curCtx
    if 10 < x then .trap (ill s.pc 10)
    else
      match s.ck.named clsArray x (w % 64) (decide (s.curCtx = 0)) with
      | none => .next (s.putNat o.rd 0)
      | some v =>
        match (s.bench (benchOf s.curCore)).find v.cmd with
        | some h =>
          if h.stage = .parked then
            .next ((s.startOut (.g o.rd) .away (setM ||| setE) []).sendPkt
              (.resume (s.arrHeader 0x301 0 x (w % 64)) h.id s.curCore s.curCtx s.nextId))
          else .next (s.putNat o.rd 0)
        | none => .next (s.putNat o.rd 0))

/-- The status of a command that is not completed, as its engine reads it (15 R277). -/
def State.runningStatus (s : State) (cls core cmd : Nat) : Word :=
  if cls = clsArray then
    match (s.bench (benchOf core)).find cmd with
    | some h => h.status (if h.stage = .parked then 6 else 0)
    | none => 0
  else if cls = clsCopy then
    match (s.copies.flatMap Prod.snd).find? (fun c => c.id == cmd) with
    | some c => c.status 0
    | none => 0
  else
    match (s.stks.flatMap Prod.snd).find? (fun c => c.id == cmd) with
    | some c => c.status 0
    | none => 0

/-- The class, the handle and the context that `cancel` and `hstat` name (15 R277). -/
def nameCmd (s : State) (o : Op) : Nat × Nat × Nat :=
  let w := (s.g o.ra).addr
  (w / 256 % 4, w % 64, if s.curCtx = 0 then w / 4096 % 16 else s.curCtx)

/-- The header of a `cancel` (15 R272, R277). What its OPC is for a copy or stack engine, and which engine it names, the spec does
not say: the array's code, with the engine's KIND and no destination. DESIGN CHOICE (log 70). -/
def State.cancelHeader (s : State) (cls x h : Nat) : BitVec 256 :=
  if cls = clsArray then s.arrHeader 0x302 0 x h else s.header 0x302 0 0 0 (cls + 1) 0 0 x h

/-- CANCEL (15 R277): D is written when the engine answers the cancel message, and the context issues nothing before (Table
154). -/
def execCancel (o : Op) (s : State) : Host.Outcome State Fault Refusal :=
  word (.cancel o) o s (fun s =>
    let (cls, h, x) := nameCmd s o
    if cls = 3 ∨ 10 < x then .trap (ill s.pc 10)
    else
      match s.ck.named cls x h (decide (s.curCtx = 0)) with
      | none => .next (s.putNat o.rd 0)
      | some v =>
        if v.done.isSome then .next (s.putNat o.rd 0)
        else .next ((s.startOut (.g o.rd) .away (setM ||| setE) []).sendPkt
          (.cancel (s.cancelHeader cls x h) cls v.cmd s.curCore s.curCtx s.nextId)))

/-- HSTAT (15 R277). -/
def execHstat (o : Op) (s : State) : Host.Outcome State Fault Refusal :=
  word (.hstat o) o s (fun s =>
    let (cls, h, x) := nameCmd s o
    if cls = 3 ∨ 10 < x then .trap (ill s.pc 10)
    else
      withRoom s (.g o.rd)
        (match s.ck.named cls x h (decide (s.curCtx = 0)) with
         | none => .next (s.known o.rd 4 0)
         | some v => .next (s.known o.rd ((v.done.getD (s.runningStatus cls s.curCore v.cmd)).toNat) 0)))

/-- The class mask of `efence`: 0 selects all three (15 R278). -/
def fenceMask (w : Nat) : BitVec 3 := if w % 8 = 0 then 7 else BitVec.ofNat 3 w

/-- EFENCE (15 R278): it is answered by PENDING_RESULT_ARRIVAL when the counters are zero. -/
def execEfence (o : Op) (s : State) : Host.Outcome State Fault Refusal :=
  word (.efence o) o s (fun s =>
    withRoom s (.g o.rd) (.next (s.startOut (.g o.rd) (.efence (fenceMask (s.g o.ra).addr)) setL [])))

/-- ECNT (15 R278). -/
def execEcnt (o : Op) (s : State) : Host.Outcome State Fault Refusal :=
  word (.ecnt o) o s (fun s =>
    let c := (s.g o.ra).addr % 4
    if c = 3 then .trap (ill s.pc 10)
    else
      let v := s.ck.counter c
      .next (s.putNat o.rd (v.n + v.err.toNat * 65536)))

end Sys2Proof.Machine
end

