-- ==== Sys2Proof/Machine/Copy.lean ====
section
/-! DEFINITION. The copy engines: descriptors, issue, acceptance, elements, collectives and completion
(13 R248 to R261). -/

namespace Sys2Proof.Machine

/-- The value of an element; a raw one is taken as its bits. -/
def CType.value (t : CType) (x : Nat) : FV :=
  match t with
  | .flt f => f.decode x
  | .int n => FV.ofInt (sextNat (8 * n) x)
  | .raw _ => FV.ofInt x

/-- An integer clamped to n bytes, as its bits. -/
def clampInt (n : Nat) (v : Int) : Nat :=
  ((max (-((2 ^ (8 * n - 1) : Nat) : Int)) (min v (((2 ^ (8 * n - 1) : Nat) : Int) - 1))) % (2 ^ (8 * n) : Nat)).toNat

/-- A value converted into a type, to nearest even (13 R253). -/
def CType.convert (t : CType) (x : FV) : Nat :=
  match t with
  | .flt f => (f.encode .rne x).1
  | .int n =>
    let (v, _) := x.toInt .rne (-(2 ^ (8 * n - 1) : Nat)) ((2 ^ (8 * n - 1) : Nat) - 1)
    (v % (2 ^ (8 * n) : Nat)).toNat
  | .raw _ => 0

/-- The narrow types of quantisation (13 R253). -/
def narrowType (t : Nat) : Bool := decide (4 ≤ t ∧ t ≤ 8)

/-- The types of a collective (13 R257). -/
def collType (t : Nat) : Bool := decide (t ≤ 3 ∨ (8 ≤ t ∧ t ≤ 11))

/-- The fields are valid under R250 to R253 and R257; `again` is `copy.r`. -/
def Copy.valid (c : Copy) (again : Bool) : Bool :=
  let s := cType c.stype
  let d := cType c.dtype
  c.fld 4 27 37 == 0 && c.fld 5 96 32 == 0 && decide (c.op < 8) && decide (c.red ≠ 3) && decide (c.scale ≠ 3) &&
  (c.owncl || decide (c.cl < 24)) && decide (0 < c.n0 ∧ 0 < c.n1 ∧ 0 < c.n2 ∧ c.total < 2 ^ 48) &&
  (decide (c.op = 5 ∨ c.op = 6) || decide (c.red = 0)) && (decide (c.scale = 0) || decide (c.op = 0)) &&
  ((!s.isRaw && !d.isRaw) || (s.isRaw && d.isRaw && s.bits == d.bits)) &&
  ((decide (s.bits ≠ 4) && decide (d.bits ≠ 4)) || (decide (c.n0 % 2 = 0) && decide (c.op = 0 ∨ c.op = 3))) &&
  (decide (c.op = 0 ∨ c.op = 3 ∨ c.op = 4) || decide (c.n1 = 1 ∧ c.n2 = 1)) &&
  (decide (c.op ≠ 2) || decide (1 ≤ c.dext ∧ c.dext ≤ 2 ^ 20)) && (decide (c.op ≠ 7) || decide (1 ≤ c.dext ∧ c.dext ≤ 2 ^ 40)) &&
  (decide (c.op ≠ 3) || c.stype == c.dtype) && (decide (c.op ≠ 4) || decide (c.stype = 0 ∧ c.dtype = 0)) &&
  (decide (c.op < 5) || (c.stype == c.dtype && collType c.stype)) &&
  (decide (c.scale ≠ 1) || (decide (c.stype ≤ 3) && narrowType c.dtype)) &&
  (decide (c.scale ≠ 2) || (narrowType c.stype && decide (c.dtype ≤ 3))) && !(again && decide (5 ≤ c.op))

/-- The byte hull of a walk: its first byte and its size (13 R254). -/
def Copy.hull (c : Copy) (w : Walk) : Int × Nat :=
  let a1 := ((c.n1 - 1 : Nat) : Int) * w.s1
  let a2 := ((c.n2 - 1 : Nat) : Int) * w.s2
  let lo := (w.base : Int) + min 0 a1 + min 0 a2
  let hi := (w.base : Int) + max 0 a1 + max 0 a2 + ((c.n0 * w.bits + 7) / 8 : Nat)
  (lo, (hi - lo).toNat)

/-- The first element address of a walk that is not aligned to the element size. -/
def Copy.misaligned (c : Copy) (w : Walk) : Option Int :=
  let sz : Int := max 1 (w.bits / 8)
  [(w.base : Int), if 1 < c.n1 then w.base + w.s1 else w.base, if 1 < c.n2 then w.base + w.s2 else w.base].find?
    (fun a => decide (a % sz ≠ 0))

/-- An extent checked at issue: the capability, the first byte, the size, the permissions, the element size as a power of
two, and the first address that is not aligned to it. -/
structure Extent where
  cap : GReg
  lo : Int
  size : Nat
  perms : Nat
  bounded : Bool
  al : Nat
  mis : Option Int

/-- A one-dimensional extent. -/
def flatExtent (cap : GReg) (size perms al : Nat) : Extent :=
  ⟨cap, cap.addr, size, perms, true, al, if cap.addr % 2 ^ al ≠ 0 then some cap.addr else none⟩

/-- The extents of a command that are checked at issue, in the order SRC, DST, AUX, REC; the bounds of a gather's source are
the engine's to check, element by element (13 R254, R260). DEDUCED (log 46). -/
def Copy.extents (c : Copy) : List Extent :=
  let t := decide (c.op = 4)
  let sp := pL ||| pE ||| (if t then pLC else 0)
  let dp := pS ||| pE ||| (if t then pSC else 0)
  let strided := fun (cap : GReg) (w : Walk) (p : Nat) =>
    Extent.mk cap (c.hull w).1 (c.hull w).2 p true (Nat.log2 (max 1 (w.bits / 8))) (c.misaligned w)
  (match c.op with
    | 0 | 4 => [strided c.src c.srcWalk sp]
    | 1 => [⟨c.src, c.src.addr, 0, sp, false, 0, none⟩]
    | 3 => []
    | _ => [flatExtent c.src (c.n0 * c.ssz) sp (Nat.log2 c.ssz)]) ++
  (match c.op with
    | 0 | 3 | 4 => [strided c.dst c.dstWalk dp]
    | 2 | 7 => [flatExtent c.dst c.dext dp (Nat.log2 c.dsz)]
    | _ => [flatExtent c.dst (c.n0 * c.dsz) dp (Nat.log2 c.dsz)]) ++
  (if c.op = 1 ∨ c.op = 2 then [flatExtent c.aux (4 * c.n0) (pL ||| pE) 2]
   else if c.scale ≠ 0 then [flatExtent c.aux ((c.total + 31) / 32) (pL ||| pE) 0] else []) ++
  (if c.recCap = .null then [] else [flatExtent c.recCap 16 (pS ||| pF ||| pE) 4])

/-- The capability check of an extent; one that is not bounded at issue needs its tag, type and permissions only. -/
def Extent.check (e : Extent) : Except TrapReq Unit :=
  match Machine.check e.cap (BitVec.ofInt 64 e.lo) e.size e.perms with
  | .ok () => .ok ()
  | .error t => if t.code = tCAPB ∧ !e.bounded then .ok () else .error t

/-- The alignment check of an extent. -/
def Extent.aligned (e : Extent) : Except TrapReq Unit :=
  match e.mis with
  | none => .ok ()
  | some a => .error (aln (BitVec.ofInt 64 a) e.al)

/-- The physical cluster of the engine that a descriptor names; none when the partition does not map it (13 R248). -/
def State.copyCluster (s : State) (c : Copy) : Option Nat :=
  if c.owncl then some (clusterOf s.curCore)
  else match s.vifOf s.curCore with
    | none => none
    | some v => let p := (s.vif v).phys c.cl; if p < 24 then some p else none

/-- The checks of a copy at issue, after those of its descriptor at `desc` (13 R254); `counted` is D = 0. -/
def Copy.checks (c : Copy) (s : State) (desc : Word) (again counted : Bool) : Except TrapReq Unit :=
  let need := fun (b : Bool) (t : TrapReq) => if b then Except.ok () else Except.error t
  firstErr ([need (c.valid again) (ill s.pc 10), need (s.copyCluster c).isSome (pgf desc kLoad 0)] ++
    c.extents.flatMap (fun e => [e.check, e.aligned]) ++ [need (!counted || c.recCap.tag) ⟨tCAPT, 0, 1⟩])

/-- The command that a descriptor gives. -/
def State.sampleCopy (s : State) (gs : List GReg) (skip : Nat) : Copy :=
  { id := 0, core := s.curCore, ctx := s.curCtx, handle := none, lid := s.lid, pgen := s.pgenOf s.curCore, header := 0,
    desc := gs, skip := skip, accepted := false, pages := [], pos := 0, fk := 0, poi := false, buf := [], rd := [], code := 0,
    round := 0, p := 1 }

/-- The header of a copy message; its body is the descriptor, and for `copy.r` a sixth flit with the skip count (13 R249). -/
def Copy.head (c : Copy) (s : State) (again : Bool) (hd : Option Nat) : BitVec 256 :=
  s.header (if again then 0x201 else 0x200) (if again then 5 else 4) 0 0 2
    (if c.owncl then s.lclOf s.curCore else c.cl) c.eng s.curCtx (hndOf hd)

/-- `copy` and `copy.r` (13 R254). The inbox of an engine holds 16 commands (13 R248), and a command takes its entry until it
has completed. DESIGN CHOICE (log 79). -/
def copyForm (o : Op) (s : State) (again : Bool) (skip : Nat) : Eff :=
  let ga := s.g o.ra
  withBlock s ga 128 4 (pL ||| pLC) kLoad (fun s1 g =>
    match s1.poisonSegs g with
    | some i => .after s1 ⟨tPOIS, segPoisonVa ga.word i, s.pc⟩
    | none =>
      let c := s1.sampleCopy (s1.readSegs g true) skip
      checked s (c.checks s1 ga.word again (decide (o.rd = 0))) (fun _ =>
        let e := 2 * (s1.copyCluster c).getD 0 + c.eng
        if 16 ≤ (s1.copyEng e).length ∨ !s1.mayCount then .hold s1
        else
          let (id, s2) := s1.fresh
          match s2.takeHandle clsCopy o.rd id with
          | none => .hold s1
          | some (s3, hd) => .next (s3.modCopy e (fun cs => cs ++ [{ c with
            id := id, handle := hd, header := c.head s1 again hd }]))))

/-- COPY (13 R254). -/
def execCopy (o : Op) (s : State) : Host.Outcome State Fault Refusal :=
  word (.copy o) o s (fun s => copyForm o s false 0)

/-- COPY_R (13 R254). -/
def execCopyR (o : Op) (s : State) : Host.Outcome State Fault Refusal :=
  word (.copyR o) o s (fun s => copyForm o s true ((s.g o.rb).addr % 2 ^ 48))

/-! ## Acceptance -/

/-- The virtual extents of the destination: the rows of the elements that are not skipped, DEXT of a scatter, or the
extent of a collective (13 R255, R257). -/
def Copy.destSpans (c : Copy) : List (Nat × Nat) :=
  match c.op with
  | 0 | 3 | 4 => c.rowSpans c.dstWalk
  | 1 => [(c.dst.addr + min c.skip c.total * c.dsz, (c.total - min c.skip c.total) * c.dsz)]
  | 2 => [(c.dst.addr, c.dext)]
  | 5 => [(c.dst.addr, c.n0 * c.dsz)]
  | 6 => [(c.dst.addr, c.n0 / c.p * c.dsz)]
  | _ => [(c.dst.addr, c.p * c.n0 * c.dsz)]

/-- The granule of REC. -/
def Copy.recSpan (c : Copy) : List (Nat × Nat) := if c.recCap.tag then [(c.recCap.addr, 16)] else []

/-- Every piece that the command writes, REC last. -/
def Copy.spans (c : Copy) : List (Nat × Nat) := c.destSpans.flatMap (fun p => pieces p.1 p.2) ++ c.recSpan

/-- Translates the pieces of the destination for a write; the error is FK 2, or 4 for a FROZEN page, and none when a walk
waits. A piece in a bank that is not in PAD role is left to be refused when it is written (13 R255, Table 136). -/
def State.copyPages (s : State) (core : Nat) : List (Nat × Nat) → Except (Option Nat) (State × List Page)
  | [] => .ok (s, [])
  | (va, n) :: rest =>
    match s.engLoc core va kStore with
    | .error .frozen => .error (some 4)
    | .error .bank => s.copyPages core rest
    | .error .wait => .error none
    | .error _ => .error (some 2)
    | .ok (s1, loc) =>
      match s1.copyPages core rest with
      | .error e => .error e
      | .ok (s2, ps) => .ok (s2, ⟨va, n, loc⟩ :: ps)

/-- Why a collective ends before any write: its group is not defined for the interface, N0 does not divide, or an
all-gather is longer than DEXT (13 R257). DEDUCED for the undefined group (log 33). -/
def State.collErr (s : State) (c : Copy) : Option Nat :=
  if c.op < 5 then none
  else
    let w := (s.group c.grp).word
    if !grpV w || s.vifOf c.core != some (grpVif w) then some 5
    else if c.op = 6 ∧ c.n0 % grpP w ≠ 0 then some 5
    else if c.op = 7 ∧ c.dext < grpP w * c.n0 * c.dsz then some 3
    else none

/-- Puts a command back at its engine. -/
def State.putCopy (s : State) (e : Nat) (c : Copy) : State :=
  s.modCopy e (fun cs => cs.map (fun x => if x.id = c.id then c else x))

/-- The first command of an engine that is not accepted yet. -/
def State.nextCopy (s : State) (e : Nat) : Option Copy := (s.copyEng e).find? (fun c => !c.accepted)

/-- The engine takes a command that ends without an element, with its REC still to be written (13 R258): a cancelled one, or a
collective whose round cannot begin. When REC cannot be translated it ends at once (13 R255). -/
def State.acceptEnded (s : State) (eng : Nat) (c : Copy) : State :=
  match s.copyPages c.core c.recSpan with
  | .error none => s
  | .error (some fk) =>
    if c.code = 2 then s.endCopy eng c 2 else (s.frozenLanding c.core c.recSpan).endCopy eng { c with fk := fk } 3
  | .ok (s1, ps) =>
    (s1.putCopy eng { c with accepted := true, pages := ps }).claimLines c.id (ps.flatMap (fun p => linesOf p.pa p.size))

/-- A round begins at the group of a collective that is accepted (13 R257). -/
def State.countRound (s : State) (c : Copy) : State :=
  if 5 ≤ c.op then s.modGroup c.grp (fun g => { g with rounds := g.rounds + 1 }) else s

/-- COPY_ACCEPT (13 R255, R257, R261, 01 R17). -/
def execCopyAccept (eng : Nat) (s : State) : Host.Outcome State Fault Refusal :=
  if 48 ≤ eng then .fault .noSuchPart
  else
    match s.nextCopy eng with
    | none => .next s
    | some c =>
      if headerBad c.header then .next (s.modCopy eng (fun cs => cs.filter (fun x => x.id != c.id)))
      else if s.pgenOf c.core ≠ c.pgen then .next (s.endCopy eng c 2)
      else
        let pos := min c.skip c.total
        if c.code ≠ 0 then .next (s.acceptEnded eng { c with pos := pos })
        else
          let s := if 5 ≤ c.op then s.settleGroup c.grp else s
          let c := if 5 ≤ c.op then { c with p := grpP (s.group c.grp).word, round := (s.group c.grp).rounds + 1 } else c
          match s.collErr c with
          | some fk => .next ((s.acceptEnded eng { c with code := 3, fk := fk }).countRound c)
          | none =>
            match s.copyPages c.core c.spans with
            | .error none => .next s
            | .error (some fk) => .next ((s.frozenLanding c.core c.spans).endCopy eng { c with fk := fk } 3)
            | .ok (s1, ps) =>
              let c' := { c with accepted := true, pages := ps, pos := pos, code := if pos = c.total then 1 else 0 }
              .next (((s1.putCopy eng c').countRound c).claimLines c.id (ps.flatMap (fun p => linesOf p.pa p.size)))

/-! ## Elements -/

/-- FK of a source that cannot be read (13 Table 136). -/
def copySrcFk : EngErr → Nat
  | .bank => 6
  | _ => 1

/-- What an element comes to: it lands, waits, or ends the command with an FK. -/
inductive ElemOut where
  | land (s : State) (c : Copy) (bits : Nat) (tag pois : Bool)
  | wait
  | fault (fk : Nat)

/-- A granule of a source. It is read once, when the first element in it is reached, so that no element sees it torn
(10 R218). DESIGN CHOICE (log 74). -/
def copyGranule (c : Copy) (s : State) (ga : Nat) (k : Copy → State → GReg → Bool → ElemOut) : ElemOut :=
  match c.rd.find? (fun r => r.1 == ga) with
  | some (_, g, p) => k c s g p
  | none =>
    match s.engLoc c.core ga kLoad with
    | .error .wait => .wait
    | .error e => .fault (copySrcFk e)
    | .ok (s1, loc) =>
      if s1.ownedOther c.id loc 16 then .wait
      else k { c with rd := (ga, s1.granule loc, s1.poison loc) :: c.rd } s1 (s1.granule loc) (s1.poison loc)

/-- Reads a number of `n` bytes of a source, at most 8. -/
def copyRead (c : Copy) (s : State) (va n : Nat) (k : Copy → State → Nat → Bool → ElemOut) : ElemOut :=
  let ga := va / 16 * 16
  copyGranule c s ga (fun c1 s1 g p =>
    let x := g.data.toNat / 2 ^ (8 * (va - ga))
    if va + n ≤ ga + 16 then k c1 s1 (x % 2 ^ (8 * n)) p
    else copyGranule c1 s1 (ga + 16) (fun c2 s2 g2 p2 =>
      k c2 s2 ((x + g2.data.toNat * 2 ^ (8 * (ga + 16 - va))) % 2 ^ (8 * n)) (p || p2)))

/-- Whether an element lies within a capability's bounds. -/
def GReg.inBounds (c : GReg) (a n : Nat) : Bool := decide (c.bounds.1 ≤ a ∧ ((a + n : Nat) : Int) ≤ c.bounds.2)

/-- idx[i] of a gather or scatter; 0 for the other operations. -/
def copyIdx (c : Copy) (s : State) (i : Nat) (k : Copy → State → Nat → Bool → ElemOut) : ElemOut :=
  if c.op = 1 ∨ c.op = 2 then copyRead c s (c.aux.addr + 4 * i) 4 k else k c s 0 false

/-- The scale of element i, in powers of two; NaN for 0xFF (13 R253). -/
def copyScale (c : Copy) (s : State) (i : Nat) (k : Copy → State → Option Int → Bool → ElemOut) : ElemOut :=
  if c.scale = 0 then k c s (some 0) false
  else copyRead c s (c.aux.addr + i / 32) 1 (fun c1 s1 x p =>
    k c1 s1 (if x = 255 then none else some (if c.scale = 1 then 127 - x else x - 127)) p)

/-- The bits that an element's source value becomes (13 R253). -/
def Copy.converted (c : Copy) (x : Nat) (sh : Option Int) : Nat :=
  if c.op = 4 ∨ (c.stype = c.dtype ∧ c.scale = 0) ∨ (cType c.stype).isRaw then x
  else
    (cType c.dtype).convert (match sh with
      | none => .nan false
      | some k => ((cType c.stype).value x).scale k)

/-- Reads and converts element i, whose index value is `idx` (13 Table 132). -/
def copySource (c : Copy) (s : State) (i idx : Nat) (p0 : Bool) : ElemOut :=
  match c.op with
  | 3 => .land s c ((c.gran 7).data.toNat % 2 ^ c.dbits) false p0
  | 4 => copyGranule c s ((c.pos? c.srcWalk i).1.toNat) (fun c1 s1 g p => .land s1 c1 g.data.toNat g.tag p)
  | 1 =>
    let a := c.src.addr + idx * c.ssz
    if !c.src.inBounds a c.ssz then .fault 3
    else copyRead c s a c.ssz (fun c1 s1 x p => .land s1 c1 (c.converted x (some 0)) false (p0 || p))
  | 2 => copyRead c s (c.src.addr + i * c.ssz) c.ssz (fun c1 s1 x p => .land s1 c1 (c.converted x (some 0)) false (p0 || p))
  | _ =>
    let (a, hi) := c.pos? c.srcWalk i
    copyRead c s a.toNat c.ssz (fun c1 s1 x p =>
      let x := if c.sbits = 4 then (if hi then x / 16 else x % 16) else x
      copyScale c1 s1 i (fun c2 s2 sh q => .land s2 c2 (c.converted x sh) false (p || q)))

/-- The address that element i writes and its nibble; none for a scatter index outside its bounds (13 R260). -/
def Copy.target (c : Copy) (i idx : Nat) : Option (Nat × Bool) :=
  match c.op with
  | 1 => some (c.dst.addr + i * c.dsz, false)
  | 2 =>
    let a := c.dst.addr + idx * c.dsz
    if idx * c.dsz + c.dsz ≤ c.dext ∧ c.dst.inBounds a c.dsz then some (a, false) else none
  | _ => let (a, hi) := c.pos? c.dstWalk i; some (a.toNat, hi)

/-- The rows from that of element i on that still write, as extents. -/
def Copy.restSpans (c : Copy) (i : Nat) : List (Nat × Nat) := { c with skip := i }.destSpans

/-- The lines that an element at a location was the last to write are released; those of a scatter or a collective, and
the line of REC, at the end (01 R21, 13 R258). -/
def State.releaseDone (s : State) (c : Copy) (i loc n : Nat) : State :=
  if c.op = 2 ∨ 5 ≤ c.op then s
  else
    let rest := (c.restSpans (i + 1)).flatMap (fun p => segLines (pageSegs c.pages p.1 p.2))
    let keep := rest ++ (if c.recCap.tag then segLines (pageSegs c.pages c.recCap.addr 16) else [])
    (linesOf loc n).foldl (fun s l => if keep.contains l then s else s.release c.id l) s

/-- Whether a span holds a byte of the granule at a virtual address. -/
def touchesG (gv : Nat) (p : Nat × Nat) : Bool := decide (p.1 < gv + 16 ∧ gv < p.1 + p.2)

/-- Whether the elements of the command write every byte of the granule at a virtual address; a scatter is not known to. The
low nibble of the first byte is below the skip when that is odd. -/
def Copy.coversG (c : Copy) (gv : Nat) : Bool :=
  let spans := match c.destSpans with
    | p :: ps => (if c.dbits = 4 ∧ c.skip % 2 = 1 then (p.1 + 1, p.2 - 1) else p) :: ps
    | [] => []
  decide (c.op ≠ 2) && (List.range 16).all (fun k => spans.any (fun p => decide (p.1 ≤ gv + k ∧ gv + k < p.1 + p.2)))

/-- The bytes that element `i` gives its granule: of its size, or one nibble of a byte (13 R252). -/
def Copy.bytesOf (c : Copy) (s : State) (i loc : Nat) (hi : Bool) (bits : Nat) (pois : Bool) : List Landing :=
  if c.dbits = 4 then
    let old := c.buf.find? (fun x => x.loc == loc)
    let b := ((old.map Landing.byte).getD (s.byte loc)).toNat
    [⟨loc, BitVec.ofNat 8 (if hi then b % 16 + 16 * bits else b / 16 * 16 + bits), pois || (old.map Landing.pois).getD false,
      (old.map Landing.elem).getD i⟩]
  else (List.range c.dsz).map (fun k => ⟨loc + k, BitVec.ofNat 8 (bits / 2 ^ (8 * k)), pois, i⟩)

/-- Element `c.pos` reaches its granule: a granule of a tag copy lands with its tag, and one of another operation lands when no
later element writes it, in one write; those of a scatter land at its end (13 R255, R256, 10 R211). -/
def Copy.landElem (c : Copy) (s : State) (va loc : Nat) (hi : Bool) (bits : Nat) (tag pois : Bool) : State × Copy :=
  let i := c.pos
  let done := { c with pos := i + 1, poi := c.poi || pois, code := if i + 1 = c.total then 1 else 0 }
  if c.op = 4 then
    (s.landBytes loc (toLE bits 16) (tag && (isStack loc || (BitVec.ofNat 128 bits).getLsbD 116)) pois, done)
  else
    let new := c.bytesOf s i loc hi bits pois
    let buf := c.buf.filter (fun x => !new.any (fun y => y.loc == x.loc)) ++ new
    let c1 := { done with buf := buf }
    if c.op = 2 then (if i + 1 = c.total then (c1.flush s, { c1 with buf := [] }) else (s, c1))
    else if (c.restSpans (i + 1)).any (touchesG (va / 16 * 16)) then (s, c1)
    else (c1.landBuf s [loc / 16 * 16], { c1 with buf := buf.filter (fun x => x.loc / 16 != loc / 16) })

/-- One element of a command that runs (13 R255). A fault lands what is buffered of the elements below. -/
def State.copyElement (s : State) (e : Nat) (c : Copy) : State :=
  let fault := fun (fk : Nat) => (c.flush s).putCopy e { c with fk := fk, code := 3, buf := [] }
  let i := c.pos
  match copyIdx c s i (fun c1 s1 idx p => match copySource c1 s1 i idx p with
    | .land s2 c2 bits tag p2 =>
      (match c.target i idx with
       | none => .fault 3
       | some (va, hi) =>
         match pageLoc c.pages va with
         | none => .fault 6
         | some loc =>
           if s2.poison loc && !c.coversG (va / 16 * 16) then .fault 6
           else
             let r := c2.landElem s2 va loc hi bits tag p2
             .land ((r.1.putCopy e r.2).releaseDone r.2 i loc c.dsz) r.2 bits tag p2)
    | r => r) with
  | .wait => s
  | .fault fk => fault fk
  | .land s1 _ _ _ _ => s1.serve

/-- COPY_ELEMENT (13 R255): the next element of a command that owns its lines. -/
def execCopyElement (eng cmd : Nat) (s : State) : Host.Outcome State Fault Refusal :=
  if 48 ≤ eng then .fault .noSuchPart
  else
    match (s.copyEng eng).find? (fun c => c.id == cmd) with
    | none => .next s
    | some c =>
      if !c.accepted || decide (c.code ≠ 0) || decide (5 ≤ c.op) || !s.ownsAll cmd then .next s
      else .next (s.copyElement eng c)

/-- A command that has ended releases every other line, its REC is written at a location whose line it owns, and its handle or
counter completes (13 R258). -/
def State.writeRec (s : State) (eng : Nat) (c : Copy) (loc : Nat) : State :=
  let lines := (s.owned.filter (fun p => p.2 == c.id && p.1 != lineOf loc)).map Prod.fst
  let s1 := lines.foldl (fun s l => s.release c.id l) (c.flush s)
  let c := { c with buf := [] }
  (s1.landBytes loc (toLE (c.status c.code).toNat 16) false false).endCopy eng c c.code

/-- COPY_COMPLETE (13 R258): every other line is released, REC is written, and the handle or counter completes. -/
def execCopyComplete (eng cmd : Nat) (s : State) : Host.Outcome State Fault Refusal :=
  if 48 ≤ eng then .fault .noSuchPart
  else
    match (s.copyEng eng).find? (fun c => c.id == cmd) with
    | none => .next s
    | some c =>
      if c.code = 0 then .next s
      else if !c.accepted || !c.recCap.tag then .next (s.endCopy eng c c.code)
      else
        match pageLoc c.pages c.recCap.addr with
        | none => .next (s.endCopy eng { c with fk := 6 } 3)
        | some loc =>
          if s.owner loc ≠ cmd then .next s else .next (s.writeRec eng c loc)

/-! ## Collectives -/

/-- One element reduced over the members in ascending rank (13 R257). -/
def reduceElem (t : CType) (red : Nat) (xs : List Nat) : Nat :=
  match t with
  | .flt f =>
    if red = 0 then
      match xs.map f.decode with
      | [] => 0
      | v :: vs => (f.encode .rne (vs.foldl (fun a y => FFmt.f64.decode (FFmt.f64.encode .rne (a.add y).1).1) v)).1
    else
      match xs with
      | [] => 0
      | y :: ys => (f.encode .rne (f.decode (ys.foldl (fun a b => (fminmax f (red == 1) false a b).1) y))).1
  | .int n =>
    let vs := xs.map (sextNat (8 * n))
    match vs with
    | [] => 0
    | v :: rest =>
      if red = 0 then clampInt n (rest.foldl (· + ·) v)
      else clampInt n (rest.foldl (fun a b => if red = 1 then max a b else min a b) v)
  | .raw _ => 0

/-- The destination elements of a collective of `p` members, of which the executing one has rank `r`; `xs` are the
members' sources by rank (13 R257). A reduce-scatter leaves at rank r the r-th part of the reduction. DEDUCED (log 32). -/
def collResult (c : Copy) (p r : Nat) (xs : List (List Nat)) : List Nat :=
  let t := cType c.stype
  match c.op with
  | 5 => (List.range c.n0).map (fun j => reduceElem t c.red (xs.map (fun x => x.getD j 0)))
  | 6 =>
    let n := c.n0 / p
    (List.range n).map (fun j => reduceElem t c.red (xs.map (fun x => x.getD (r * n + j) 0)))
  | _ => xs.flatMap (fun x => (List.range c.n0).map (fun j => x.getD j 0))

/-- Which elements of the result are poisoned: those that a poisoned element of a member's source goes into (13 R256, 11 R228). -/
def collPoison (c : Copy) (p r : Nat) (xs : List (List Bool)) : List Bool :=
  let any := fun (j : Nat) => xs.any (fun x => x.getD j false)
  match c.op with
  | 5 => (List.range c.n0).map any
  | 6 => let n := c.n0 / p; (List.range n).map (fun j => any (r * n + j))
  | _ => xs.flatMap (fun x => (List.range c.n0).map (fun j => x.getD j false))

/-- Which elements of the own source lie in a poisoned granule. -/
def State.ownPoison (s : State) (c : Copy) : List Bool :=
  (List.range c.n0).map (fun j => match s.engRead c.core c.id (c.src.addr + j * c.ssz) c.ssz with
    | .ok _ _ p => p
    | _ => false)

/-- Whether another package's member brings the same operation, types, RED and N0 (13 R257). -/
def remoteMatches (m : RemoteMember) (c : Copy) : Bool :=
  !m.failed && m.op == c.op && m.dtype == c.dtype && m.red == c.red && m.n0 == c.n0

/-- The elements of a source as they lie in memory. -/
def splitElems (n : Nat) : Nat → List Byte → List Nat
  | 0, _ => []
  | k + 1, bs => leNat (bs.take n) :: splitElems n k (bs.drop n)

/-- The oldest collective command of a group that runs, with its engine. -/
def State.collective (s : State) (g : Nat) : Option (Nat × Copy) :=
  (s.copies.flatMap (fun e => (e.2.filter (fun c =>
    decide (5 ≤ c.op) && c.grp == g && c.accepted && decide (c.code = 0))).map (fun c => (e.1, c)))).foldl
    (fun b x => match b with
      | none => some x
      | some y => if x.2.round < y.2.round then some x else some y) none

/-- What the members bring by rank: of the other packages `f` of what came, and the own. -/
def memberData (r p : Nat) (own : List α) (remote : List RemoteMember) (f : RemoteMember → List α) : List (List α) :=
  (List.range p).map (fun q => if q = r then own else
    match remote.find? (fun m => m.rank == q) with
    | some m => f m
    | none => [])

/-- The FK with which a round ends at every member, if it cannot complete: a member differs, has failed, or has too short an
all-gather extent (13 R257). -/
def roundErr (c : Copy) (remote : List RemoteMember) : Option Nat :=
  if remote.any (fun m => !remoteMatches m c) then some 5
  else if c.op = 7 ∧ remote.any (fun m => decide (m.dext < c.p * c.n0 * c.dsz)) then some 3
  else none

/-- A collective command ends its round with an FK; COPY_COMPLETE reports it (13 R257, R258). -/
def State.endRound (s : State) (e grp : Nat) (c : Copy) (fk : Nat) : State :=
  (s.putCopy e { c with code := 3, fk := fk }).settleGroup grp

/-- COLLECTIVE_ROUND_COMPLETE (13 R257): the round of the group's oldest command completes with what the other packages
brought. A fault at any member, a refused landing write included, ends it with FK 5. What comes of a poisoned element lands
poisoned (R256). -/
def execCollectiveRoundComplete (vif grp : Nat) (remote : List RemoteMember) (s : State) :
    Host.Outcome State Fault Refusal :=
  if 64 ≤ vif ∨ 16 ≤ grp then .fault .noSuchPart
  else
    match s.collective grp with
    | none => .next s
    | some (e, c) =>
      let r := grpRank (s.group grp).word
      if s.vifOf c.core ≠ some vif then .next s
      else
        match roundErr c remote with
        | some fk => .next (s.endRound e grp c fk)
        | none =>
          if !s.ownsAll c.id then .next s
          else if !((List.range c.p).all (fun q => q == r || remote.any (fun m => m.rank == q))) then .next s
          else
            match s.engRead c.core c.id c.src.addr (c.n0 * c.ssz) with
            | .wait => .next s
            | .err _ => .next (s.endRound e grp c 5)
            | .ok s1 bs pois =>
              let out := collResult c c.p r (memberData r c.p (splitElems c.ssz c.n0 bs) remote (fun m => m.data.map BitVec.toNat))
              let bad := collPoison c c.p r (memberData r c.p (s1.ownPoison c) remote RemoteMember.pois)
              let g := c.destSpans.flatMap (fun p => pageSegs c.pages p.1 p.2)
              if (g.map Prod.snd).sum ≠ out.length * c.dsz ∨ s1.landRefused g then .next (s1.endRound e grp c 5)
              else
                let s2 := s1.landSegs g (out.zipIdx.flatMap (fun x => (toLE x.1 c.dsz).map (fun b => (b, bad.getD x.2 false))))
                .next ((s2.putCopy e { c with code := 1, pos := c.n0, poi := pois || bad.any id }).settleGroup grp)

/-! ## The waits -/

/-- The final status of a copy or stack handle that is named, which frees it; 4 when it is not allocated. -/
def takeStatus (s : State) (cls core x h : Nat) : Option (State × Word) :=
  match (s.core core).named cls x h false with
  | none => some (s, 4)
  | some v => v.done.map (fun st => (s.modCore core (fun k => k.setHandle cls h Handle.init), st))

/-- `cwait` and `swait` (13 R259, 23 R358): the result is outstanding until the command has completed. -/
def waitForm (s : State) (o : Op) (cls : Nat) (w : Nat → Wait) : Eff :=
  let h := (s.g o.ra).addr % 64
  withRoom s (.g o.rd)
    (match s.ck.named cls s.curCtx h false with
     | none => .next (s.known o.rd 4 0)
     | some _ => .next (s.startOut (.g o.rd) (w h) setL []))

/-- `cpoll` and `spoll`. -/
def pollForm (s : State) (o : Op) (cls : Nat) : Eff :=
  match takeStatus s cls s.curCore s.curCtx ((s.g o.ra).addr % 64) with
  | none => .next (s.putNat o.rd 0)
  | some (s1, st) => .next (s1.put o.rd st)

/-- CWAIT (13 R259). -/
def execCwait (o : Op) (s : State) : Host.Outcome State Fault Refusal :=
  word (.cwait o) o s (fun s => waitForm s o clsCopy .cwait)

/-- CPOLL (13 R259). -/
def execCpoll (o : Op) (s : State) : Host.Outcome State Fault Refusal :=
  word (.cpoll o) o s (fun s => pollForm s o clsCopy)

end Sys2Proof.Machine
end

