-- ==== Sys2Proof/Machine/Control.lean ====
section
/-! DEFINITION. Branches, calls, capability derivation and inspection, control registers, the supervisor call and the
plain minor codes (06 R129 to R138, 04 R92, R93). -/

namespace Sys2Proof.Machine

/-! ## Branches and calls -/

/-- The PC of the next instruction in order (02 R40). -/
def State.nextPc (s : State) (o : Op) : Word := s.pc + BitVec.ofNat 64 (2 * o.words)

/-- The target of a direct branch (06 R129). -/
def State.target (s : State) (imm : Int) : Int := (s.pc.toNat : Int) + 2 * imm

/-- A direct branch: a taken one checks its target against PCC (06 R129). `link` is what else a taken one does. -/
def branchTo (s : State) (taken : Bool) (imm : Int) (link : State → State) : Eff :=
  if !taken then .next s
  else
    let t := s.target imm
    let a := BitVec.ofInt 64 t
    let (b, top) := s.cx.pcc.bounds
    if t < b ∨ top < t + 2 then .trap ⟨tCAPB, a, 2⟩ else .jump (link s) (s.cx.pcc.withAddr a)

/-- The sentry link that `call` and `calli` leave in lk (06 R131). -/
def State.linkTo (s : State) (o : Op) : State :=
  s.setG 15 (((s.cx.pcc.withAddr (s.nextPc o)).withOtype 1).withTag true)

/-- A jump through a capability (06 R130); a jump to an odd address raises ALN (02 R33). -/
def jumpTo (s : State) (c : GReg) (link : State → State) : Eff :=
  checked s (checkCap c c.word 2 pX [0, 1]) (fun _ =>
    if c.word.getLsbD 0 then .trap (aln c.word 1) else .jump (link s) (c.withOtype 0))

/-- The tested value of a conditional branch, signed (06 Table 64). -/
def State.tested (s : State) (o : Op) : Int := sextNat o.width (s.g o.rd).addr

/-- BR (R129). -/
def execBr (o : Op) (s : State) : Host.Outcome State Fault Refusal :=
  word (.br o) o s (fun s => branchTo s true o.fbImm id)

/-- CALL: links (R129, R131). -/
def execCall (o : Op) (s : State) : Host.Outcome State Fault Refusal :=
  word (.call o) o s (fun s => branchTo s true o.fbImm (fun s => s.linkTo o))

/-- BZ (R129). -/
def execBz (o : Op) (s : State) : Host.Outcome State Fault Refusal :=
  word (.bz o) o s (fun s => branchTo s (decide (s.tested o = 0)) o.fiImm id)

/-- BNZ (R129). -/
def execBnz (o : Op) (s : State) : Host.Outcome State Fault Refusal :=
  word (.bnz o) o s (fun s => branchTo s (decide (s.tested o ≠ 0)) o.fiImm id)

/-- BLZ (R129). -/
def execBlz (o : Op) (s : State) : Host.Outcome State Fault Refusal :=
  word (.blz o) o s (fun s => branchTo s (decide (s.tested o < 0)) o.fiImm id)

/-- BGEZ (R129). -/
def execBgez (o : Op) (s : State) : Host.Outcome State Fault Refusal :=
  word (.bgez o) o s (fun s => branchTo s (decide (0 ≤ s.tested o)) o.fiImm id)

/-- JMP (R130). -/
def execJmp (o : Op) (s : State) : Host.Outcome State Fault Refusal :=
  word (.jmp o) o s (fun s => jumpTo s (s.g o.ra) id)

/-- CALLI: links before PCC changes (R130, R131). -/
def execCalli (o : Op) (s : State) : Host.Outcome State Fault Refusal :=
  word (.calli o) o s (fun s => jumpTo s (s.g o.ra) (fun s => s.linkTo o))

/-- RET: as `jmp lk` (R137). -/
def execRet (s : State) : Host.Outcome State Fault Refusal := word .ret s.opr s (fun s => jumpTo s (s.g 15) id)

/-! ## Capabilities -/

/-- The source and the integer operand of a derivation (06 R132). -/
def State.derivSrc (s : State) (o : Op) : GReg := s.g o.s1
def State.derivVal (s : State) (o : Op) : Word := (s.g o.s2).word

/-- A capability at another address: the tag is kept when it may be derived and stays representable (04 R88, R89). -/
def GReg.moveTo (c : GReg) (a : Word) : GReg :=
  (c.withAddr a).withTag (c.derivable && c.representable a.toNat)

/-- A capability with the bounds [ADDR, ADDR + v) (06 R132, 04 R89). -/
def GReg.bound (c : GReg) (v : Nat) : GReg :=
  if 2 ^ 64 < c.addr + v then c.withTag false
  else
    match encodeBounds c.addr (c.addr + v) with
    | none => c.withTag false
    | some (e, b, t, lo, up) =>
      let (cb, ct) := c.bounds
      let ok := c.derivable && decide (cb ≤ (lo : Int) ∧ (up : Int) ≤ ct) &&
        decide (decodeBounds e b t c.addr = ((lo : Int), (up : Int)))
      packCap c.perms c.otype e b t c.word ok

/-- CSET (R132). -/
def execCset (o : Op) (s : State) : Host.Outcome State Fault Refusal :=
  word (.cset o) o s (fun s => .next (s.setG o.rd ((s.derivSrc o).moveTo (s.derivVal o))))

/-- CINC (R132). -/
def execCinc (o : Op) (s : State) : Host.Outcome State Fault Refusal :=
  word (.cinc o) o s (fun s =>
    .next (s.setG o.rd ((s.derivSrc o).moveTo ((s.derivSrc o).word + s.derivVal o))))

/-- CBND (R132). -/
def execCbnd (o : Op) (s : State) : Host.Outcome State Fault Refusal :=
  word (.cbnd o) o s (fun s => .next (s.setG o.rd ((s.derivSrc o).bound (s.derivVal o).toNat)))

/-- CPERM (R132). -/
def execCperm (o : Op) (s : State) : Host.Outcome State Fault Refusal :=
  word (.cperm o) o s (fun s =>
    let c := s.derivSrc o
    .next (s.setG o.rd ((c.withPerms (c.perms &&& (s.derivVal o).toNat % 4096)).withTag c.derivable)))

/-- A property of a capability's bits (06 Table 66). -/
def GReg.property (c : GReg) (sel : Nat) : Nat :=
  let (b, t) := c.bounds
  match sel with
  | 0 => c.addr
  | 1 => wrap64 b
  | 2 => if t - b = (2 ^ 64 : Nat) then 2 ^ 64 - 1 else wrap64 (t - b)
  | 3 => wrap64 ((c.addr : Int) - b)
  | 4 => c.perms
  | 5 => c.otype
  | 6 => c.tag.toNat
  | _ => (c.data.extractLsb' 64 64).toNat
where
  /-- An integer mod 2^64. -/
  wrap64 (x : Int) : Nat := (x % (2 ^ 64 : Nat)).toNat

/-- CGET (R133). -/
def execCget (o : Op) (s : State) : Host.Outcome State Fault Refusal :=
  word (.cget o) o s (fun s => .next (s.putNat o.rd ((s.g o.ra).property (o.k1 % 8))))

/-- CTAG: the 128 data bits with tag 0 (R134). -/
def execCtag (o : Op) (s : State) : Host.Outcome State Fault Refusal :=
  word (.ctag o) o s (fun s => .next (s.setG o.rd ((s.g o.ra).withTag false)))

/-! ## Control registers -/

/-- Whether a number names a control register that a context may name (04 R92). -/
def crLegal (n : Nat) (control : Bool) : Bool := decide (n ≤ 14) || (control && decide (32 ≤ n ∧ n ≤ 42))

/-- CORE (04 Table 45). -/
def State.coreReg (s : State) (c : Nat) : Nat :=
  coreX c + coreY c * 2 ^ 8 + s.lclOf c * 2 ^ 16 + cidxOf c * 2 ^ 24 + benchIn c * 2 ^ 32 + slotOf c * 2 ^ 40

/-- PJHEAD (11 Table 122). -/
def Core.pjhead (k : Core) : Nat :=
  let ref := (List.range 32).filter (fun i => (Store.get Journal.init k.journal i).st == 2)
  match ref with
  | [] => 0
  | i :: _ => i + 32 + ref.length * 256

/-- The weight of a core at its array (16 Table 160). -/
def State.hireWeight (s : State) (c : Nat) : Nat :=
  match (s.bench (benchOf c)).arbcfg with
  | none => 1
  | some w => max 1 ((w.extractLsb' (4 * slotOf c) 4).toNat)

/-- VIID (04 Table 44). -/
def State.viidReg (s : State) (c : Nat) : Nat :=
  match s.vifOf c with
  | some v => v
  | none => 64

/-- A control register of a context (04 Table 44). -/
def State.readCr (s : State) (core x n : Nat) : GReg :=
  let k := s.core core
  let c := (k.ctx x).cr
  let r := k.cr
  match n with
  | 0 => .ofWord (BitVec.ofNat 64 x)
  | 1 => .ofWord (BitVec.ofNat 64 (s.coreReg core))
  | 2 => .ofWord (BitVec.ofNat 64 (c.cm.toNat + (if x = 0 then 2 else 0)))
  | 3 => .ofWord c.warn
  | 4 => .ofWord c.warnpc
  | 5 => .ofWord c.fmta
  | 6 => .ofWord c.fmtb
  | 7 => c.scla
  | 8 => c.sclb
  | 9 => .ofWord c.fpm
  | 10 => .ofWord c.fflags
  | 11 => if x = 0 then .null else .ofWord c.budget
  | 12 => .ofWord c.cyc
  | 13 => .ofWord c.tapset
  | 14 => .ofWord (BitVec.ofNat 64 (s.hireWeight core))
  | 32 => r.evec
  | 33 => .ofWord r.ecause
  | 34 => .ofWord r.epc
  | 35 => .ofWord r.eadr
  | 36 => .ofWord r.erpc
  | 37 => .ofWord r.eiter
  | 38 => .ofWord r.einfo
  | 39 => .ofWord (BitVec.ofNat 64 k.pjhead)
  | 40 => .ofWord (r.lease.setWidth 64)
  | 41 => .ofWord (BitVec.ofNat 64 (s.viidReg core))
  | 42 => .ofWord r.ctxbase
  | _ => .null

/-- FMTA or FMTB after a write: a reserved FMT is ignored (04 Table 46, R92). -/
def writeFmt (old w : Word) : Word :=
  let f := if (w.extractLsb' 0 4).toNat ≤ 8 then w &&& 15 else old &&& 15
  f ||| (w &&& 16)

/-- FPM after a write: a reserved RM is ignored (04 Table 46). -/
def writeFpm (old w : Word) : Word := if (w.extractLsb' 0 3).toNat ≤ 4 then w &&& 7 else old

/-- A user control register of a context after a write (04 Tables 44 to 46). `budget` says that BUDGET may be
written. -/
def CtxRegs.write (r : CtxRegs) (n : Nat) (v : GReg) (control budget : Bool) : CtxRegs :=
  match n with
  | 2 => if control then { r with cm := v.word.getLsbD 0 } else r
  | 3 => { r with warn := r.warn &&& ~~~v.word }
  | 5 => { r with fmta := writeFmt r.fmta v.word }
  | 6 => { r with fmtb := writeFmt r.fmtb v.word }
  | 7 => { r with scla := v }
  | 8 => { r with sclb := v }
  | 9 => { r with fpm := writeFpm r.fpm v.word }
  | 10 => { r with fflags := v.word &&& 31 }
  | 11 => if budget && !control then { r with budget := v.word } else r
  | _ => r

/-- A supervisor register after a write (04 Table 44, 11 Tables 116 and 122). -/
def CoreRegs.write (r : CoreRegs) (n : Nat) (v : GReg) : CoreRegs :=
  match n with
  | 32 => { r with evec := v }
  | 33 => { r with ecause := v.word &&& 0x03F8F0FF }
  | 34 => { r with epc := v.word }
  | 35 => { r with eadr := v.word }
  | 36 => { r with erpc := v.word }
  | 37 => { r with eiter := v.word &&& 0xFFFF }
  | 38 => { r with einfo := v.word }
  | _ => r

/-- Whether a helper of a core is LIVE or STOPPED (04 R78). -/
def Core.anyHelper (k : Core) : Bool := (List.range 10).any (fun i => (k.ctx (i + 1)).st != .free)

/-- A write of CTXBASE that is performed: every evicted register of the control context is filled from the old base, and every
entry of it becomes dirty (04 R78). A value that is not a multiple of 256 KiB is kept as it is written, and the slots lie
from it on. DESIGN CHOICE (log 41). -/
def State.setCtxbase (s : State) (core : Nat) (w : Word) : Bring :=
  let out := ((s.core core).ctx 0).heldRegs.filter ((s.core core).evicted 0)
  match bringAll [] (out.map (fun d => (core, 0, d, false))) s with
  | .ok s1 => .ok (s1.modCore core (fun k => { k with
      cr := { k.cr with ctxbase := w }
      entries := k.entries.map (fun e => if e.ctx = 0 ∧ (k.ctx 0).holds e.reg then { e with dirty := true } else e) }))
  | r => r

/-- A write of a control register of a context other than a performed one of CTXBASE, by `mtc` or `mtcs` (04 R92, R93,
R78). -/
def State.writeCr (s : State) (core x n : Nat) (v : GReg) (budget : Bool) : State :=
  if n = 42 then s.warn wRSV
  else if 32 ≤ n then
    s.modCore core (fun k => { k with cr := k.cr.write n v, evecSet := k.evecSet || decide (n = 32) })
  else s.modCtx core x (fun c => { c with cr := c.cr.write n v (decide (x = 0)) budget })

/-- What a write of a control register comes to: one of CTXBASE is performed while no helper of the core is LIVE or STOPPED,
and may wait for a line, or find a poisoned slot (04 R78). -/
def crEff (s : State) (core x n : Nat) (v : GReg) (budget : Bool) : Eff :=
  if n = 42 ∧ !(s.core core).anyHelper then
    match s.setCtxbase core v.word with
    | .ok s1 => .next s1
    | .wait => .hold s
    | .pois a => .trap ⟨tPOIS, BitVec.ofNat 64 a, s.pc⟩
  else .next (s.writeCr core x n v budget)

/-- MFC (R135). -/
def execMfc (o : Op) (s : State) : Host.Outcome State Fault Refusal :=
  word (.mfc o) o s (fun s =>
    if crLegal o.fiRaw (decide (s.curCtx = 0)) then .next (s.setG o.rd (s.readCr s.curCore s.curCtx o.fiRaw))
    else .trap (ill s.pc 5))

/-- MTC (R135). -/
def execMtc (o : Op) (s : State) : Host.Outcome State Fault Refusal :=
  word (.mtc o) o s (fun s =>
    if crLegal o.fiRaw (decide (s.curCtx = 0)) then crEff s s.curCore s.curCtx o.fiRaw (s.g o.rd) false
    else .trap (ill s.pc 5))

/-! ## The supervisor call and minor codes -/

/-- SVC: the code and the register number go to EINFO (R136). -/
def execSvc (o : Op) (s : State) : Host.Outcome State Fault Refusal :=
  word (.svc o) o s (fun s =>
    helperOnly s (.trap ⟨tSVC, 0, BitVec.ofNat 64 (o.fiRaw % 2 ^ 32 + o.rd * 2 ^ 32)⟩))

/-- NOP (R137). -/
def execNop (s : State) : Host.Outcome State Fault Refusal := word .nop s.opr s .next

/-- BRK (R137, R138). -/
def execBrk (s : State) : Host.Outcome State Fault Refusal := word .brk s.opr s (fun _ => .trap ⟨tBRK, 0, 0⟩)

/-- YIELD: the context waits for every other helper that is ready now (R137). -/
def execYield (s : State) : Host.Outcome State Fault Refusal :=
  word .yield s.opr s (fun s =>
    helperOnly s (.next (s.modCx (fun c => { c with
      yielding := (List.range 11).filter (fun y => decide (y ≠ 0) && decide (y ≠ s.curCtx) && s.ck.readyBut y) }))))

end Sys2Proof.Machine
end

