-- ==== Sys2Proof/Machine/Keccak.lean ====
section
/-! DEFINITION. SHAKE256, by which cache keys, digests and attestation are formed (21 R330, 24 R367, R369). The rules name
the function; its rounds are those of FIPS 202. PRESUMED (log 35). -/

namespace Sys2Proof.Machine

/-- A lane of the Keccak state: A[x, y] stands at x + 5 y. -/
def lane (a : List Word) (x y : Nat) : Word := a.getD (x % 5 + 5 * (y % 5)) 0

/-- A state from its lanes. -/
def mkLanes (f : Nat → Nat → Word) : List Word := (List.range 25).map (fun i => f (i % 5) (i / 5))

/-- The parity of a column of lanes. -/
def columnParity (a : List Word) (x : Nat) : Word := (List.range 5).foldl (fun w y => w ^^^ lane a x y) 0

/-- The step θ: every lane takes the parities of the column before its own and, turned by one, of the one after. -/
def theta (a : List Word) : List Word :=
  let turned := fun x => columnParity a (x + 4) ^^^ (columnParity a (x + 1)).rotateLeft 1
  mkLanes (fun x y => lane a x y ^^^ turned x)

/-- The steps ρ and π, along the walk (x, y), (y, 2 x + 3 y) from (1, 0): the lane met at step t is turned by the
triangular number of t + 1, and goes to the next place of the walk. -/
def rhoPi (a : List Word) : List Word :=
  let next (w : List Word × Nat × Nat) (t : Nat) : List Word × Nat × Nat :=
    let ny := (2 * w.2.1 + 3 * w.2.2) % 5
    (w.1.set (w.2.2 + 5 * ny) ((lane a w.2.1 w.2.2).rotateLeft ((t + 1) * (t + 2) / 2 % 64)), w.2.2, ny)
  ((List.range 24).foldl next (a, 1, 0)).1

/-- The step χ. -/
def chi (a : List Word) : List Word := mkLanes (fun x y => lane a x y ^^^ (~~~(lane a (x + 1) y) &&& lane a (x + 2) y))

/-- The shift register behind ι: x is multiplied in, modulo x^8 + x^6 + x^5 + x^4 + 1. -/
def iotaShift (r : Nat) : Nat := if r < 128 then 2 * r else (2 * r) ^^^ 0x171

/-- The constant of one round, and the register after it: the bits that the register puts out stand at 2^j - 1. -/
def iotaRound (r : Nat) : Word × Nat :=
  (List.range 7).foldl (fun p j => (if p.2 % 2 = 1 then p.1 ||| (1#64 <<< (2 ^ j - 1)) else p.1, iotaShift p.2)) (0, r)

/-- The constants of `n` rounds from a register on. -/
def iotaFrom : Nat → Nat → List Word
  | 0, _ => []
  | n + 1, r => (iotaRound r).1 :: iotaFrom n (iotaRound r).2

/-- One round with its constant. -/
def keccakRound (a : List Word) (rc : Word) : List Word :=
  let b := chi (rhoPi (theta a))
  b.set 0 (b.headD 0 ^^^ rc)

/-- The permutation of 1,600 bits. -/
def keccakF (a : List Word) : List Word := (iotaFrom 24 1).foldl keccakRound a

/-- The 64-bit number of 8 bytes, the lowest first. -/
def leWord (bs : List Byte) : Word := bs.foldr (fun b w => (w <<< 8) ||| b.setWidth 64) 0

/-- The lanes of a block of bytes. -/
def blockLanes (bs : List Byte) : List Word := (List.range 25).map (fun i => leWord ((bs.drop (8 * i)).take 8))

/-- Absorbs whole blocks of 136 bytes; `n` is their number. -/
def absorb : Nat → List Word → List Byte → List Word
  | 0, a, _ => a
  | n + 1, a, bs => absorb n (keccakF (List.zipWith (· ^^^ ·) a (blockLanes (bs.take 136)))) (bs.drop 136)

/-- A message with the domain bits and the padding of SHAKE256. -/
def shakePad (m : List Byte) : List Byte :=
  let k := 136 - m.length % 136
  m ++ (if k = 1 then [0x9F#8] else 0x1F#8 :: List.replicate (k - 2) 0#8 ++ [0x80#8])

/-- The first 32 bytes of SHAKE256. -/
def shake256 (m : List Byte) : List Byte :=
  let p := shakePad m
  let a := absorb (p.length / 136) (List.replicate 25 0) p
  (a.take 4).flatMap (fun (w : Word) => (List.range 8).map (fun i => w.extractLsb' (8 * i) 8))

/-- The first 32 bytes of SHAKE256 as a number, the first byte lowest. -/
def shakeNum (m : List Byte) : BitVec 256 := (shake256 m).foldr (fun b w => (w <<< 8) ||| b.setWidth 256) 0

end Sys2Proof.Machine
end

