-- ==== Sys2Proof/Machine/RootMem.lean ====
section
/-! DEFINITION. How a ringmaster and its specialiser reach stack memory: through the translation root of an interface
(20 R310, R318, R319, 21 R327). -/

namespace Sys2Proof.Machine

/-- What a read of the ringmaster gives: pieces of stack memory, or that it waits for a line, of its bytes or of a table, that a
command owns (01 Table 10), or a fault. -/
inductive RootRd where
  | ok (s : State) (g : Segs)
  | wait
  | fault

/-- The locations of pieces of stack memory through a root register, for an access. -/
def State.rootSegs (root : Word) (kind : Nat) : List (Nat × Nat) → State → RootRd
  | [], s => .ok s []
  | (va, n) :: rest, s =>
    match s.translateRoot root (BitVec.ofNat 64 va) kind with
    | .error t => if t = waitReq then .wait else .fault
    | .ok (s1, pa) =>
      match s1.rootSegs root kind rest with
      | .ok s2 g => .ok s2 ((pa, n) :: g)
      | r => r

/-- A read of `n` bytes. -/
def State.rootRead (s : State) (root : Word) (va n : Nat) : RootRd :=
  match s.rootSegs root kLoad (pieces va n) with
  | .ok s1 g => if g.any (fun p => s1.ownedAny p.1 p.2) then .wait else .ok s1 g
  | r => r

/-- A 32-bit little-endian word among bytes. -/
def word32 (bs : List Byte) (i : Nat) : BitVec 32 := BitVec.ofNat 32 (leNat ((bs.drop (4 * i)).take 4))

/-- The 32-bit words of bytes. -/
def words32 (bs : List Byte) : List (BitVec 32) := (List.range (bs.length / 4)).map (word32 bs)

/-- The 64-bit number whose low half is word `i` of a list (20 Table 192). -/
def wordPair (ws : List (BitVec 32)) (i : Nat) : Word := (ws.getD (i + 1) 0) ++ (ws.getD i 0)

/-- The granules of pieces that are granule-aligned, with their C bits. -/
def State.granulesOf (s : State) (g : Segs) : List GReg := g.flatMap (fun p => s.granulesAt p.1 true (p.2 / 16))

/-- A kernel record (03 Table 31). -/
structure KRec where
  unifSize : Nat
  kflags : Nat
  budget : Nat
  bankRole : Nat
  digest : List Byte
  chancfg : Word
  deriving DecidableEq, Repr

/-- The kernel record in 128 bytes. -/
def kRecOf (bs : List Byte) : KRec :=
  let at_ := fun o n => leNat ((bs.drop o).take n)
  { unifSize := at_ 8 4, kflags := at_ 14 2, budget := at_ 16 8, bankRole := at_ 24 2, digest := (bs.drop 32).take 32,
    chancfg := BitVec.ofNat 64 (at_ 64 8) }

end Sys2Proof.Machine
end

