-- ==== Sys2Proof/Machine/MemForms.lean ====
section
/-! DEFINITION. The scalar memory forms, the full/empty forms, the atomics and the bitmap forms (08 R174 to R182,
09 R203). -/

namespace Sys2Proof.Machine

/-- The address of a memory form (08 R174). -/
def State.memAddr (s : State) (o : Op) : Word := (s.g o.ra).word + BitVec.ofInt 64 o.off

/-- Permissions of a granule store: SC too when the value is tagged (08 R175, R181). -/
def withSc (p : Nat) (v : GReg) : Nat := if v.tag then p ||| pSC else p

/-- The checks of R174 in their order, and then the access at its location. -/
def access (s : State) (f : Form) (o : Op) (c : GReg) (va : Word) (n al perms : Nat) (types : List Nat) (kind : Nat)
    (k : State → Nat → Bool → Eff) : Eff :=
  checked s (checkCap c va n perms types) (fun _ =>
    checked s (s.locate s.curCore s.curCtx va n al kind) (fun r => k (r.1.scopeWarn f o va) r.2.1 r.2.2))

/-- A tagged value for another core's local store must hold K (08 R175, R181). -/
def needsK (remote : Bool) (v : GReg) (va : Word) (e : Eff) : Eff :=
  if remote && v.tag && (v.perms &&& pK == 0) then .trap ⟨tCAPP, va, BitVec.ofNat 64 pK⟩ else e

/-- A load whose bytes its context holds whole is served from the held lines; their granules' marks are not read (08 R167). -/
def State.heldValue (s : State) (a : Access) : Option RVal :=
  let all := a.touch.all (fun p => (List.range p.2).all (fun i => a.held.any (fun l =>
    decide (l.loc ≤ p.1 + i ∧ p.1 + i < l.loc + 64) && l.mask.getLsbD (p.1 + i - l.loc))))
  if a.op.reads && !a.touch.isEmpty && all then
    match perform { s with gran := [], owned := [] } a with
    | .done _ v => some v
    | _ => none
  else none

/-- Issues a load-like access: from the held lines, at home, or as a request (08 R167, R174). -/
def issueLoad (s : State) (a : Access) (d : Dest) (sets : BitVec 4) (remote : Bool) : Eff :=
  match s.heldValue a with
  | some v => .next (s.startOut d (.ready v 0) sets [])
  | none => if remote then issueRequest s a d sets else issueHome s a d sets true

/-- A form that returns its value to a register. -/
def loadForm (i : Instr) (o : Op) (s : State) (op : AccOp) (d : Dest) (n al perms : Nat) (types : List Nat) (kind : Nat)
    (sets : BitVec 4) : Host.Outcome State Fault Refusal :=
  wordF i o s (fun f s =>
    let va := s.memAddr o
    withRoom s d (access s f o (s.g o.ra) va n al perms types kind (fun s loc remote =>
      issueLoad s (s.mkAccess op loc va f o) d sets remote)))

/-- LD (R175). -/
def execLd (o : Op) (s : State) : Host.Outcome State Fault Refusal :=
  loadForm (.ld o) o s (.load o.bytes .plain false) (.g o.rd) o.bytes o.logBytes pL [0] kLoad setL

/-- LDC: through a reply slot it waits for F and frees the slot (R175, R198). -/
def execLdc (o : Op) (s : State) : Host.Outcome State Fault Refusal :=
  let c := s.g o.ra
  let slot := decide (c.otype = 3)
  loadForm (.ldc o) o s (.loadCap (c.perms &&& pLC != 0) slot) (.g o.rd) 16 4 (if slot then pL ||| pLC else pL) [0, 3]
    kLoad setL

/-- The object types of a full/empty load: a reply slot too, at offset 0 or 8 of its granule (04 R86, 08 R175). -/
def feTypes (va : Word) : List Nat := if va.toNat % 8 = 0 then [0, 3] else [0]

/-- LD_FE (R175, R176). -/
def execLdFe (o : Op) (s : State) : Host.Outcome State Fault Refusal :=
  loadForm (.ldFe o) o s (.load o.bytes .wait (decide ((s.g o.ra).otype = 3))) (.g o.rd) o.bytes o.logBytes (pL ||| pF)
    (feTypes (s.memAddr o)) kLoad setL

/-- LD_FEC (R175, R176). -/
def execLdFec (o : Op) (s : State) : Host.Outcome State Fault Refusal :=
  loadForm (.ldFec o) o s (.load o.bytes .waitClear (decide ((s.g o.ra).otype = 3))) (.g o.rd) o.bytes o.logBytes
    (pL ||| pF) (feTypes (s.memAddr o)) kLoad setL

/-- LDF: F in bit 0 and C in bit 1 (R178). -/
def execLdf (o : Op) (s : State) : Host.Outcome State Fault Refusal :=
  loadForm (.ldf o) o s .loadFlags (.g o.rd) 1 0 pF [0] kLoad setL

/-- WAITB (R203). -/
def execWaitb (o : Op) (s : State) : Host.Outcome State Fault Refusal :=
  loadForm (.waitb o) o s (.waitb (s.g o.rd).word) (.g o.rd) 8 3 pL [0] kLoad setL

/-- ST (R175): it may be held (R167), and is posted to another core's local store (R169). -/
def execSt (o : Op) (s : State) : Host.Outcome State Fault Refusal :=
  wordF (.st o) o s (fun f s =>
    let va := s.memAddr o
    let v := (s.g o.rd).word
    access s f o (s.g o.ra) va o.bytes o.logBytes pS [0] kStore (fun s loc remote =>
      issueStore s (s.mkAccess (.store o.bytes v false false) loc va f o) (toLE v.toNat o.bytes) remote
        (decide (f.order o = .plain ∨ f.order o = .rlx))))

/-- STC (R175). -/
def execStc (o : Op) (s : State) : Host.Outcome State Fault Refusal :=
  wordF (.stc o) o s (fun f s =>
    let va := s.memAddr o
    let v := s.g o.rd
    access s f o (s.g o.ra) va 16 4 (withSc pS v) [0] kStore (fun s loc remote =>
      copied v <| needsK remote v va
        (let a := s.mkAccess (.storeCap v) loc va f o
         if remote then issuePosted s a ((0xFFFF#64) <<< (loc % 64)) else issueHome s a .none setS false)))

/-- A store that sets F: a request to another core's local store (R169, R176). -/
def feStore (i : Instr) (o : Op) (s : State) (wait : Bool) : Host.Outcome State Fault Refusal :=
  wordF i o s (fun f s =>
    let va := s.memAddr o
    access s f o (s.g o.ra) va o.bytes o.logBytes (pS ||| pF) [0] kStore (fun s loc remote =>
      let a := s.mkAccess (.store o.bytes (s.g o.rd).word true wait) loc va f o
      if remote then issueRequest s a .none setS else issueHome s a .none setS wait))

/-- ST_FS (R175, R176). -/
def execStFs (o : Op) (s : State) : Host.Outcome State Fault Refusal := feStore (.stFs o) o s false

/-- ST_FW: waits until F = 0 (R175, R176). -/
def execStFw (o : Op) (s : State) : Host.Outcome State Fault Refusal := feStore (.stFw o) o s true

/-- ST_N4: the nibble that the signed offset counts (R177). -/
def execStN4 (o : Op) (s : State) : Host.Outcome State Fault Refusal :=
  wordF (.stN4 o) o s (fun f s =>
    let va := (s.g o.ra).word + BitVec.ofInt 64 (o.off / 2)
    access s f o (s.g o.ra) va 1 0 pS [0] kStore (fun s loc remote =>
      let a := s.mkAccess (.nibble (decide (o.off % 2 ≠ 0)) ((s.g o.rd).data.setWidth 4)) loc va f o
      if remote then issuePosted s a ((1#64) <<< (loc % 64)) else issueHome s a .none setS false))

/-- SETB (R203). -/
def execSetb (o : Op) (s : State) : Host.Outcome State Fault Refusal :=
  wordF (.setb o) o s (fun f s =>
    let va := s.memAddr o
    access s f o (s.g o.ra) va 8 3 pS [0] kStore (fun s loc remote =>
      let a := s.mkAccess (.setb (s.g o.rd).word) loc va f o
      if remote then issueRequest s a .none setS else issueHome s a .none setS false))

/-- The operand of an atomic: g[B] with PREG, else g[D] (R180). -/
def State.amoVal (s : State) (o : Op) : Word := (s.g (if o.hasPreg then o.rb else o.rd)).word

/-- An atomic form (R180). -/
def amoForm (i : Instr) (o : Op) (s : State) (f : AmoFn) (v : Word) : Host.Outcome State Fault Refusal :=
  loadForm i o s (.amo f o.bytes v (s.g o.rd).word) (.g o.rd) o.bytes o.logBytes pA [0] kAtomic (setL ||| setS)

/-- AMOADD (R180). -/
def execAmoadd (o : Op) (s : State) : Host.Outcome State Fault Refusal := amoForm (.amoadd o) o s .add (s.amoVal o)

/-- AMOSWP (R180). -/
def execAmoswp (o : Op) (s : State) : Host.Outcome State Fault Refusal := amoForm (.amoswp o) o s .swp (s.amoVal o)

/-- AMOAND (R180). -/
def execAmoand (o : Op) (s : State) : Host.Outcome State Fault Refusal := amoForm (.amoand o) o s .and (s.amoVal o)

/-- AMOOR (R180). -/
def execAmoor (o : Op) (s : State) : Host.Outcome State Fault Refusal := amoForm (.amoor o) o s .or (s.amoVal o)

/-- AMOMIN (R180). -/
def execAmomin (o : Op) (s : State) : Host.Outcome State Fault Refusal := amoForm (.amomin o) o s .smin (s.amoVal o)

/-- AMOMAX (R180). -/
def execAmomax (o : Op) (s : State) : Host.Outcome State Fault Refusal := amoForm (.amomax o) o s .smax (s.amoVal o)

/-- CAS: without PREG the new value is 0 (R180). -/
def execCas (o : Op) (s : State) : Host.Outcome State Fault Refusal := amoForm (.cas o) o s .cas (s.g o.rb).word

/-- CASP (R181). -/
def execCasp (o : Op) (s : State) : Host.Outcome State Fault Refusal :=
  wordF (.casp o) o s (fun f s =>
    let va := s.memAddr o
    let new := s.g o.rb
    let c := s.g o.ra
    withRoom s (.g o.rd) (access s f o c va 16 4 (withSc pA new) [0] kAtomic (fun s loc remote =>
      needsK remote new va
        (issueLoad s (s.mkAccess (.casp (s.g o.rd) new (c.perms &&& pLC != 0)) loc va f o) (.g o.rd) (setL ||| setS)
          remote))))

end Sys2Proof.Machine
end

