-- ==== Sys2Proof/Machine/Scalar.lean ====
section
/-! DEFINITION. The integer forms of pages 0 and 1 (06 R116 to R125). -/

namespace Sys2Proof.Machine

/-- A register's low bits at the instruction's width, unsigned (06 R116). -/
def State.opnd (s : State) (o : Op) (r : Nat) : Nat := (s.g r).addr % 2 ^ o.width

/-- put(D, x) at the instruction's width; the natural number is taken mod 2^n (06 R117). -/
def State.putW (s : State) (o : Op) (x : Nat) : State := s.putNat o.rd (x % 2 ^ o.width)

/-- put(D, x) of an integer, mod 2^n. -/
def State.putI (s : State) (o : Op) (x : Int) : State := s.putW o (x % (2 ^ o.width : Nat)).toNat

/-- A two-source integer form: `f` of the width and the two unsigned operands (06 R116, R117). -/
def binOp (f : Nat → Nat → Nat → Nat) (o : Op) (s : State) : Eff :=
  .next (s.putW o (f o.width (s.opnd o o.s1) (s.opnd o o.s2)))

/-- A one-source integer form. -/
def unOp (f : Nat → Nat → Nat) (o : Op) (s : State) : Eff := .next (s.putW o (f o.width (s.opnd o o.ra)))

/-- A result of n bits from an integer. -/
def wrap (n : Nat) (x : Int) : Nat := (x % (2 ^ n : Nat)).toNat

/-- An outstanding two-source integer form (06 R118, R122). -/
def slowOp (f : Nat → Nat → Nat → Nat) (o : Op) (s : State) : Eff :=
  later s (.g o.rd) (.g (GReg.ofWord (BitVec.ofNat 64 (f o.width (s.opnd o o.s1) (s.opnd o o.s2) % 2 ^ o.width)))) 0

/-- Division (06 Table 59). -/
def divS (n a b : Nat) : Nat := if b = 0 then 2 ^ n - 1 else wrap n ((sextNat n a).tdiv (sextNat n b))
def divU (n a b : Nat) : Nat := if b = 0 then 2 ^ n - 1 else a / b
def remS (n a b : Nat) : Nat := if b = 0 then a else wrap n ((sextNat n a).tmod (sextNat n b))
def remU (_ a b : Nat) : Nat := if b = 0 then a else a % b

/-- The two's complement of the low n bits. -/
def lowNot (n x : Nat) : Nat := 2 ^ n - 1 - x % 2 ^ n

/-- Rotation to the left (06 Table 57). -/
def rolN (n a b : Nat) : Nat := a * 2 ^ (b % n) ||| a / 2 ^ (n - b % n)

/-- The number of leading zero bits of n bits (06 Table 60). -/
def clzN (n a : Nat) : Nat := n - bitLen a

/-- The number of trailing zero bits among the first n bits from `i` on. -/
def ctzFrom (a : Nat) : Nat → Nat → Nat
  | 0, i => i
  | n + 1, i => if a.testBit i then i else ctzFrom a n (i + 1)

/-- The number of trailing zero bits of n bits; n of zero (06 Table 60). -/
def ctzN (n a : Nat) : Nat := ctzFrom a n 0

/-- The number of one bits among n bits (06 Table 60). -/
def popcN : Nat → Nat → Nat
  | 0, _ => 0
  | n + 1, a => a % 2 + popcN n (a / 2)

/-- n bits in reverse order (06 Table 60). -/
def revN : Nat → Nat → Nat
  | 0, _ => 0
  | n + 1, a => a % 2 * 2 ^ n + revN n (a / 2)

/-- 1 when a condition holds. -/
def one (b : Bool) : Nat := b.toNat

/-- ADD (R120). -/
def execAdd (o : Op) (s : State) : Host.Outcome State Fault Refusal := word (.add o) o s (binOp (fun _ a b => a + b) o)

/-- SUB (R120). -/
def execSub (o : Op) (s : State) : Host.Outcome State Fault Refusal := word (.sub o) o s (binOp (fun n a b => a + 2 ^ n - b) o)

/-- AND (R120). -/
def execAnd (o : Op) (s : State) : Host.Outcome State Fault Refusal := word (.and o) o s (binOp (fun _ a b => a &&& b) o)

/-- OR (R120). -/
def execOr (o : Op) (s : State) : Host.Outcome State Fault Refusal := word (.or o) o s (binOp (fun _ a b => a ||| b) o)

/-- XOR (R120). -/
def execXor (o : Op) (s : State) : Host.Outcome State Fault Refusal := word (.xor o) o s (binOp (fun _ a b => a ^^^ b) o)

/-- ANDN (R120). -/
def execAndn (o : Op) (s : State) : Host.Outcome State Fault Refusal := word (.andn o) o s (binOp (fun n a b => a &&& lowNot n b) o)

/-- SHL (R120). -/
def execShl (o : Op) (s : State) : Host.Outcome State Fault Refusal := word (.shl o) o s (binOp (fun n a b => a * 2 ^ (b % n)) o)

/-- SHR (R120). -/
def execShr (o : Op) (s : State) : Host.Outcome State Fault Refusal := word (.shr o) o s (binOp (fun n a b => a / 2 ^ (b % n)) o)

/-- SAR (R120). -/
def execSar (o : Op) (s : State) : Host.Outcome State Fault Refusal := word (.sar o) o s (binOp (fun n a b => wrap n ((sextNat n a) / (2 ^ (b % n) : Nat))) o)

/-- ROL (R120). -/
def execRol (o : Op) (s : State) : Host.Outcome State Fault Refusal := word (.rol o) o s (binOp (rolN) o)

/-- SLT (R120). -/
def execSlt (o : Op) (s : State) : Host.Outcome State Fault Refusal := word (.slt o) o s (binOp (fun n a b => one (decide ((sextNat n a) < (sextNat n b)))) o)

/-- SLTU (R120). -/
def execSltu (o : Op) (s : State) : Host.Outcome State Fault Refusal := word (.sltu o) o s (binOp (fun _ a b => one (decide (a < b))) o)

/-- SEQ (R120). -/
def execSeq (o : Op) (s : State) : Host.Outcome State Fault Refusal := word (.seq o) o s (binOp (fun _ a b => one (decide (a = b))) o)

/-- SNE (R120). -/
def execSne (o : Op) (s : State) : Host.Outcome State Fault Refusal := word (.sne o) o s (binOp (fun _ a b => one (decide (a ≠ b))) o)

/-- MUL (R120). -/
def execMul (o : Op) (s : State) : Host.Outcome State Fault Refusal := word (.mul o) o s (binOp (fun _ a b => a * b) o)

/-- MULH (R120). -/
def execMulh (o : Op) (s : State) : Host.Outcome State Fault Refusal := word (.mulh o) o s (binOp (fun n a b => wrap n ((sextNat n a) * (sextNat n b) / (2 ^ n : Nat))) o)

/-- MIN (R123). -/
def execMin (o : Op) (s : State) : Host.Outcome State Fault Refusal := word (.min o) o s (binOp (fun n a b => if (sextNat n a) ≤ (sextNat n b) then a else b) o)

/-- MAX (R123). -/
def execMax (o : Op) (s : State) : Host.Outcome State Fault Refusal := word (.max o) o s (binOp (fun n a b => if (sextNat n b) ≤ (sextNat n a) then a else b) o)

/-- MINU (R123). -/
def execMinu (o : Op) (s : State) : Host.Outcome State Fault Refusal := word (.minu o) o s (binOp (fun _ a b => min a b) o)

/-- MAXU (R123). -/
def execMaxu (o : Op) (s : State) : Host.Outcome State Fault Refusal := word (.maxu o) o s (binOp (fun _ a b => max a b) o)

/-- DIV, outstanding (R122). -/
def execDiv (o : Op) (s : State) : Host.Outcome State Fault Refusal := word (.div o) o s (slowOp divS o)

/-- DIVU, outstanding (R122). -/
def execDivu (o : Op) (s : State) : Host.Outcome State Fault Refusal := word (.divu o) o s (slowOp divU o)

/-- REM, outstanding (R122). -/
def execRem (o : Op) (s : State) : Host.Outcome State Fault Refusal := word (.rem o) o s (slowOp remS o)

/-- REMU, outstanding (R122). -/
def execRemu (o : Op) (s : State) : Host.Outcome State Fault Refusal := word (.remu o) o s (slowOp remU o)

/-- NEG (R120). -/
def execNeg (o : Op) (s : State) : Host.Outcome State Fault Refusal := word (.neg o) o s (unOp (fun n a => 2 ^ n - a) o)

/-- CLZ (R123). -/
def execClz (o : Op) (s : State) : Host.Outcome State Fault Refusal := word (.clz o) o s (unOp (clzN) o)

/-- CTZ (R123). -/
def execCtz (o : Op) (s : State) : Host.Outcome State Fault Refusal := word (.ctz o) o s (unOp (ctzN) o)

/-- POPC (R123). -/
def execPopc (o : Op) (s : State) : Host.Outcome State Fault Refusal := word (.popc o) o s (unOp (popcN) o)

/-- REV (R123). -/
def execRev (o : Op) (s : State) : Host.Outcome State Fault Refusal := word (.rev o) o s (unOp (revN) o)

/-- MOV: all 129 bits at W = 00, else put(D, a) (R120). -/
def execMov (o : Op) (s : State) : Host.Outcome State Fault Refusal :=
  word (.mov o) o s (fun s =>
    if o.w = 0 then copied (s.g o.ra) (.next (s.setG o.rd (s.g o.ra))) else .next (s.putW o (s.opnd o o.ra)))

/-- SX: sign extension to 64 bits (R123). -/
def execSx (o : Op) (s : State) : Host.Outcome State Fault Refusal :=
  word (.sx o) o s (fun s => .next (s.putNat o.rd (wrap 64 (sextNat o.width (s.opnd o o.ra)))))

/-- ZX: zero extension (R123). -/
def execZx (o : Op) (s : State) : Host.Outcome State Fault Refusal :=
  word (.zx o) o s (fun s => .next (s.putNat o.rd (s.opnd o o.ra)))

/-- LDI (R121). -/
def execLdi (o : Op) (s : State) : Host.Outcome State Fault Refusal :=
  word (.ldi o) o s (fun s => .next (s.putNat o.rd (wrap 64 o.fiImm)))

/-- ADDI (R121). -/
def execAddi (o : Op) (s : State) : Host.Outcome State Fault Refusal :=
  word (.addi o) o s (fun s => .next (s.putI o ((s.opnd o o.rd : Int) + o.fiImm)))

/-- SLTI (R121). -/
def execSlti (o : Op) (s : State) : Host.Outcome State Fault Refusal :=
  word (.slti o) o s (fun s => .next (s.putW o (one (decide (sextNat o.width (s.opnd o o.rd) < o.fiImm)))))

/-- ANDI (R121). -/
def execAndi (o : Op) (s : State) : Host.Outcome State Fault Refusal :=
  word (.andi o) o s (fun s => .next (s.putW o (s.opnd o o.rd &&& wrap 64 o.fiImm)))

/-- LDHI: the high half of the low 64 bits (R121). -/
def execLdhi (o : Op) (s : State) : Host.Outcome State Fault Refusal :=
  word (.ldhi o) o s (fun s => .next (s.putNat o.rd ((s.g o.rd).addr % 2 ^ 32 + wrap 32 o.fiImm * 2 ^ 32)))

/-- The position and length of a bit field (06 R124). -/
def fieldPos (o : Op) : Nat := o.k2 % 64
def fieldLen (o : Op) : Nat := o.k2 / 64 % 64 + 1

/-- BFX (R124). -/
def execBfx (o : Op) (s : State) : Host.Outcome State Fault Refusal :=
  word (.bfx o) o s (fun s => .next (s.putNat o.rd ((s.g o.ra).addr / 2 ^ fieldPos o % 2 ^ fieldLen o)))

/-- BFI (R124). -/
def execBfi (o : Op) (s : State) : Host.Outcome State Fault Refusal :=
  word (.bfi o) o s (fun s =>
    let m : Word := (BitVec.ofNat 64 (2 ^ fieldLen o - 1)) <<< fieldPos o
    .next (s.put o.rd (((s.g o.rd).word &&& ~~~m) ||| (((s.g o.ra).word <<< fieldPos o) &&& m))))

/-- CSEL: copies all 129 bits when g[B] is not zero (R125). -/
def execCsel (o : Op) (s : State) : Host.Outcome State Fault Refusal :=
  word (.csel o) o s (fun s =>
    if (s.g o.rb).word ≠ 0 then copied (s.g o.ra) (.next (s.setG o.rd (s.g o.ra))) else .next s)

/-- CSELZ: copies all 129 bits when g[B] is zero (R125). -/
def execCselz (o : Op) (s : State) : Host.Outcome State Fault Refusal :=
  word (.cselz o) o s (fun s =>
    if (s.g o.rb).word = 0 then copied (s.g o.ra) (.next (s.setG o.rd (s.g o.ra))) else .next s)

end Sys2Proof.Machine
end

