-- ==== Sys2Proof/Machine/Vector.lean ====
section
/-! DEFINITION. The integer lanes, predicates and reductions of page 2 (07 R140 to R150). -/

namespace Sys2Proof.Machine

/-- Which elements of `e` bits are active (07 R141). -/
def State.active (s : State) (o : Op) (e : Nat) : Nat → Bool := fun i => pbit o.pr (s.p o.pr) i e

/-- An element in the order of its type. -/
def lift (sg : Bool) (e x : Nat) : Int := if sg then sextNat e x else (x : Int)

/-- The range of an integer element type (05 R94). -/
def typeLo (sg : Bool) (e : Nat) : Int := intRange sg e false
where
  /-- The lower or upper end. -/
  intRange (sg : Bool) (e : Nat) (hi : Bool) : Int :=
    if hi then (if sg then (2 ^ (e - 1) : Nat) - 1 else (2 ^ e : Nat) - 1) else (if sg then -(2 ^ (e - 1) : Nat) else 0)

/-- The upper end of the range. -/
def typeHi (sg : Bool) (e : Nat) : Int := typeLo.intRange sg e true

/-- An integer clamped to the range of its type, as e bits. -/
def clampTo (sg : Bool) (e : Nat) (x : Int) : Nat := wrap e (max (typeLo sg e) (min (typeHi sg e) x))

/-- Writes the lanes of an integer result to v[D] (07 R142). -/
def State.putLanes (s : State) (o : Op) (e : Nat) (f : Nat → Nat) : State :=
  s.setV o.rd (laneWrite (s.v o.rd) e o.shapeBits o.z (s.active o e) (fun i => (f i, 0))).1

/-- Element i of a vector register. -/
def State.elem (s : State) (r e i : Nat) : Nat := vget (s.v r) (i * e) e

/-- A two-source lane form: `f` of the width, the signedness and the two elements. -/
def vbin (f : Nat → Bool → Nat → Nat → Nat) (o : Op) (s : State) : Eff :=
  let e := o.elemBits
  .next (s.putLanes o e (fun i => f e o.signed (s.elem o.s1 e i) (s.elem o.s2 e i)))

/-- A one-source lane form. -/
def vun (f : Nat → Bool → Nat → Nat) (o : Op) (s : State) : Eff :=
  let e := o.elemBits
  .next (s.putLanes o e (fun i => f e o.signed (s.elem o.ra e i)))

/-- A three-source lane form: `f` of the width, the signedness, d, a and b. -/
def vtri (f : Nat → Bool → Nat → Nat → Nat → Nat) (o : Op) (s : State) : Eff :=
  let e := o.elemBits
  .next (s.putLanes o e (fun i => f e o.signed (s.elem o.rd e i) (s.elem o.ra e i) (s.elem o.rb e i)))

/-- A compare: it writes p[D] (07 R145). -/
def vcmp (f : Nat → Bool → Nat → Nat → Bool) (o : Op) (s : State) : Eff :=
  let e := o.elemBits
  .next (s.setP o.pd (predWrite e o.shapeBits (s.active o e)
    (fun i => f e o.signed (s.elem o.s1 e i) (s.elem o.s2 e i))))

/-- The sum of the four products of `vdot4` (07 R144). -/
def dot4 (e : Nat) (sg : Bool) (a b : Nat) : Int :=
  let h := e / 4
  ((List.range 4).map (fun j => lift sg h (a / 2 ^ (j * h) % 2 ^ h) * lift sg h (b / 2 ^ (j * h) % 2 ^ h))).sum

/-- A reduction to g[D]: `idn` is the identity and `f` the operation on e-bit elements (07 R148, 05 R113). -/
def vreduce (idn : Nat → Bool → Nat) (f : Nat → Bool → Nat → Nat → Nat) (o : Op) (s : State) : Eff :=
  let e := o.elemBits
  let act := s.active o e
  let xs := (List.range (o.shapeBits / e)).map (fun i => if act i then s.elem o.ra e i else idn e o.signed)
  let x := (reduceTree (fun a b => (f e o.signed a b, 0)) 12 xs).1
  .next (s.putNat o.rd (wrap 64 (lift o.signed e x)))

/-- A predicate form on all 256 bits (07 R146). -/
def pbin (f : PredReg → PredReg → PredReg) (o : Op) (s : State) : Eff :=
  let (a, b) := if o.hasPreg then (o.pa, o.pb) else (o.pd, o.pa)
  .next (s.setP o.pd (f (s.p a) (s.p b)))

/-- The elements of p[A] that are set and active. -/
def State.hits (s : State) (o : Op) : List Nat :=
  let e := o.elemBits
  (List.range (o.shapeBits / e)).filter (fun i => pbit o.pa (s.p o.pa) i e && s.active o e i)

/-- Where a conversion's narrow elements lie: the part number of the low log2(r) bits of its field (07 R150). -/
def partNo (field ew en : Nat) : Nat := field % (ew / en)

/-- Writes a narrow destination: only its part changes (07 R150). -/
def narrowWrite (old : VReg) (ew en bits q : Nat) (z : Bool) (act : Nat → Bool) (f : LaneFn) : VReg × Flags :=
  let n := bits / ew
  (List.range n).foldl (fun (v, fl) i =>
    let lane := (q * n + i) * en
    if act i then (let (x, g) := f i; (vput v lane en x, fl ||| g))
    else (if z then vput v lane en 0 else v, fl)) (old, 0)

/-- VADD (R144). -/
def execVadd (o : Op) (s : State) : Host.Outcome State Fault Refusal := word (.vadd o) o s (vbin (fun _ _ a b => a + b) o)

/-- VSUB (R144). -/
def execVsub (o : Op) (s : State) : Host.Outcome State Fault Refusal := word (.vsub o) o s (vbin (fun e _ a b => a + 2 ^ e - b) o)

/-- VADDSAT (R144). -/
def execVaddsat (o : Op) (s : State) : Host.Outcome State Fault Refusal := word (.vaddsat o) o s (vbin (fun e sg a b => clampTo sg e ((lift sg e a) + (lift sg e b))) o)

/-- VSUBSAT (R144). -/
def execVsubsat (o : Op) (s : State) : Host.Outcome State Fault Refusal := word (.vsubsat o) o s (vbin (fun e sg a b => clampTo sg e ((lift sg e a) - (lift sg e b))) o)

/-- VMUL (R144). -/
def execVmul (o : Op) (s : State) : Host.Outcome State Fault Refusal := word (.vmul o) o s (vbin (fun _ _ a b => a * b) o)

/-- VMULH (R144). -/
def execVmulh (o : Op) (s : State) : Host.Outcome State Fault Refusal := word (.vmulh o) o s (vbin (fun e sg a b => wrap e ((lift sg e a) * (lift sg e b) / (2 ^ e : Nat))) o)

/-- VMIN (R144). -/
def execVmin (o : Op) (s : State) : Host.Outcome State Fault Refusal := word (.vmin o) o s (vbin (fun e sg a b => if (lift sg e a) ≤ (lift sg e b) then a else b) o)

/-- VMAX (R144). -/
def execVmax (o : Op) (s : State) : Host.Outcome State Fault Refusal := word (.vmax o) o s (vbin (fun e sg a b => if (lift sg e b) ≤ (lift sg e a) then a else b) o)

/-- VAND (R144). -/
def execVand (o : Op) (s : State) : Host.Outcome State Fault Refusal := word (.vand o) o s (vbin (fun _ _ a b => a &&& b) o)

/-- VOR (R144). -/
def execVor (o : Op) (s : State) : Host.Outcome State Fault Refusal := word (.vor o) o s (vbin (fun _ _ a b => a ||| b) o)

/-- VXOR (R144). -/
def execVxor (o : Op) (s : State) : Host.Outcome State Fault Refusal := word (.vxor o) o s (vbin (fun _ _ a b => a ^^^ b) o)

/-- VANDN (R144). -/
def execVandn (o : Op) (s : State) : Host.Outcome State Fault Refusal := word (.vandn o) o s (vbin (fun e _ a b => a &&& lowNot e b) o)

/-- VSHL (R144). -/
def execVshl (o : Op) (s : State) : Host.Outcome State Fault Refusal := word (.vshl o) o s (vbin (fun e _ a b => a * 2 ^ (b % e)) o)

/-- VSHR (R144). -/
def execVshr (o : Op) (s : State) : Host.Outcome State Fault Refusal := word (.vshr o) o s (vbin (fun e sg a b => wrap e ((lift sg e a) / (2 ^ (b % e) : Nat))) o)

/-- VABS (R144). -/
def execVabs (o : Op) (s : State) : Host.Outcome State Fault Refusal := word (.vabs o) o s (vun (fun e sg a => if sg ∧ sextNat e a < 0 then 2 ^ e - a else a) o)

/-- VNEG (R144). -/
def execVneg (o : Op) (s : State) : Host.Outcome State Fault Refusal := word (.vneg o) o s (vun (fun e _ a => 2 ^ e - a) o)

/-- VPOPC (R144). -/
def execVpopc (o : Op) (s : State) : Host.Outcome State Fault Refusal := word (.vpopc o) o s (vun (fun e _ a => popcN e a) o)

/-- VCLZ (R144). -/
def execVclz (o : Op) (s : State) : Host.Outcome State Fault Refusal := word (.vclz o) o s (vun (fun e _ a => clzN e a) o)

/-- VMAC (R144). -/
def execVmac (o : Op) (s : State) : Host.Outcome State Fault Refusal := word (.vmac o) o s (vtri (fun _ _ d a b => d + a * b) o)

/-- VDOT4 (R144). -/
def execVdot4 (o : Op) (s : State) : Host.Outcome State Fault Refusal := word (.vdot4 o) o s (vtri (fun e sg d a b => wrap e ((d : Int) + dot4 e sg a b)) o)

/-- VCEQ (R145). -/
def execVceq (o : Op) (s : State) : Host.Outcome State Fault Refusal := word (.vceq o) o s (vcmp (fun _ _ a b => decide (a = b)) o)

/-- VCNE (R145). -/
def execVcne (o : Op) (s : State) : Host.Outcome State Fault Refusal := word (.vcne o) o s (vcmp (fun _ _ a b => decide (a ≠ b)) o)

/-- VCLT (R145). -/
def execVclt (o : Op) (s : State) : Host.Outcome State Fault Refusal := word (.vclt o) o s (vcmp (fun e sg a b => decide ((lift sg e a) < (lift sg e b))) o)

/-- VCLE (R145). -/
def execVcle (o : Op) (s : State) : Host.Outcome State Fault Refusal := word (.vcle o) o s (vcmp (fun e sg a b => decide ((lift sg e a) ≤ (lift sg e b))) o)

/-- PAND (R146). -/
def execPand (o : Op) (s : State) : Host.Outcome State Fault Refusal := word (.pand o) o s (pbin (fun a b => a &&& b) o)

/-- POR (R146). -/
def execPor (o : Op) (s : State) : Host.Outcome State Fault Refusal := word (.por o) o s (pbin (fun a b => a ||| b) o)

/-- PXOR (R146). -/
def execPxor (o : Op) (s : State) : Host.Outcome State Fault Refusal := word (.pxor o) o s (pbin (fun a b => a ^^^ b) o)

/-- PNOT (R146). -/
def execPnot (o : Op) (s : State) : Host.Outcome State Fault Refusal :=
  word (.pnot o) o s (fun s => .next (s.setP o.pd (~~~(s.p o.pa))))

/-- VSEL: a where active, b where not; the bits above the shape follow Z (R145). -/
def execVsel (o : Op) (s : State) : Host.Outcome State Fault Refusal :=
  word (.vsel o) o s (fun s =>
    let e := o.elemBits
    .next (s.setV o.rd (laneWrite (s.v o.rd) e o.shapeBits o.z (fun _ => true)
      (fun i => (if s.active o e i then s.elem o.ra e i else s.elem o.rb e i, 0))).1))

/-- VMOV (R145). -/
def execVmov (o : Op) (s : State) : Host.Outcome State Fault Refusal := word (.vmov o) o s (vun (fun _ _ a => a) o)

/-- VBCAST (R145). -/
def execVbcast (o : Op) (s : State) : Host.Outcome State Fault Refusal :=
  word (.vbcast o) o s (fun s => .next (s.putLanes o o.elemBits (fun _ => (s.g o.ra).addr)))

/-- VIDX (R145). -/
def execVidx (o : Op) (s : State) : Host.Outcome State Fault Refusal :=
  word (.vidx o) o s (fun s => .next (s.putLanes o o.elemBits (fun i => (s.g o.ra).addr + i)))

/-- PCNT (R146). -/
def execPcnt (o : Op) (s : State) : Host.Outcome State Fault Refusal :=
  word (.pcnt o) o s (fun s => .next (s.putNat o.rd (s.hits o).length))

/-- PFIRST: n when there is none (R146). -/
def execPfirst (o : Op) (s : State) : Host.Outcome State Fault Refusal :=
  word (.pfirst o) o s (fun s => .next (s.putNat o.rd ((s.hits o).headD (o.shapeBits / o.elemBits))))

/-- VEXT: an index at or above the element count writes 0 (R147). -/
def execVext (o : Op) (s : State) : Host.Outcome State Fault Refusal :=
  word (.vext o) o s (fun s =>
    let e := o.elemBits
    let i := o.k1 % 256
    .next (s.putNat o.rd (if i < 2048 / e then wrap 64 (lift o.signed e (s.elem o.ra e i)) else 0)))

/-- VINS: only the named element changes (R147). -/
def execVins (o : Op) (s : State) : Host.Outcome State Fault Refusal :=
  word (.vins o) o s (fun s =>
    let e := o.elemBits
    let i := o.k1 % 256
    .next (if i < 2048 / e then s.setV o.rd (vput (s.v o.rd) (i * e) e (s.g o.ra).addr) else s))

/-- VRSUM (R148). -/
def execVrsum (o : Op) (s : State) : Host.Outcome State Fault Refusal :=
  word (.vrsum o) o s (vreduce (fun _ _ => 0) (fun e _ a b => (a + b) % 2 ^ e) o)

/-- VRMAX (R148). -/
def execVrmax (o : Op) (s : State) : Host.Outcome State Fault Refusal :=
  word (.vrmax o) o s (vreduce (fun e sg => wrap e (typeLo sg e))
    (fun e sg a b => if lift sg e b ≤ lift sg e a then a else b) o)

/-- VRMIN (R148). -/
def execVrmin (o : Op) (s : State) : Host.Outcome State Fault Refusal :=
  word (.vrmin o) o s (vreduce (fun e sg => wrap e (typeHi sg e))
    (fun e sg a b => if lift sg e a ≤ lift sg e b then a else b) o)

/-- VRAND (R148). -/
def execVrand (o : Op) (s : State) : Host.Outcome State Fault Refusal :=
  word (.vrand o) o s (vreduce (fun e _ => 2 ^ e - 1) (fun _ _ a b => a &&& b) o)

/-- VCVTW: widens, the source of e/2 bits (R149, R150). -/
def execVcvtw (o : Op) (s : State) : Host.Outcome State Fault Refusal :=
  word (.vcvtw o) o s (fun s =>
    let e := o.elemBits
    let h := e / 2
    let n := o.shapeBits / e
    let q := partNo (o.k1 % 2) e h
    .next (s.putLanes o e (fun i => wrap e (lift o.signed h (s.elem o.ra h (q * n + i))))))

/-- VCVTN: narrows with clamping; to 64 bits it copies (R149, R150). At equal widths the destination counts as the narrow side, as at
every other width of this form. DESIGN CHOICE (log 90). -/
def execVcvtn (o : Op) (s : State) : Host.Outcome State Fault Refusal :=
  word (.vcvtn o) o s (fun s =>
    let e := o.elemBits
    let ew := if e = 64 then 64 else 2 * e
    let q := partNo (o.k1 % 2) ew e
    .next (s.setV o.rd (narrowWrite (s.v o.rd) ew e o.shapeBits q o.z (s.active o ew)
      (fun i => (clampTo o.signed e (lift o.signed ew (s.elem o.ra ew i)), 0))).1))

end Sys2Proof.Machine
end

