-- ==== Sys2Proof/Machine/Permute.lean ====
section
/-! DEFINITION. The permutes and table lookups of page 4 (07 R155). -/

namespace Sys2Proof.Machine

/-- A permute: element `i` of the result from the element width `e`, the element count `n` and `i` (07 Table 77). -/
def permute (f : State → Nat → Nat → Nat → Nat) (o : Op) (s : State) : Eff :=
  let e := width4 o.et
  .next (s.putLanes o e (fun i => f s e (o.shapeBits / e) i))

/-- The active elements of a page 4 form, in ascending order. -/
def State.actives (s : State) (o : Op) : List Nat :=
  (List.range (o.shapeBits / width4 o.et)).filter (s.active o (width4 o.et))

/-- The shift count of `vsld` and `vsrd` (07 R155). -/
def shiftCount (o : Op) : Nat := o.k2 % 1024

/-- VPERM (R155). -/
def execVperm (o : Op) (s : State) : Host.Outcome State Fault Refusal :=
  word (.vperm o) o s (permute (fun s e n i => s.elem o.s1 e (s.elem o.s2 e i % n)) o)

/-- VPERM2 (R155). -/
def execVperm2 (o : Op) (s : State) : Host.Outcome State Fault Refusal :=
  word (.vperm2 o) o s (permute (fun s e n i =>
    let j := s.elem o.rb e i % (2 * n)
    if j < n then s.elem o.rd e j else s.elem o.ra e (j - n)) o)

/-- VSLD (R155). -/
def execVsld (o : Op) (s : State) : Host.Outcome State Fault Refusal :=
  word (.vsld o) o s (permute (fun s e n i =>
    let j := i + shiftCount o
    if j < n then s.elem o.s1 e j else if j < 2 * n then s.elem o.s2 e (j - n) else 0) o)

/-- VSRD (R155). -/
def execVsrd (o : Op) (s : State) : Host.Outcome State Fault Refusal :=
  word (.vsrd o) o s (permute (fun s e n i =>
    let c := shiftCount o
    if n + i < c then 0
    else
      let j := n + i - c
      if j < n then s.elem o.s2 e j else s.elem o.s1 e (j - n)) o)

/-- VZIP (R155). -/
def execVzip (o : Op) (s : State) : Host.Outcome State Fault Refusal :=
  word (.vzip o) o s (permute (fun s e n i =>
    let h := o.k1 % 2 * (n / 2)
    s.elem (if i % 2 = 0 then o.s1 else o.s2) e (h + i / 2)) o)

/-- VUNZIP (R155). -/
def execVunzip (o : Op) (s : State) : Host.Outcome State Fault Refusal :=
  word (.vunzip o) o s (permute (fun s e n i =>
    if i < n / 2 then s.elem o.s1 e (2 * i + o.k1 % 2) else s.elem o.s2 e (2 * (i - n / 2) + o.k1 % 2)) o)

/-- VCOMP: the active elements packed; those above follow Z (R155). -/
def execVcomp (o : Op) (s : State) : Host.Outcome State Fault Refusal :=
  word (.vcomp o) o s (fun s =>
    let e := width4 o.et
    let act := s.actives o
    .next (s.setV o.rd (laneWrite (s.v o.rd) e o.shapeBits o.z (fun i => decide (i < act.length))
      (fun i => (s.elem o.ra e (act.getD i 0), 0))).1))

/-- VEXP: the active elements take elements 0, 1, 2, … (R155). -/
def execVexp (o : Op) (s : State) : Host.Outcome State Fault Refusal :=
  word (.vexp o) o s (permute (fun s e _ i => s.elem o.ra e ((s.actives o).idxOf i)) o)

/-- VLUT (R155). -/
def execVlut (o : Op) (s : State) : Host.Outcome State Fault Refusal :=
  word (.vlut o) o s (permute (fun s e _ i => s.elem o.s2 e (s.elem o.s1 4 i)) o)

/-- VLUTB: bytes whatever ET says (R155). -/
def execVlutb (o : Op) (s : State) : Host.Outcome State Fault Refusal :=
  word (.vlutb o) o s (fun s =>
    .next (s.putLanes o 8 (fun i => s.elem o.s2 8 (s.elem o.s1 8 i))))

end Sys2Proof.Machine
end

