-- ==== Sys2Proof/Machine/VecMem.lean ====
section
/-! DEFINITION. The vector memory forms of page 4 (08 R179). -/

namespace Sys2Proof.Machine

/-- The element width of a vector memory form; ET 110 on the strided and indexed forms is taken as 8 bits (08 R179). -/
def vmBits (o : Op) (contiguous : Bool) : Nat := if !contiguous && decide (o.et = 6) then 8 else width4 o.et

/-- log2 of an element's alignment: max(1, e/8) bytes (08 Table 88). -/
def vmAlign (e : Nat) : Nat := (max 1 (e / 8)).log2

/-- The active elements of a form with their addresses, the lowest first. -/
def State.vmElems (s : State) (o : Op) (e : Nat) (addr : Nat → Int) : List (Nat × Int) :=
  ((List.range (o.shapeBits / e)).filter (s.active o e)).map (fun i => (i, addr i))

/-- Checks one element, whole, and then finds its location; an address outside the 64 bits fails the bounds (08 R174,
R179). -/
def State.vmCheck (s : State) (c : GReg) (e perms kind : Nat) (baseBad : Option Word) (x : Int) :
    Except TrapReq (State × Nat × Bool) :=
  let va := BitVec.ofInt 64 x
  match check c va (max 1 (e / 8)) perms with
  | .error t => .error t
  | .ok () =>
    if x < 0 ∨ 2 ^ 64 ≤ x then .error ⟨tCAPB, va, BitVec.ofNat 64 (max 1 (e / 8))⟩
    else match baseBad with
    | some b => .error (aln b 4)
    | none => s.locate s.curCore s.curCtx va (max 1 (e / 8)) (vmAlign e) kind

/-- Checks every active element before any is performed; the Bool says that one lies in another core's local store. -/
def State.vmAll (c : GReg) (e perms kind : Nat) (baseBad : Option Word) :
    List (Nat × Int) → State → Except TrapReq (State × List Elem × Bool)
  | [], s => .ok (s, [], false)
  | (i, x) :: rest, s =>
    match s.vmCheck c e perms kind baseBad x with
    | .error t => .error t
    | .ok (s1, loc, remote) =>
      match State.vmAll c e perms kind baseBad rest s1 with
      | .error t => .error t
      | .ok (s2, es, r) => .ok (s2, ⟨i * e, e, loc, if e < 8 then i * e % 8 else 0, BitVec.ofInt 64 x⟩ :: es, remote || r)

/-- The checks of a whole vector access. `fe` asks for a base address of 16-byte alignment. -/
def vmAccess (s : State) (f : Form) (o : Op) (e perms kind : Nat) (fe : Bool) (addr : Nat → Int)
    (k : State → List Elem → Bool → Eff) : Eff :=
  let base := s.memAddr o
  let bad := if fe && decide (base.toNat % 16 ≠ 0) then some base else none
  let els := s.vmElems o e addr
  match els, bad with
  | [], some b => .trap (aln b 4)
  | _, _ =>
    checked s (State.vmAll (s.g o.ra) e perms kind bad els s) (fun r =>
      k (match r.2.1.find? (fun e => isWindow e.va) with
        | some e => r.1.scopeWarn f o e.va
        | none => r.1) r.2.1 r.2.2)

/-- The location and address that name a vector access: those of its lowest active element. -/
def elemHead (es : List Elem) (base : Word) : Nat × Word :=
  match es with
  | e :: _ => (e.loc, e.va)
  | [] => (0, base)

/-- The mask of a vector store's journal entry: its bytes in the line of its first element (08 Table 84). Which line the one entry
of a store over several lines names the spec does not say: that of its lowest active element. DESIGN CHOICE (log 91). -/
def elemMask (es : List Elem) (loc : Nat) : BitVec 64 :=
  (es.filter (fun e => e.loc / 64 == loc / 64)).foldl
    (fun m e => m ||| ((BitVec.ofNat 64 (2 ^ e.size - 1)) <<< (e.loc % 64))) 0

/-- Issues a vector store to another core's local store: one journal entry, and one outstanding result until its home
has answered (08 R169, R174). -/
def issueVpost (s0 : State) (a : Access) (mask : BitVec 64) : Eff :=
  match s0.drainFor a false with
  | (s, false) => .hold s
  | (s, true) =>
    if s.mustQueue a then .hold s
    else
      let id := s.nextId
      match (s.startOut .none .away setS a.touch).post { a with out := id } mask id with
      | some s2 => .next s2
      | none => .hold s

/-- A vector load (08 R179). -/
def vmLoad (i : Instr) (o : Op) (s : State) (contiguous fe : Bool) (addr : State → Nat → Nat → Int) :
    Host.Outcome State Fault Refusal :=
  wordF i o s (fun f s =>
    let e := vmBits o contiguous
    withRoom s (.v o.rd) (vmAccess s f o e (if fe then pL ||| pF else pL) kLoad fe (addr s e) (fun s es remote =>
      let base := (laneWrite (s.v o.rd) e o.shapeBits o.z (s.active o e) (fun _ => (0, 0))).1
      let (loc, va) := elemHead es (s.memAddr o)
      issueLoad s (s.mkAccess (.vload es (if fe then .wait else .plain) base) loc va f o) (.v o.rd) setL remote)))

/-- A vector store (08 R179). -/
def vmStore (i : Instr) (o : Op) (s : State) (contiguous fs : Bool) (addr : State → Nat → Nat → Int) :
    Host.Outcome State Fault Refusal :=
  wordF i o s (fun f s =>
    let e := vmBits o contiguous
    vmAccess s f o e (if fs then pS ||| pF else pS) kStore fs (addr s e) (fun s es remote =>
      let (loc, va) := elemHead es (s.memAddr o)
      let a := s.mkAccess (.vstore es (s.v o.rd) fs) loc va f o
      if !remote then issueHome s a .none setS true
      else if fs then issueRequest s a .none setS
      else issueVpost s a (elemMask es loc)))

/-- Addresses of consecutive elements: two 4-bit elements share a byte (08 Table 88). -/
def addrUnit (o : Op) (s : State) (e i : Nat) : Int := (s.memAddr o).toNat + (i * e / 8 : Nat)

/-- Addresses at a stride of g[B] (08 Table 88). -/
def addrStride (o : Op) (s : State) (_ i : Nat) : Int := (s.memAddr o).toNat + i * sextNat 64 (s.g o.rb).addr

/-- Addresses by the elements of v[B] (08 Table 88). -/
def addrIndex (o : Op) (s : State) (e i : Nat) : Int := (s.memAddr o).toNat + (s.elem o.rb e i * (e / 8) : Nat)

/-- VLD (R179). -/
def execVld (o : Op) (s : State) : Host.Outcome State Fault Refusal := vmLoad (.vld o) o s true false (addrUnit o)

/-- VST (R179). -/
def execVst (o : Op) (s : State) : Host.Outcome State Fault Refusal := vmStore (.vst o) o s true false (addrUnit o)

/-- VLDS (R179). -/
def execVlds (o : Op) (s : State) : Host.Outcome State Fault Refusal := vmLoad (.vlds o) o s false false (addrStride o)

/-- VSTS (R179). -/
def execVsts (o : Op) (s : State) : Host.Outcome State Fault Refusal := vmStore (.vsts o) o s false false (addrStride o)

/-- VLDX (R179). -/
def execVldx (o : Op) (s : State) : Host.Outcome State Fault Refusal := vmLoad (.vldx o) o s false false (addrIndex o)

/-- VSTX (R179). -/
def execVstx (o : Op) (s : State) : Host.Outcome State Fault Refusal := vmStore (.vstx o) o s false false (addrIndex o)

/-- VLD_FE (R179). -/
def execVldFe (o : Op) (s : State) : Host.Outcome State Fault Refusal := vmLoad (.vldFe o) o s true true (addrUnit o)

/-- VST_FS (R179). -/
def execVstFs (o : Op) (s : State) : Host.Outcome State Fault Refusal := vmStore (.vstFs o) o s true true (addrUnit o)

/-- VLDP: into p0 it drops the data (R179). -/
def execVldp (o : Op) (s : State) : Host.Outcome State Fault Refusal :=
  loadForm (.vldp o) o s .pload (.p o.pd) 32 5 pL [0] kLoad setL

/-- VSTP (R179). -/
def execVstp (o : Op) (s : State) : Host.Outcome State Fault Refusal :=
  wordF (.vstp o) o s (fun f s =>
    let va := s.memAddr o
    access s f o (s.g o.ra) va 32 5 pS [0] kStore (fun s loc remote =>
      let a := s.mkAccess (.pstore (s.p o.pd)) loc va f o
      if remote then issueVpost s a ((0xFFFFFFFF#64) <<< (loc % 64)) else issueHome s a .none setS true))

end Sys2Proof.Machine
end

