-- ==== Sys2Proof/Machine/ScalarFloat.lean ====
section
/-! DEFINITION. The floating forms of page 1 and the scalar conversions (06 R126 to R128, R139). -/

namespace Sys2Proof.Machine

/-- The low bits of a register in the instruction's format (06 R126). -/
def State.fopnd (s : State) (o : Op) (r : Nat) : Nat := (s.g r).addr % 2 ^ o.ffmt.width

/-- A floating result and the flags of its instruction (05 R106). -/
def State.putF (s : State) (r : Nat) (x : Nat × Flags) : State := (s.putNat r x.1).raiseFlags x.2

/-- An immediate two-source floating form. -/
def fbin (f : FFmt → Nat → Nat → Nat × Flags) (o : Op) (s : State) : Eff :=
  .next (s.putF o.rd (f o.ffmt (s.fopnd o o.s1) (s.fopnd o o.s2)))

/-- An outstanding floating result (06 R118, 05 R107). -/
def fslow (o : Op) (s : State) (x : Nat × Flags) : Eff :=
  later s (.g o.rd) (.g (GReg.ofWord (BitVec.ofNat 64 x.1))) x.2

/-- A compare: 1 or 0, NV where a NaN is an operand or only where it signals (06 Table 61). -/
def fcmp (quiet : Bool) (p : FV → FV → Bool) (f : FFmt) (a b : Nat) : Nat × Flags :=
  let x := f.decode a
  let y := f.decode b
  let nv := if quiet then x.isSig || y.isSig else x.isNan || y.isNan
  (one (p x y), flagIf nv fNV)

/-- Less or equal of numbers that are not NaN. -/
def FV.le (x y : FV) : Bool := x.lt y || x.eqv y

/-- FADD (R126). -/
def execFadd (o : Op) (s : State) : Host.Outcome State Fault Refusal := word (.fadd o) o s (fbin (fun f => f.op2 FV.add) o)

/-- FSUB (R126). -/
def execFsub (o : Op) (s : State) : Host.Outcome State Fault Refusal := word (.fsub o) o s (fbin (fun f => f.op2 FV.sub) o)

/-- FMUL (R126). -/
def execFmul (o : Op) (s : State) : Host.Outcome State Fault Refusal := word (.fmul o) o s (fbin (fun f => f.op2 FV.mul) o)

/-- FMIN (R126). -/
def execFmin (o : Op) (s : State) : Host.Outcome State Fault Refusal := word (.fmin o) o s (fbin (fun f => fminmax f false false) o)

/-- FMAX (R126). -/
def execFmax (o : Op) (s : State) : Host.Outcome State Fault Refusal := word (.fmax o) o s (fbin (fun f => fminmax f true false) o)

/-- FMINP (R126). -/
def execFminp (o : Op) (s : State) : Host.Outcome State Fault Refusal := word (.fminp o) o s (fbin (fun f => fminmax f false true) o)

/-- FMAXP (R126). -/
def execFmaxp (o : Op) (s : State) : Host.Outcome State Fault Refusal := word (.fmaxp o) o s (fbin (fun f => fminmax f true true) o)

/-- FLT (R126). -/
def execFlt (o : Op) (s : State) : Host.Outcome State Fault Refusal := word (.flt o) o s (fbin (fcmp false FV.lt) o)

/-- FLE (R126). -/
def execFle (o : Op) (s : State) : Host.Outcome State Fault Refusal := word (.fle o) o s (fbin (fcmp false FV.le) o)

/-- FEQ (R126). -/
def execFeq (o : Op) (s : State) : Host.Outcome State Fault Refusal := word (.feq o) o s (fbin (fcmp true FV.eqv) o)

/-- FUN (R126). -/
def execFunOrd (o : Op) (s : State) : Host.Outcome State Fault Refusal := word (.funOrd o) o s (fbin (fcmp true (fun x y => x.isNan || y.isNan)) o)

/-- FDIV, outstanding (R126). -/
def execFdiv (o : Op) (s : State) : Host.Outcome State Fault Refusal :=
  word (.fdiv o) o s (fun s => fslow o s (o.ffmt.op2 FV.div (s.fopnd o o.s1) (s.fopnd o o.s2)))

/-- FSQRT, outstanding (R126). -/
def execFsqrt (o : Op) (s : State) : Host.Outcome State Fault Refusal :=
  word (.fsqrt o) o s (fun s => fslow o s (o.ffmt.op1 FV.sqrt (s.fopnd o o.ra)))

/-- FABS: the sign bit cleared (R126). -/
def execFabs (o : Op) (s : State) : Host.Outcome State Fault Refusal :=
  word (.fabs o) o s (fun s => .next (s.putNat o.rd (s.fopnd o o.ra % 2 ^ (o.ffmt.width - 1))))

/-- FMA: g[A] × g[B] + g[D], one rounding (R126). -/
def execFma (o : Op) (s : State) : Host.Outcome State Fault Refusal :=
  word (.fma o) o s (fun s =>
    .next (s.putF o.rd (o.ffmt.fmaOp false (s.fopnd o o.ra) (s.fopnd o o.rb) (s.fopnd o o.rd))))

/-- FNMA: −(g[A] × g[B]) + g[D], one rounding (R126). -/
def execFnma (o : Op) (s : State) : Host.Outcome State Fault Refusal :=
  word (.fnma o) o s (fun s =>
    .next (s.putF o.rd (o.ffmt.fmaOp true (s.fopnd o o.ra) (s.fopnd o o.rb) (s.fopnd o o.rd))))

/-- FCLASS (R127). -/
def execFclass (o : Op) (s : State) : Host.Outcome State Fault Refusal :=
  word (.fclass o) o s (fun s => .next (s.putNat o.rd (fclassBits o.ffmt (s.fopnd o o.ra))))

/-- FPM.RM of the executing context (05 R103). -/
def State.rmode (s : State) : RMode := RMode.ofBits (s.cx.cr.fpm.toNat % 8)

/-- The integer width that a conversion's k names (06 Table 63). -/
def convWidth (o : Op) : Nat := 64 / 2 ^ (o.k1 / 2 % 4)

/-- Whether a conversion's integer is unsigned (06 Table 63). -/
def convUnsigned (o : Op) : Bool := o.k1.testBit 0

/-- An integer of n bits, signed or unsigned. -/
def readInt (uns : Bool) (n x : Nat) : Int := if uns then (x % 2 ^ n : Nat) else sextNat n x

/-- The range of an integer type. -/
def intLo (uns : Bool) (n : Nat) : Int := if uns then 0 else -(2 ^ (n - 1) : Nat)
def intHi (uns : Bool) (n : Nat) : Int := if uns then (2 ^ n : Nat) - 1 else (2 ^ (n - 1) : Nat) - 1

/-- The source format of `cvtff` (06 Table 63). -/
def cvtffFmt (k : Nat) : FFmt :=
  match k with
  | 0 => .f64
  | 1 => .f32
  | 2 => .f16
  | 3 => .bf16
  | 4 => .e4m3
  | 5 => .e5m2
  | 6 => .e2m1
  | _ => .ts8

/-- CVTIF (R128). -/
def execCvtif (o : Op) (s : State) : Host.Outcome State Fault Refusal :=
  word (.cvtif o) o s (fun s =>
    .next (s.putF o.rd (o.ffmt.encode s.rmode (FV.ofInt (readInt (convUnsigned o) (convWidth o) (s.g o.ra).addr)))))

/-- CVTFI: put at the integer's width (R128). -/
def execCvtfi (o : Op) (s : State) : Host.Outcome State Fault Refusal :=
  word (.cvtfi o) o s (fun s =>
    let n := convWidth o
    let (i, fl) := (o.ffmt.decode (s.fopnd o o.ra)).toInt s.rmode (intLo (convUnsigned o) n) (intHi (convUnsigned o) n)
    .next (s.putF o.rd (wrap n i, fl)))

/-- CVTFF (R128). -/
def execCvtff (o : Op) (s : State) : Host.Outcome State Fault Refusal :=
  word (.cvtff o) o s (fun s =>
    let f := cvtffFmt (o.k1 % 8)
    .next (s.putF o.rd (o.ffmt.encode s.rmode (f.decode ((s.g o.ra).addr % 2 ^ f.width)))))

end Sys2Proof.Machine
end

