-- ==== Sys2Proof/Machine/Special.lean ====
section
/-! DEFINITION. The special functions of page 3 (07 R152, Table 73): their exact and special results, the exact value
of every other result to far more than any format's precision, and the values that the bound allows. Which of those is
returned is open: `Config.special` names it. -/

namespace Sys2Proof.Machine

/-- The fraction bits of the fixed-point numbers of this file. -/
def fxBits : Nat := 320

/-- One in fixed point. -/
def fxOne : Nat := 2 ^ fxBits

/-- The product of two fixed-point numbers. -/
def fxMul (a b : Nat) : Nat := a * b / fxOne

/-- ln 2 in fixed point: the sum of 1 / (k 2^k). -/
def fxLn2 : Nat := (List.range (fxBits + 8)).foldl (fun s k => s + fxOne / ((k + 1) * 2 ^ (k + 1))) 0

/-- The sum of a series: `next k t` is the term after term k. -/
def series (next : Nat → Nat → Nat) : Nat → Nat → Nat → Nat
  | 0, _, _ => 0
  | n + 1, k, t => t + series next n (k + 1) (next k t)

/-- e^x in fixed point for 0 ≤ x < 1. -/
def fxExp (x : Nat) : Nat := series (fun k t => fxMul t x / (k + 1)) 100 0 fxOne

/-- arctan (1 / n) in fixed point. -/
def fxArctanInv (n : Nat) : Nat :=
  let t (k : Nat) : Nat := fxOne / ((2 * k + 1) * n ^ (2 * k + 1))
  (List.range 120).foldl (fun s k => s + t (2 * k) - t (2 * k + 1)) 0

/-- π in fixed point, by Machin's formula. -/
def fxPi : Nat := 16 * fxArctanInv 5 - 4 * fxArctanInv 239

/-- A finite number in fixed point, towards −∞. -/
def FV.fix (x : FV) : Int :=
  match x with
  | .fin n m e =>
    let k : Int := e + fxBits
    let v : Int := if n then -(m : Int) else m
    if 0 ≤ k then v * (2 ^ k.toNat : Nat) else v / (2 ^ (-k).toNat : Nat)
  | _ => 0

/-- A finite number clamped to ±`lim`, so that no huge power is built. -/
def FV.clamp (x : FV) (lim : Nat) : FV :=
  if (FV.fin false lim 0).lt x then .fin false lim 0
  else if x.lt (FV.fin true lim 0) then .fin true lim 0
  else x

/-- 2^x for a fixed-point x: the value as a number. -/
def fxExp2 (x : Int) : FV :=
  let k := x / (fxOne : Int)
  let f := (x % (fxOne : Int)).toNat
  .fin false (fxExp (fxMul f fxLn2)) (k - fxBits)

/-- e^x for a finite x, which is clamped to ±2400. -/
def expReal (x : FV) : FV :=
  let y := (x.clamp 2400).fix
  fxExp2 (y * (fxOne : Int) / (fxLn2 : Int))

/-- The fraction bits of log2 of a fixed-point m in [1, 2), `n` of them, by squaring. -/
def log2Bits : Nat → Nat → Nat
  | 0, _ => 0
  | n + 1, m =>
    let q := fxMul m m
    if 2 * fxOne ≤ q then 2 ^ n + log2Bits n (q / 2) else log2Bits n q

/-- log2 of m × 2^e, to 160 fraction bits. -/
def log2Real (m : Nat) (e : Int) : FV :=
  let j := m.log2
  let f := log2Bits 160 (m * 2 ^ fxBits / 2 ^ j)
  let v : Int := (e + j) * (2 ^ 160 : Nat) + f
  .fin (decide (v < 0)) v.natAbs (-160)

/-- The quotient of two positive numbers. -/
def divReal (m1 : Nat) (e1 : Int) (m2 : Nat) (e2 : Int) : FV :=
  let k := fxBits + bitLen m2
  .fin false (m1 * 2 ^ k / m2) (e1 - e2 - k)

/-- Φ(x) in fixed point for |x| ≤ 13: 1/2 ± φ(x) Σ x^(2n+1) / (1 · 3 · 5 ⋯ (2n+1)) (07 Table 73). -/
def phiReal (x : FV) : Nat :=
  let a := x.fix.natAbs
  let x2 := fxMul a a
  let sum := series (fun k t => fxMul t x2 / (2 * k + 3)) 700 0 a
  let dens := match (expReal (.fin true (x2 / 2) (-fxBits))).fix with
    | .ofNat e => e * fxOne / isqrt (2 * fxPi * fxOne) (fxBits + 2) 0
    | .negSucc _ => 0
  let h := min (fxOne / 2) (fxMul dens sum)
  if x.neg? then fxOne / 2 - h else fxOne / 2 + h

/-- What a special function's result is: an exact value, or a value near `y`: within `ulps` units in the last place, or
within the absolute error `abs` when one is given. -/
inductive SpecRes where
  | exact (v : FV) (fl : Flags)
  | near (y : FV) (ulps : Nat) (abs : Option FV)

/-- 2^k as a number. -/
def FV.pow2 (k : Int) : FV := .fin false 1 k

/-- A number larger or smaller in magnitude by less than any format can tell: the side of a grid point on which a result lies. -/
def FV.nudge (y : FV) (up : Bool) : FV :=
  match y with
  | .fin n m e => .fin n (if up then m * 2 ^ 128 + 1 else m * 2 ^ 128 - 1) (e - 128)
  | y => y

/-- A magnitude so small that a function of it differs from its value at 0 only by a nudge. -/
def tinyMag (m : Nat) (e : Int) : Bool := (FV.fin false m e).lt (.pow2 (-200))

/-- Whether m is a power of two. -/
def isPow2 (m : Nat) : Bool := decide (m = 2 ^ m.log2)

/-- A special function of Table 73. -/
inductive SpecFn where
  | rsqrt | exp2 | log2 | recip | tanh | sig | gelu
  deriving DecidableEq, Repr

/-- The number of a function, for `Config.special`. -/
def SpecFn.code : SpecFn → Nat
  | .rsqrt => 0 | .exp2 => 1 | .log2 => 2 | .recip => 3 | .tanh => 4 | .sig => 5 | .gelu => 6

/-- The function at a number, for a format with `p` mantissa bits (07 Table 73). -/
def SpecFn.at (fn : SpecFn) (p : Nat) (x : FV) : SpecRes :=
  match fn, x with
  | _, .nan s => .exact (.nan false) (flagIf s fNV)
  | .rsqrt, .inf n => if n then .exact (.nan false) fNV else .exact (.zero false) 0
  | .rsqrt, .fin n m e =>
    if m = 0 then .exact (.inf n) fDZ
    else if n then .exact (.nan false) fNV
    else if isPow2 m ∧ (e + m.log2) % 2 = 0 then .exact (.pow2 (-(e + m.log2) / 2)) 0
    else
      let odd := e % 2
      let k := 2 * fxBits + 2 * bitLen m
      let r := isqrt (2 ^ k / (m * 2 ^ odd.toNat)) (k / 2 + 1) 0
      .near (.fin false r (-((e - odd) / 2) - (k / 2 : Nat))) 1 none
  | .exp2, .inf n => .exact (if n then .zero false else .inf false) 0
  | .exp2, .fin n m e =>
    let (i, inexact) := roundShift .rtz n m (-(e : Int))
    let big := (FV.fin false 3000 0).lt (.fin false m e)
    if big then .near (.pow2 (if n then -3000 else 3000)) 1 none
    else if inexact then .near (if tinyMag m e then (FV.ofInt 1).nudge (!n) else fxExp2 x.fix) 1 none
    else .exact (.pow2 (if n then -(i : Int) else i)) 0
  | .log2, .inf n => if n then .exact (.nan false) fNV else .exact (.inf false) 0
  | .log2, .fin n m e =>
    if m = 0 then .exact (.inf true) fDZ
    else if n then .exact (.nan false) fNV
    else if isPow2 m then .exact (FV.ofInt (e + m.log2)) 0
    else
      let mid := !x.lt (.fin false 3 (-2)) && !(FV.fin false 3 (-1)).lt x
      .near (log2Real m e) 1 (if mid then some (.pow2 (-(p : Int))) else none)
  | .recip, .inf n => .exact (.zero n) 0
  | .recip, .fin n m e =>
    if m = 0 then .exact (.inf n) fDZ
    else if isPow2 m then .exact (.fin n 1 (-(e + m.log2))) 0
    else match divReal 1 0 m e with
      | .fin _ q k => .near (.fin n q k) 1 none
      | y => .near y 1 none
  | .tanh, .inf n => .exact (.fin n 1 0) 0
  | .tanh, .fin n m e =>
    if m = 0 then .exact x 0
    else if (FV.fin false m e).lt (.pow2 (-60)) then .near (x.nudge false) 2 none
    else
      let t := (expReal ((FV.fin false m e).scale 1)).clamp (2 ^ 200)
      let y := t.fix
      match divReal (y - fxOne).toNat 0 (y + fxOne).toNat 0 with
      | .fin _ q k => .near (.fin n q k) 2 none
      | y => .near y 2 none
  | .sig, .inf n => .exact (if n then .zero false else FV.ofInt 1) 0
  | .sig, .fin n m e =>
    if m = 0 then .exact (.pow2 (-1)) 0
    else if tinyMag m e then .near ((FV.pow2 (-1)).nudge (!n)) 2 none
    else if n then
      match expReal x with
      | .fin _ q k =>
        match addFin false q k false 1 0 with
        | .fin _ q2 k2 => .near (divReal q k q2 k2) 2 none
        | y => .near y 2 none
      | y => .near y 2 none
    else
      match expReal (x.clamp 160).negate with
      | .fin _ q k =>
        match addFin false q k false 1 0 with
        | .fin _ q2 k2 => .near (divReal 1 0 q2 k2) 2 none
        | y => .near y 2 none
      | y => .near y 2 none
  | .gelu, .inf n => .exact (if n then .zero true else .inf false) 0
  | .gelu, .fin n m e =>
    if m = 0 then .exact x 0
    else
      let big := (FV.fin false 13 0).lt (.fin false m e)
      let y := if big then (if n then FV.fin true 1 (-2000) else x.nudge false) else FV.fin n (m * phiReal x) (e - fxBits)
      let mag := match y with
        | .fin _ q k => FV.fin false q k
        | z => z
      let one := FV.ofInt 1
      let ax := FV.fin false m e
      let bound := (if one.lt ax then ax else one).scale (-(p : Int))
      .near y 2 (if mag.lt (.pow2 (-10)) then some bound else none)

/-- One unit in the last place of a format at a number. -/
def FFmt.ulp (f : FFmt) (m : Nat) (e : Int) : FV :=
  .pow2 (max (e + (bitLen m : Int) - 1) (1 - (f.bias : Int)) - (f.mant : Int))

/-- Whether an encoding is a result that the bound allows, up to the precision of this file (07 R152). An infinity
stands for a value above the format's range. -/
def specAllowed (f : FFmt) (y : FV) (ulps : Nat) (abs : Option FV) (c : Nat) : Bool :=
  match y, f.decode c with
  | .fin n m e, .fin n2 m2 e2 =>
    let d := addFin n m e (!n2) m2 e2
    let mag := match d with
      | .fin _ q k => FV.fin false q k
      | z => z
    let u := match f.ulp m e with
      | .fin _ q k => FV.fin false (q * ulps) k
      | z => z
    decide (c < 2 ^ f.width) && (mag.lt u || (match abs with | some b => !b.lt mag | none => false))
  | .fin n m e, .inf n2 => decide (c < 2 ^ f.width) && n == n2 && (f.decode f.maxFinite).lt (.fin false m e)
  | _, _ => false

/-- An encoding of the format in which a function is computed, as the element format gives it: rounded once where it is narrower. -/
def specRound (elem f : FFmt) (c : Nat) : Nat := if elem = f then c else (elem.encode .rne (f.decode c)).1

/-- The result that is returned: the one the part names, if the bound allows it, and in bf16 and f16 if what it is rounded to lies
within 1 ulp of the exact value (07 R152). -/
def specPick (fn : SpecFn) (elem f : FFmt) (bits : Nat) (y : FV) (ulps : Nat) (abs : Option FV) : Nat :=
  let c := Config.special fn.code elem.width (bits + 2 ^ 64 * elem.mant)
  if specAllowed f y ulps abs c && (decide (elem = f) || specAllowed elem y 1 none (specRound elem f c)) then c
  else (f.encode .rne y).1

/-- The flags of a result that is not exact: NX, and OF or UF for the delivered result (07 R152). -/
def specFlags (f : FFmt) (r : Nat) : Flags :=
  match f.decode r with
  | .inf _ => fOF ||| fNX
  | .fin _ m _ => fNX ||| flagIf (decide (m < 2 ^ f.mant)) fUF
  | .nan _ => 0

/-- A special function on an encoding: bf16 and f16 are computed in f32 and rounded once (07 R152). -/
def SpecFn.apply (fn : SpecFn) (elem : FFmt) (bits : Nat) : Nat × Flags :=
  let f := if elem = .f64 then FFmt.f64 else FFmt.f32
  let x := elem.decode bits
  let inexact (y : FV) (ulps : Nat) (abs : Option FV) : Nat × Flags :=
    let r := specRound elem f (specPick fn elem f bits y ulps abs)
    (r, specFlags elem r)
  match fn.at f.mant x with
  | .exact v fl =>
    let (r, fl') := elem.encode .rne v
    if fl' &&& fNX = 0 then (r, fl ||| fl') else inexact v 1 none
  | .near y ulps abs => inexact y ulps abs

end Sys2Proof.Machine
end

