-- ==== Sys2Proof/Machine/VectorFloat.lean ====
section
/-! DEFINITION. The floating lanes, special functions, conversions and quantisation of page 3 (07 R151 to R154). -/

namespace Sys2Proof.Machine

/-- Writes the lanes of a floating result to v[D] and raises the flags of its active lanes (07 R142, R151). -/
def State.putFLanes (s : State) (o : Op) (e : Nat) (f : LaneFn) : State :=
  let (v, fl) := laneWrite (s.v o.rd) e o.shapeBits o.z (s.active o e) f
  (s.setV o.rd v).raiseFlags fl

/-- A two-source floating lane form. -/
def vfbin (f : FFmt → Nat → Nat → Nat × Flags) (o : Op) (s : State) : Eff :=
  let e := o.vffmt.width
  .next (s.putFLanes o e (fun i => f o.vffmt (s.elem o.s1 e i) (s.elem o.s2 e i)))

/-- A one-source floating lane form. -/
def vfun (f : FFmt → Nat → Nat × Flags) (o : Op) (s : State) : Eff :=
  let e := o.vffmt.width
  .next (s.putFLanes o e (fun i => f o.vffmt (s.elem o.ra e i)))

/-- A fused multiply-add: d + a × b, the product negated when `n`. -/
def vffma (n : Bool) (o : Op) (s : State) : Eff :=
  let e := o.vffmt.width
  .next (s.putFLanes o e (fun i => o.vffmt.fmaOp n (s.elem o.ra e i) (s.elem o.rb e i) (s.elem o.rd e i)))

/-- An outstanding floating lane form: its lanes are computed from the values read at issue (07 R140, R143). -/
def vflater (f : Nat → Nat × Flags) (o : Op) (s : State) : Eff :=
  let (v, fl) := laneWrite (s.v o.rd) o.vffmt.width o.shapeBits o.z (s.active o o.vffmt.width) f
  later s (.v o.rd) (.v v) fl

/-- A special function (07 R152). -/
def vspecial (fn : SpecFn) (o : Op) (s : State) : Eff :=
  vflater (fun i => fn.apply o.vffmt (s.elem o.ra o.vffmt.width i)) o s

/-- A floating compare: it writes p[D] and raises the flags of its active lanes (07 R145, R151). -/
def vfcmp (quiet : Bool) (p : FV → FV → Bool) (o : Op) (s : State) : Eff :=
  let e := o.vffmt.width
  let act := s.active o e
  let r (i : Nat) : Nat × Flags := fcmp quiet p o.vffmt (s.elem o.s1 e i) (s.elem o.s2 e i)
  let fl := (List.range (o.shapeBits / e)).foldl (fun a i => if act i then a ||| (r i).2 else a) 0
  .next ((s.setP o.pd (predWrite e o.shapeBits act (fun i => (r i).1 == 1))).raiseFlags fl)

/-- The elements that a floating reduction combines (05 R113). -/
def State.redElems (s : State) (o : Op) (identity : Nat) : List Nat :=
  let e := o.vffmt.width
  (List.range (o.shapeBits / e)).map (fun i => if s.active o e i then s.elem o.ra e i else identity)

/-- A conversion between a source of `es` bits and a destination of `ed` bits (07 R150): `f` of the narrow element's
index and the source element. At equal widths the destination counts as the wide side. DESIGN CHOICE (log 90). -/
def vconv (o : Op) (s : State) (es ed part : Nat) (f : Nat → Nat → Nat × Flags) : Eff :=
  let ew := max es ed
  let en := min es ed
  let n := o.shapeBits / ew
  let q := partNo part ew en
  let act := s.active o ew
  let old := s.v o.rd
  let (v, fl) :=
    if ed = ew then
      laneWrite old ed o.shapeBits o.z act
        (fun i => f (q * n + i) (s.elem o.ra es (if es < ew then q * n + i else i)))
    else narrowWrite old ew ed o.shapeBits q o.z act (fun i => f (q * n + i) (s.elem o.ra es i))
  .next ((s.setV o.rd v).raiseFlags fl)

/-- The scale byte of the narrow element j (07 R154). -/
def State.scaleByte (s : State) (o : Op) (j : Nat) : Nat := ((s.g o.rb).data >>> (8 * (j / 32))).toNat % 256

/-- Multiplies by 2^k, k no further from zero than any format reaches. -/
def FV.scaleClamped (x : FV) (k : Int) : FV := x.scale (max (-8192) (min 8192 k))

/-- The mode that k[2:0] of `vfrnd` names; a reserved value is taken as nearest-even (07 R151). -/
def vfrndMode (k : Nat) : RMode := RMode.ofBits (k % 8)

/-- VFADD (R151). -/
def execVfadd (o : Op) (s : State) : Host.Outcome State Fault Refusal := word (.vfadd o) o s (vfbin (fun f => f.op2 FV.add) o)

/-- VFSUB (R151). -/
def execVfsub (o : Op) (s : State) : Host.Outcome State Fault Refusal := word (.vfsub o) o s (vfbin (fun f => f.op2 FV.sub) o)

/-- VFMUL (R151). -/
def execVfmul (o : Op) (s : State) : Host.Outcome State Fault Refusal := word (.vfmul o) o s (vfbin (fun f => f.op2 FV.mul) o)

/-- VFDIV, outstanding (R151). -/
def execVfdiv (o : Op) (s : State) : Host.Outcome State Fault Refusal :=
  word (.vfdiv o) o s (fun s =>
    vflater (fun i => o.vffmt.op2 FV.div (s.elem o.s1 o.vffmt.width i) (s.elem o.s2 o.vffmt.width i)) o s)

/-- VFMA (R151). -/
def execVfma (o : Op) (s : State) : Host.Outcome State Fault Refusal := word (.vfma o) o s (vffma false o)

/-- VFNMA (R151). -/
def execVfnma (o : Op) (s : State) : Host.Outcome State Fault Refusal := word (.vfnma o) o s (vffma true o)

/-- VFMIN (R151). -/
def execVfmin (o : Op) (s : State) : Host.Outcome State Fault Refusal := word (.vfmin o) o s (vfbin (fun f => fminmax f false false) o)

/-- VFMAX (R151). -/
def execVfmax (o : Op) (s : State) : Host.Outcome State Fault Refusal := word (.vfmax o) o s (vfbin (fun f => fminmax f true false) o)

/-- VFMINP (R151). -/
def execVfminp (o : Op) (s : State) : Host.Outcome State Fault Refusal := word (.vfminp o) o s (vfbin (fun f => fminmax f false true) o)

/-- VFMAXP (R151). -/
def execVfmaxp (o : Op) (s : State) : Host.Outcome State Fault Refusal := word (.vfmaxp o) o s (vfbin (fun f => fminmax f true true) o)

/-- VFSQRT, outstanding (R151). -/
def execVfsqrt (o : Op) (s : State) : Host.Outcome State Fault Refusal :=
  word (.vfsqrt o) o s (fun s =>
    vflater (fun i => o.vffmt.op1 FV.sqrt (s.elem o.ra o.vffmt.width i)) o s)

/-- VFRSQRT, outstanding (R152). -/
def execVfrsqrt (o : Op) (s : State) : Host.Outcome State Fault Refusal := word (.vfrsqrt o) o s (vspecial .rsqrt o)

/-- VFEXP2, outstanding (R152). -/
def execVfexp2 (o : Op) (s : State) : Host.Outcome State Fault Refusal := word (.vfexp2 o) o s (vspecial .exp2 o)

/-- VFLOG2, outstanding (R152). -/
def execVflog2 (o : Op) (s : State) : Host.Outcome State Fault Refusal := word (.vflog2 o) o s (vspecial .log2 o)

/-- VFRECIP, outstanding (R152). -/
def execVfrecip (o : Op) (s : State) : Host.Outcome State Fault Refusal := word (.vfrecip o) o s (vspecial .recip o)

/-- VFTANH, outstanding (R152). -/
def execVftanh (o : Op) (s : State) : Host.Outcome State Fault Refusal := word (.vftanh o) o s (vspecial .tanh o)

/-- VFSIG, outstanding (R152). -/
def execVfsig (o : Op) (s : State) : Host.Outcome State Fault Refusal := word (.vfsig o) o s (vspecial .sig o)

/-- VFGELU, outstanding (R152). -/
def execVfgelu (o : Op) (s : State) : Host.Outcome State Fault Refusal := word (.vfgelu o) o s (vspecial .gelu o)

/-- VFCEQ (R151). -/
def execVfceq (o : Op) (s : State) : Host.Outcome State Fault Refusal := word (.vfceq o) o s (vfcmp true FV.eqv o)

/-- VFCLT (R151). -/
def execVfclt (o : Op) (s : State) : Host.Outcome State Fault Refusal := word (.vfclt o) o s (vfcmp false FV.lt o)

/-- VFCLE (R151). -/
def execVfcle (o : Op) (s : State) : Host.Outcome State Fault Refusal := word (.vfcle o) o s (vfcmp false FV.le o)

/-- VFCUN (R151). -/
def execVfcun (o : Op) (s : State) : Host.Outcome State Fault Refusal := word (.vfcun o) o s (vfcmp true (fun x y => x.isNan || y.isNan) o)

/-- VFCLASS (R151). -/
def execVfclass (o : Op) (s : State) : Host.Outcome State Fault Refusal := word (.vfclass o) o s (vfun (fun f a => (fclassBits f a, 0)) o)

/-- VFABS: the sign bit cleared (R151). -/
def execVfabs (o : Op) (s : State) : Host.Outcome State Fault Refusal := word (.vfabs o) o s (vfun (fun f a => (a % 2 ^ (f.width - 1), 0)) o)

/-- VFNEG: the sign bit inverted (R151). -/
def execVfneg (o : Op) (s : State) : Host.Outcome State Fault Refusal := word (.vfneg o) o s (vfun (fun f a => (a ^^^ 2 ^ (f.width - 1), 0)) o)

/-- VSCALE: a × 2^sb, with sb = b as a signed integer of the element's width (R151). -/
def execVscale (o : Op) (s : State) : Host.Outcome State Fault Refusal :=
  word (.vscale o) o s (vfbin (fun f a b =>
    f.encode .rne ((f.decode a).scaleClamped (sextNat f.width b))) o)

/-- VFRND: it never sets NX (R151). -/
def execVfrnd (o : Op) (s : State) : Host.Outcome State Fault Refusal :=
  word (.vfrnd o) o s (vfun (fun f a =>
    let (x, fl) := (f.decode a).integral (vfrndMode o.k1)
    ((f.encode .rne x).1, fl &&& fNV)) o)

/-- VFRSUM (R151, 05 R113). -/
def execVfrsum (o : Op) (s : State) : Host.Outcome State Fault Refusal :=
  word (.vfrsum o) o s (fun s =>
    .next (s.putF o.rd (treeSum o.vffmt (s.redElems o o.vffmt.negZero))))

/-- VFRMAX (R151, 05 R113). -/
def execVfrmax (o : Op) (s : State) : Host.Outcome State Fault Refusal :=
  word (.vfrmax o) o s (fun s =>
    .next (s.putF o.rd (treeMax o.vffmt (s.redElems o o.vffmt.nan))))

/-- VCVT (R153). -/
def execVcvt (o : Op) (s : State) : Host.Outcome State Fault Refusal :=
  word (.vcvt o) o s (fun s =>
    vconv o s o.kF.width o.etF.width o.part (fun _ a => o.etF.encode s.rmode (o.kF.decode a)))

/-- VCVTI: float to integer, saturating (R153). -/
def execVcvti (o : Op) (s : State) : Host.Outcome State Fault Refusal :=
  word (.vcvti o) o s (fun s =>
    let (n, uns) := o.kInt
    vconv o s o.etF.width n o.part (fun _ a =>
      let (i, fl) := (o.etF.decode a).toInt s.rmode (intLo uns n) (intHi uns n)
      (wrap n i, fl)))

/-- VCVTF: integer to float (R153). -/
def execVcvtf (o : Op) (s : State) : Host.Outcome State Fault Refusal :=
  word (.vcvtf o) o s (fun s =>
    let (n, uns) := o.kInt
    vconv o s n o.etF.width o.part (fun _ a => o.etF.encode s.rmode (FV.ofInt (readInt uns n a))))

/-- VQUANT: dest = convert(a × 2^(127 − s)); scale 0xFF takes the NaN row (R154). -/
def execVquant (o : Op) (s : State) : Host.Outcome State Fault Refusal :=
  word (.vquant o) o s (fun s =>
    vconv o s o.kqF.width o.etF.width o.part (fun j a =>
      let b := s.scaleByte o j
      let x := o.kqF.decode a
      o.etF.encode s.rmode (if b = 255 then .nan x.isSig else x.scale (127 - b))))

/-- VDEQUANT: dest = convert(a × 2^(s − 127)); scale 0xFF gives the default NaN with NV (R154). -/
def execVdequant (o : Op) (s : State) : Host.Outcome State Fault Refusal :=
  word (.vdequant o) o s (fun s =>
    vconv o s o.etF.width o.kqF.width o.part (fun j a =>
      let b := s.scaleByte o j
      if b = 255 then (o.kqF.nan, fNV) else o.kqF.encode s.rmode ((o.etF.decode a).scale ((b : Int) - 127))))

end Sys2Proof.Machine
end

