-- ==== Sys2Proof/Machine/Specialiser.lean ====
section
/-! DEFINITION. The specialiser: binding times, the walk of blocks, residual code, the cache and the launch report
(21 R327 to R346). -/

namespace Sys2Proof.Machine

/-! ## What an instruction reads and writes -/

/-- A vector form that keeps parts of its old destination (07 R142): `vcvtn` keeps what it does not narrow into, unless both
sides are 64 bits wide (07 R150). -/
def keepsD (f : Form) (o : Op) : Bool :=
  f.isVector && decide (f.dUse = .v) && ((formAt f 2 20 1 && decide (o.et % 4 ≠ 3)) || (!o.z &&
    (decide (o.shapeBits < 2048) || (decide (o.pr ≠ 0) && !formAt f 2 10 0) || formAt f 4 7 0)))

/-- The registers that an instruction of pages 0 to 4 reads. -/
def formReads (f : Form) (o : Op) : List Dest :=
  (if f.fmt = .f2 then [useReg f.aUse o.ra] else []) ++
  (if f.bUse = .none then []
   else if o.hasPreg || readsD f || formAt f 2 10 0 then [useReg f.bUse o.rb] else [useReg f.bUse o.rd]) ++
  (if readsD f || keepsD f o then [useReg f.dUse o.rd] else []) ++
  (if f.usesPr then [.p o.pr] else [])

/-- The registers that an instruction writes: D, lk for a call, and g8 for `sched`. -/
def formWrites (f : Form) (o : Op) : List Dest :=
  (if sourceD f then [] else [useReg f.dUse o.rd]) ++
  (if formAt f 0 13 0 || formAt f 0 14 1 then [.g 15] else []) ++
  (if formAt f 0 26 4 then [.g 8] else [])

/-- Forms of Tables 57 to 63, 65, 66 and 70 to 75: before the others every stale register is materialised (21 R337). -/
def plainForm (f : Form) : Bool :=
  match f.page with
  | 0 => [0, 1, 2, 3, 4, 5, 6, 7, 8, 9, 17, 18, 19, 20, 21, 25].contains f.op || formAt f 0 22 0
  | 1 => f.op ≤ 6 || (12 ≤ f.op && f.op ≤ 21)
  | 2 => f.op < 18
  | 3 => true
  | _ => false

/-- A direct branch with a tested register. -/
def isCond (f : Form) : Bool := formAt f 0 10 0 || formAt f 0 11 0 || formAt f 1 22 0 || formAt f 1 23 0

/-- `br` and `call`. -/
def isBr (f : Form) : Bool := formAt f 0 12 0
def isCall (f : Form) : Bool := formAt f 0 13 0
def isCalli (f : Form) : Bool := formAt f 0 14 1

/-- `done`, `jmp` and `ret` end a block without a successor. -/
def endsWalk (f : Form) : Bool := formAt f 0 26 1 || formAt f 0 14 0 || formAt f 0 26 3

/-- The offset of a direct branch in words. -/
def branchOff (f : Form) (o : Op) : Int := if f.fmt = .fb then o.fbImm else o.fiImm

/-! ## Fallbacks applied at build -/

/-- The order code that a form takes for the order written (02 R45). -/
def cleanOrder (f : Form) (raw : Nat) : Nat :=
  match orderOf f.cls raw with
  | (_, false) => if raw = 7 then 0 else raw
  | (.plain, true) => 0
  | (.acq, true) => 1
  | (.rel, true) => 2
  | (.ar, true) => 3
  | (.sc, true) => 4
  | (.rlx, true) => 5
  | (.eng, true) => 6

/-- The PVEC that a form takes for the one written (02 Table 22, 07 R158). -/
def cleanVec (f : Form) (v : Option PVec) : Option PVec :=
  if !f.isVector then none
  else
    match v with
    | none => if f.isGang then some ⟨if f.usesEt then 2 else 0, 0, false, 3⟩ else none
    | some p =>
      let narrow := decide (f.page = 3) && !(decide (f.op = 10) || formAt f 3 11 0 || decide (f.op = 12)) &&
        decide (4 ≤ p.et.toNat)
      let et : BitVec 3 :=
        if !f.usesEt then 0
        else if narrow then 0
        else if f.page = 4 ∧ f.op = 9 ∧ 4 ≤ p.et.toNat then 2
        else if f.page = 4 ∧ (f.op = 1 ∨ f.op = 2) ∧ p.et = 6 then 4
        else p.et
      let sh : BitVec 2 := if f.isGang then 3 else if f.usesSh && decide (p.sh ≠ 3) then p.sh else 0
      some ⟨et, if f.usesPr then p.pr else 0, f.usesZ && p.z, sh⟩

/-- The PREG that a form takes for the one written (02 Table 22). -/
def cleanReg (f : Form) (p : PReg) : PReg :=
  { b := if f.bUse = .none then 0 else if f.bUse = .p then p.b &&& 7 else p.b,
    d4 := p.d4 && decide (f.dUse ≠ .none) && decide (f.dUse ≠ .p),
    a4 := p.a4 && decide (f.fmt = .f2) && decide (f.aUse ≠ .none) && decide (f.aUse ≠ .p),
    b4 := p.b4 && decide (f.bUse ≠ .none) && decide (f.bUse ≠ .p),
    w := if f.usesW && !f.isVector then p.w else 0 }

/-- The mask of a 4-bit register field of a kind. -/
def fieldMask (u : RegUse) : BitVec 4 :=
  match u with
  | .none => 0
  | .p => 7
  | _ => 15

/-- `n` PIMM chunks of a number, the lowest first. -/
def chunks : Nat → Nat → List (BitVec 9)
  | 0, _ => []
  | n + 1, k => BitVec.ofNat 9 k :: chunks n (k / 512)

/-- k with the bits of a part field above the part number cleared (07 R150). -/
def cleanPart (f : Form) (o : Op) (k : Nat) : Nat :=
  match f.part? o with
  | none => k
  | some (_, r) =>
    let (at_, n) := if f.page = 2 then (1, 2) else (8, 16)
    let q := k / at_ % n
    k - q * at_ + q % r * at_

/-- The PIMMs that a form takes for those written, with the substitutes of `vfrnd` and the invalidations. -/
def cleanImm (f : Form) (o : Op) : List (BitVec 9) :=
  let n := min f.kMax o.pimm.length
  let k := cleanPart f o (kOf f.kMax o.pimm &&& f.kMask)
  let k := if formAt f 3 15 1 && decide (5 ≤ k % 8) then 0 else if f.page = 7 ∧ f.op = 2 ∧ k % 4 = 3 then 2 else k
  chunks n k

/-- The instruction with every fallback of Table 22 applied and T cleared (21 R338). -/
def cleanOp (f : Form) (o : Op) : Op :=
  { m := o.m, t := false, rsv := false,
    opnd := match f.fmt with
      | .f2 => o.opnd &&& (fieldMask f.dUse ++ fieldMask f.aUse ++ 1#1)
      | .fz => if f.page = 6 ∧ f.op = 4 then o.opnd &&& 0x1FE else o.opnd
      | _ => o.opnd,
    ppag := o.ppag.map (fun p =>
      ⟨if f.cls = .none then 2 else p.scope, BitVec.ofNat 3 (cleanOrder f p.order.toNat)⟩),
    preg := o.preg.map (cleanReg f), pvec := cleanVec f o.pvec, pimm := cleanImm f o }

/-! ## Known values -/

/-- The registers whose values are known, with them. -/
structure Known where
  g : Store (Option GReg)
  v : Store (Option VReg)
  p : Store (Option PredReg)
  deriving DecidableEq, Repr

/-- Nothing known but g0 and p0, which never change. -/
def Known.bare : Known := ⟨[], [], []⟩

/-- The known registers at a kernel's entry (21 Table 200). -/
def Known.entry (ucap : GReg) : Known :=
  { g := (List.range 24).foldl (fun m i => Store.set none m (8 + i) (some GReg.null))
      [(2, some ucap), (3, some selfWindowCap)],
    v := (List.range 32).map (fun i => (i, some 0)),
    p := (List.range 7).map (fun i => (i + 1, some 0)) }

/-- Whether a register is known. -/
def Known.has (k : Known) (d : Dest) : Bool :=
  match d with
  | .none => true
  | .g r => decide (r = 0) || (Store.get none k.g r).isSome
  | .v r => (Store.get none k.v r).isSome
  | .p r => decide (r = 0) || (Store.get none k.p r).isSome

/-- Sets or forgets the value of a register; g0 and p0 never change. -/
def Known.put (k : Known) (d : Dest) (x : RVal) : Known :=
  match d, x with
  | .g 0, _ => k
  | .p 0, _ => k
  | .g r, .g x => { k with g := Store.set none k.g r (some x) }
  | .v r, .v x => { k with v := Store.set none k.v r (some x) }
  | .p r, .p x => { k with p := Store.set none k.p r (some x) }
  | .g r, _ => { k with g := Store.set none k.g r none }
  | .v r, _ => { k with v := Store.set none k.v r none }
  | .p r, _ => { k with p := Store.set none k.p r none }
  | .none, _ => k

/-- The known value of a g register. -/
def Known.gv (k : Known) (r : Nat) : GReg := if r = 0 then .null else (Store.get none k.g r).getD .null

/-- A helper's context with the known values in its registers, as the core of the root task would run it. -/
def Known.context (k : Known) (control : Ctx) : Ctx :=
  { Ctx.init with
    st := .live
    g := k.g.foldl (fun m x => Store.set GReg.null m x.1 (x.2.getD .null)) []
    v := k.v.foldl (fun m x => Store.set 0 m x.1 (x.2.getD 0)) []
    p := k.p.foldl (fun m x => Store.set 0 m x.1 (x.2.getD 0)) []
    cr := { control.cr with fflags := 0, budget := 0 } }

/-! ## Static evaluation -/

/-- The meaning of a foldable form (21 Table 201). -/
def foldRun (i : Instr) (s : State) : Option (Host.Outcome State Fault Refusal) :=
  match i with
  | .add o => some (execAdd o s)
  | .sub o => some (execSub o s)
  | .and o => some (execAnd o s)
  | .or o => some (execOr o s)
  | .xor o => some (execXor o s)
  | .andn o => some (execAndn o s)
  | .shl o => some (execShl o s)
  | .shr o => some (execShr o s)
  | .sar o => some (execSar o s)
  | .rol o => some (execRol o s)
  | .slt o => some (execSlt o s)
  | .sltu o => some (execSltu o s)
  | .seq o => some (execSeq o s)
  | .sne o => some (execSne o s)
  | .mul o => some (execMul o s)
  | .mulh o => some (execMulh o s)
  | .mov o => some (execMov o s)
  | .neg o => some (execNeg o s)
  | .ldi o => some (execLdi o s)
  | .addi o => some (execAddi o s)
  | .ld o => some (execLd o s)
  | .ldc o => some (execLdc o s)
  | .slti o => some (execSlti o s)
  | .andi o => some (execAndi o s)
  | .ldhi o => some (execLdhi o s)
  | .cset o => some (execCset o s)
  | .cinc o => some (execCinc o s)
  | .cbnd o => some (execCbnd o s)
  | .cperm o => some (execCperm o s)
  | .cget o => some (execCget o s)
  | .ctag o => some (execCtag o s)
  | .div o => some (execDiv o s)
  | .divu o => some (execDivu o s)
  | .rem o => some (execRem o s)
  | .remu o => some (execRemu o s)
  | .min o => some (execMin o s)
  | .max o => some (execMax o s)
  | .minu o => some (execMinu o s)
  | .maxu o => some (execMaxu o s)
  | .clz o => some (execClz o s)
  | .ctz o => some (execCtz o s)
  | .popc o => some (execPopc o s)
  | .rev o => some (execRev o s)
  | .sx o => some (execSx o s)
  | .zx o => some (execZx o s)
  | .bfx o => some (execBfx o s)
  | .bfi o => some (execBfi o s)
  | .csel o => some (execCsel o s)
  | .cselz o => some (execCselz o s)
  | .fadd o => some (execFadd o s)
  | .fsub o => some (execFsub o s)
  | .fmul o => some (execFmul o s)
  | .fdiv o => some (execFdiv o s)
  | .fmin o => some (execFmin o s)
  | .fmax o => some (execFmax o s)
  | .fminp o => some (execFminp o s)
  | .fmaxp o => some (execFmaxp o s)
  | .fsqrt o => some (execFsqrt o s)
  | .fabs o => some (execFabs o s)
  | .fma o => some (execFma o s)
  | .fnma o => some (execFnma o s)
  | .flt o => some (execFlt o s)
  | .fle o => some (execFle o s)
  | .feq o => some (execFeq o s)
  | .funOrd o => some (execFunOrd o s)
  | .fclass o => some (execFclass o s)
  | .vadd o => some (execVadd o s)
  | .vsub o => some (execVsub o s)
  | .vaddsat o => some (execVaddsat o s)
  | .vsubsat o => some (execVsubsat o s)
  | .vmul o => some (execVmul o s)
  | .vmulh o => some (execVmulh o s)
  | .vmin o => some (execVmin o s)
  | .vmax o => some (execVmax o s)
  | .vand o => some (execVand o s)
  | .vor o => some (execVor o s)
  | .vxor o => some (execVxor o s)
  | .vandn o => some (execVandn o s)
  | .vshl o => some (execVshl o s)
  | .vshr o => some (execVshr o s)
  | .vabs o => some (execVabs o s)
  | .vneg o => some (execVneg o s)
  | .vceq o => some (execVceq o s)
  | .vcne o => some (execVcne o s)
  | .vclt o => some (execVclt o s)
  | .vcle o => some (execVcle o s)
  | .vsel o => some (execVsel o s)
  | .vmov o => some (execVmov o s)
  | .vbcast o => some (execVbcast o s)
  | .vidx o => some (execVidx o s)
  | .vmac o => some (execVmac o s)
  | .vdot4 o => some (execVdot4 o s)
  | .vpopc o => some (execVpopc o s)
  | .vclz o => some (execVclz o s)
  | .pand o => some (execPand o s)
  | .por o => some (execPor o s)
  | .pxor o => some (execPxor o s)
  | .pnot o => some (execPnot o s)
  | .pcnt o => some (execPcnt o s)
  | .pfirst o => some (execPfirst o s)
  | .vext o => some (execVext o s)
  | .vins o => some (execVins o s)
  | .vrsum o => some (execVrsum o s)
  | .vrmax o => some (execVrmax o s)
  | .vrmin o => some (execVrmin o s)
  | .vrand o => some (execVrand o s)
  | .vcvtw o => some (execVcvtw o s)
  | .vcvtn o => some (execVcvtn o s)
  | .vfadd o => some (execVfadd o s)
  | .vfsub o => some (execVfsub o s)
  | .vfmul o => some (execVfmul o s)
  | .vfdiv o => some (execVfdiv o s)
  | .vfma o => some (execVfma o s)
  | .vfnma o => some (execVfnma o s)
  | .vfmin o => some (execVfmin o s)
  | .vfmax o => some (execVfmax o s)
  | .vfminp o => some (execVfminp o s)
  | .vfmaxp o => some (execVfmaxp o s)
  | .vfsqrt o => some (execVfsqrt o s)
  | .vfrsqrt o => some (execVfrsqrt o s)
  | .vfexp2 o => some (execVfexp2 o s)
  | .vflog2 o => some (execVflog2 o s)
  | .vfrecip o => some (execVfrecip o s)
  | .vftanh o => some (execVftanh o s)
  | .vfclass o => some (execVfclass o s)
  | .vfabs o => some (execVfabs o s)
  | .vfneg o => some (execVfneg o s)
  | .vscale o => some (execVscale o s)
  | .vfsig o => some (execVfsig o s)
  | .vfgelu o => some (execVfgelu o s)
  | .vfceq o => some (execVfceq o s)
  | .vfclt o => some (execVfclt o s)
  | .vfcle o => some (execVfcle o s)
  | .vfcun o => some (execVfcun o s)
  | .vfrsum o => some (execVfrsum o s)
  | .vfrmax o => some (execVfrmax o s)
  | .vfrnd o => some (execVfrnd o s)
  | .vld o => some (execVld o s)
  | .vperm o => some (execVperm o s)
  | .vperm2 o => some (execVperm2 o s)
  | .vsld o => some (execVsld o s)
  | .vsrd o => some (execVsrd o s)
  | .vzip o => some (execVzip o s)
  | .vunzip o => some (execVunzip o s)
  | .vcomp o => some (execVcomp o s)
  | .vexp o => some (execVexp o s)
  | .vlut o => some (execVlut o s)
  | .vlutb o => some (execVlutb o s)
  | _ => none

/-- The context number in which the specialiser evaluates; no context of a core has it. -/
def foldCtx : Nat := 15

/-- What an evaluation gives: a value and whether it raised an IEEE flag, a trap code, or nothing. -/
inductive Folded where
  | value (v : RVal) (flags : Bool)
  | trap (code : Nat)
  | none

/-- The result of an instruction once every outstanding result has arrived (21 R335). -/
def Ctx.arrived (c : Ctx) : Option Ctx :=
  c.outs.foldl (fun c o => match c, o.wait with
    | some c, .ready v fl =>
      let c := if o.sup then c else c.putDest o.dest v
      some { c with cr := c.cr.addFlags fl }
    | _, _ => none) (some c)

/-- The value of a register of a context. -/
def Ctx.rval (c : Ctx) (d : Dest) : RVal :=
  match d with
  | .none => .none
  | .g r => .g (c.rg r)
  | .v r => .v (c.rv r)
  | .p r => .p (c.rp r)

/-- The state in which an instruction is evaluated: the known values in a helper of the root task's core. Translations are walks
of TROOT, none cached (21 R336). -/
def foldState (s : State) (core : Nat) (k : Known) (o : Op) : State :=
  let s := { (s.setCtx core foldCtx (k.context (s.ctx core 0))) with curCore := core, curCtx := foldCtx, opr := o }
  (s.modCore core (fun c => { c with pending := [], utlb := [] })).modDie (dieOf core) (fun d => { d with tlbs := [] })

/-- Evaluates an instruction exactly as a helper of the root task's core would execute it (21 R335). -/
def foldOne (s : State) (core : Nat) (i : Instr) (d : Dest) : Folded :=
  match foldRun i s with
  | some (.next s') =>
    let c := s'.ctx core foldCtx
    if c.st ≠ .live then
      (match (s'.core core).pending.getLast? with
       | some t => .trap t.code
       | none => .none)
    else
      match c.arrived with
      | some c' => .value (c'.rval d) (c'.cr.fflags != 0)
      | none => .none
  | _ => .none

/-! ## The walk -/

/-- Bits of WARN in the launch report (21 Table 204). -/
def swDemote : Nat := 0
def swNotFrz : Nat := 1
def swLogFull : Nat := 2
def swLoop : Nat := 3
def swVariant : Nat := 4
def swGrowth : Nat := 5
def swBudget : Nat := 6
def swFallback : Nat := 7
def swWindow : Nat := 8
def swCache : Nat := 9
def swExtent : Nat := 10

/-- Where a residual branch goes: to a block, or past the end of the image. -/
inductive Target where
  | block (n : Nat)
  | past
  deriving DecidableEq, Repr

/-- One instruction of the image: its words, or a direct branch whose displacement is still open; with its back-map
entry (21 Table 202). -/
structure Emit where
  ws : List HWord
  br : Option (Form × Op × Target)
  ofs : Nat
  iter : Nat
  mat : Bool
  deriving DecidableEq, Repr

/-- A block: its original PC, what is known at its start (none for a generic block), the unrolled loops that hold its start, its
instructions, where control goes after the last, and the back-map place of a branch there (21 R338, R340). -/
structure CodeBlock where
  pc : Nat
  known : Option Known
  loops : List (Nat × Nat × Nat)
  items : List Emit
  next : Option Target
  tail : Nat × Nat
  deriving DecidableEq, Repr

/-- What stays fixed during a build. -/
structure SpecEnv where
  vif : Nat
  core : Nat
  root : Word
  base : Nat
  top : Nat
  ua : Nat
  ulen : Nat
  cm : Bool
  limit : Nat
  reserve : Nat
  deriving DecidableEq, Repr

/-- A build under way. `log` has virtual address, content and physical address of each logged granule. -/
structure Build where
  s : State
  blocks : List CodeBlock
  emitted : Nat
  generic : Nat
  folds : Nat
  warn : Nat
  fpc : Option Nat
  log : List (Nat × GReg × Nat)
  allGeneric : Bool

/-- Records a warning with the original PC that causes it (21 Table 204). -/
def Build.note (b : Build) (bit : Nat) (pc : Nat) : Build :=
  { b with warn := b.warn ||| 2 ^ bit, fpc := some (b.fpc.getD pc) }

/-- Whether an address lies in the code extent. -/
def SpecEnv.inside (e : SpecEnv) (pc : Int) : Bool := decide ((e.base : Int) ≤ pc ∧ pc + 2 ≤ (e.top : Int))

/-- The number of words of instructions; a branch may grow by two. -/
def emitSize (xs : List Emit) : Nat := (xs.map (fun x => match x.br with
  | some (_, o, _) => o.words + 2
  | none => x.ws.length)).sum

/-- The number of words of a `br` that may grow by two. -/
def brSize : Nat := 3

/-- The generic block of a PC. -/
def Build.genericAt (b : Build) (a : Nat) : Option Nat := b.blocks.findIdx? (fun k => k.pc == a && k.known.isNone)

/-- A generic block ends where another one begins, so that the generic copy of the extent holds every word of it once (21 R341). -/
def Build.cut (b : Build) (e : SpecEnv) (i : Nat) : Build :=
  match b.blocks[i]? with
  | none => b
  | some k =>
    if k.known.isSome then b
    else
      match ((List.range k.items.length).drop 1).findSome? (fun j =>
          (k.items[j]?).bind (fun x => (b.genericAt (e.base + x.ofs)).map (fun n => (j, n, x.ofs)))) with
      | none => b
      | some (j, n, ofs) =>
        let gone := emitSize (k.items.drop j)
        { b with blocks := b.blocks.set i { k with items := k.items.take j, next := some (.block n), tail := (ofs, 0) }
                 emitted := b.emitted - gone + (if n = i + 1 then 0 else brSize), generic := b.generic - gone }

/-- The block for a PC and known values, created in the unrolled loops `loops` when it does not exist; a fifth variant becomes
the generic block (21 R340, R341). -/
def Build.blockAt (b : Build) (e : SpecEnv) (pc : Int) (known : Option Known) (loops : List (Nat × Nat × Nat)) :
    Build × Target :=
  if !e.inside pc then (b, .past)
  else
    let a := pc.toNat
    let same := b.blocks.filter (fun k => k.pc == a && k.known.isSome)
    let many := known.isSome && decide (4 ≤ same.length) && !same.any (fun k => k.known == known)
    let b := if many && !b.allGeneric then b.note swVariant a else b
    let known := if many || b.allGeneric then none else known
    match b.blocks.findIdx? (fun k => k.pc == a && k.known == known) with
    | some i => (b, .block i)
    | none =>
      let b' := { b with blocks := b.blocks ++ [⟨a, known, if known.isSome then loops else [], [], none, (0, 0)⟩] }
      (if known.isSome then b' else (List.range b.blocks.length).foldl (fun b i => b.cut e i) b', .block b.blocks.length)

/-- A failure of specialisation: the original PC, the reason of Table 203 and the trap code. Reason 0 is none: a read waits for a
line that an engine owns (01 Table 10). -/
structure SpecFail where
  pc : Nat
  reason : Nat
  code : Nat
  deriving DecidableEq, Repr

/-- One code word (21 R338, Table 203). -/
def codeWord (e : SpecEnv) (s : State) (pc a : Nat) : Except SpecFail HWord :=
  if 2 ^ 47 ≤ a then .error ⟨pc, 2, tPGF⟩
  else
    match walk s e.root a with
    | .error lvl => .error ⟨pc, if lvl = waitLvl then 0 else 2, tPGF⟩
    | .ok l =>
      if !leafX l.e then .error ⟨pc, 2, tPGF⟩
      else if s.ownedAny (l.pa a) 2 then .error ⟨pc, 0, tPGF⟩
      else if e.cm && !s.isAccepted l then .error ⟨pc, 3, tILL⟩
      else if s.poison (l.pa a) then .error ⟨pc, 4, tPOIS⟩
      else .ok (BitVec.ofNat 16 (s.nat (l.pa a) 2))

/-- An instruction read by the walk: what it is with its words, or words that raise ILL, or the end of the extent. -/
inductive CodeRd where
  | instr (i : Instr) (o : Op) (ws : List HWord)
  | bad (ws : List HWord)
  | past

/-- Reads the instruction whose words so far are `ws`, from address `a` on. -/
def readCode (e : SpecEnv) (s : State) (pc : Nat) : Nat → Chain → Nat → List HWord → Except SpecFail CodeRd
  | 0, _, _, ws => .ok (.bad ws)
  | n + 1, c, a, ws =>
    if !e.inside a then .ok .past
    else
      match codeWord e s pc a with
      | .error f => .error f
      | .ok w =>
        if isPrefix w then
          match c.step w with
          | .error _ => .ok (.bad (ws ++ [w]))
          | .ok c' => if (a + 2) / 65536 ≠ pc / 65536 then .ok (.bad (ws ++ [w])) else readCode e s pc n c' (a + 2) (ws ++ [w])
        else
          match c.finish w with
          | .error _ => .ok (.bad (ws ++ [w]))
          | .ok (i, o) => .ok (.instr i o (ws ++ [w]))

/-- The words with T cleared in the base word. -/
def clearT (ws : List HWord) : List HWord := ws.map (fun w => if isPrefix w then w else w &&& 0xBFFF)

/-- An FI form's operand: D and an immediate of `n` PIMMs. -/
def fiOp (r n : Nat) (imm : Nat) : Op :=
  { m := false, t := false, opnd := BitVec.ofNat 4 r ++ BitVec.ofNat 5 imm, ppag := none,
    preg := if 16 ≤ r then some ⟨0, true, false, false, 0⟩ else none, pvec := none, pimm := chunks n (imm / 32), rsv := false }

/-- The forms of `ldi`, `ldhi` and `br`. -/
def ldiWords (o : Op) : List HWord := prefixWords false (o.prefixes 0) ++ [mkWord false false 1 o.opnd]
def ldhiWords (o : Op) : List HWord := prefixWords false (o.prefixes 0) ++ [mkWord false false 19 o.opnd]

/-- The shortest materialisation of a value into a g register (21 R337). -/
def matWords (r : Nat) (x : Word) : List (List HWord) :=
  let v := x.toInt
  match (List.range 4).find? (fun n => decide (-(2 ^ (4 + 9 * n) : Nat) ≤ v ∧ v < (2 ^ (4 + 9 * n) : Nat))) with
  | some n => [ldiWords (fiOp r n (x.toNat % 2 ^ (5 + 9 * n)))]
  | none => [ldiWords (fiOp r 3 (x.toNat % 2 ^ 32)), ldhiWords (fiOp r 3 (x.toNat / 2 ^ 32))]

/-- The span of an unrolled loop holds a PC. -/
def inSpan (l : Nat × Nat × Nat) (pc : Nat) : Bool := decide (l.1 ≤ pc ∧ pc ≤ l.2.1)

/-- The walk of one block, of number `idx`: where it stands. `loops` has the spans of the unrolled loops, with the times that
each back edge has been taken since the walk entered the span; `items` are in reverse. -/
structure Walker where
  idx : Nat
  pc : Nat
  known : Known
  stale : List Nat
  loops : List (Nat × Nat × Nat)
  items : List Emit

/-- The iteration of a word: that of the innermost unrolled loop whose span holds its PC (21 R339). -/
def Walker.iter (w : Walker) : Nat :=
  ((w.loops.filter (fun l => inSpan l w.pc)).foldl (fun best l => match best with
    | none => some l
    | some b => if l.2.1 - l.1 < b.2.1 - b.1 then some l else some b) none).elim 0 (fun l => l.2.2 % 65536)

/-- The loops once the walk is at a PC: one whose span it has left counts from 0 again (21 R339). -/
def loopsAt (ls : List (Nat × Nat × Nat)) (pc : Nat) : List (Nat × Nat × Nat) :=
  ls.map (fun l => if inSpan l pc then l else (l.1, l.2.1, 0))

/-- Moves the walk to another PC. -/
def Walker.goto (w : Walker) (pc : Nat) : Walker := { w with pc := pc, loops := loopsAt w.loops pc }

/-- The materialisations of registers, in ascending number. -/
def Walker.mats (w : Walker) (rs : List Nat) (ofs : Nat) : List Emit :=
  rs.flatMap (fun r => (matWords r (w.known.gv r).word).map (fun ws => ⟨ws, none, ofs, w.iter, true⟩))

/-- Emits instructions, which count towards the image and, in a generic block, towards the generic copy (21 R341). -/
def Walker.emit (w : Walker) (xs : List Emit) : Walker := { w with items := xs.reverse ++ w.items }

/-- Counts emitted words. -/
def Build.count (b : Build) (gen : Bool) (n : Nat) : Build :=
  { b with emitted := b.emitted + n, generic := if gen then b.generic + n else b.generic }

/-- Whether an emission of `size` words is allowed: with the materialisation and the branch that would end the block after it, at
`w`, and the part of the generic copy not yet emitted, the image stays within L (21 R341). An emission of the generic copy itself is
what that part holds in reserve. -/
def Build.admits (b : Build) (e : SpecEnv) (gen : Bool) (w : Walker) (size : Nat) : Bool :=
  gen || decide (b.emitted + size + emitSize (w.mats w.stale 0) + brSize + (e.reserve - b.generic) ≤ e.limit)

/-- How the walk of a block ends. -/
inductive Walked where
  | ended (b : Build) (items : List Emit) (next : Option Target) (tail : Nat × Nat)
  | again (pc : Nat)
  | failed (f : SpecFail)

/-- The block ends after what has been emitted; a `br` follows it when its successor is not the next block. Such a branch has the
back-map place `tail` (21 R343). -/
def close (b : Build) (w : Walker) (next : Option Target) (tail : Nat × Nat) : Walked :=
  let far : Bool := match next with
    | none => false
    | some t => t != .block (w.idx + 1)
  .ended (if far then { b with emitted := b.emitted + brSize } else b) w.items.reverse next tail

/-- The block ends before the current instruction: every stale register is materialised before it (21 R337). -/
def finish (b : Build) (e : SpecEnv) (gen : Bool) (w : Walker) (next : Option Target) : Walked :=
  let ofs := w.pc - e.base
  let ms := w.mats w.stale ofs
  close (b.count gen (emitSize ms)) (w.emit ms) next (ofs, w.iter)

/-- Specialisation is given up at the current PC: the block ends there with a branch to its generic block (21 R341). -/
def giveUp (b : Build) (e : SpecEnv) (w : Walker) (bit : Nat) : Walked :=
  let (b, t) := Build.blockAt { (b.note bit w.pc) with allGeneric := true } e w.pc none []
  finish b e false w (some t)

/-- The granules of `n` bytes at a virtual address. -/
def vaGranules (a n : Nat) : List Nat := granules a n

/-- What the static load of R336 needs beyond its value: that its pages are FROZEN, and log records for granules outside the
uniform block. `ps` are the bytes that it reads. The answer says which warnings demote it, or the new log. -/
def logLoad (e : SpecEnv) (b : Build) (ps : List (Nat × Nat)) : Except (List Nat) (List (Nat × GReg × Nat)) :=
  if ps.any (fun p => decide (2 ^ 47 < p.1 + p.2)) then .error [swDemote, swNotFrz]
  else
    (ps.flatMap (fun p => vaGranules p.1 p.2)).foldl (fun acc g => match acc with
      | .error x => .error x
      | .ok log =>
        match walk b.s e.root g with
        | .error _ => .error [swDemote, swNotFrz]
        | .ok l =>
          if !leafFrz l.e then .error [swDemote, swNotFrz]
          else if e.ua ≤ g ∧ g + 16 ≤ e.ua + e.ulen then .ok log
          else if log.any (fun r => r.1 == g) then .ok log
          else if 64 ≤ log.length then .error [swDemote, swLogFull]
          else .ok (log ++ [(g, b.s.granule (l.pa g), l.pa g)])) (.ok b.log)

/-- The bytes that a load which may be folded reads, of a `vld` those of its active elements; `s` is the state of the
evaluation. -/
def loadBytes (s : State) (i : Instr) (o : Op) : Option (List (Nat × Nat)) :=
  match i with
  | .ld _ => some [((s.memAddr o).toNat, o.bytes)]
  | .ldc _ => some [((s.memAddr o).toNat, 16)]
  | .vld _ =>
    let e := vmBits o true
    some ((s.vmElems o e (addrUnit o s e)).map (fun x => (x.2.toNat, max 1 (e / 8))))
  | _ => none

/-- What becomes of an instruction with T = 1 that is foldable and reads known values only. -/
inductive Static where
  | ok (b : Build) (d : Dest) (v : RVal) (flags : Bool)
  | demote (ws : List Nat)
  | failed (f : SpecFail)

/-- Evaluates a static instruction (21 R335, R336). -/
def evalStatic (e : SpecEnv) (b : Build) (w : Walker) (i : Instr) (f : Form) (o : Op) : Static :=
  let d := useReg f.dUse o.rd
  let s := foldState b.s e.core w.known o
  let r := foldOne s e.core i d
  match loadBytes s i o with
  | none =>
    match r with
    | .value v fl => .ok b d v fl
    | _ => .demote [swDemote]
  | some ps =>
    let poisoned := match r with | .trap c => decide (c = tPOIS) | _ => false
    match r, poisoned with
    | .trap c, false => .failed ⟨w.pc, 1, c⟩
    | _, _ =>
      match logLoad e b ps with
      | .error ws => .demote ws
      | .ok log =>
        if poisoned then .failed ⟨w.pc, 4, tPOIS⟩
        else
          match r with
          | .value v fl => .ok { b with log := log } d v fl
          | _ => .demote [swDemote]

/-- Whether a conditional branch on a known value is taken (06 Table 64). -/
def branchTaken (f : Form) (o : Op) (k : Known) : Bool :=
  let t := (k.gv o.rd).addr % 2 ^ o.width
  if formAt f 0 10 0 then t == 0
  else if formAt f 0 11 0 then t != 0
  else if formAt f 1 22 0 then decide (sextNat o.width t < 0)
  else decide (0 ≤ sextNat o.width t)

/-- The `nop.sw` that a removed switch marker leaves (21 R337). -/
def Walker.removed (w : Walker) (m : Bool) (ofs : Nat) : Walker :=
  if m then w.emit [⟨[0xB400], none, ofs, w.iter, true⟩] else w

/-- A loop is found to be unrolled when its back edge is first taken: what has been emitted since the walk entered its span has
its iteration, 0, unless a loop inside it gives one (21 R339). -/
def Walker.reIter (w : Walker) (base lo hi : Nat) : Walker :=
  let mine := fun (x : Emit) => inSpan (lo, hi, 0) (base + x.ofs)
  let inner := fun (x : Emit) => w.loops.any (fun l => decide (l.2.1 - l.1 < hi - lo) && inSpan l (base + x.ofs))
  { w with items := (w.items.takeWhile mine).map (fun x => if inner x then x else { x with iter := 0 }) ++
      w.items.dropWhile mine }

/-- One back edge is taken once more; none when it would be the 65th time (21 R339). -/
def Walker.backEdge (w : Walker) (base lo hi : Nat) : Option Walker :=
  match w.loops.find? (fun l => l.1 == lo && l.2.1 == hi) with
  | some l =>
    if 64 ≤ l.2.2 then none
    else some { w with loops := w.loops.map (fun x => if x.1 == lo && x.2.1 == hi then (lo, hi, x.2.2 + 1) else x) }
  | none => some { (w.reIter base lo hi) with loops := (lo, hi, 1) :: w.loops }

/-- A step of the walk: it goes on, or the block ends. -/
inductive Stepped where
  | more (b : Build) (w : Walker)
  | over (r : Walked)

/-- Emits a varying instruction, or one that is kept, and moves on (21 R337, R338). `gen` says that the block is
generic; `learn` is the value of the destination when it is known. -/
def emitInstr (e : SpecEnv) (b : Build) (w : Walker) (gen : Bool) (f : Form) (o : Op) (ws : List HWord)
    (learn : RVal) : Stepped :=
  let ofs := w.pc - e.base
  let here := fun (ws : List HWord) (br : Option (Form × Op × Target)) => (⟨ws, br, ofs, w.iter, false⟩ : Emit)
  let nextPc := w.pc + 2 * ws.length
  let direct := isCond f || isBr f || isCall f
  let ends := direct || isCalli f || endsWalk f
  let all := o.m || !plainForm f || ends
  let reads := formReads f o
  let need := if all then w.stale else w.stale.filter (fun r => reads.contains (.g r))
  let mats := w.mats need ofs
  let size := emitSize mats + o.words + (if direct then 2 else 0)
  let written := formWrites f o
  let known := written.foldl (fun k d => k.put d .none) w.known
  let known := match learn with | .none => known | v => known.put (useReg f.dUse o.rd) v
  let w1 := { w.emit mats with known := known,
                               stale := (w.stale.filter (fun r => !need.contains r)).filter (fun r => !written.contains (.g r)) }
  if !b.admits e gen w1 size then .over (giveUp b e w swGrowth)
  else
    let b := b.count gen size
    let start := if gen then none else some known
    let bare := if gen then none else some Known.bare
    let place := (ofs, w.iter)
    let at_ := fun (b : Build) (pc : Int) (k : Option Known) => b.blockAt e pc k (loopsAt w.loops pc.toNat)
    if direct then
      let goal : Int := w.pc + 2 * branchOff f o
      if isBr f then
        let (b, t) := at_ b goal start
        .over (close b (w1.emit [here [] (some (f, o, t))]) none place)
      else
        let (b, fall) := at_ b nextPc (if isCond f then start else bare)
        let (b, t) := at_ b goal start
        .over (close b (w1.emit [here [] (some (f, o, t))]) (some fall) place)
    else
      let w2 := w1.emit [here ws none]
      if isCalli f then
        let (b, fall) := at_ b nextPc bare
        .over (close b w2 (some fall) place)
      else if endsWalk f then .over (close b w2 none place)
      else .more b (w2.goto nextPc)

/-- The instruction's own words where no fallback applies, else those of the instruction with its fallbacks. -/
def cleanWords (e : SpecEnv) (f : Form) (o : Op) (ws : List HWord) : List HWord :=
  if e.cm || warnBits f { o with t := false } = 0 then clearT ws else encodeForm f (cleanOp f o)

/-- One instruction of the walk (21 R338). `vary` are the branches that a rebuild takes as varying. -/
def walkInstr (e : SpecEnv) (gen : Bool) (vary : List Nat) (b : Build) (w : Walker) (i : Instr) (o0 : Op)
    (ws : List HWord) : Stepped :=
  match i.form? with
  | none => .over (.failed ⟨w.pc, 2, tPGF⟩)
  | some f =>
    let ofs := w.pc - e.base
    let nextPc := w.pc + 2 * ws.length
    let warned := !e.cm && warnBits f { o0 with t := o0.t && !gen } != 0
    let b := if warned then b.note swFallback w.pc else b
    let o := if e.cm then { o0 with t := false } else cleanOp f o0
    let ws' := cleanWords e f o0 ws
    let marked := o0.t && !gen && !f.side
    if !marked then emitInstr e b w gen f o ws' .none
    else if isBr f || isCond f then
      if vary.contains w.pc then emitInstr e b w gen f o ws' .none
      else if isCond f && !w.known.has (.g o.rd) then emitInstr e (b.note swDemote w.pc) w gen f o ws' .none
      else if o.m && !b.admits e gen w 1 then .over (giveUp b e w swGrowth)
      else
        let b := { (b.count gen o.m.toNat) with folds := b.folds + 1 }
        let w := w.removed o.m ofs
        if isCond f && !branchTaken f o w.known then .more b (w.goto nextPc)
        else
          let goal : Int := w.pc + 2 * branchOff f o
          if !e.inside goal then .over (.failed ⟨w.pc, 1, tCAPB⟩)
          else if goal ≤ (w.pc : Int) then
            match w.backEdge e.base goal.toNat w.pc with
            | none => .over (.again w.pc)
            | some w' => .more b (w'.goto goal.toNat)
          else .more b (w.goto goal.toNat)
    else if formAt f 0 26 0 then emitInstr e { b with folds := b.folds + 1 } w gen f o ws' .none
    else if (foldRun i b.s).isNone || !(formReads f o).all w.known.has then
      emitInstr e (b.note swDemote w.pc) w gen f o ws' .none
    else
      match evalStatic e b w i f o with
      | .failed x => .over (.failed x)
      | .demote bits => emitInstr e (bits.foldl (fun b k => b.note k w.pc) b) w gen f o ws' .none
      | .ok b d v fl =>
        let b := { b with folds := b.folds + 1 }
        match d, v with
        | .g r, .g x =>
          if !x.tag && x.data.extractLsb' 64 64 == 0 && !fl then
            let w1 := { w with known := w.known.put d v, stale := if r = 0 then w.stale else insertNat r w.stale }
            if o.m && !b.admits e gen w1 1 then .over (giveUp b e w swGrowth)
            else .more (b.count gen o.m.toNat) ((w1.removed o.m ofs).goto nextPc)
          else emitInstr e b w gen f o ws' v
        | _, _ => emitInstr e b w gen f o ws' v

/-- Walks one block to its end, with `fuel` instructions left (21 R338). It ends when the launch has made 2^20 folds (R341). -/
def walkBlock (e : SpecEnv) (gen : Bool) (vary : List Nat) : Nat → Build → Walker → Walked
  | 0, b, w => finish b e gen w (some .past)
  | fuel + 1, b, w =>
    if !gen && decide (2 ^ 20 ≤ b.folds) then giveUp b e w swBudget
    else if gen && !w.items.isEmpty && (b.genericAt w.pc).isSome then
      finish b e gen w ((b.genericAt w.pc).map .block)
    else
      match readCode e b.s w.pc 5 Chain.start w.pc [] with
      | .error f => .failed f
      | .ok .past => finish b e gen w (some .past)
      | .ok (.bad ws) =>
        let ofs := w.pc - e.base
        let ms := w.mats w.stale ofs
        let size := ws.length + emitSize ms
        let w1 := (w.emit ms).emit [⟨clearT ws, none, ofs, w.iter, false⟩]
        if !b.admits e gen { w1 with stale := [] } size then giveUp b e w swGrowth
        else walkBlock e gen vary fuel (b.count gen size) ({ w1 with stale := [] }.goto (w.pc + 2 * ws.length))
      | .ok (.instr i o ws) =>
        match walkInstr e gen vary b w i o ws with
        | .over r => r
        | .more b' w' => walkBlock e gen vary fuel b' w'

/-- The instructions that the walk of one block may take: every fold and every emission is bounded (21 R341). -/
def walkFuel : Nat := 2 ^ 21

/-- Builds one block, again with a branch taken as varying while a loop runs too often (21 R339); `n` bounds the
rebuilds. -/
def buildBlock (e : SpecEnv) : Nat → List Nat → Build → Nat → CodeBlock → Except SpecFail Build
  | 0, _, b, _, _ => .ok b
  | n + 1, vary, b, i, k =>
    match walkBlock e k.known.isNone vary walkFuel b ⟨i, k.pc, k.known.getD Known.bare, [], k.loops, []⟩ with
    | .failed f => .error f
    | .again pc => buildBlock e n (pc :: vary) (b.note swLoop pc) i k
    | .ended b' items next tail =>
      .ok (({ b' with blocks := b'.blocks.modify i (fun x => { x with items := items, next := next, tail := tail }) } : Build).cut
        e i)

/-- Builds blocks from number `i` on until every block is built. -/
def buildFrom (e : SpecEnv) : Nat → Nat → Build → Except SpecFail Build
  | 0, _, b => .ok b
  | n + 1, i, b =>
    match b.blocks[i]? with
    | none => .ok b
    | some k =>
      match buildBlock e 131072 [] b i k with
      | .error f => .error f
      | .ok b' => buildFrom e n (i + 1) b'

/-! ## The layout -/

/-- The instructions of the image in order, each with the number of the block that begins with it, and a `br` where a
block's successor does not follow it. -/
def flatten (bs : List CodeBlock) : List (Option Nat × Emit) :=
  bs.zipIdx.flatMap (fun p =>
    let tail := match p.1.next with
      | none => []
      | some t =>
        if t = .block (p.2 + 1) ∧ p.2 + 1 < bs.length then []
        else if t = .past ∧ p.2 + 1 = bs.length then []
        else
          [(⟨[], some (⟨0, 12, none, .fb, .none, .none, .none, .none, false, 2 ^ 27 - 1, 3, false, false, false, false, false⟩,
            opNop, t), p.1.tail.1, p.1.tail.2, false⟩ : Emit)]
    match p.1.items ++ tail with
    | [] => [(some p.2, ⟨[], none, 0, 0, false⟩)]
    | x :: xs => (some p.2, x) :: xs.map (fun y => (none, y)))

/-- A direct branch with a displacement of `n` PIMMs. -/
def branchWords (f : Form) (o : Op) (n : Nat) (off : Int) : List HWord :=
  let k := if f.fmt = .fb then 9 else 5
  let x := (off % (2 ^ (k + 9 * n) : Nat)).toNat
  let opnd : BitVec 9 := if f.fmt = .fb then BitVec.ofNat 9 x else o.opnd.extractLsb' 5 4 ++ BitVec.ofNat 5 x
  encodeForm f { o with opnd := opnd, pimm := chunks n (x / 2 ^ k), t := false }

/-- Whether a displacement fits in `n` PIMMs. -/
def branchFits (f : Form) (n : Nat) (off : Int) : Bool :=
  let k := (if f.fmt = .fb then 9 else 5) + 9 * n
  decide (-(2 ^ (k - 1) : Nat) ≤ off ∧ off < (2 ^ (k - 1) : Nat))

/-- The words of an entry with `n` PIMMs for a branch. -/
def entrySize (x : Emit) (n : Nat) : Nat :=
  match x.br with
  | some (f, o, _) => (branchWords f o n 0).length
  | none => x.ws.length

/-- `nop` words before an instruction of `k` words at word `at_` that would cross a 64 KiB boundary (21 R338). -/
def padWords (at_ k : Nat) : Nat :=
  if k = 0 ∨ at_ / 32768 = (at_ + k - 1) / 32768 then 0 else 32768 - at_ % 32768

/-- The word at which each instruction begins, and the length of the image. -/
def places : List ((Option Nat × Emit) × Nat) → Nat → List Nat × Nat
  | [], at_ => ([], at_)
  | (x, n) :: rest, at_ =>
    let k := entrySize x.2 n
    let p := at_ + padWords at_ k
    let (ps, e) := places rest (p + k)
    (p :: ps, e)

/-- Where a target lies. -/
def targetPos (xs : List (Option Nat × Emit)) (ps : List Nat) (e : Nat) (t : Target) : Nat :=
  match t with
  | .past => e
  | .block i => match xs.findIdx? (fun x => x.1 == some i) with
    | some j => ps.getD j e
    | none => e

/-- Widens branches that do not fit, `n` times or until none changes (21 R338, 03 R61). -/
def widen (xs : List (Option Nat × Emit)) : Nat → List Nat → List Nat
  | 0, ns => ns
  | fuel + 1, ns =>
    let (ps, e) := places (xs.zip ns) 0
    let ns' := ((xs.zip ns).zip ps).map (fun q => match q.1.1.2.br with
      | some (f, _, t) =>
        if branchFits f q.1.2 ((targetPos xs ps e t : Int) - (q.2 : Int)) then q.1.2 else min 3 (q.1.2 + 1)
      | none => q.1.2)
    if ns' = ns then ns else widen xs fuel ns'

/-- A back-map entry (21 Table 202). -/
def backEntry (x : Emit) (mat : Bool) : Word :=
  0#15 ++ BitVec.ofBool mat ++ BitVec.ofNat 16 x.iter ++ BitVec.ofNat 32 x.ofs

/-- The words of the image with their back-map entries. -/
def imageOf (bs : List CodeBlock) : List (HWord × Word) :=
  let xs := flatten bs
  let ns := widen xs (3 * xs.length + 1) (xs.map (fun _ => 0))
  let (ps, e) := places (xs.zip ns) 0
  (((xs.zip ns).zip ps).foldl (fun (acc : List (List (HWord × Word)) × Nat) q =>
    let x := q.1.1.2
    let ws := match x.br with
      | some (f, o, t) => branchWords f o q.1.2 ((targetPos xs ps e t : Int) - (q.2 : Int))
      | none => x.ws
    let pad := List.replicate (q.2 - acc.2) ((0x3400 : HWord), backEntry x true)
    ((pad ++ ws.map (fun w => (w, backEntry x x.mat))) :: acc.1, q.2 + ws.length)) ([], 0)).1.reverse.flatten

/-! ## The cache -/

/-- The physical and the virtual base of a die's cache (21 R328). -/
def cachePa (d : Nat) : Nat := 4 * d * 2 ^ 36 + 0xFFFC00000
def cacheVa (d : Nat) : Nat := residualBase + d * 0x400000

/-- Whether every page of a die's residual window is mapped as R328 requires; a window is 64 pages of 64 KiB. -/
def State.windowOk (s : State) (root : Word) (d : Nat) : Bool :=
  (List.range 64).all (fun i =>
    let va := cacheVa d + 65536 * i
    match walk s root va with
    | .ok l => leafX l.e && !leafW l.e && l.pa va == cachePa d + 65536 * i
    | .error _ => false)

/-- The 64 KiB blocks that an entry takes. -/
def Spec.span (e : Spec) (d : Nat) : List Nat :=
  (List.range ((2 * e.image.length + 65535) / 65536)).map (fun i => (e.base - cacheVa d) / 65536 + i)

/-- The first run of `n` free blocks of a cache. -/
def freeRun (used : List Nat) (n : Nat) : Option Nat :=
  (List.range 64).find? (fun i => decide (i + n ≤ 64) && (List.range n).all (fun j => !used.contains (i + j)))

/-- Makes room for `n` blocks, replacing unpinned entries, the oldest first (21 R332). -/
def specRoom (s : State) (d n : Nat) : Nat → List Spec → Option (Nat × List Spec)
  | 0, _ => none
  | fuel + 1, es =>
    match freeRun (es.flatMap (fun e => e.span d)) n with
    | some i => some (i, es)
    | none =>
      match es.find? (fun e => !s.pinned e.id) with
      | none => none
      | some e => specRoom s d n fuel (es.filter (fun x => x.id != e.id))

/-- The configuration word (21 Table 197). -/
def State.specConfig (s : State) (v core : Nat) (p : Pen) : Word :=
  let cr := (s.ctx core 0).cr
  let n := ((List.range 24).filter (fun l => decide ((s.vif v).phys l < 24))).length
  BitVec.ofNat 64 (n * 2 ^ 27 + p.w / 4 * 2 ^ 22 + p.h / 2 * 2 ^ 17 + (cr.fmtb.extractLsb' 0 5).toNat * 128 +
    (cr.fmta.extractLsb' 0 5).toNat * 4 + cr.cm.toNat)

/-- Whether an entry is a hit (21 R332). -/
def State.specHit (s : State) (root : Word) (key : BitVec 128) (digest : BitVec 256) (cfg : Word) (u : List Byte)
    (e : Spec) : Bool :=
  e.key == key && e.digest == digest && e.config == cfg && e.uniform == u &&
  e.log.all (fun r => match walk s root r.1 with
    | .ok l => leafR l.e && leafFrz l.e && !s.poison (l.pa r.1) && s.granule (l.pa r.1) == r.2
    | .error _ => false)

/-- The sentry to residual code: the original permissions, bounded to the image (21 R342). -/
def Spec.sentry (e : Spec) (orig : GReg) : GReg :=
  makeCap orig.perms 1 e.base (2 * e.image.length) (BitVec.ofNat 64 (e.base + 2 * e.entry))

/-- What specialisation comes to: the original code, residual code with its entry, a failure, or a read that waits. -/
inductive SpecOut where
  | wait
  | plain (s : State)
  | use (s : State) (id : Nat) (entry : GReg)
  | failed (s : State) (f : SpecFail)

/-- The launch report (21 R346). -/
def State.specReport (s : State) (v slot lid outcome warn : Nat) (fpc : Nat) (nword nfold : Nat) : State :=
  s.postEvent v (eventBytes 0x08 v slot outcome warn (BitVec.ofNat 64 fpc) lid (nword + 2 ^ 32 * nfold))

/-- A launch is left unspecialised, with a report; `nfold` static evaluations were made (21 R327, R346). -/
def State.specPlain (s : State) (v slot lid warn fpc nfold : Nat) : SpecOut :=
  .plain (s.specReport v slot lid 2 warn fpc 0 nfold)

/-- The branches and calls of an extent of `n` words, decoded one after another from word `i` (21 R341). -/
def countBranches (rd : Nat → HWord) : Nat → Nat → Chain → Nat
  | 0, _, _ => 0
  | n + 1, i, c =>
    let w := rd i
    if isPrefix w then
      match c.step w with
      | .ok c' => countBranches rd n (i + 1) c'
      | .error _ => countBranches rd n (i + 1) Chain.start
    else
      let k := match c.finish w with
        | .ok (x, _) => (match x.form? with
          | some f => (isCond f || isBr f || isCall f || isCalli f).toNat
          | none => 0)
        | .error _ => 0
      k + countBranches rd n (i + 1) Chain.start

/-- A code word of an extent, 0 where it cannot be read. -/
def State.extentWord (s : State) (root : Word) (a : Nat) : HWord :=
  match walk s root a with
  | .ok l => BitVec.ofNat 16 (s.nat (l.pa a) 2)
  | .error _ => 0

/-- Writes an image into the cache and adds its entry (21 R331). -/
def State.addSpec (s : State) (d : Nat) (es : List Spec) (e : Spec) : State :=
  let bs := e.image.flatMap (fun w => toLE w.toNat 2)
  (s.store (cachePa d + (e.base - cacheVa d)) bs false).modDie d (fun k => { k with specs := es ++ [e] })

/-- Builds residual code for a launch (21 R338 to R346). An image that came out longer than L, by the branches between its blocks and
its padding, is not used, as when G > L. DESIGN CHOICE (log 94). -/
def State.specBuild (s : State) (v slot lid core d : Nat) (root : Word) (entry : GReg) (kr : KRec) (u : List Byte)
    (ucap : GReg) (key : BitVec 128) (digest : BitVec 256) (cfg : Word) : SpecOut :=
  let (lo, hi) := entry.bounds
  let base := lo.toNat
  let top := hi.toNat
  let w0 := (top - base) / 2
  let limit := min (4 * w0) 131072
  let rd := fun i => s.extentWord root (base + 2 * i)
  let reserve := w0 + 2 * countBranches rd w0 0 Chain.start
  if limit < reserve then s.specPlain v slot lid (2 ^ swGrowth) 0 0
  else
    let e : SpecEnv := { vif := v, core := core, root := root, base := base, top := top, ua := ucap.addr,
                         ulen := kr.unifSize, cm := (s.ctx core 0).cr.cm, limit := limit, reserve := reserve }
    let b : Build := { s := s, blocks := [⟨entry.addr, some (Known.entry ucap), [], [], none, (0, 0)⟩], emitted := 0, generic := 0,
                       folds := 0, warn := 0, fpc := none, log := [], allGeneric := false }
    match buildFrom e (8 * limit + 1) 0 b with
    | .error f => if f.reason = 0 then .wait else .failed s f
    | .ok b =>
      let img := imageOf b.blocks
      let n := img.length
      if limit < n then s.specPlain v slot lid (b.warn ||| 2 ^ swGrowth) (b.fpc.getD 0) b.folds else
      match specRoom s d ((2 * n + 65535) / 65536) ((s.die d).specs.length + 1) (s.die d).specs with
      | none => s.specPlain v slot lid (b.warn ||| 2 ^ swCache) (b.fpc.getD 0) b.folds
      | some (i, es) =>
        let (id, s) := s.fresh
        let x : Spec := { id := id, key := key, digest := digest, config := cfg, uniform := u,
                          log := b.log.map (fun r => (r.1, r.2.1)), logPages := b.log.map (fun r => r.2.2),
                          base := cacheVa d + 65536 * i, image := img.map Prod.fst, backmap := img.map Prod.snd,
                          codeBase := BitVec.ofNat 64 base, entry := 0, warn := BitVec.ofNat 16 b.warn,
                          fpc := BitVec.ofNat 64 (b.fpc.getD 0), doomed := false }
        .use ((s.addSpec d es x).specReport v slot lid 1 b.warn (b.fpc.getD 0) n b.folds) id (x.sentry entry)

/-- The specialise step of a launch (21 R327 to R332). -/
def State.specialise (s : State) (v slot lid core : Nat) (p : Pen) (entry : GReg) (kr : KRec) (u : List Byte)
    (ucap : GReg) : SpecOut :=
  let root := (s.vif v).troot
  let d := (s.vif v).home
  let (lo, hi) := entry.bounds
  if kr.kflags % 2 = 0 then .plain s
  else if !decide (lo ≤ (entry.addr : Int) ∧ (entry.addr : Int) + 2 ≤ hi) then s.specPlain v slot lid (2 ^ swExtent) 0 0
  else if !s.windowOk root d then s.specPlain v slot lid (2 ^ swWindow) 0 0
  else
    let cfg := s.specConfig v core p
    let digest : BitVec 256 := BitVec.ofNat 256 (leNat kr.digest)
    let key := (shakeNum (kr.digest ++ u ++ toLE cfg.toNat 8)).setWidth 128
    match (s.die d).specs.find? (s.specHit root key digest cfg u) with
    | some e => .use s e.id (e.sentry entry)
    | none => s.specBuild v slot lid core d root entry kr u ucap key digest cfg

/-- SPEC_ENTRY_DROP: the specialiser may drop an unpinned entry at any time (R333). -/
def execSpecEntryDrop (die idx : Nat) (s : State) : Host.Outcome State Fault Refusal :=
  if 4 ≤ die then .fault .noSuchPart
  else
    match (s.die die).specs[idx]? with
    | none => .next s
    | some e =>
      if s.pinned e.id then .next s
      else .next (s.modDie die (fun k => { k with specs := k.specs.filter (fun x => x.id != e.id) }))

end Sys2Proof.Machine
end

