-- ==== Sys2Proof/Machine/Stream.lean ====
section
/-! DEFINITION. Command streams: reading commands, stream errors, and the commands that need no launch (20 R310 to R314,
R318). -/

namespace Sys2Proof.Machine

/-- The size of the ring in bytes (20 Table 188). -/
def Vif.ringSize (i : Vif) : Nat := 2 ^ (i.rsize.toNat % 32)

/-- The stream words that are there to be read: in the ring up to RTAIL, in a nested buffer up to its end (20 R310,
R312). -/
def Vif.avail (i : Vif) : Nat :=
  match i.nest with
  | [] => (i.rtail.toNat % i.ringSize + i.ringSize - i.rhead.toNat % i.ringSize) % i.ringSize / 4
  | b :: _ => b.len - b.pos

/-- The virtual address of the `k`th stream word from the position (20 R310). -/
def Vif.wordVa (i : Vif) (k : Nat) : Nat :=
  match i.nest with
  | [] => (i.rbase.toNat / 4096 * 4096 + (i.rhead.toNat + 4 * k) % i.ringSize) % 2 ^ 64
  | b :: _ => (b.addr.toNat + 4 * (b.pos + k)) % 2 ^ 64

/-- What a read of stream words gives. -/
inductive WordsRd where
  | ok (s : State) (ws : List (BitVec 32))
  | wait
  | fault

/-- Reads `n` stream words from the `k`th on (20 R310). -/
def State.streamWords (v : Nat) : Nat → Nat → State → WordsRd
  | 0, _, s => .ok s []
  | n + 1, k, s =>
    match s.rootRead (s.vif v).troot ((s.vif v).wordVa k) 4 with
    | .wait => .wait
    | .fault => .fault
    | .ok s1 g =>
      match State.streamWords v n (k + 1) s1 with
      | .ok s2 ws => .ok s2 (word32 (s1.readPieces g) 0 :: ws)
      | r => r

/-- What Table 192 says of a command type: the counts that it allows, whether it is privileged, and its flags. -/
def cmdInfo (ty n : Nat) : Option (Bool × Bool × Nat) :=
  match ty with
  | 0x00 => some (true, false, 0)
  | 0x01 => some (n == 3, false, 0)
  | 0x02 => some (n == 0, false, 0)
  | 0x10 => some (n == 7, false, 1)
  | 0x11 => some (n == 4, false, 1)
  | 0x12 => some (n % 2 == 1 && decide (n ≤ 511), false, 0)
  | 0x20 => some (n == 1, false, 1)
  | 0x21 => some (n == 4, false, 1)
  | 0x22 => some (n == 1, false, 0)
  | 0x30 => some (decide (2 ≤ n ∧ n ≤ 97), true, 0)
  | 0x31 => some (n == 1, true, 0)
  | 0x32 => some (n == 1, true, 1)
  | _ => none

/-- The next command of a stream: there is none to be read now, it is an error, or its type, flags, count and payload. -/
inductive CmdRd where
  | idle
  | error (s : State) (code : Nat)
  | ok (s : State) (ty flags n : Nat) (ws : List (BitVec 32))

/-- The error of a command's header, in the order of Table 192's columns (20 R311 to R313). -/
def Vif.headerError (i : Vif) (ty fl n : Nat) : Option Nat :=
  match cmdInfo ty n with
  | none => some 1
  | some (okN, priv, mask) =>
    if !okN then some 2
    else if priv && !i.priv then some 4
    else if fl / (mask + 1) ≠ 0 then some 6
    else if ty = 1 ∧ 4 ≤ i.nest.length then some 3
    else if ty = 2 ∧ i.nest = [] then some 7
    else if i.avail < n + 1 ∧ i.nest ≠ [] then some 8
    else none

/-- Reads the next command of a stream that runs (20 R310 to R313). -/
def State.nextCmd (s : State) (v : Nat) : CmdRd :=
  let i := s.vif v
  if !i.run ∨ i.avail = 0 then .idle
  else
    match State.streamWords v 1 0 s with
    | .ok s1 (h :: _) =>
      let ty := h.toNat / 2 ^ 24
      let fl := h.toNat / 2 ^ 16 % 256
      let n := h.toNat % 2 ^ 16
      (match i.headerError ty fl n with
      | some c => .error s1 c
      | none =>
        if i.avail < n + 1 then .idle
        else if ty = 0 then .ok s1 ty fl n []
        else
          match State.streamWords v n 1 s1 with
          | .ok s2 ws => .ok s2 ty fl n ws
          | .wait => .idle
          | .fault => .error s1 5)
    | .fault => .error s 5
    | _ => .idle

/-- EOFS of the command at the position (20 Table 190). -/
def Vif.offset (i : Vif) : Nat :=
  match i.nest with
  | [] => i.rhead.toNat % i.ringSize
  | b :: _ => 4 * b.pos

/-- A stream error of the command whose header lies at an offset (20 R313). -/
def State.streamErrorAt (s : State) (v code o : Nat) : State :=
  (s.modVif v (fun i => { i with run := false, err := true, ecode := BitVec.ofNat 8 code, eofs := BitVec.ofNat 32 o })).event
    0x02 v code 0 (BitVec.ofNat 64 o) 0

/-- A stream error of the command at the position. -/
def State.streamError (s : State) (v code : Nat) : State :=
  (s.modVif v (fun i => { i with began := false })).streamErrorAt v code (s.vif v).offset

/-- Moves the position of a stream past `n` words. -/
def Vif.moveOn (i : Vif) (n : Nat) : Vif :=
  match i.nest with
  | [] => { i with rhead := BitVec.ofNat 64 ((i.rhead.toNat + 4 * n) % i.ringSize), began := false }
  | b :: bs => { i with nest := { b with pos := b.pos + n } :: bs, began := false }

/-- Returns from the buffers that have been read to their end (20 R312). -/
def Vif.unnest (i : Vif) : Vif := { i with nest := i.nest.dropWhile (fun b => decide (b.len ≤ b.pos)) }

/-- What a command comes to: it waits, is performed, has moved the stream itself, or is an error. -/
inductive CmdOut where
  | wait (s : State)
  | done (s : State)
  | moved (s : State)
  | error (s : State) (code : Nat)

/-- A command event: the ringmaster takes the next command of a stream when it has the event's type; a command that
cannot be taken stops the stream (20 R313, R314). -/
def command (v ty : Nat) (s : State) (body : State → Nat → List (BitVec 32) → CmdOut) :
    Host.Outcome State Fault Refusal :=
  if 64 ≤ v then .fault .noSuchPart
  else
    match s.nextCmd v with
    | .idle => .next s
    | .error s1 c => .next (s1.streamError v c)
    | .ok s1 t fl n ws =>
      if t ≠ ty then .next s
      else
        match body s1 fl ws with
        | .wait s2 => .next s2
        | .done s2 => .next (s2.modVif v (fun i => (i.moveOn (n + 1)).unnest))
        | .moved s2 => .next s2
        | .error s2 c => .next (s2.streamError v c)

/-- Word `i` of a payload, from 1 as Table 192 numbers them. -/
def payload (ws : List (BitVec 32)) (i : Nat) : Nat := (ws.getD (i - 1) 0).toNat

/-- The two-word number at words `i` and `i` + 1. -/
def payload2 (ws : List (BitVec 32)) (i : Nat) : Word := wordPair ws (i - 1)

/-- NOP (R311, R314). -/
def execStreamNop (vif : Nat) (s : State) : Host.Outcome State Fault Refusal :=
  command vif 0x00 s (fun s _ _ => .done s)

/-- INDIRECT: the stream moves past it, and goes on in the nested buffer (R312). -/
def execIndirect (vif : Nat) (s : State) : Host.Outcome State Fault Refusal :=
  command vif 0x01 s (fun s _ ws =>
    let a := payload2 ws 1
    let n := payload ws 3
    if a.toNat % 4 ≠ 0 ∨ n = 0 ∨ 2 ^ 20 < n then .error s 6
    else .moved (s.modVif vif (fun i => let j := i.moveOn 4; { j with nest := ⟨a, n, 0⟩ :: j.nest })))

/-- RETURN (R312). -/
def execReturnBuf (vif : Nat) (s : State) : Host.Outcome State Fault Refusal :=
  command vif 0x02 s (fun s _ _ =>
    .moved (s.modVif vif (fun i => ({ i with nest := i.nest.tail, began := false }).unnest)))

/-- WAIT.LEVEL (R318). -/
def execWaitLevel (vif : Nat) (s : State) : Host.Outcome State Fault Refusal :=
  command vif 0x20 s (fun s fl ws =>
    let n := payload ws 1
    let l := (s.vif vif).level n
    if 64 ≤ n then .error s 6
    else if l.st ≠ .complete then .wait s
    else if fl = 1 ∧ l.cxl then .error s 6
    else .done s)

/-- SIGNAL: its write through TROOT, and event 0x03 when asked for. A write that faults posts event 0x02 with code 5, and
the stream continues (R318). -/
def execSignal (vif : Nat) (s : State) : Host.Outcome State Fault Refusal :=
  command vif 0x21 s (fun s fl ws =>
    let a := payload2 ws 1
    let x := payload2 ws 3
    let bad := fun (s : State) => CmdOut.done (s.event 0x02 vif 5 0 (BitVec.ofNat 64 (s.vif vif).offset) 0)
    if a.toNat % 8 ≠ 0 then .error s 6
    else
      match s.translateRoot (s.vif vif).troot a kStore with
      | .error t => if t = waitReq then .wait s else bad (s.frozenAt (s.vif vif).troot a.toNat)
      | .ok (s1, pa) =>
        if s1.ownedAny pa 8 then .wait s
        else if (s1.partPoison pa 8).isSome then bad s1
        else
          let s2 := (s1.store pa (toLE x.toNat 8) false).serve
          .done (if fl = 1 then s2.event 0x03 vif 0 0 x 0 else s2))

/-- CANCEL: it is performed when its level no longer reads CANCELLING by it (R314, R318). -/
def execStreamCancel (vif : Nat) (s : State) : Host.Outcome State Fault Refusal :=
  command vif 0x22 s (fun s _ ws =>
    let n := payload ws 1
    if 64 ≤ n then .error s 6
    else if (s.vif vif).began then (if ((s.vif vif).level n).st = .cancelling then .wait s else .done s)
    else
      match s.cancelLevel vif n with
      | (s1, true) => .wait (s1.modVif vif (fun i => { i with began := true }))
      | (s1, false) => .done s1)

/-! ## Registers of the user page -/

/-- A part number that must be below a bound. -/
def partOk (n bound : Nat) (s : State) (f : State → State) : Host.Outcome State Fault Refusal :=
  if bound ≤ n then .fault .noSuchPart else .next (f s)

/-- RSTAT: ERR is cleared by writing 1, and RUN is written, but a 1 is ignored while ERR stays set (Table 190). -/
def Vif.writeRstat (i : Vif) (x : Word) : Vif :=
  let err := i.err && !x.getLsbD 1
  { i with err := err, run := x.getLsbD 0 && !err }

/-- RSTAT_WRITE (R313). -/
def execRstatWrite (vif : Nat) (val : Word) (s : State) : Host.Outcome State Fault Refusal :=
  partOk vif 64 s (fun s => s.modVif vif (fun i => i.writeRstat val))

/-- RHEAD: while RUN is 0 a write drops every open buffer (R313); while it is 1 the register is the hardware's. -/
def Vif.writeRhead (i : Vif) (x : Word) : Vif :=
  if i.run then i else { i with rhead := x &&& ~~~3#64, nest := [], began := false }

/-- A write of RHEAD. A command that had begun is given up, and a map change releases its `start`s (20 R313). -/
def State.rheadWrite (s : State) (v : Nat) (x : Word) : State :=
  let i := s.vif v
  let s1 := if i.began && !i.run && !i.turnEnding then
      (s.cores.map Prod.fst).foldl (fun s c =>
        if s.vifOf c = some v then s.modCore c (fun k => { k with startHeld := false }) else s) s
    else s
  s1.modVif v (fun i => i.writeRhead x)

/-- RHEAD_WRITE (R313). -/
def execRheadWrite (vif : Nat) (val : Word) (s : State) : Host.Outcome State Fault Refusal :=
  partOk vif 64 s (fun s => s.rheadWrite vif val)

/-- RTAIL_WRITE (R310). -/
def execRtailWrite (vif : Nat) (val : Word) (s : State) : Host.Outcome State Fault Refusal :=
  partOk vif 64 s (fun s => s.modVif vif (fun i => { i with rtail := val &&& ~~~3#64 }))

/-- EQDROP_WRITE: any value sets 0 (Table 188). -/
def execEqdropWrite (vif : Nat) (_val : Word) (s : State) : Host.Outcome State Fault Refusal :=
  partOk vif 64 s (fun s => s.modVif vif (fun i => { i with eqdrop := 0 }))

end Sys2Proof.Machine
end

