-- ==== Sys2Proof/Machine/Tap.lean ====
section
/-! DEFINITION. The landing path of an array and its tap unit: deferred pages, parking, rows, probes, steering, the tap
record, and the forms `tapsel` and `tapst` (16 R282 to R288, 19 R294 to R308). -/

namespace Sys2Proof.Machine

/-! ## The probe table -/

/-- The six granules of an entry that may be listed as empty (19 Table 180). -/
def Probe.granules (p : Probe) : List GReg := (List.range 6).map (fun i => p.getD i .null)

/-- Fields of an entry (19 Tables 180 and 181). -/
def Probe.gran (p : Probe) (i : Nat) : GReg := p.getD i .null
def Probe.bias (p : Probe) : Nat := ((p.gran 3).data.extractLsb' 0 32).toNat
def Probe.thr (p : Probe) : Nat := ((p.gran 3).data.extractLsb' 32 32).toNat
def Probe.ectl (p : Probe) : Word := (p.gran 3).data.extractLsb' 64 64
def Probe.count (p : Probe) : Nat := ((p.gran 4).data.extractLsb' 0 32).toNat
def Probe.valid (p : Probe) : Bool := p.ectl.getLsbD 0
def Probe.scored (p : Probe) : Bool := p.ectl.getLsbD 1
def Probe.act (p : Probe) : Nat := (p.ectl.extractLsb' 2 2).toNat
def Probe.steer (p : Probe) : Nat := (p.ectl.extractLsb' 4 2).toNat
def Probe.nseq (p : Probe) : Nat := (p.ectl.extractLsb' 16 16).toNat

/-- The entry with another COUNT. -/
def Probe.setCount (p : Probe) (n : Nat) : Probe :=
  p.granules.set 4 ⟨((p.gran 4).data >>> 64) <<< 64 ||| BitVec.ofNat 128 n, (p.gran 4).tag⟩

/-- An entry that reads as zero is not listed. -/
def Probe.norm (p : Probe) : Probe := if p.all (fun x => x == .null) then [] else p

/-- The probe table of a core's partition. -/
def State.probe (s : State) (core i : Nat) : Probe :=
  match s.vifOf core with
  | some v => Store.get [] (s.vif v).probes i
  | none => []

/-- Writes an entry of a core's partition. -/
def State.setProbe (s : State) (core i : Nat) (p : Probe) : State :=
  match s.vifOf core with
  | some v => s.modVif v (fun x => { x with probes := Store.set [] x.probes i p.norm })
  | none => s

/-- One more row crossed an entry (19 R302). -/
def State.countProbe (s : State) (core i : Nat) : State :=
  let p := s.probe core i
  s.setProbe core i (p.setCount (min (2 ^ 32 - 1) (p.count + 1)))

/-- A use of a probe capability by an entry: the capability and the bytes it must allow. -/
def Probe.uses (p : Probe) : List (GReg × Nat) :=
  (if p.scored then [(p.gran 0, 512)] else []) ++
  (if p.steer ≠ 0 then [(p.gran 1, 512), (p.gran 2, 4 * p.nseq)] else [])

/-- The checks of an image (19 R297): capabilities in the order PV, SV, ST, then addresses, reserved values and fields. A
field that the entry does not use is not checked. -/
def Probe.checks (p : Probe) (pc : Word) : Except TrapReq Unit :=
  if !p.valid then .ok ()
  else
    let need := fun (b : Bool) => if b then Except.ok () else Except.error (ill pc 10)
    firstErr (p.uses.map (fun u => check u.1 u.1.word u.2 (pL ||| pE)) ++
      p.uses.map (fun u => need (decide (u.1.addr < 2 ^ 47 ∧ u.1.addr + u.2 ≤ 2 ^ 47))) ++
      [need (!p.scored || decide (p.act ≠ 3)),
       need (p.ectl.extractLsb' 32 32 == 0 && p.ectl.extractLsb' 6 10 == 0 &&
         (p.gran 4).data.extractLsb' 64 64 == 0 && (p.gran 5).data == 0)])

/-- The bits of BIAS, THR and ECTL that are not reserved (19 Tables 180 and 181). -/
def probeMask : BitVec 128 := 0x00000000FFFF003FFFFFFFFFFFFFFFFF#128

/-- The entry that an image writes: COUNT and the reserved bits are zero, and only the capability fields keep tags
(19 R296, 00 R9). -/
def Probe.written (p : Probe) : Probe :=
  [p.gran 0, p.gran 1, p.gran 2, ⟨(p.gran 3).data &&& probeMask, false⟩, .null, .null]

/-! ## The tap unit -/

/-- A selection that is not absent: its slot, the index of its entry, the entry, and the vectors and strengths read
(19 R298). -/
structure Sel where
  slot : Nat
  idx : Nat
  entry : Probe
  pv : List FV
  sv : List FV
  str : List (Nat × FV)
  deriving DecidableEq, Repr

/-- The f32 values that bytes hold. -/
def f32s : Nat → List Byte → List FV
  | 0, _ => []
  | n + 1, bs => FFmt.f32.decode (leNat (bs.take 4)) :: f32s n (bs.drop 4)

/-- What reading a selection gives: its values, an absent selection, or a wait. -/
inductive SelRd where
  | ok (s : State) (v : List FV)
  | wait
  | absent

/-- Reads `n` f32 values at an address for a hire; a failed translation or poison makes the selection absent. -/
def selRead (s : State) (h : Hire) (va n : Nat) : SelRd :=
  match s.engRead h.core h.id va (4 * n) with
  | .ok s1 bs false => .ok s1 (f32s n bs)
  | .ok _ _ true => .absent
  | .wait => .wait
  | .err _ => .absent

/-- Reads the strengths of sequence ids, once each. -/
def strRead (h : Hire) (base : Nat) : List Nat → State → Except Bool (State × List (Nat × FV))
  | [], s => .ok (s, [])
  | q :: qs, s =>
    match selRead s h (base + 4 * q) 1 with
    | .wait => .error true
    | .absent => .error false
    | .ok s1 v =>
      match strRead h base qs s1 with
      | .error e => .error e
      | .ok (s2, r) => .ok (s2, (q, v.headD (.zero false)) :: r)

/-- Reads one selection; the error says whether it waits or is absent through a failed read (19 R298). -/
def loadSel (s : State) (h : Hire) (seqs : List Nat) (slot idx : Nat) (p : Probe) : Except Bool (State × Sel) :=
  let rd := fun (s : State) (use : Bool) (va : Nat) =>
    if use then (match selRead s h va 128 with
      | .ok s1 v => Except.ok (s1, v)
      | .wait => .error true
      | .absent => .error false)
    else .ok (s, [])
  match rd s p.scored (p.gran 0).addr with
  | .error e => .error e
  | .ok (s1, pv) =>
    match rd s1 (decide (p.steer ≠ 0)) (p.gran 1).addr with
    | .error e => .error e
    | .ok (s2, sv) =>
      let ids := if p.steer ≠ 0 then sortNats (seqs.filter (fun q => decide (q < p.nseq ∧ q ≠ 0xFFFF))) else []
      match strRead h (p.gran 2).addr ids s2 with
      | .error e => .error e
      | .ok (s3, str) => .ok (s3, ⟨slot, idx, p, pv, sv, str⟩)

/-- A tap entry of the event queue (19 Table 184). -/
def State.postTap (s : State) (h : Hire) (kind sel entry seq row score : Nat) : State :=
  match s.vifOf h.core with
  | none => s
  | some v => s.postEvent v
      ([kind, v, s.lclOf h.core, cidxOf h.core, h.ctx, h.handle.getD 0x40, sel, entry].map (BitVec.ofNat 8) ++ toLE seq 2 ++
        toLE row 1 ++ [0] ++ toLE score 4 ++ toLE h.lid 4 ++ toLE 0 12)

/-- Reads the selections of a hire's sampled TAPSET in ascending order: the ones that are not absent, and the mask of
those absent through a failed read, each with its error event. None when a read waits. -/
def loadSels (h : Hire) (seqs : List Nat) : List Nat → State → Option (State × List Sel × Nat)
  | [], s => some (s, [], 0)
  | slot :: rest, s =>
    let idx := (h.tapset.extractLsb' (8 * slot) 8).toNat
    let p := s.probe h.core idx
    if !h.tapset.getLsbD (32 + slot) || !p.valid then loadSels h seqs rest s
    else
      match loadSel s h seqs slot idx p with
      | .error true => none
      | .error false =>
        match loadSels h seqs rest (s.postTap h 0x11 slot idx 0 0 0) with
        | none => none
        | some (s1, sels, m) => some (s1, sels, m + 2 ^ slot)
      | .ok (s1, x) =>
        match loadSels h seqs rest s1 with
        | none => none
        | some (s2, sels, m) => some (s2, x :: sels, m)

/-- A number rounded to f32. -/
def toF32 (x : FV) : FV := FFmt.f32.decode (FFmt.f32.encode .rne x).1

/-- The score of a row by a probe vector (19 R299). -/
def score (d pv : List FV) (bias : FV) : FV :=
  let prods := (d.zip pv).map (fun p => (p.1.mul p.2).1)
  let a := (List.range ((d.length + 31) / 32)).foldl (fun a g =>
    toF32 (a.add (sumFV ((prods.drop (32 * g)).take 32))).1) (.zero false)
  toF32 (a.add bias).1

/-- What the tap unit makes of a row: what lands, whether it is suppressed, the selections that crossed with their scores
(19 R299). -/
structure Tapped where
  bits : List Nat
  sup : Bool
  crossed : List (Sel × Nat)

/-- tap_row for a row that belongs to a sequence (19 R299 to R301). -/
def tapRow (f : DFmt) (sels : List Sel) (seq : Nat) (bits : List Nat) : Tapped :=
  let d := bits.map f.value
  let scored := sels.map (fun x =>
    if x.entry.scored then
      let sc := score d x.pv (FFmt.f32.decode x.entry.bias)
      (x, (FFmt.f32.decode x.entry.thr).lt sc, (FFmt.f32.encode .rne sc).1)
    else (x, false, 0))
  let t := scored.filter (fun r => r.1.entry.steer == 1 || (r.1.entry.steer == 2 && r.2.1) ||
    (r.1.entry.steer == 3 && !r.2.1))
  let crossed := (scored.filter (fun r => r.2.1)).map (fun r => (r.1, r.2.2))
  let out := if t.isEmpty then bits else
    (List.range d.length).map (fun j =>
      f.round (sumFV (d.getD j (.zero false) :: t.map (fun r =>
        (((r.1.str.find? (fun q => q.1 == seq)).map Prod.snd).getD (.zero false)).mul (r.1.sv.getD j (.zero false)) |>.1))))
  ⟨out, crossed.any (fun c => c.1.entry.act == 2), crossed⟩

/-- Whether crossings record an event: one of them has ACT 01 or 10 (19 R299). -/
def Tapped.isEvent (t : Tapped) : Bool := t.crossed.any (fun c => c.1.entry.act == 1 || c.1.entry.act == 2)

/-- MASK of an event. -/
def Tapped.mask (t : Tapped) : Nat := (t.crossed.map (fun c => 2 ^ c.1.slot)).sum

/-- SCORE of an event: of the lowest selection whose crossing has ACT 01 or 10 (19 Table 183). -/
def Tapped.score (t : Tapped) : Nat :=
  ((t.crossed.find? (fun c => c.1.entry.act == 1 || c.1.entry.act == 2)).map Prod.snd).getD 0

/-- An event of a hire: its row, sequence, mask, suppression and score. -/
structure TapEvent where
  row : Nat
  seq : Nat
  mask : Nat
  sup : Bool
  score : Nat
  deriving DecidableEq, Repr

/-- An event slot of the record (19 Table 183). -/
def TapEvent.slot (e : TapEvent) : Nat :=
  e.seq + e.row * 2 ^ 16 + e.sup.toNat * 2 ^ 23 + e.mask * 2 ^ 24 + e.score * 2 ^ 32

/-- The bytes of a tap record (19 Tables 182 and 183). -/
def recordBytes (evs : List TapEvent) (errm : Nat) : List Byte :=
  let n := evs.length
  let hdr := min 8 n + (if 8 < n then 16 else 0) + (if errm ≠ 0 then 32 else 0) + errm * 256 + n * 2 ^ 32
  toLE hdr 16 ++ (List.range 8).flatMap (fun i => toLE ((evs[i]?.map TapEvent.slot).getD 0) 8)

/-! ## Landing -/

/-- y of an output before round_dest (05 R111). -/
def Hire.yOf (h : Hire) (acc : Word) (din : Option FV) : FV :=
  let a := if h.intAcc then FV.ofInt acc.toInt else FFmt.f64.decode acc.toNat
  let y := match din with | some d => (a.add d).1 | none => a
  FFmt.f64.decode (FFmt.f64.encode .rne y).1

/-- D_in of a row, when the epilogue reads it: the value and the poison of each element (15 R270). -/
def Hire.rowIn (h : Hire) (s : State) (i : Nat) : List (FV × Bool) :=
  let g := pageSegs h.pages (h.rowAddr i) h.rowD
  let bs := s.readPieces g
  let ps := g.flatMap (fun p => (List.range p.2).map (fun k => s.poison (p.1 + k)))
  let n := h.fD.size
  (List.range h.n).map (fun j => (h.fD.value (leNat ((bs.drop (n * j)).take n)), ps.getD (n * j) false))

/-- A row before the tap steps: the elements after round_dest with their poison (15 R270). -/
def Hire.rowOut (h : Hire) (i : Nat) (din : Option (List (FV × Bool))) : List (Nat × Bool) :=
  (List.range h.n).map (fun j =>
    let x := din.map (fun r => r.getD j (.zero false, false))
    (h.fD.round (h.yOf ((h.acc.getD i []).getD j 0) (x.map Prod.fst)),
      h.poisR.getD i false || h.poisC.getD j false || (x.map Prod.snd).getD false))

/-- Lands a row's elements. -/
def Hire.landRow (h : Hire) (s : State) (i : Nat) (row : List (Nat × Bool)) : State :=
  s.landSegs (pageSegs h.pages (h.rowAddr i) h.rowD) (row.flatMap (fun e => (toLE e.1 h.fD.size).map (fun b => (b, e.2))))

/-- One row with the tap steps: the state, and the event it records. -/
def Hire.tapAndLand (h : Hire) (s : State) (sels : List Sel) (seq i : Nat) (row : List (Nat × Bool)) :
    State × List TapEvent :=
  if !h.tap || seq = 0xFFFF || row.any Prod.snd then (h.landRow s i row, [])
  else
    let t := tapRow h.fD sels seq (row.map Prod.fst)
    let s := t.crossed.foldl (fun s c => s.countProbe h.core c.1.idx) s
    let s := if t.sup then s else h.landRow s i (t.bits.map (fun b => (b, false)))
    (s, if t.isEvent then [⟨i, seq, t.mask, t.sup, t.score⟩] else [])

/-- Lands every row in ascending order. -/
def Hire.landRows (h : Hire) (sels : List Sel) (seqs : List Nat) (dins : List (List (FV × Bool))) :
    List Nat → State → State × List TapEvent
  | [], s => (s, [])
  | i :: rest, s =>
    let row := h.rowOut i (if h.epi then some (dins.getD i []) else none)
    let (s1, e) := h.tapAndLand s sels (seqs.getD i 0xFFFF) i row
    let (s2, es) := h.landRows sels seqs dins rest s1
    (s2, e ++ es)

/-- The events that go to the event queue: all of them for a counted hire, and those beyond the eighth otherwise
(19 R303, R304). -/
def Hire.postEvents (h : Hire) (s : State) (evs : List TapEvent) : State :=
  (if h.handle.isNone then evs else evs.drop 8).foldl (fun s e =>
    s.postTap h 0x10 (e.mask + 16 * e.sup.toNat) 0 e.seq e.row e.score) s

/-- An HFLT becomes pending for a master context, or in the control context when the master is FREE (16 R285, R287). -/
def State.addHflt (s : State) (core x : Nat) (addr info : Word) : State :=
  if x ≠ 0 ∧ (s.ctx core x).st = .free then
    s.modCore core (fun k => { k with pending := k.pending ++ [⟨tHFLT, x, true, 0, 1, addr, info⟩] })
  else s.modCtx core x (fun c => { c with hflts := c.hflts ++ [⟨tHFLT, x, true, 0, 0, addr, info⟩] })

/-- The park slots of an array that are taken (16 R285). -/
def State.parkTaken (s : State) (a : Nat) : List Nat :=
  (s.benches.flatMap (fun b => b.2.hires)).filterMap (fun h => if h.array = a ∧ h.park ≠ 0 then some (h.park - 1) else none)

/-- A landing that faults (16 R285). -/
def State.landFault (s : State) (h : Hire) (va fk : Nat) : State :=
  let bench := benchOf h.core
  match h.handle with
  | none => s.endHire bench { h with fk := fk } 3
  | some hd =>
    let slot := if h.park ≠ 0 then some (h.park - 1) else (List.range 2).find? (fun i => !(s.parkTaken h.array).contains i)
    match slot with
    | none => s.endHire bench h 5
    | some p =>
      let s := s.modBench bench (fun b => b.put { h with stage := .parked, park := p + 1, free := 0 })
      s.addHflt h.core h.ctx (BitVec.ofNat 64 va) (BitVec.ofNat 64 (hd + 64 * p))

/-- Translates the deferred pages in ascending address and takes their lines; the error is the failing address with its
FK, and the hire as far as it got (16 R284). A page whose walk waits stays deferred. -/
def landPages (h : Hire) : List Nat → State → (State × Hire × Option (Nat × Nat))
  | [], s => (s, { h with deferred := [] }, none)
  | va :: rest, s =>
    match s.engLoc h.core va kStore with
    | .error .wait => (s, { h with deferred := va :: rest }, none)
    | .error e => (s.frozenLanding h.core [(va, 1)], { h with deferred := va :: rest },
        some (va, if e = .frozen then 4 else 3))
    | .ok (s1, pa) =>
      let p : Page := ⟨va, min (h.d.addr + h.extD) ((va / pieceSize + 1) * pieceSize) - va, pa⟩
      landPages { h with pages := h.pages ++ [p] } rest (s1.claimLines h.id (h.lines [p]))

/-- The rows of a hire land and it completes (16 R284, 19 R298 to R304). None when a read of the tap unit waits: of its
sequence map or of what a selection needs (01 Table 10). -/
def State.landHire (s : State) (h : Hire) : Option State :=
  if h.tap && s.ownedOther h.id (lsLoc h.core h.mapOfs) (2 * h.m) then none
  else
  let bench := benchOf h.core
  let dins := if h.epi then (List.range h.m).map (h.rowIn s) else []
  let poi := h.poi || dins.any (fun r => r.any Prod.snd)
  let seqs := if h.tap then (List.range h.m).map (fun i => s.nat (lsLoc h.core (h.mapOfs + 2 * i)) 2) else []
  match (if h.tap then loadSels h seqs [0, 1, 2, 3] s else some (s, [], 0)) with
  | none => none
  | some (s1, sels, errm) =>
    let (s2, evs) := h.landRows sels seqs dins (List.range h.m) s1
    let s3 := if h.tap then
        h.postEvents (s2.landAt (lsLoc h.core h.recOfs) ((recordBytes evs errm).map (fun b => (b, false)))) evs
      else s2
    some (s3.endHire bench { h with rows := h.m, poi := poi, tev := !evs.isEmpty || errm != 0 } 1)

/-- The hire that the landing path of an array takes: one that is landing, then a resumed one, then the computed one that
became free to land first (16 R284, R288). -/
def State.nextLanding (s : State) (a : Nat) : Option Hire :=
  let hs := (s.benches.flatMap (fun b => b.2.hires)).filter (fun h => h.array == a)
  let least := fun (l : List Hire) => l.foldl (fun (b : Option Hire) h => match b with
    | none => some h
    | some g => if h.free < g.free then some h else some g) none
  match hs.find? (fun h => h.stage == .landing) with
  | some h => some h
  | none =>
    match least (hs.filter (fun h => h.stage == .resumed)) with
    | some h => some h
    | none => least (hs.filter (fun h => h.stage == .computed && h.free != 0))

/-- HIRE_LANDING (16 R284 to R286). -/
def execHireLanding (bench : Nat) (s : State) : Host.Outcome State Fault Refusal :=
  if 576 ≤ bench then .fault .noSuchPart
  else
    match s.nextLanding bench with
    | none => .next s
    | some h =>
      match landPages h h.deferred s with
      | (s1, h1, some (va, fk)) => .next (s1.landFault h1 va fk)
      | (s1, h1, none) =>
        let s2 := s1.modBench (benchOf h.core) (fun b => b.put { h1 with stage := .landing })
        if !h1.deferred.isEmpty || !s2.ownsAll h.id then .next s2
        else
          match s2.landHire { h1 with stage := .landing } with
          | none => .next s2
          | some s3 => .next s3

/-- HIRE_RESUME_ARRIVAL (15 R276, 16 R288): the hire goes back to the landing path and keeps its park slot. One that is no
longer parked when the message arrives is not resumed and the answer is 0. DEDUCED (log 73). -/
def execHireResumeArrival (pid : Nat) (s : State) : Host.Outcome State Fault Refusal :=
  match s.pkt? pid with
  | some (.resume hdr cmd core ctx out) =>
    let s := s.dropPkt pid
    if headerBad hdr then .next s
    else
      match (s.bench (benchOf core)).find cmd with
      | some h =>
        if h.stage = .parked then
          let (n, s) := s.fresh
          .next ((s.modBench (benchOf core) (fun b => b.put { h with stage := .resumed, free := n })).answerNow core ctx out 1)
        else .next (s.answerNow core ctx out 0)
      | none => .next (s.answerNow core ctx out 0)
  | _ => .next s

/-- Whether an engine of a class still holds a command that has not ended (15 R277). -/
def State.holdsCmd (s : State) (cls cmd : Nat) : Bool :=
  if cls = clsArray then s.benches.any (fun b => b.2.hires.any (fun h => h.id == cmd))
  else if cls = clsCopy then s.copies.any (fun e => e.2.any (fun c => c.id == cmd && c.code == 0))
  else s.stks.any (fun e => e.2.any (fun c => c.id == cmd))

/-- ENGINE_CANCEL_ARRIVAL (15 R277, 13 R260, 23 R359): the command ends CANCELLED; COPY_COMPLETE reports that of a copy
command. The answer is 0 when it has already completed. DEDUCED (log 73). -/
def execEngineCancelArrival (pid : Nat) (s : State) : Host.Outcome State Fault Refusal :=
  match s.pkt? pid with
  | some (.cancel hdr cls cmd core ctx out) =>
    let s := s.dropPkt pid
    if headerBad hdr then .next s
    else
      let w : Word := if s.holdsCmd cls cmd then 1 else 0
      let s := if cls = clsArray then s.forBenches (fun s b => s.cancelHires b (fun h => h.id == cmd))
        else if cls = clsCopy then s.forCopies (fun s e => s.cancelCopies e (fun c => c.id == cmd))
        else s.forStks (fun s e => s.cancelStks e (fun c => c.id == cmd))
      .next (s.answerNow core ctx out w)
  | _ => .next s

/-! ## The instructions -/

/-- TAPSEL (19 R307). -/
def execTapsel (o : Op) (s : State) : Host.Outcome State Fault Refusal :=
  word (.tapsel o) o s (fun s =>
    let slot := o.k1 % 4
    if o.k1.testBit 2 then
      .next (s.modCx (fun c => { c with cr := { c.cr with tapset := c.cr.tapset &&& ~~~(1#64 <<< (32 + slot)) } }))
    else
      let idx := (s.g o.rd).addr % 256
      checked s (check (s.g o.ra) (BitVec.ofNat 64 idx) 1 pP) (fun _ =>
        .next (s.modCx (fun c => { c with cr := { c.cr with
          tapset := (c.cr.tapset &&& ~~~(0xFF#64 <<< (8 * slot))) ||| (BitVec.ofNat 64 idx <<< (8 * slot)) |||
            (1#64 <<< (32 + slot)) } }))))

/-- TAPST (19 R307). -/
def execTapst (s : State) : Host.Outcome State Fault Refusal :=
  word .tapst s.opr s (fun s =>
    let o := s.opr
    let slot := o.k1 % 4
    let ts := s.cx.cr.tapset
    if !ts.getLsbD (32 + slot) then .next (s.putNat o.rd 0)
    else
      let e := (ts.extractLsb' (8 * slot) 8).toNat
      let p := s.probe s.curCore e
      let s1 := if o.k1.testBit 2 then s.setProbe s.curCore e (p.setCount 0) else s
      .next (s1.putNat o.rd p.count))

end Sys2Proof.Machine
end

