-- ==== Sys2Proof/Machine/System.lean ====
section
/-! DEFINITION. The page 7 instructions (11 R226, R238 to R246). `run` raises ILL for them in a helper. -/

namespace Sys2Proof.Machine

/-- A system operation that is outstanding without a register, and done at once. -/
def sysDone (s : State) : Eff := .next (s.startOut .none (.ready .none 0) 0 [])

/-- ERET (R226). -/
def execEret (s : State) : Host.Outcome State Fault Refusal := word .eret s.opr s State.eretEff

/-- WFI: a trap point; it is allowed to end at any time (R239, R222). -/
def execWfi (s : State) : Host.Outcome State Fault Refusal :=
  word .wfi s.opr s (fun s => if s.trapDue s.curCore then .taken (s.takePending s.curCore) else .next s)

/-- The pending registers of a core. -/
def Core.pendingRegs (k : Core) : List (Nat × Dest) :=
  k.ctxs.flatMap (fun c => ((c.2.outs.filter (fun o => !o.sup)).map Outst.dest).filterMap (fun d => match d with
    | .g r => some (c.1, .g r)
    | .v r => some (c.1, .v r)
    | _ => none))

/-- RCFLUSH: every dirty entry is written back, the pending ones when their results arrive; it waits for a slot that an engine
owns (R239). -/
def execRcflush (s : State) : Host.Outcome State Fault Refusal :=
  word .rcflush s.opr s (fun s =>
    let k := s.ck
    if k.cr.ctxbase = 0 then sysDone s
    else
      let late := k.pendingRegs
      let now := (k.entries.filter (fun e => e.dirty && !late.contains (e.ctx, e.reg))).map (fun e => (e.ctx, e.reg))
      if now.any (fun p => s.ownedAny (blockAddr k.cr.ctxbase p.1 p.2) (slotSize p.2)) then .hold s
      else
        let s1 := now.foldl (fun s p => s.writeBack s.curCore p.1 p.2) s
        if late.isEmpty then sysDone s1
        else .next ((s1.modCore s.curCore (fun k => { k with flushing := k.flushing ++ late })).startOut .none .flush 0 []))

/-- L1INV: the caches hold nothing that memory does not (R239, 08 R162). -/
def execL1inv (s : State) : Host.Outcome State Fault Refusal := word .l1inv s.opr s sysDone

/-- L1WB (R239). -/
def execL1wb (s : State) : Host.Outcome State Fault Refusal := word .l1wb s.opr s sysDone

/-- The selector of `mfcs` and `mtcs` (R240). -/
def sysSel (o : Op) : Nat := o.k1 % 128

/-- MFCS (R240). -/
def execMfcs (o : Op) (s : State) : Host.Outcome State Fault Refusal :=
  word (.mfcs o) o s (fun s =>
    let c := (s.g o.ra).addr % 16
    let n := sysSel o
    if 11 ≤ c ∨ 96 < n then .trap (ill s.pc 10)
    else if n < 64 then
      (if crLegal n (decide (c = 0)) then .next (s.setG o.rd (s.readCr s.curCore c n)) else .trap (ill s.pc 5))
    else if n < 96 then
      (match s.debugReg s.curCore c (.g (n - 64)) with
       | (s1, .g v) => .next (s1.setG o.rd v)
       | (s1, _) => .next (s1.setG o.rd .null))
    else .next (s.setG o.rd (s.ctx s.curCore c).pcc))

/-- MTCS: the target must be STOPPED or the writer itself; another write is ignored and sets W.RSV (R240, 04 R93). A PCC of the
writer that is odd raises ALN here, as a transfer does (02 R33). -/
def execMtcs (o : Op) (s : State) : Host.Outcome State Fault Refusal :=
  word (.mtcs o) o s (fun s =>
    let c := (s.g o.ra).addr % 16
    let n := sysSel o
    let v := s.g o.rd
    let open_ := decide (c = s.curCtx) || (s.ctx s.curCore c).st == .stopped
    if 11 ≤ c ∨ 96 < n then .trap (ill s.pc 10)
    else if n < 64 then
      (if !crLegal n (decide (c = 0)) then .trap (ill s.pc 5)
       else if open_ then crEff s s.curCore c n v true else .next (s.warn wRSV))
    else if n < 96 then
      if c ≠ s.curCtx ∧ open_ ∧ s.slotOwned s.curCore c (.g (n - 64)) then .hold s
      else .next (if c = s.curCtx then s.setG (n - 64) v
             else if open_ then s.debugPut s.curCore c (.g (n - 64)) (.g v) else s.warn wRSV)
    else if !v.tag then .trap ⟨tCAPT, v.word, 1⟩
    else if v.broken || (v.perms &&& pX == 0) then .trap ⟨tCAPT, v.word, 2⟩
    else if c = s.curCtx then (if v.word.getLsbD 0 then .trap (aln v.word 1) else .jump s v)
    else .next (if open_ then s.modCtx s.curCore c (fun x => { x with pcc := v }) else s.warn wRSV))

/-- Removes the cached translations that satisfy a test, in an extent (R241). -/
def State.tlbDrop (s : State) (ext vif : Nat) (p : TlbEntry → Bool) : State :=
  let keep := fun (l : List TlbEntry) => l.filter (fun t => !p t)
  if ext = 0 then s.modCore s.curCore (fun k => { k with utlb := keep k.utlb })
  else if ext = 1 then
    (s.modCore s.curCore (fun k => { k with utlb := keep k.utlb })).modDie (dieOf s.curCore) (fun d =>
      { d with tlbs := d.tlbs.filter (fun t => !(t.1 == clusterOf s.curCore && p t.2)) })
  else
    let mine := fun (cl : Nat) => ((s.vif vif).lcl cl).isSome
    let s := (s.cores.map Prod.fst).foldl (fun s c =>
      if mine (clusterOf c) then s.modCore c (fun k => { k with utlb := keep k.utlb }) else s) s
    (s.dies.map Prod.fst).foldl (fun s d => s.modDie d (fun d =>
      { d with tlbs := d.tlbs.filter (fun t => !(mine t.1 && p t.2)) })) s

/-- An invalidation; the extent 11 is taken as 10 (R241). Entries of KROOT go with those of any interface (24 R366). -/
def tlbForm (o : Op) (s : State) (va : Option Nat) : Eff :=
  let vif := (s.g o.rd).addr % 64
  let ext := o.k1 % 4
  let s := if ext = 3 then s.warn wRSV else s
  sysDone (s.tlbDrop ext vif (fun t => (t.kernel || t.vif == vif) && (match va with
    | some a => t.vpn == a / 2 ^ pageBits t.level
    | none => true)))

/-- TLBI (R241). -/
def execTlbi (o : Op) (s : State) : Host.Outcome State Fault Refusal :=
  word (.tlbi o) o s (fun s => tlbForm o s (some (s.g o.ra).addr))

/-- TLBIA (R241). -/
def execTlbia (s : State) : Host.Outcome State Fault Refusal :=
  word .tlbia s.opr s (fun s => tlbForm s.opr s none)

/-- Bank roles by their code (08 Table 81). -/
def Role.ofCode : Nat → Role
  | 0 => .way
  | 1 => .pad
  | _ => .fifo

/-- The code of a role. -/
def Role.code : Role → Nat
  | .way => 0
  | .pad => 1
  | .fifo => 2

/-- Whether a bank may not leave its role (08 R161). -/
def State.bankStuck (s : State) (core b : Nat) : Bool :=
  let lo := lsLoc core (b * 16384)
  let inBank := fun (l : Nat) => decide (lo ≤ l ∧ l < lo + 16384)
  match ((s.core core).bank b).role with
  | .way => false
  | .pad =>
    s.gran.any (fun p => inBank (16 * p.1) && p.2.getLsbD 1) || s.owned.any (fun p => inBank p.1 && p.2 != 0) ||
      s.waits.any (fun a => a.homes.any inBank)
  | .fifo => ((s.core core).bank b).used != 0

/-- Gives a bank a role (08 R161). -/
def State.setRole (s : State) (core b : Nat) (r : Role) : State :=
  (s.zeroBank core b).modCore core (fun k => k.setBank b { Bank.init with role := r })

/-- A role change of a bank, with the status of `bankcfg` (08 R161, 11 R242). -/
def State.changeRole (s : State) (core b : Nat) (r : Role) : State × Nat :=
  if ((s.core core).bank b).role = r then (s, 0)
  else if s.bankStuck core b then (s, 1)
  else
    let s := s.setRole core b r
    ((List.range 8).foldl (fun s i => s.serveRecv core i) s, 0)

/-- BANKCFG (R242). Of the statuses that a request for bank 7 can have, one for PAD, the role that it holds, has 0, and one for role
11 has 2. DESIGN CHOICE (log 92). -/
def execBankcfg (o : Op) (s : State) : Host.Outcome State Fault Refusal :=
  word (.bankcfg o) o s (fun s =>
    let a := (s.g o.ra).addr
    let b := a % 8
    let r := a / 16 % 4
    withRoom s (.g o.rd)
      (if b = 7 ∧ r ≠ 1 then .next (s.known o.rd 2 0)
       else if r = 3 then .next (s.known o.rd 3 0)
       else
         let (s1, st) := s.changeRole s.curCore b (Role.ofCode r)
         .next (s1.known o.rd st 0)))

/-- The word of Table 125. -/
def bankqWord (k : Core) (b ch : Nat) : Nat :=
  let v := k.bank b
  (Role.code v.role) + v.chg.toNat * 4 + v.head * 8 + v.tail * 2 ^ 18 + v.used * 2 ^ 33 + (Store.get 0 k.drops ch) * 2 ^ 48

/-- BANKQ (R242). -/
def execBankq (o : Op) (s : State) : Host.Outcome State Fault Refusal :=
  word (.bankq o) o s (fun s =>
    let ch := o.k1 % 16
    let x := bankqWord s.ck ((s.g o.ra).addr % 8) ch
    let s1 := if o.k1.testBit 4 then s.modCore s.curCore (fun k => { k with drops := Store.set 0 k.drops ch 0 }) else s
    .next (s1.putNat o.rd x))

/-- PROBEW: every tap unit of the partition holds the new entry at once (R243); the image is checked first (19 R297). -/
def execProbew (o : Op) (s : State) : Host.Outcome State Fault Refusal :=
  word (.probew o) o s (fun s =>
    let a := s.g o.ra
    withBlock s a 96 4 (pL ||| pY) kLoad (fun s1 g =>
      match s1.poisonSegs g with
      | some i => .after s1 ⟨tPOIS, segPoisonVa a.word i, s.pc⟩
      | none =>
        let p : Probe := s1.readSegs g (a.perms &&& pLC != 0)
        checked s (p.checks s.pc) (fun _ => sysDone (s1.setProbe s.curCore ((s.g o.rd).addr % 256) p.written))))

/-- PROBER (R243). -/
def execProber (o : Op) (s : State) : Host.Outcome State Fault Refusal :=
  word (.prober o) o s (fun s =>
    let a := s.g o.ra
    withBlock s a 96 4 (pS ||| pY) kStore (fun s1 g =>
      sysDone (s1.writeSegs g (a.perms &&& pSC != 0) (s1.probe s.curCore ((s.g o.rd).addr % 256)).granules)))

/-- The image of a journal entry (08 Table 84). -/
def Journal.image (j : Journal) : List GReg :=
  let w : Word := (j.line &&& ~~~63#64) ||| BitVec.ofNat 64 (j.reason * 8 + j.st * 2 + (if j.st = 0 then 0 else 1))
  [⟨j.pc ++ w, false⟩, ⟨(BitVec.ofNat 64 j.ctx) ++ j.mask, false⟩]

/-- PJR (R244). -/
def execPjr (o : Op) (s : State) : Host.Outcome State Fault Refusal :=
  word (.pjr o) o s (fun s =>
    let d := s.g o.rd
    withBlock s d 32 5 (pS ||| pY) kStore (fun s1 g =>
      sysDone (s1.writeSegs g false ((s1.ck.jent ((s.g o.ra).addr % 32)).image))))

/-- Frees a journal entry. -/
def Core.freeEntry (k : Core) (i : Nat) : Core := { k with journal := Store.set Journal.init k.journal i Journal.init }

/-- PJCLR (R244). -/
def execPjclr (o : Op) (s : State) : Host.Outcome State Fault Refusal :=
  word (.pjclr o) o s (fun s =>
    let i := (s.g o.ra).addr % 32
    if (s.ck.jent i).st = 2 then .next ((s.modCore s.curCore (fun k => k.freeEntry i)).putNat o.rd 1)
    else .next (s.putNat o.rd 0))

/-- The authority of `cseal` and `cunseal`: tag and type, then Y, then the range of ADDR (R245). -/
def sealCheck (pc : Word) (a : GReg) (ok : Nat → Bool) (e : Eff) : Eff :=
  if !a.tag then .trap ⟨tCAPT, a.word, 1⟩
  else if a.broken || decide (a.otype ≠ 0) then .trap ⟨tCAPT, a.word, 2⟩
  else if a.perms &&& pY = 0 then .trap ⟨tCAPP, a.word, BitVec.ofNat 64 pY⟩
  else if !ok a.addr then .trap (ill pc 10)
  else e

/-- Whether an address has the form of a channel (09 R193). -/
def isChannelAddr (a : Word) : Bool :=
  decide (a.toNat / 2 ^ 30 = 0xFFFF800000000000 / 2 ^ 30 ∧ a.toNat % 2 ^ 17 / 2 ^ 7 = 0)

/-- CSEAL (R245). -/
def execCseal (o : Op) (s : State) : Host.Outcome State Fault Refusal :=
  word (.cseal o) o s (fun s =>
    let a := s.g o.ra
    let d := s.g o.rd
    sealCheck s.pc a (fun n => decide (1 ≤ n ∧ n ≤ 14))
      (.next (s.setG o.rd ((d.withOtype a.addr).withTag
        (d.derivable && (decide (a.addr ≠ 2) || isChannelAddr d.word))))))

/-- CUNSEAL (R245). -/
def execCunseal (o : Op) (s : State) : Host.Outcome State Fault Refusal :=
  word (.cunseal o) o s (fun s =>
    let d := s.g o.rd
    sealCheck s.pc (s.g o.ra) (fun n => decide (2 ≤ n ∧ n ≤ 14 ∧ n = d.otype))
      (.next (s.setG o.rd ((d.withOtype 0).withTag (d.tag && decide (d.expo ≤ 43))))))

/-- The cores whose lease generation a core shares. -/
def State.leaseCores (s : State) (core : Nat) : List Nat :=
  match s.penOf core with
  | some (_, _, p) => p.cores
  | none => [core]

/-- Advances the lease generation of a core's pen (R233). -/
def State.advanceLease (s : State) (core : Nat) : State :=
  let g := (s.core core).cr.lease + 1
  let s := match s.penOf core with
    | some (v, i, _) => s.modPen v i (fun p => { p with gen := g })
    | none => s
  (s.leaseCores core).foldl (fun s c => s.modCore c (fun k => { k with cr := { k.cr with lease := g } })) s

/-- What a PURGE waits for: the stores and atomics, messages and engine commands of a set of cores that are under way
(R234, 10 R220). -/
def State.purgeIds (s : State) (mem : Nat → Bool) : List Nat :=
  (s.cores.filter (fun c => mem c.1)).flatMap (fun c =>
    (c.2.journal.filter (fun j => j.2.st == 1)).map (fun j => j.2.id) ++ c.2.gather.map Gather.id) ++
  (s.net.filterMap (fun p => match p.body with
    | .request a _ => if mem a.core && decide (a.op.kind ≠ 0) then some a.out else none
    | _ => none)) ++
  ((s.waits.filter (fun a => mem a.core && decide (a.op.kind ≠ 0))).map Access.out) ++
  (s.net.filter (fun p => match p.body with
    | .cancel _ _ _ c _ _ => mem c
    | .resume _ _ c _ _ => mem c
    | .msg c _ _ _ _ _ _ _ _ => mem c
    | .record c _ _ _ _ _ _ _ _ _ => mem c
    | .reply c _ _ _ _ _ => mem c
    | _ => false)).map Pkt.id ++
  s.benches.flatMap (fun b => (b.2.hires.filter (fun h => mem h.core)).map Hire.id) ++
  s.copies.flatMap (fun e => (e.2.filter (fun c => mem c.core)).map Copy.id) ++
  s.stks.flatMap (fun e => (e.2.filter (fun c => mem c.core)).map Stk.id)

/-- Whether a PURGE of a pen is under way. -/
def State.purging (s : State) (mem : Nat → Bool) : Bool :=
  s.cores.any (fun c => mem c.1 && c.2.ctxs.any (fun x => x.2.outs.any (fun o => match o.wait with
    | .purge _ _ => true
    | _ => false)))

/-- LEASE (R246). -/
def execLease (o : Op) (s : State) : Host.Outcome State Fault Refusal :=
  word (.lease o) o s (fun s =>
    let core := s.curCore
    let mem := fun c => (s.leaseCores core).contains c
    if s.purging mem then .hold s
    else
      withRoom s (.g o.rd)
        (let ids := s.purgeIds mem
         let s1 := s.advanceLease core
         let g := (s1.core core).cr.lease.toNat
         if (s.g o.ra).word.getLsbD 0 then .next (s1.startOut (.g o.rd) (.purge g ids) 0 [])
         else .next (s1.known o.rd g 0)))

/-- LEASEQ (R246). -/
def execLeaseq (o : Op) (s : State) : Host.Outcome State Fault Refusal :=
  word (.leaseq o) o s (fun s =>
    let w := (s.g o.ra).word
    match s.namedCore w with
    | none => .trap (pgf (nameAddr w) kLoad 0)
    | some c => withRoom s (.g o.rd) (.next (s.known o.rd (s.core c).cr.lease.toNat 0)))

end Sys2Proof.Machine
end

