-- ==== Sys2Proof/Machine/Launch.lean ====
section
/-! DEFINITION. Launches, graphs and triggers (20 R319 to R322). -/

namespace Sys2Proof.Machine

/-! ## Launches -/

/-- A launch as Table 193 gives it, with its parent. -/
structure LaunchCmd where
  core : Nat
  lcl : Nat
  slot : Nat
  pv : Bool
  parent : Nat
  krec : Nat
  trec : Nat
  ucap : Nat
  clean : Bool
  deriving DecidableEq, Repr

/-- The fields of words w1 to w7; `clean` says that reserved bits are zero and the addresses are aligned. -/
def launchCmd (pv : Bool) (parent : Option Nat) (ws : List (BitVec 32)) : LaunchCmd :=
  let w := payload ws 1
  let (k, t, u) := ((payload2 ws 2).toNat, (payload2 ws 4).toNat, (payload2 ws 6).toNat)
  { core := w % 256, lcl := w / 2 ^ 8 % 32, slot := w / 2 ^ 16 % 64, pv := pv, parent := parent.getD (w / 2 ^ 24 % 64),
    krec := k, trec := t, ucap := u,
    clean := w / 2 ^ 13 % 8 == 0 && w / 2 ^ 22 % 4 == 0 && w / 2 ^ 30 == 0 && k % 16 == 0 && t % 16 == 0 && u % 16 == 0 }

/-- Whether the command is one that stops its stream with error 6 (20 R319). -/
def State.launchBad (s : State) (v : Nat) (c : LaunchCmd) : Bool :=
  let i := s.vif v
  !c.clean || (i.level c.slot).st != .free || (c.pv && (i.level c.parent).st != .opened) ||
    decide (24 ≤ i.phys c.lcl ∨ 192 ≤ c.core)

/-- The pen of a core among an interface's pens, with its number. -/
def Vif.penAt (i : Vif) (core : Nat) : Option (Nat × Pen) :=
  match i.pens.findIdx? (fun p => p.has core) with
  | none => none
  | some n => (i.pens[n]?).map (fun p => (n, p))

/-- Whether a launch of a pen is OPEN or CANCELLING (20 R319). -/
def Vif.penBusy (i : Vif) (pen : Nat) : Bool :=
  i.levels.any (fun l => l.2.kind == 1 && l.2.pen == pen && (l.2.st == .opened || l.2.st == .cancelling))

/-- A launch fails: its slot reads COMPLETE with CXL, and event 0x04 is posted (20 R319). `b4` holds bytes 4 to 7. -/
def State.failLaunch (s : State) (v slot status b4 : Nat) (w8 : Word) : State :=
  let l := (s.vif v).level slot
  (s.modLevel v slot (fun l => { l with st := .complete, cxl := true, root := false })).postEvent v
    (eventBytes 0x04 v slot status b4 w8 (mkLid v slot l.serial) 0)

/-- Whether a uniform capability is one that a launch takes: status 4 otherwise (20 R319). The page of ADDR must be FROZEN
whatever UNIFSIZE is (DEDUCED: log 49). -/
def State.ucapOk (s : State) (root : Word) (u : GReg) (n : Nat) : Bool :=
  let (b, t) := u.bounds
  u.tag && decide (u.otype = 0) && !u.broken && (u.perms &&& pL != 0) && decide (u.perms ||| (pL ||| pLC) = pL ||| pLC) &&
    decide (u.addr + n ≤ 2 ^ 47) && decide (n = 0 ∨ (b ≤ (u.addr : Int) ∧ ((u.addr + n : Nat) : Int) ≤ t)) &&
    (pieces u.addr (max n 1)).all (fun p => match walk s root p.1 with
      | .ok l => leafR l.e && leafFrz l.e
      | .error _ => false)

/-- BANKROLE of a kernel record for a bank. -/
def KRec.role (k : KRec) (b : Nat) : Nat := k.bankRole / 4 ^ b % 4

/-- Whether a BANKROLE can be applied at all: bank 7 is PAD (09 R185), and no code is reserved. -/
def KRec.rolesOk (k : KRec) : Bool := k.role 7 == 1 && (List.range 8).all (fun b => k.role b != 3)

/-- A launch gives a core its bank roles and CHANCFG, and clears PASS and BOOST; the Bool says that no role change was
refused (20 R319). -/
def State.applyKernel (s : State) (kr : KRec) (c : Nat) : State × Bool :=
  let (s1, ok) := (List.range 8).foldl (fun (acc : State × Bool) b =>
    let (s', st) := acc.1.changeRole c b (Role.ofCode (kr.role b))
    (s', acc.2 && st == 0)) (s, true)
  (s1.modCore c (fun k =>
    { k with chancfg := kr.chancfg, banks := k.banks.map (fun b => (b.1, { b.2 with pass := 0, boost := 0 })) }), ok)

/-- The root record of a launch (20 R319). -/
def rootRec (r : Rec) (lid : Nat) (kr : KRec) : Rec :=
  let h := r.header.data
  let b := h.extractLsb' 96 32
  let b' := if b = 0 then BitVec.ofNat 32 (min kr.budget (2 ^ 32 - 1)) else b
  let low := (h.extractLsb' 0 64 ||| (1#64 <<< 27)) &&& ~~~(1#64 <<< 47)
  { r with header := ⟨b' ++ BitVec.ofNat 32 lid ++ low, r.header.tag⟩ }

/-- What an attempt to launch comes to: the command is refused, waits, or its slot has been opened, with its launch under
way or failed. -/
inductive LaunchOut where
  | refused
  | wait
  | opened (s : State)

/-- The root record sets out for the deque of its core, in the form of a message (01 R16); the ringmaster retries without limit
(20 R319). Its packet holds the interface in place of a reply slot. The ringmaster is no core: the fields of the header that name
the sender's core, context and pen are zero. DESIGN CHOICE (log 85). -/
def State.sendRoot (s : State) (v : Nat) (c : LaunchCmd) (r : Rec) : State :=
  let dst : Word := BitVec.ofNat 64 (0xFFFF800000000000 + c.lcl * 2 ^ 25 + c.core * 2 ^ 17)
  (s.sendPkt (.record nCores 0 0 (mkHeader (Config.recordOpc 1).toNat 0 v 3 0 0 0 c.lcl c.core 0 0 0 0) r dst 0 0 0 v)).modLevel v c.slot (fun l => { l with root := false })

/-- The steps of a launch after its operands have been read (20 R319); none when the specialiser waits. -/
def State.launchBody (s : State) (v : Nat) (c : LaunchCmd) (pen : Nat) (p : Pen) (target : Nat) (kr : KRec) (r : Rec)
    (u : GReg) (ub : List Byte) : Option State :=
  let lid := mkLid v c.slot ((s.vif v).level c.slot).serial
  let fail := fun (s : State) n => s.failLaunch v c.slot n 0 (BitVec.ofNat 64 c.krec)
  match checkRec r false with
  | .error _ => some (fail s 3)
  | .ok () =>
    if !s.ucapOk (s.vif v).troot u kr.unifSize then some (fail s 4)
    else if !kr.rolesOk then some (fail s 2)
    else
      let (s1, ok) := p.cores.foldl (fun (acc : State × Bool) x =>
        let (s', k) := acc.1.applyKernel kr x
        (s', acc.2 && k)) (s, true)
      if !ok then some (fail s1 2)
      else
        let rr := rootRec r lid kr
        let go := fun (s : State) (id : Option Nat) (e : GReg) =>
          (s.modLevel v c.slot (fun l => { l with uniform := u, pen := pen, spec := id })).sendRoot v c { rr with entry := e }
        match s1.specialise v c.slot lid target p r.entry kr ub u with
        | .wait => none
        | .plain s2 => some (go s2 none r.entry)
        | .use s2 id e => some (go s2 (some id) e)
        | .failed s2 f => some <| s2.failLaunch v c.slot 1 (f.reason + 2 ^ 16 * f.code) (BitVec.ofNat 64 f.pc)

/-- Opens a launch's slot (20 R319). -/
def State.openLaunch (s : State) (v : Nat) (c : LaunchCmd) (pen : Nat) : State :=
  s.modLevel v c.slot (fun l =>
    { Level.init with st := .opened, kind := 1, pv := c.pv, parent := if c.pv then c.parent else 0, serial := l.serial,
                      root := true, pen := pen })

/-- Tries to launch (20 R319). It waits while a launch of the pen is OPEN or CANCELLING, while another interface of the
sharing group holds the cluster, and while an engine owns a line that it must read. -/
def State.tryLaunch (s : State) (v : Nat) (c : LaunchCmd) : LaunchOut :=
  let i := s.vif v
  if s.launchBad v c then .refused
  else
    let target := coreAt (i.phys c.lcl) c.core
    match i.penAt target with
    | none => .refused
    | some (pen, p) =>
      if i.penBusy pen || s.vifOfCluster (i.phys c.lcl) != some v then .wait
      else
        let fail5 := LaunchOut.opened ((s.openLaunch v c pen).failLaunch v c.slot 5 0 (BitVec.ofNat 64 c.krec))
        match s.rootRead i.troot c.krec 128 with
        | .wait => .wait
        | .fault => fail5
        | .ok s1 gk =>
          match s1.rootRead i.troot c.trec 96 with
          | .wait => .wait
          | .fault => fail5
          | .ok s2 gt =>
            match s2.rootRead i.troot c.ucap 16 with
            | .wait => .wait
            | .fault => fail5
            | .ok s3 gu =>
              let kr := kRecOf (s3.readPieces gk)
              let r := recOf (s3.granulesOf gt)
              let u := (s3.granulesOf gu).getD 0 .null
              let go := fun (s : State) (ub : List Byte) =>
                ((s.openLaunch v c pen).launchBody v c pen p target kr r u ub).elim .wait LaunchOut.opened
              match s3.rootRead i.troot u.addr (max kr.unifSize 1) with
              | .wait => .wait
              | .fault => go s3 []
              | .ok s4 g => go s4 ((s4.readPieces g).take kr.unifSize)

/-- Whether the root record of a level slot's launch is still on its way. -/
def State.rootAway (s : State) (v slot : Nat) : Bool :=
  let lid := mkLid v slot ((s.vif v).level slot).serial
  s.net.any (fun p => match p.body with
    | .record c _ _ _ r _ _ _ _ _ => c == nCores && r.lid == lid
    | _ => false)

/-- LAUNCH: performed when its root record is accepted, or when it fails (R314, R319). -/
def execLaunch (vif : Nat) (s : State) : Host.Outcome State Fault Refusal :=
  command vif 0x10 s (fun s fl ws =>
    let c := launchCmd (fl == 1) none ws
    if (s.vif vif).began then (if s.rootAway vif c.slot then .wait s else .done s)
    else
      match s.tryLaunch vif c with
      | .refused => .error s 6
      | .wait => .wait s
      | .opened s1 =>
        if s1.rootAway vif c.slot then .wait (s1.modVif vif (fun i => { i with began := true })) else .done s1)

/-! ## Graphs and triggers -/

/-- A graph of an interface. -/
def Vif.graph (i : Vif) (g : Nat) : Graph := Store.get Graph.init i.graphs g

/-- Changes a graph. -/
def State.modGraph (s : State) (v g : Nat) (f : Graph → Graph) : State :=
  s.modVif v (fun i => { i with graphs := Store.set Graph.init i.graphs g (f (i.graph g)) })

/-- GRAPH.UPLOAD: it waits until the graph has no trigger queued or running (R320). -/
def execGraphUpload (vif : Nat) (s : State) : Host.Outcome State Fault Refusal :=
  command vif 0x11 s (fun s fl ws =>
    let w := payload ws 1
    let a := payload2 ws 2
    let nl := payload ws 4
    let gid := w % 16
    let i := s.vif vif
    if w / 16 % 16 ≠ 0 ∨ w / 2 ^ 14 % 4 ≠ 0 ∨ w / 2 ^ 22 ≠ 0 ∨ a.toNat % 32 ≠ 0 ∨ nl = 0 ∨ 64 < nl then .error s 6
    else if i.trigs.any (fun t => t.gid == gid) ∨ (i.graph gid).cur.isSome then .wait s
    else
      .done (s.modGraph vif gid (fun _ =>
        { Graph.init with up := true, slot := w / 2 ^ 8 % 64, pv := fl == 1, parent := w / 2 ^ 16 % 64, list := a, nl := nl })))

/-- The 32-bit words of pieces of stack memory, read through an interface's root. -/
def State.rootWords (s : State) (v va n : Nat) : WordsRd :=
  match s.rootRead (s.vif v).troot va (4 * n) with
  | .ok s1 g => .ok s1 (words32 (s1.readPieces g))
  | .wait => .wait
  | .fault => .fault

/-- The patch pairs among words. -/
def pairsOf : List (BitVec 32) → List (BitVec 32 × BitVec 32)
  | a :: b :: rest => (a, b) :: pairsOf rest
  | _ => []

/-- Whether a patch pair has the form of R321. -/
def pairOk (p : BitVec 32 × BitVec 32) : Bool := p.1.toNat / 2 ^ 12 % 2 ^ 14 == 0 && p.1.toNat % 4 == 0

/-- The launch index and the offset of a pair. -/
def pairIdx (p : BitVec 32 × BitVec 32) : Nat := p.1.toNat / 2 ^ 26
def pairOff (p : BitVec 32 × BitVec 32) : Nat := p.1.toNat % 2 ^ 12

/-- Splits the words of a list into its entries of eight words. -/
def entriesOf : Nat → List (BitVec 32) → List (List (BitVec 32))
  | 0, _ => []
  | n + 1, ws => ws.take 8 :: entriesOf n (ws.drop 8)

/-- What a check of a trigger gives: the state with the list's entries, or a wait, or a refusal. -/
inductive TrigOut (α : Type) where
  | ok (a : α)
  | wait
  | refused

/-- UNIFSIZE and UCAP.ADDR of an entry (20 R322). -/
def State.entryBlock (s : State) (v : Nat) (e : List (BitVec 32)) : TrigOut (Nat × Nat) :=
  let c := launchCmd true none e
  match s.rootRead (s.vif v).troot c.krec 128, s.rootRead (s.vif v).troot c.ucap 16 with
  | .ok s1 gk, .ok _ gu => .ok ((kRecOf (s1.readPieces gk)).unifSize, ((s1.granulesOf gu).getD 0 .null).addr)
  | .wait, _ => .wait
  | _, .wait => .wait
  | _, _ => .refused

/-- Where a patch is written: refused with L ≥ NL, an offset that ends beyond UNIFSIZE, or an address that cannot be
written, but for FRZ (20 R322). -/
def State.patchPlace (s : State) (v : Nat) (es : List (List (BitVec 32))) (p : BitVec 32 × BitVec 32) : TrigOut (Nat × Leaf) :=
  match es[pairIdx p]? with
  | none => .refused
  | some e =>
    if !pairOk p then .refused
    else
      match s.entryBlock v e with
      | .wait => .wait
      | .refused => .refused
      | .ok (n, a) =>
        let va := a + pairOff p
        if n < pairOff p + 4 ∨ 2 ^ 47 ≤ va + 3 then .refused
        else
          match walk s (s.vif v).troot va with
          | .error lvl => if lvl = waitLvl then .wait else .refused
          | .ok l =>
            if !leafW l.e then .refused
            else if s.ownedAny (l.pa va) 4 then .wait
            else .ok (l.pa va, l)

/-- The places of every patch of a trigger. -/
def State.patchPlaces (s : State) (v : Nat) (es : List (List (BitVec 32))) :
    List (BitVec 32 × BitVec 32) → TrigOut (List (Nat × Leaf × BitVec 32))
  | [] => .ok []
  | p :: ps =>
    match s.patchPlace v es p with
    | .wait => .wait
    | .refused => .refused
    | .ok (a, l) =>
      match s.patchPlaces v es ps with
      | .ok xs => .ok ((a, l, p.2) :: xs)
      | r => r

/-- The launch list of a graph as it reads now. -/
def State.readList (s : State) (v : Nat) (g : Graph) : TrigOut (State × List (List (BitVec 32))) :=
  match s.rootWords v g.list.toNat (8 * g.nl) with
  | .wait => .wait
  | .fault => .refused
  | .ok s1 ws => .ok (s1, entriesOf g.nl ws)

/-- GRAPH.TRIGGER: it holds its stream while the queue is full. What its patches name is read when the trigger begins (R322); a
graph that was never uploaded, and a patch of a launch that the graph does not have, is stream error 6 at once (R313). -/
def execGraphTrigger (vif : Nat) (s : State) : Host.Outcome State Fault Refusal :=
  command vif 0x12 s (fun s _ ws =>
    let gid := payload ws 1
    let ps := pairsOf (ws.drop 1)
    let i := s.vif vif
    if 16 ≤ gid ∨ !ps.all pairOk then .error s 6
    else if 4 ≤ i.trigs.length then .wait s
    else if !(i.graph gid).up || ps.any (fun p => decide ((i.graph gid).nl ≤ pairIdx p)) then .error s 6
    else .done (s.modVif vif (fun i => { i with trigs := i.trigs ++ [⟨gid, false, 0, ps, BitVec.ofNat 32 i.offset⟩] })))

/-- TRIGGER: a write of the register enters the trigger queue, or sets OVF (R322). -/
def execTrigger (vif : Nat) (val : Word) (s : State) : Host.Outcome State Fault Refusal :=
  partOk vif 64 s (fun s => s.modVif vif (fun i =>
    if 4 ≤ i.trigs.length then { i with ovf := true }
    else { i with trigs := i.trigs ++ [⟨val.toNat % 16, true, val &&& ~~~0xFF#64, [], 0⟩] }))

/-- A trigger is refused: event 0x05 for a register's; for a stream's stream error 6 at its GRAPH.TRIGGER, which has been
performed, so that RHEAD is past it, and which a later command may have followed (20 R313, R314, R322). -/
def State.refuseTrigger (s : State) (v : Nat) (t : Trig) : State :=
  if t.reg then s.event 0x05 v t.gid 0 t.list 0 else s.streamErrorAt v 6 t.eofs.toNat

/-- The patch pairs of a trigger (20 R321). -/
def State.trigPairs (s : State) (v : Nat) (t : Trig) : TrigOut (List (BitVec 32 × BitVec 32)) :=
  if !t.reg then .ok t.pairs
  else if t.list = 0 then .ok []
  else
    match s.rootWords v t.list.toNat 1 with
    | .wait => .wait
    | .fault => .refused
    | .ok _ ws =>
      match s.rootWords v (t.list.toNat + 4) (2 * payload ws 1) with
      | .wait => .wait
      | .fault => .refused
      | .ok _ ps => .ok (pairsOf ps)

/-- Frees a level slot that is COMPLETE; its serial number advances (20 Table 191, R317). -/
def State.freeLevel (s : State) (v slot : Nat) : State :=
  s.modLevel v slot (fun l => if l.st = .complete then { Level.init with serial := (l.serial + 1) % 2 ^ 20 } else l)

/-- Steps 2 and 3 of a trigger: the patches in list order, and the graph's slot (20 R322). -/
def State.beginTrigger (s : State) (v : Nat) (t : Trig) (es : List (List (BitVec 32)))
    (ps : List (Nat × Leaf × BitVec 32)) : State :=
  let g := (s.vif v).graph t.gid
  let s := ps.foldl (fun s p => (s.setAD p.2.1 kStore).store p.1 (toLE p.2.2.toNat 4) false) s
  let s := s.modLevel v g.slot (fun l =>
    { Level.init with st := .opened, kind := 2, pv := g.pv, parent := if g.pv then g.parent else 0, serial := l.serial })
  (s.modGraph v t.gid (fun g => { g with cur := some t, entries := es, next := 0 })).serve

/-- A trigger that waits at the head of its graph's triggers begins, when the slots that it needs are FREE or COMPLETE
(20 R322, steps 1 to 3). It is refused, too, when its launch list, its patch list, or a kernel record or capability that a
patch needs cannot be read, a patch cannot be written or has not the form of R321, or its parent is not OPEN. DESIGN CHOICE
(log 76): the spec does not say what comes of these. -/
def State.startTrigger (s : State) (v : Nat) (t : Trig) : State :=
  let g := (s.vif v).graph t.gid
  let off := s.modVif v (fun i => { i with trigs := i.trigs.erase t })
  if !g.up then off.refuseTrigger v t
  else
    match off.readList v g with
    | .wait => s
    | .refused => off.refuseTrigger v t
    | .ok (s1, es) =>
      let slots := g.slot :: es.map (fun e => (launchCmd true none e).slot)
      if slots.any (fun n => let l := (s.vif v).level n; l.st == .opened || l.st == .cancelling) then s
      else
        match s1.trigPairs v t with
        | .wait => s
        | .refused => off.refuseTrigger v t
        | .ok ps =>
          match s1.patchPlaces v es ps with
          | .wait => s
          | .refused => off.refuseTrigger v t
          | .ok xs =>
            if g.pv && ((s.vif v).level g.parent).st != .opened then off.refuseTrigger v t
            else (slots.foldl (fun s n => s.freeLevel v n) s1).beginTrigger v t es xs

/-- A trigger ends: its graph's slot is sealed (20 R316). -/
def State.endTrigger (s : State) (v gid : Nat) : State :=
  let g := (s.vif v).graph gid
  let s := s.modLevel v g.slot (fun l => if l.st = .opened ∧ l.kind = 2 then { l with sealed := true } else l)
  s.modGraph v gid (fun g => { g with cur := none, entries := [], next := 0 })

/-- A trigger launches its next entry, once the root record of the one before has been accepted (20 R314, R322). -/
def State.runTrigger (s : State) (v gid : Nat) (t : Trig) : State :=
  let g := (s.vif v).graph gid
  if ((s.vif v).level g.slot).st ≠ .opened then s.endTrigger v gid
  else
    let before := if g.next = 0 then none else g.entries[g.next - 1]?
    if before.any (fun e => s.rootAway v (launchCmd true none e).slot) then s
    else
      match g.entries[g.next]? with
      | none => s.endTrigger v gid
      | some e =>
        match s.tryLaunch v (launchCmd true (some g.slot) e) with
        | .wait => s
        | .refused => (s.endTrigger v gid).refuseTrigger v t
        | .opened s1 =>
          let s2 := s1.modGraph v gid (fun g => { g with next := g.next + 1 })
          if g.next + 1 = g.entries.length then s2.endTrigger v gid else s2

/-- TRIGGER_RUN: a step of a graph's first trigger (R322). -/
def execTriggerRun (vif gid : Nat) (s : State) : Host.Outcome State Fault Refusal :=
  if 64 ≤ vif ∨ 16 ≤ gid then .fault .noSuchPart
  else
    match ((s.vif vif).graph gid).cur with
    | some t => .next (s.runTrigger vif gid t)
    | none =>
      match (s.vif vif).trigs.find? (fun t => t.gid == gid) with
      | some t => .next (s.startTrigger vif t)
      | none => .next s

end Sys2Proof.Machine
end

