-- ==== Sys2Proof/Machine/Stack.lean ====
section
/-! DEFINITION. The stack engines: attention descriptors, masks, the softmax sequence, landing, and the forms `satt`,
`sblk`, `swait` and `spoll` (05 R115, 23 R348 to R362). -/

namespace Sys2Proof.Machine

/-- Fields of the descriptor (23 Tables 215 and 216). -/
def Stk.gran (c : Stk) (i : Nat) : GReg := c.desc.getD i .null
def Stk.fld (c : Stk) (g lo n : Nat) : Nat := ((c.gran g).data.extractLsb' lo n).toNat
def Stk.nq (c : Stk) : Nat := c.fld 6 0 4 + 1
def Stk.eng (c : Stk) : Nat := c.fld 6 4 4
def Stk.scale (c : Stk) : Nat := c.fld 6 16 16
def Stk.tbase (c : Stk) : Nat := c.fld 6 32 32
def Stk.kstart (c : Stk) : Nat := c.fld 6 64 32
def Stk.klen (c : Stk) : Nat := c.fld 6 96 32

/-- The first and the last entry of the block table that the range uses (23 R351). -/
def Stk.firstEnt (c : Stk) : Nat := c.kstart / 16
def Stk.lastEnt (c : Stk) : Nat := (c.kstart + c.klen - 1) / 16

/-- The micro-operations of the mask program up to the first END (23 R353). -/
def takeOps : List Nat → List Nat
  | [] => []
  | w :: ws => if w / 2 ^ 14 % 4 = 0 then [] else w :: takeOps ws

/-- The mask program that runs. -/
def Stk.maskOps (c : Stk) : List Nat := takeOps ((List.range 8).map (fun u => c.fld 7 (16 * u) 16))

/-- A query record (23 Table 217). -/
structure Query where
  pos : Nat
  qseg : Nat
  anc : Nat
  deriving DecidableEq, Repr

/-- A block-table entry (23 Table 218). -/
structure Block where
  seg : Nat
  kpg : Nat
  vpg : Nat
  deriving DecidableEq, Repr

/-- The test of a micro-operation (23 Table 219). -/
def maskTest (w tbase : Nat) (q : Query) (seg kpos : Nat) : Bool :=
  let imm := w % 2 ^ 11
  match w / 2 ^ 11 % 8 with
  | 0 => decide (kpos ≤ q.pos + imm)
  | 1 => decide ((q.pos : Int) - imm ≤ kpos)
  | 2 => seg == q.qseg
  | 3 => decide (kpos < tbase)
  | 4 => decide (tbase ≤ kpos ∧ kpos - tbase < 64) && q.anc.testBit (kpos - tbase)
  | _ => true

/-- Whether a token is attended by a query (23 R353). -/
def attended (ops : List Nat) (tbase : Nat) (q : Query) (seg kpos : Nat) : Bool :=
  ops.foldl (fun acc w =>
    let t := maskTest w tbase q seg kpos
    match w / 2 ^ 14 % 4 with
    | 1 => acc && t
    | 2 => acc || t
    | _ => acc && !t) true

/-- The fields that issue refuses (23 R356). -/
def Stk.valid (c : Stk) : Bool :=
  c.fld 6 8 8 == 0 && decide (1 ≤ c.klen ∧ c.klen ≤ 2 ^ 20) && c.maskOps.all (fun w => decide (w / 2 ^ 11 % 8 < 6))

/-- The extents of a `satt` (23 R356). -/
def Stk.extents (c : Stk) : List Extent :=
  let bt := (c.gran 4).addr + 8 * c.firstEnt
  [flatExtent (c.gran 0) (256 * c.nq) (pL ||| pE) 4, flatExtent (c.gran 2) (16 * c.nq) (pL ||| pE) 4,
   ⟨c.gran 4, bt, 8 * (c.lastEnt - c.firstEnt + 1), pL ||| pE, true, 3, if bt % 8 ≠ 0 then some bt else none⟩,
   ⟨c.gran 5, (c.gran 5).addr, 0, pL ||| pE, false, 0, none⟩, flatExtent (c.gran 1) (256 * c.nq) (pS ||| pE) 4] ++
  (if (c.gran 3).tag then [flatExtent (c.gran 3) (4 * c.nq) (pS ||| pE) 2] else [])

/-- The checks of a `satt` after those of its descriptor. -/
def Stk.checks (c : Stk) (s : State) : Except TrapReq Unit :=
  firstErr ([if c.valid then .ok () else .error (ill s.pc 10)] ++ c.extents.map Extent.check ++ c.extents.map Extent.aligned)

/-- A command of the executing context before it is sent. -/
def State.sampleStk (s : State) (form : Nat) (gs : List GReg) : Stk :=
  { id := 0, core := s.curCore, ctx := s.curCtx, form := form, handle := none, out := 0, lid := s.lid,
    pgen := s.pgenOf s.curCore, header := 0, desc := gs, idx := 0, value := 0, pa := 0, accepted := false, started := false, pages := [],
    rows := [], stats := [], pois := [], len := 0, acn := 0, fk := 0, poi := false }

/-- The header of a message to a stack engine (23 R349). -/
def State.stkHeader (s : State) (opc len e hnd : Nat) : BitVec 256 := s.header opc len 0 0 3 0 e s.curCtx hnd

/-- Whether a stack engine's inbox of 16 has room, and the launch may count one more command. A command takes its entry until it
has completed. DESIGN CHOICE (log 79): the spec does not say when the entry is freed. -/
def State.stkRoom (s : State) (e : Nat) : Bool := decide ((s.stkEng e).length < 16) && s.mayCount

/-- `satt` (23 R356). -/
def sattForm (o : Op) (s : State) (byHandle : Bool) : Eff :=
  if o.rd = 0 then .trap (ill s.pc 10)
  else
    let ga := s.g o.ra
    withBlock s ga 128 4 (pL ||| pLC) kLoad (fun s1 g =>
      match s1.poisonSegs g with
      | some i => .after s1 ⟨tPOIS, segPoisonVa ga.word i, s.pc⟩
      | none =>
        let c := s1.sampleStk (if byHandle then 1 else 0) (s1.readSegs g true)
        checked s (c.checks s1) (fun _ =>
          if !s1.stkRoom c.eng then .hold s1
          else
            let (id, s2) := s1.fresh
            if byHandle then
              match s2.takeHandle clsStack o.rd id with
              | none => .hold s1
              | some (s3, hd) => .next (s3.modStk c.eng (fun cs => cs ++ [{ c with
                id := id, handle := hd, header := s1.stkHeader 0x400 4 c.eng (hndOf hd) }]))
            else
              withRoom s1 (.g o.rd)
                (.next ((s2.startOut (.g o.rd) (.satt id) 0 []).modStk c.eng (fun cs => cs ++ [{ c with
                  id := id, out := s2.nextId, header := s1.stkHeader 0x402 4 c.eng o.rd }])))))

/-- SATT, response form. HND is the number of its destination register. DESIGN CHOICE (log 70). -/
def execSatt (o : Op) (s : State) : Host.Outcome State Fault Refusal :=
  word (.satt o) o s (fun s => sattForm o s false)

/-- SATT, handle form. -/
def execSattHandle (s : State) : Host.Outcome State Fault Refusal :=
  word .sattHandle s.opr s (fun s => sattForm s.opr s true)

/-- SBLK (23 R357). The entry must be aligned to its 8 bytes. DEDUCED (log 34). -/
def execSblk (o : Op) (s : State) : Host.Outcome State Fault Refusal :=
  word (.sblk o) o s (fun s =>
    let t := s.g o.ra
    let i := (s.g o.rb).addr % 2 ^ 32
    let a := t.word + BitVec.ofNat 64 (8 * i)
    checked s (check t a 8 (pS ||| pE)) (fun _ =>
      if a.toNat % 8 ≠ 0 then .trap (aln a 3)
      else
        let root := match s.vifOf s.curCore with | some v => (s.vif v).troot | none => 0
        checked s (s.translateRoot root a kStore) (fun r =>
          let e := r.2 / 2 ^ 36
          if !r.1.stkRoom e then .hold s
          else
            let (id, s2) := r.1.fresh
            match s2.takeHandle clsStack 0 id with
            | none => .hold s
            | some (s3, _) =>
              let c := { s.sampleStk 2 [t] with
                id := id, idx := i, value := (s.g o.rd).word, pa := r.2, header := s.stkHeader 0x401 1 e 64 }
              .next (s3.modStk e (fun cs => cs ++ [c])))))

/-- SWAIT (23 R358). -/
def execSwait (o : Op) (s : State) : Host.Outcome State Fault Refusal :=
  word (.swait o) o s (fun s => waitForm s o clsStack .swait)

/-- SPOLL (23 R358). -/
def execSpoll (o : Op) (s : State) : Host.Outcome State Fault Refusal :=
  word (.spoll o) o s (fun s => pollForm s o clsStack)

/-! ## Acceptance -/

/-- The destination spans of a `satt`: output rows and statistics (23 R355). -/
def Stk.spans (c : Stk) : List (Nat × Nat) :=
  pieces (c.gran 1).addr (256 * c.nq) ++ (if (c.gran 3).tag then pieces (c.gran 3).addr (4 * c.nq) else [])

/-- Translates destination pieces; the error is FK 4, or 5 for a bank that is not in PAD role, and none when a walk waits
(23 Table 221). -/
def State.stkPages (s : State) (core : Nat) : List (Nat × Nat) → Except (Option Nat) (State × List Page)
  | [] => .ok (s, [])
  | (va, n) :: rest =>
    match s.engLoc core va kStore with
    | .error .bank => .error (some 5)
    | .error .wait => .error none
    | .error _ => .error (some 4)
    | .ok (s1, loc) =>
      match s1.stkPages core rest with
      | .error e => .error e
      | .ok (s2, ps) => .ok (s2, ⟨va, n, loc⟩ :: ps)

/-- Puts a command back at its engine. -/
def State.putStk (s : State) (e : Nat) (c : Stk) : State :=
  s.modStk e (fun cs => cs.map (fun x => if x.id = c.id then c else x))

/-- STACK_COMMAND_ACCEPT (23 R348, R355, R362, 01 R17): the oldest command that has not been accepted. -/
def execStackCommandAccept (stack : Nat) (s : State) : Host.Outcome State Fault Refusal :=
  if 16 ≤ stack then .fault .noSuchPart
  else
    match (s.stkEng stack).find? (fun c => !c.accepted) with
    | none => .next s
    | some c =>
      if headerBad c.header then .next (s.modStk stack (fun cs => cs.filter (fun x => x.id != c.id)))
      else if s.pgenOf c.core ≠ c.pgen then .next (s.endStk stack c 2)
      else if c.form = 2 then
        .next ((s.putStk stack { c with accepted := true }).claimLines c.id (linesOf c.pa 8))
      else
        match s.stkPages c.core c.spans with
        | .error none => .next s
        | .error (some fk) => .next ((s.frozenLanding c.core c.spans).endStk stack { c with fk := fk } 3)
        | .ok (s1, ps) =>
          .next ((s1.putStk stack { c with accepted := true, pages := ps }).claimLines c.id
            (ps.flatMap (fun p => linesOf p.pa p.size)))

/-! ## The computation -/

/-- What a read of a stack engine gives. -/
inductive StkRd where
  | ok (s : State) (bs : List Byte) (pois : Bool)
  | wait
  | fault (fk : Nat)

/-- A read of query rows or records: FK 1 when it fails. It does not wait for lines of the later commands of its engine
(23 Table 222). -/
def stkRead (c : Stk) (stack : Nat) (s : State) (va n : Nat) : StkRd :=
  match engReadPieces c.core ((s.stkEng stack).map Stk.id) (pieces va n) s with
  | .ok s1 bs p => .ok s1 bs p
  | .wait => .wait
  | .err _ => .fault 1

/-- Whether every piece of `n` bytes lies in stack memory of the engine's stack; the error is FK 1 or 3, or none when a walk
waits (23 R352). -/
def stkOwn (c : Stk) (stack : Nat) : List (Nat × Nat) → State → Except (Option Nat) State
  | [], s => .ok s
  | (va, _) :: rest, s =>
    match s.engLoc c.core va kLoad with
    | .error .bank | .error .region => .error (some 3)
    | .error .wait => .error none
    | .error _ => .error (some 1)
    | .ok (s1, loc) => if isStack loc && loc / 2 ^ 36 == stack then stkOwn c stack rest s1 else .error (some 3)

/-- A read of the block table or of a page. -/
def stkReadOwn (c : Stk) (stack : Nat) (s : State) (va n : Nat) : StkRd :=
  match stkOwn c stack (pieces va n) s with
  | .error none => .wait
  | .error (some fk) => .fault fk
  | .ok s1 => stkRead c stack s1 va n

/-- The f16 elements of a row. -/
def f16s : Nat → List Byte → List Nat
  | 0, _ => []
  | n + 1, bs => leNat (bs.take 2) :: f16s n (bs.drop 2)

/-- f16 operations, rounded to nearest even (23 R354). -/
def hAdd (a b : Nat) : Nat := (FFmt.f16.op2 FV.add a b).1
def hMul (a b : Nat) : Nat := (FFmt.f16.op2 FV.mul a b).1
def hDiv (a b : Nat) : Nat := (FFmt.f16.op2 FV.div a b).1

/-- A subtraction; equal operands give +0. -/
def hSub (a b : Nat) : Nat :=
  if (a = b ∧ !(FFmt.f16.decode a).isNan) ∨ (FFmt.f16.decode a).eqv (FFmt.f16.decode b) then 0
  else (FFmt.f16.op2 FV.sub a b).1

/-- e^x, correctly rounded. -/
def hExp (a : Nat) : Nat :=
  match FFmt.f16.decode a with
  | .nan _ => FFmt.f16.nan
  | .inf n => if n then 0 else FFmt.f16.infMag
  | .fin n m e => (FFmt.f16.encode .rne (expReal (.fin n m e))).1

/-- The dot product in ascending index (05 R115). -/
def hDot : List Nat → List Nat → Nat
  | x :: xs, y :: ys => (xs.zip ys).foldl (fun s p => hAdd s (hMul p.1 p.2)) (hMul x y)
  | _, _ => 0

/-- The running state of one query (23 R354). -/
structure Soft where
  m : Nat
  l : Nat
  acc : List Nat
  first : Bool
  pois : Bool
  len : Nat
  deriving DecidableEq, Repr

/-- Before the first token. -/
def Soft.init (pois : Bool) : Soft := ⟨0xFC00, 0, List.replicate 128 0, true, pois, 0⟩

/-- One attended token. -/
def Soft.step (f : Soft) (scale : Nat) (q k v : List Nat) (pois : Bool) : Soft :=
  let s := hMul (hDot q k) scale
  let m2 := (fminmax .f16 true false f.m s).1
  let c := if f.first then 0 else hExp (hSub f.m m2)
  let p := hExp (hSub s m2)
  { m := m2, l := hAdd (hMul f.l c) p, acc := (f.acc.zip v).map (fun x => hAdd (hMul x.1 c) (hMul p x.2)), first := false,
    pois := f.pois || pois, len := f.len + 1 }

/-- The output row. -/
def Soft.row (f : Soft) : List (BitVec 16) :=
  f.acc.map (fun a => BitVec.ofNat 16 (if f.first then 0 else hDiv a f.l))

/-- The statistic: m and l. -/
def Soft.stat (f : Soft) : BitVec 32 := BitVec.ofNat 32 (f.m + 65536 * f.l)

/-- One query's row and record, with the poison of both. -/
structure QRow where
  q : List Nat
  query : Query
  pois : Bool
  deriving DecidableEq, Repr

/-- Reads the queries. -/
def readQueries (c : Stk) (stack : Nat) : List Nat → State → Except (Option Nat) (State × List QRow)
  | [], s => .ok (s, [])
  | i :: rest, s =>
    match stkRead c stack s ((c.gran 0).addr + 256 * i) 256 with
    | .wait => .error none
    | .fault fk => .error (some fk)
    | .ok s1 qb p1 =>
      match stkRead c stack s1 ((c.gran 2).addr + 16 * i) 16 with
      | .wait => .error none
      | .fault fk => .error (some fk)
      | .ok s2 rb p2 =>
        match readQueries c stack rest s2 with
        | .error e => .error e
        | .ok (s3, qs) =>
          let r := leNat rb
          .ok (s3, ⟨f16s 128 qb, ⟨r % 2 ^ 32, r / 2 ^ 32 % 2 ^ 16, r / 2 ^ 64⟩, p1 || p2⟩ :: qs)

/-- Reads the block table; an entry with V = 0 is FK 2 (23 R351). -/
def readBlocks (c : Stk) (stack : Nat) : List Nat → State → Except (Option Nat) (State × List (Block × Bool))
  | [], s => .ok (s, [])
  | e :: rest, s =>
    match stkReadOwn c stack s ((c.gran 4).addr + 8 * e) 8 with
    | .wait => .error none
    | .fault fk => .error (some fk)
    | .ok s1 bs p =>
      let w := leNat bs
      if w / 2 ^ 63 % 2 = 0 then .error (some 2)
      else
        match readBlocks c stack rest s1 with
        | .error e => .error e
        | .ok (s2, r) => .ok (s2, (⟨w / 2 ^ 32 % 2 ^ 16, w / 2 ^ 16 % 2 ^ 16, w % 2 ^ 16⟩, p) :: r)

/-- Reads one row of a page of the pool: FK 6 when the page is not inside KVCAP (23 R352). -/
def readPageRow (c : Stk) (stack : Nat) (s : State) (pg row : Nat) : StkRd :=
  let a := (c.gran 5).addr + 4096 * pg
  if !(c.gran 5).inBounds a 4096 then .fault 6
  else
    match stkOwn c stack (pieces a 4096) s with
    | .error none => .wait
    | .error (some fk) => .fault fk
    | .ok s1 => stkRead c stack s1 (a + 256 * row) 256

/-- The tokens from `t` on, in ascending order, for every query (23 R354). -/
def runTokens (c : Stk) (stack : Nat) (bl : List (Block × Bool)) (qs : List QRow) :
    List Nat → State → List Soft → Except (Option Nat) (State × List Soft)
  | [], s, fs => .ok (s, fs)
  | t :: rest, s, fs =>
    let b := (bl.getD (t / 16 - c.firstEnt) (⟨0, 0, 0⟩, false)).1
    let at_ := qs.map (fun q => attended c.maskOps c.tbase q.query b.seg t)
    if !at_.any id then runTokens c stack bl qs rest s fs
    else
      match readPageRow c stack s b.kpg (t % 16) with
      | .wait => .error none
      | .fault fk => .error (some fk)
      | .ok s1 kb kp =>
        match readPageRow c stack s1 b.vpg (t % 16) with
        | .wait => .error none
        | .fault fk => .error (some fk)
        | .ok s2 vb vp =>
          let k := f16s 128 kb
          let v := f16s 128 vb
          let fs' := ((qs.zip at_).zip fs).map (fun x =>
            if x.1.2 then x.2.step c.scale x.1.1.q k v (kp || vp) else x.2)
          runTokens c stack bl qs rest s2 fs'

/-- The whole computation of a `satt`; an error is an FK, or none when a read waits. The block table, which is read whole, gives
its poison to every query: its mask reads the entries, whatever it then masks (23 R351, R355). -/
def Stk.compute (c : Stk) (stack : Nat) (s : State) : Except (Option Nat) (State × List Soft) :=
  match readQueries c stack (List.range c.nq) s with
  | .error e => .error e
  | .ok (s1, qs) =>
    match readBlocks c stack ((List.range (c.lastEnt - c.firstEnt + 1)).map (fun i => c.firstEnt + i)) s1 with
    | .error e => .error e
    | .ok (s2, bl) =>
      runTokens c stack bl qs ((List.range c.klen).map (fun i => c.kstart + i)) s2
        (qs.map (fun q => Soft.init (q.pois || bl.any Prod.snd)))

/-- The command that an engine performs: the first that it has accepted (23 R348). -/
def State.headStk (s : State) (stack : Nat) : Option Stk := (s.stkEng stack).find? Stk.accepted

/-- STACK_COMMAND_START (23 R354): the next accepted attention is computed. -/
def execStackCommandStart (stack : Nat) (s : State) : Host.Outcome State Fault Refusal :=
  if 16 ≤ stack then .fault .noSuchPart
  else
    match s.headStk stack with
    | none => .next s
    | some c =>
      if c.form = 2 || c.started || !s.ownsAll c.id then .next s
      else
        match c.compute stack s with
        | .error none => .next s
        | .error (some fk) => .next (s.endStk stack { c with fk := fk } 3)
        | .ok (s1, fs) =>
          .next (s1.putStk stack { c with
            started := true, rows := fs.map Soft.row, stats := fs.map Soft.stat, pois := fs.map Soft.pois,
            len := (fs.map Soft.len).sum, poi := fs.any Soft.pois })

/-- The pieces of an output row and of the statistics. -/
def Stk.rowSegs (c : Stk) (q : Nat) : Segs := pageSegs c.pages ((c.gran 1).addr + 256 * q) 256
def Stk.statSegs (c : Stk) : Segs := if (c.gran 3).tag then pageSegs c.pages (c.gran 3).addr (4 * c.nq) else []

/-- Lands the output rows in ascending order, then the statistics (23 R355). -/
def Stk.land (c : Stk) (s : State) : State :=
  let s1 := (List.range c.nq).foldl (fun s q => s.landSegs (c.rowSegs q)
      ((c.rows.getD q []).flatMap (fun x => (toLE x.toNat 2).map (fun b => (b, c.pois.getD q false))))) s
  s1.landSegs c.statSegs
    ((List.range c.nq).flatMap (fun q => (toLE (c.stats.getD q 0).toNat 4).map (fun b => (b, c.pois.getD q false))))

/-- STACK_COMMAND_COMPLETE (23 R355): a landing that the home would refuse in part ends the command before any (23 R359). -/
def execStackCommandComplete (stack : Nat) (s : State) : Host.Outcome State Fault Refusal :=
  if 16 ≤ stack then .fault .noSuchPart
  else
    match s.headStk stack with
    | none => .next s
    | some c =>
      if !c.started then .next s
      else if s.landRefused ((List.range c.nq).flatMap c.rowSegs ++ c.statSegs) then .next (s.endStk stack { c with fk := 5 } 3)
      else .next ((c.land s).endStk stack c 1)

/-- SBLK_WRITE (23 R357): a write into a poisoned granule in part is refused at the home and sets ERR. -/
def execSblkWrite (stack : Nat) (s : State) : Host.Outcome State Fault Refusal :=
  if 16 ≤ stack then .fault .noSuchPart
  else
    match s.headStk stack with
    | none => .next s
    | some c =>
      if c.form ≠ 2 || !s.ownsAll c.id then .next s
      else if (s.partPoison c.pa 8).isSome then .next (s.endStk stack { c with fk := 5 } 3)
      else .next ((s.landBytes c.pa (toLE c.value.toNat 8) false false).endStk stack c 1)

/-- An alert on a row (23 Table 223): the sequencer mitigates and sets the row's status bit, unless it is set and the row has been
mitigated; the controller mitigates, unless the bit tells it that this has been done, which its alert then clears. DESIGN CHOICE
(log 75): the spec does not say when the bit is cleared. -/
def State.alertRow (s : State) (key : Nat) (sequencer : Bool) : State :=
  let bit := Store.get false s.rowBits key
  { s with
    rowBits := Store.set false s.rowBits key sequencer
    mitigated := if bit then s.mitigated else Store.set 0 s.mitigated key (Store.get 0 s.mitigated key + 1) }

/-- ACTIVATION_ALERT (23 R361): an alert of the sequencer during a `satt` is also charged to it. Rows are numbered over all
stacks: row r of stack k is 16 × r + k. -/
def execActivationAlert (row : Nat) (sequencer : Bool) (s : State) : Host.Outcome State Fault Refusal :=
  let s1 := s.alertRow row sequencer
  match s.headStk (row % 16) with
  | none => .next s1
  | some c =>
    if sequencer && c.started then .next (s1.putStk (row % 16) { c with acn := min 255 (c.acn + 1) }) else .next s1

end Sys2Proof.Machine
end

