-- ==== Sys2Proof/Machine/Pens.lean ====
section
/-! DEFINITION. Pens, cluster maps, the registers that change them, the completion of levels, and sharing turns
(20 R309, R316, R317, R323 to R325, 09 R206, R208, 10 R221). -/

namespace Sys2Proof.Machine

/-! ## The state of a core as an interface holds it -/

/-- The bytes and marks of a core's local store. -/
def State.storeOf (s : State) (c : Nat) : Store Byte × Store (BitVec 3) :=
  let lo := lsLoc c 0
  (s.mem.filter (fun p => decide (lo ≤ p.1 ∧ p.1 < lo + 2 ^ 17)), s.gran.filter (fun p =>
    decide (lo / 16 ≤ p.1 ∧ p.1 < lo / 16 + 2 ^ 13)))

/-- Gives a core's local store bytes and marks, which lie at the locations of core `b`. -/
def State.putStore (s : State) (c b : Nat) (x : Store Byte × Store (BitVec 3)) : State :=
  let (lo, from_) := (lsLoc c 0, lsLoc b 0)
  let mem := s.mem.filter (fun p => !(decide (lo ≤ p.1 ∧ p.1 < lo + 2 ^ 17)))
  let gran := s.gran.filter (fun p => !(decide (lo / 16 ≤ p.1 ∧ p.1 < lo / 16 + 2 ^ 13)))
  { s with mem := x.1.foldl (fun m p => Store.set unwritten m (p.1 - from_ + lo) p.2) mem
           gran := x.2.foldl (fun m p => Store.set 0 m (p.1 - from_ / 16 + lo / 16) p.2) gran }

/-- Whether a core's present state is that of an interface: not of one that shares it and waits for its turn. -/
def State.holdsCore (s : State) (v c : Nat) : Bool := decide (s.vifOf c = some v) || decide ((s.mappers (clusterOf c)).length < 2)

/-- What an interface has saved of a core that it does not hold: the reset state before its first turn (09 R208). -/
def State.savedOf (s : State) (v c : Nat) : Saved :=
  match (s.vif v).saved.find? (fun p => p.1 == c) with
  | some p => p.2
  | none => ⟨s.freshCore c 0, [], []⟩

/-- Saves a core for an interface. -/
def State.saveAs (s : State) (v c : Nat) (x : Saved) : State :=
  s.modVif v (fun i => { i with saved := Store.insert c x (i.saved.drop c) })

/-- An interface's state of a core, with its local store at the core's own locations. -/
def State.coreState (s : State) (v c : Nat) : Saved :=
  if s.holdsCore v c then (let (m, g) := s.storeOf c; ⟨s.core c, m, g⟩) else s.savedOf v c

/-- Puts an interface's state of a core, whose local store lies at the locations of core `b`. -/
def State.putCoreState (s : State) (v c b : Nat) (x : Saved) : State :=
  if s.holdsCore v c then (s.setCore c x.core).putStore c b (x.mem, x.gran)
  else
    let (lo, from_) := (lsLoc c 0, lsLoc b 0)
    s.saveAs v c ⟨x.core, x.mem.map (fun p => (p.1 - from_ + lo, p.2)), x.gran.map (fun p => (p.1 - from_ / 16 + lo / 16, p.2))⟩

/-- The cores of a physical cluster. -/
def clusterCores (p : Nat) : List Nat := (List.range 192).map (coreAt p)

/-! ## Pens -/

/-- The rectangle of a physical cluster: x, y, w and h (01 Table 6). -/
def clusterRect (p : Nat) : Nat × Nat × Nat × Nat :=
  (p / 6 % 2 * 48 + p % 3 * 16, p / 12 * 24 + p % 6 / 3 * 12, 16, 12)

/-- The common part of two rectangles. -/
def meetRect (a b : Nat × Nat × Nat × Nat) : Nat × Nat × Nat × Nat :=
  let (x, y) := (max a.1 b.1, max a.2.1 b.2.1)
  (x, y, min (a.1 + a.2.2.1) (b.1 + b.2.2.1) - x, min (a.2.1 + a.2.2.2) (b.2.1 + b.2.2.2) - y)

/-- The cores in a rectangle. -/
def areaOf (r : Nat × Nat × Nat × Nat) : Nat := r.2.2.1 * r.2.2.2

/-- The physical clusters that an interface maps, each once. -/
def Vif.clusters (i : Vif) : List Nat := (((List.range 24).map i.phys).filter (fun p => decide (p < 24))).dedup

/-- A pen at its beginning (20 R323). -/
def newPen (r : Nat × Nat × Nat × Nat) : Pen := ⟨r.1, r.2.1, r.2.2.1, r.2.2.2, 0, 0, []⟩

/-- The rectangle of a pen. -/
def Pen.rect (p : Pen) : Nat × Nat × Nat × Nat := (p.x, p.y, p.w, p.h)

/-- The rectangle of a word of PEN.DEFINE, when the word is well formed (20 R323). -/
def rectWord (w : BitVec 32) : Option (Nat × Nat × Nat × Nat) :=
  let n := w.toNat
  let (x, y, wd, h) := (n % 128, n / 2 ^ 8 % 64, n / 2 ^ 16 % 128, n / 2 ^ 24 % 64)
  if n / 2 ^ 7 % 2 ≠ 0 ∨ n / 2 ^ 14 % 4 ≠ 0 ∨ n / 2 ^ 23 % 2 ≠ 0 ∨ n / 2 ^ 30 ≠ 0 then none
  else if x % 4 ≠ 0 ∨ wd % 4 ≠ 0 ∨ wd < 4 ∨ y % 2 ≠ 0 ∨ h % 2 ≠ 0 ∨ h < 2 then none
  else some (x, y, wd, h)

/-- Whether no two rectangles of a list overlap. -/
def disjointRects : List (Nat × Nat × Nat × Nat) → Bool
  | [] => true
  | r :: rs => rs.all (fun q => areaOf (meetRect r q) == 0) && disjointRects rs

/-- Whether rectangles cover exactly the cores of some clusters, with no overlap (20 R323). -/
def coverRects (rs : List (Nat × Nat × Nat × Nat)) (cls : List Nat) : Bool :=
  rs.all (fun r => areaOf r == (cls.map (fun p => areaOf (meetRect r (clusterRect p)))).sum) && disjointRects rs &&
    (rs.map areaOf).sum == 192 * cls.length

/-- Sets the lease generation of a core for an interface. -/
def State.setLease (s : State) (v c : Nat) (g : BitVec 16) : State :=
  let f := fun (k : Core) => { k with cr := { k.cr with lease := g } }
  if s.holdsCore v c then s.modCore c f
  else s.modVif v (fun i => { i with saved := i.saved.map (fun p =>
    (p.1, if p.1 = c then { p.2 with core := f p.2.core } else p.2)) })

/-- Gives an interface new pens, with PGEN and lease generation 0 (20 R323). -/
def State.setPens (s : State) (v : Nat) (ps : List Pen) : State :=
  let s := s.modVif v (fun i => { i with pens := ps })
  (ps.flatMap Pen.cores).foldl (fun s c => s.setLease v c 0) s

/-- PEN.DEFINE (R323). -/
def execPenDefine (vif : Nat) (s : State) : Host.Outcome State Fault Refusal :=
  command vif 0x30 s (fun s _ ws =>
    let n := payload ws 1
    let i := s.vif vif
    if n + 1 ≠ ws.length then .error s 2
    else
      let rs := (ws.drop 1).filterMap rectWord
      if rs.length ≠ n ∨ !coverRects rs i.clusters then .error s 6
      else if i.levels.any (fun l => l.2.kind == 1 && (l.2.st == .opened || l.2.st == .cancelling)) then .wait s
      else .done (s.setPens vif (rs.map newPen)))

/-- PEN.RESET (R324). -/
def execPenReset (vif : Nat) (s : State) : Host.Outcome State Fault Refusal :=
  command vif 0x31 s (fun s _ ws =>
    let n := payload ws 1
    let ok := match (s.vif vif).pens[n]? with
      | some p => p.w != 0
      | none => false
    if 256 ≤ n ∨ !ok then .error s 6
    else .done ((s.penReset vif n false).event 0x06 vif n 0 0 0))

/-! ## Sharing groups -/

/-- Whether two interfaces belong to one sharing group (20 R309). -/
def sameGroup (a b : Vif) : Bool := a.grp != 0 && a.grp == b.grp

/-- Whether an interface may be enabled: its clusters lie in no other enabled map outside its group, and its group has
one HOME (20 R309). -/
def State.mayEnable (s : State) (v : Nat) (j : Vif) : Bool :=
  s.vifs.all (fun o => o.1 == v || !o.2.en ||
    ((sameGroup o.2 j || j.clusters.all (fun p => (o.2.lcl p).isNone)) && (!sameGroup o.2 j || o.2.home == j.home)))

/-- The interfaces of a sharing group (09 R208). -/
def State.groupOf (s : State) (g : Nat) : List Nat :=
  if g = 0 then [] else (s.vifs.filter (fun i => i.2.en && i.2.grp == g)).map Prod.fst

/-! ## Levels -/

/-- A write of a level register by software (20 R317). -/
def State.writeLevel (s : State) (v n : Nat) (x : Word) : State :=
  let l := (s.vif v).level n
  let st := (x.extractLsb' 61 3).toNat
  let kind := (x.extractLsb' 58 3).toNat
  let pv := x.getLsbD 57
  let par := (x.extractLsb' 51 6).toNat
  match l.st with
  | .free =>
    if st = 1 ∧ (kind = 3 ∨ kind = 4) ∧ (!pv ∨ ((s.vif v).level par).st = .opened) then
      s.modLevel v n (fun l => { Level.init with st := .opened, kind := kind, pv := pv, parent := if pv then par else 0,
                                                 sealed := x.getLsbD 50, serial := l.serial })
    else s
  | .opened =>
    if (l.kind = 3 ∨ l.kind = 4) ∧ x.getLsbD 50 then s.modLevel v n (fun l => { l with sealed := true }) else s
  | .complete => if st = 0 then s.freeLevel v n else s
  | .cancelling => s

/-- LVL_WRITE (R317). -/
def execLvlWrite (vif n : Nat) (val : Word) (s : State) : Host.Outcome State Fault Refusal :=
  if 64 ≤ n then .fault .noSuchPart else partOk vif 64 s (fun s => s.writeLevel vif n val)

/-- Whether an access is an `st.n4` of a core. -/
def Access.nibbleOf (a : Access) (c : Nat) : Bool := a.core == c && (match a.op with
  | .nibble _ _ => true
  | _ => false)

/-- Whether something that a core has sent is not yet accepted or discarded: a message, record, reply or `st.n4` (09 R206). -/
def State.sending (s : State) (c : Nat) : Bool :=
  s.sendSlots c != 0 || s.waits.any (fun a => a.nibbleOf c) || s.net.any (fun p => match p.body with
    | .request a _ => a.nibbleOf c
    | _ => false)

/-- Whether a core's own state is quiet (09 R206). -/
def Core.quiet (k : Core) : Bool :=
  k.deque.isEmpty && k.fifoBanks.all (fun b => (k.bank b).items.all Item.dead) &&
    k.ctxs.all (fun x => x.1 == 0 || x.2.st == .free) && k.taken.isNone && k.journal.all (fun j => j.2.st != 1) &&
    k.gather.all (fun g => !g.remote)

/-- Whether a pen is quiet: the conditions of R206 at one instant, of the state of its cores that the interface holds or has
saved (09 R208). -/
def State.penQuiet (s : State) (v i : Nat) : Bool :=
  match (s.vif v).pens[i]? with
  | none => true
  | some p =>
    s.cores.all (fun c => !(p.has c.1 && s.holdsCore v c.1) || c.2.quiet && !s.sending c.1) &&
      (s.vif v).saved.all (fun c => !(p.has c.1 && !s.holdsCore v c.1) || c.2.core.quiet)

/-- QUIET_REPORT: the tree of a pen reports only while the pen is quiet (R206). -/
def execQuietReport (vif pen : Nat) (s : State) : Host.Outcome State Fault Refusal :=
  partOk vif 64 s (fun s =>
    if s.penQuiet vif pen then
      s.modVif vif (fun i => { i with levels := i.levels.map (fun l =>
        (l.1, if l.2.kind = 1 ∧ l.2.pen = pen ∧ l.2.st = .opened then { l.2 with quiet := true } else l.2)) })
    else s)

/-- Whether every store of a launch's units has been performed (20 R316). -/
def State.storesDone (s : State) (lid : Nat) : Bool :=
  let st := fun (a : Access) => a.lid == lid && a.op.kind != 0
  s.allCores.all (fun k => k.journal.all (fun j => !(j.2.st == 1 && j.2.lid == lid)) && k.gather.all (fun g => g.lid != lid)) &&
    !s.waits.any st && s.net.all (fun p => match p.body with
      | .request a _ => !st a
      | .posted _ _ a => !st a
      | _ => true)

/-- Whether a level may become COMPLETE now, with its CXL (20 R316, R318). -/
def State.levelDone (s : State) (v n : Nat) : Option Bool :=
  let l := (s.vif v).level n
  match l.st with
  | .opened =>
    if l.kind = 1 then
      (if l.quiet && s.penQuiet v l.pen && s.levelCount v n == 0 && s.storesDone (mkLid v n l.serial) then some false else none)
    else if l.sealed && s.levelCount v n == 0 then some false else none
  | .cancelling => if s.levelCount v n = 0 then some true else none
  | _ => none

/-- LEVEL_COMPLETE (R316, R318). -/
def execLevelComplete (vif slot : Nat) (s : State) : Host.Outcome State Fault Refusal :=
  if 64 ≤ slot then .fault .noSuchPart
  else partOk vif 64 s (fun s => match s.levelDone vif slot with
    | some cxl => s.completeLevel vif slot cxl
    | none => s)

/-! ## Cluster maps -/

/-- Whether a location lies in the local stores of a physical cluster. -/
def inCluster (p loc : Nat) : Bool := !isStack loc && clusterOf (locCore loc) == p

/-- The location of a moved cluster's local store (10 R221). -/
def moveLoc (p q loc : Nat) : Nat := if inCluster p loc then lsLoc (coreAt q (cidxOf (locCore loc))) (locOff loc) else loc

/-- Whether an address names logical cluster `l` in the local-store window (01 Table 8). -/
def namesLcl (l : Nat) (va : Word) : Bool :=
  decide (0xFFFF800000000000 ≤ va.toNat ∧ va.toNat < 0xFFFF800040000000) && va.toNat / 2 ^ 25 % 32 == l

/-- What a change of entry `l` of an interface's map, which named cluster `p`, is about: addresses that name `l`, or all of `p` when
no other entry names it. -/
def Vif.via (i : Vif) (l p : Nat) (va : Word) : Bool :=
  namesLcl l va || !(List.range 24).any (fun m => m != l && i.phys m == p)

/-- The destination pages of the engine commands, each with its command. -/
def State.cmdPages (s : State) : List (Nat × Page) :=
  s.benches.flatMap (fun b => b.2.hires.flatMap (fun h => h.pages.map (fun p => (h.id, p)))) ++
    s.copies.flatMap (fun e => e.2.flatMap (fun c => c.pages.map (fun p => (c.id, p)))) ++
    s.stks.flatMap (fun e => e.2.flatMap (fun c => c.pages.map (fun p => (c.id, p))))

/-- An access whose locations have moved. -/
def Access.move (a : Access) (f : Nat → Nat) : Access :=
  let el := fun (es : List Elem) => es.map (fun e => { e with loc := f e.loc })
  { a with loc := f a.loc, held := a.held.map (fun l => { l with loc := f l.loc }), op := match a.op with
    | .vload es fe b => .vload (el es) fe b
    | .vstore es v b => .vstore (el es) v b
    | op => op }

/-- A waiting `recv`, `dqpop` or like form whose block has moved. -/
def Outst.move (o : Outst) (f : Nat → Nat) : Outst :=
  let mv := fun (g : Segs) => g.map (fun p => (f p.1, p.2))
  { o with wait := match o.wait with
    | .recv ch g t => .recv ch (mv g) t
    | .steal g t => .steal (mv g) t
    | w => w }

/-- Accesses, owned lines, held stores, the blocks of waiting forms and the destinations of engine commands follow a cluster that
moves (10 R221): those whose addresses are `via` the entry that changes. -/
def State.relocate (s : State) (p q : Nat) (via : Word → Bool) : State :=
  let f := moveLoc p q
  let acc := fun (a : Access) => if via a.va then a.move f else a
  let goes := fun (x : Page) => via (BitVec.ofNat 64 x.va)
  let pg := fun (x : List Page) => x.map (fun a => if goes a then { a with pa := f a.pa } else a)
  let lines := (s.cmdPages.filter (fun x => goes x.2)).flatMap (fun x => (linesOf x.2.pa x.2.size).map (fun l => (l, x.1)))
  let line := fun (e : Nat × Nat) => if lines.contains e then (f e.1, e.2) else e
  let all := via 0
  { s with
    net := s.net.map (fun k => match k.body with
      | .request a n => ⟨k.id, .request (acc a) n⟩
      | .posted c i a => ⟨k.id, .posted c i (acc a)⟩
      | _ => k)
    waits := s.waits.map acc
    owned := s.owned.foldl (fun m e => Store.set 0 m (line e).1 e.2) []
    claims := s.claims.map line
    cores := s.cores.map (fun c => (c.1, { c.2 with
      ctxs := c.2.ctxs.map (fun x => (x.1, { x.2 with outs := x.2.outs.map (fun o => if all then o.move f else o) }))
      gather := c.2.gather.map (fun l => if via l.va then { l with loc := f l.loc } else l)
      journal := c.2.journal.map (fun j => (j.1, if via j.2.line then { j.2 with loc := f j.2.loc } else j.2)) }))
    benches := s.benches.map (fun b => (b.1, { b.2 with hires := b.2.hires.map (fun h => { h with pages := pg h.pages }) }))
    copies := s.copies.map (fun e => (e.1, e.2.map (fun c =>
      { c with pages := pg c.pages
               buf := c.buf.map (fun x => if (linesOf x.loc 1).any (fun l => lines.contains (l, c.id)) then
                 { x with loc := f x.loc } else x) })))
    stks := s.stks.map (fun e => (e.1, e.2.map (fun c => { c with pages := pg c.pages }))) }

/-- A PGF answers an access to a cluster that is in no map any more (20 R325, 01 R14). -/
def State.refusePgf (s : State) (a : Access) : State := s.sendPkt (.refusal a.core a.ctx a.out a.va a.op.kind none)

/-- Accesses to an unmapped cluster `via` the entry that named it are refused with PGF; a posted store's journal entry is freed, and
engine commands that own lines of the cluster end as at a fence (20 R325). -/
def State.unmapped (s : State) (p : Nat) (via : Word → Bool) : State :=
  let hit := fun (a : Access) => via a.va && a.homes.any (inCluster p)
  let out := s.waits.filter hit
  let s := out.foldl (fun s a => s.refusePgf a) { s with waits := s.waits.filter (fun a => !hit a) }
  let s := s.net.foldl (fun s k => match k.body with
    | .request a _ => if hit a then (s.dropPkt k.id).refusePgf a else s
    | .posted c i a =>
      if hit a then
        ((s.dropPkt k.id).modCore c (fun x => x.freeEntry i)).refusePgf { a with out := ((s.core c).jent i).id }
      else s
    | _ => s) s
  let s := (s.cores.map Prod.fst).foldl (fun s c =>
    ((s.core c).gather.filter (fun l => l.remote && via l.va && inCluster p l.loc)).foldl (fun s l =>
      (s.unhold c l).refusePgf { l.access c with out := 0 }) s) s
  let owns := fun (s : State) (cmd : Nat) => s.owned.any (fun e => e.2 == cmd && inCluster p e.1) &&
    s.cmdPages.any (fun x => x.1 == cmd && via (BitVec.ofNat 64 x.2.va) && inCluster p x.2.pa)
  let s := s.forBenches (fun s b => ((s.bench b).hires.filter (fun h => owns s h.id)).foldl (fun s h =>
    s.endHire b { h with fk := 5 } 3) s)
  let s := s.forCopies (fun s e => ((s.copyEng e).filter (fun c => owns s c.id)).foldl (fun s c => s.endCopy e { c with fk := 6 } 3) s)
  s.forStks (fun s e => ((s.stkEng e).filter (fun c => owns s c.id)).foldl (fun s c => s.endStk e { c with fk := 5 } 3) s)

/-- The pens when a cluster moves from `p` to `q`, 31 for none: a pen inside it moves, or goes with it; a pen that spans
it is split by clusters, its first part keeping its number. A cluster that joins the map is one pen at its end. One that another
entry names keeps its pens. -/
def movePens (ps : List Pen) (p q : Nat) (cls : List Nat) : List Pen :=
  let at_ := fun (c : Nat) => if c = p then q else c
  let split := fun (x : Pen) =>
    let hit := cls.filter (fun c => areaOf (meetRect x.rect (clusterRect c)) != 0)
    if !hit.contains p then [x]
    else (hit.filter (fun c => decide (at_ c < 24))).map (fun c =>
      let m := meetRect x.rect (clusterRect c)
      let (o, n) := (clusterRect c, clusterRect (at_ c))
      { x with x := m.1 - o.1 + n.1, y := m.2.1 - o.2.1 + n.2.1, w := m.2.2.1, h := m.2.2.2 })
  let parts := ps.map split
  parts.map (fun xs => xs.headD ⟨0, 0, 0, 0, 0, 0, []⟩) ++ parts.flatMap (fun xs => xs.tail) ++
    (if 24 ≤ p ∧ q < 24 ∧ !cls.contains q then [newPen (clusterRect q)] else [])

/-- What is sent from a cluster and not yet accepted or discarded, and helpers of it that still run (20 R325, step 1). -/
def State.clusterBusy (s : State) (mem : Nat → Bool) : Bool :=
  s.cores.any (fun c => mem c.1 && (c.2.ctxs.any (fun x => x.1 != 0 && x.2.st != .free) || s.sending c.1 ||
    c.2.journal.any (fun j => j.2.st == 1) || c.2.gather.any Gather.remote))

/-- Holds or releases `start` on cores (20 R325). -/
def State.holdStarts (s : State) (cs : List Nat) (h : Bool) : State :=
  cs.foldl (fun s c => s.modCore c (fun k => { k with startHeld := h })) s

/-- The core of the new physical cluster: its control context begins as after a pen reset, with the banks, deque and
reply slots of `k` (20 R325). -/
def State.arriveCore (s : State) (c : Nat) (gen : BitVec 16) (k : Core) : Core :=
  { s.freshCore c gen with banks := k.banks.map (fun b => (b.1, { b.2 with pass := 0, boost := 0 })),
                           deque := k.deque, slots := k.slots, injectors := (s.core c).injectors }

/-- Steps 2 to 5 of R325 for logical cluster `l` from `p` to `q`. -/
def State.remap (s : State) (v l p q : Nat) (copy : Bool) : State :=
  let old := (List.range 192).map (fun x => (s.coreState v (coreAt p x)))
  let i := s.vif v
  let via := i.via l p
  let ps := movePens i.pens (if via 0 then p else 31) (if q ≠ p ∧ i.clusters.contains q then 31 else q) i.clusters
  let s := if p < 24 ∧ q < 24 then s.relocate p q via else if p < 24 then s.unmapped p via else s
  let s := s.modVif v (fun i => { i with
    cmap := Store.set 31 i.cmap l q, named := if q < 24 then Store.set 0 i.named q (l + 1) else i.named, pens := ps, began := false })
  let s := if p < 24 ∧ !(s.vif v).turnEnding then s.holdStarts (clusterCores p) false else s
  let s := if q < 24 then (List.range 192).foldl (fun s x =>
      let c := coreAt q x
      let gen := match (s.vif v).penAt c with
        | some (_, pen) => pen.gen
        | none => 0
      let src := if copy ∧ p < 24 then old.getD x ⟨Core.dflt, [], []⟩ else s.coreState v c
      let b := if copy ∧ p < 24 then coreAt p x else c
      s.putCoreState v c b { src with core := s.arriveCore c gen src.core }) s
    else s
  s.event 0x07 v l q 0 0

/-- Whether an interface may map a physical cluster: it lies in no map of an enabled interface outside the group (20 R325). -/
def State.mayMap (s : State) (v q : Nat) : Bool :=
  let i := s.vif v
  decide (q = 31) || (decide (q < 24) &&
    s.vifs.all (fun o => o.1 == v || !o.2.en || sameGroup o.2 i || (o.2.lcl q).isNone))

/-- MAP.CLUSTERS (R325). -/
def execMapClusters (vif : Nat) (s : State) : Host.Outcome State Fault Refusal :=
  command vif 0x32 s (fun s fl ws =>
    let w := payload ws 1
    let (l, q) := (w % 32, w / 2 ^ 8 % 32)
    let p := (s.vif vif).phys l
    if w / 2 ^ 5 % 8 ≠ 0 ∨ w / 2 ^ 13 ≠ 0 ∨ 24 ≤ l ∨ !s.mayMap vif q then .error s 6
    else
      let live := p < 24 ∧ s.vifOfCluster p = some vif
      if live ∧ !(s.vif vif).began then
        .wait ((s.holdStarts (clusterCores p) true).modVif vif (fun i => { i with began := true }))
      else if live ∧ s.clusterBusy (fun c => clusterOf c == p) then .wait s
      else .done (s.remap vif l p q (fl == 1)))

/-! ## Sharing turns -/

/-- The interface that holds a group's clusters. -/
def State.holderOf (s : State) (g : Nat) : Option Nat := (s.groupOf g).find? (fun v => (s.vif v).holds)

/-- The cores that an interface shares with others. -/
def State.sharedCores (s : State) (v : Nat) : List Nat :=
  ((s.vif v).clusters.filter (fun p => decide (2 ≤ (s.mappers p).length))).flatMap clusterCores

/-- Whether an interface has work: a launch that is OPEN or CANCELLING, a trigger, or commands to be read (09 R208). -/
def Vif.hasWork (i : Vif) : Bool :=
  i.levels.any (fun l => l.2.kind == 1 && (l.2.st == .opened || l.2.st == .cancelling)) || !i.trigs.isEmpty ||
    i.graphs.any (fun g => g.2.cur.isSome) || (i.run && decide (0 < i.avail))

/-- The core-cycles that a turn has consumed so far (09 R208). -/
def State.turnCycles (s : State) (v : Nat) : Nat :=
  (s.vif v).used + ((s.sharedCores v).map (fun c => (((s.core c).ctxs.filter (fun x => x.1 != 0 && x.2.st != .free)).map
    (fun x => x.2.cr.cyc.toNat)).sum)).sum

/-- SHARING_TURN_END: a turn ends when its cycles reach the holder's deficit or no task is left; a slice ends at its
length, which the model does not count (R208). -/
def execSharingTurnEnd (grp : Nat) (s : State) : Host.Outcome State Fault Refusal :=
  partOk grp 16 s (fun s => match s.holderOf grp with
    | none => s
    | some v =>
      let i := s.vif v
      if i.turnEnding then s
      else if i.share.getLsbD 40 ∨ i.deficit ≤ (s.turnCycles v : Int) ∨ !i.hasWork then
        (s.holdStarts (s.sharedCores v) true).modVif v (fun i => { i with turnEnding := true })
      else s)

/-- Whether the shared cores of a holder are at a task boundary (09 R208). -/
def State.turnDrained (s : State) (v : Nat) : Bool :=
  let cs := s.sharedCores v
  let mem := fun (c : Nat) => cs.contains c
  !s.clusterBusy mem && s.benches.all (fun b => b.2.hires.all (fun h => !mem h.core)) &&
    s.copies.all (fun e => e.2.all (fun c => !mem c.core)) && s.stks.all (fun e => e.2.all (fun c => !mem c.core))

/-- The deficits at a turn's end (09 R208). -/
def State.settleDeficits (s : State) (g holder : Nat) : State :=
  (s.groupOf g).foldl (fun s v => s.modVif v (fun i =>
    let wp := max 1 ((i.share.extractLsb' 0 8).toNat)
    let q := (i.share.extractLsb' 8 32).toNat * 1024
    let gain : Int := if i.hasWork then (wp * q : Nat) else 0
    { i with deficit := i.deficit + gain - (if v = holder then (i.used : Int) else 0), used := 0 })) s

/-- The interface with the largest deficit, the lowest number among equals (09 R208). -/
def State.nextHolder (s : State) (g : Nat) : Option Nat :=
  (s.groupOf g).foldl (fun best v => match best with
    | none => some v
    | some b => if (s.vif b).deficit < (s.vif v).deficit then some v else some b) none

/-- Saves the shared cores of an interface. -/
def State.saveCores (s : State) (v : Nat) (cs : List Nat) : State :=
  cs.foldl (fun s c => let (m, g) := s.storeOf c; s.saveAs v c ⟨s.core c, m, g⟩) s

/-- Restores a core from what an interface has saved of it, or resets it at the interface's first turn (09 R208). -/
def State.restoreCore (s : State) (v c : Nat) : State :=
  let k := s.core c
  match (s.vif v).saved.find? (fun p => p.1 == c) with
  | some p =>
    ((s.setCore c { p.2.core with
        startHeld := false, held := p.2.core.held || (s.die (dieOf c)).failed, injectors := k.injectors }).putStore c c
      (p.2.mem, p.2.gran)).modVif v (fun i => { i with saved := i.saved.drop c })
  | none =>
    let gen := match (s.vif v).penAt c with
      | some (_, p) => p.gen
      | none => 0
    (s.setCore c { s.freshCore c gen with injectors := k.injectors }).putStore c c ([], [])

/-- SHARING_TURN_SWITCH: once a turn has drained, the incoming interface's state takes the place of the outgoing one's
(R208). The probe tables belong to the interfaces and need no move. -/
def execSharingTurnSwitch (grp : Nat) (s : State) : Host.Outcome State Fault Refusal :=
  partOk grp 16 s (fun s => match s.holderOf grp with
    | none => s
    | some v =>
      if !(s.vif v).turnEnding || !s.turnDrained v then s
      else
        let s1 := s.settleDeficits grp v
        match s1.nextHolder grp with
        | none => s1
        | some w =>
          if w = v then (s1.holdStarts (s1.sharedCores v) false).modVif v (fun i => { i with turnEnding := false })
          else
            let s2 := s1.saveCores v (s1.sharedCores v)
            let s3 := (s2.modVif v (fun i => { i with holds := false, turnEnding := false })).modVif w (fun i =>
              { i with holds := true })
            (s3.sharedCores w).foldl (fun s c => s.restoreCore w c) s3)

/-! ## Enabling an interface -/

/-- When no interface of a group holds its clusters, the one with the largest deficit takes the clusters of a list. -/
def State.giveTurn (s : State) (g : Nat) (cls : List Nat) : State :=
  match s.holderOf g, s.nextHolder g with
  | none, some w =>
    let s1 := s.modVif w (fun i => { i with holds := true })
    (((s.vif w).clusters.filter cls.contains).flatMap clusterCores).foldl (fun s c => s.restoreCore w c) s1
  | _, _ => s

/-- A write of PCTRL (20 R309): a write that is refused leaves the register as it was. An interface that becomes enabled
has each mapped cluster as one pen and an empty probe table (19 R296), and holds its group's clusters when no other does; one that
is disabled gives its
turn to another of its group. -/
def State.writePctrl (s : State) (v : Nat) (x : Word) : State :=
  let i := s.vif v
  let j := { i with pctrl := x &&& 0xF#64 }
  if j.en then
    (if !s.mayEnable v j then s
     else if i.en then s.setVif v j
     else
      let first := j.grp != 0 && (s.holderOf j.grp).isNone
      (s.setVif v { j with holds := first, probes := [] }).setPens v (j.clusters.map (fun p => newPen (clusterRect p))))
  else
    let s1 := s.setVif v { j with holds := false, turnEnding := false }
    if i.holds then s1.giveTurn j.grp i.clusters else s1

/-- A write of SHARE: an interface that enters a group which none holds, holds it (20 Table 189, 09 R208). -/
def State.writeShare (s : State) (v : Nat) (x : Word) : State :=
  let i := s.vif v
  let j := { i with share := x &&& 0xF1FFFFFFFFFF#64 }
  if i.grp = j.grp then s.setVif v j
  else
    let first := i.en && j.grp != 0 && (s.holderOf j.grp).isNone
    let s1 := s.setVif v { j with holds := first, turnEnding := false }
    if i.holds then s1.giveTurn i.grp i.clusters else s1

/-- PCTRL_WRITE (R309). -/
def execPctrlWrite (vif : Nat) (val : Word) (s : State) : Host.Outcome State Fault Refusal :=
  partOk vif 64 s (fun s => s.writePctrl vif val)

end Sys2Proof.Machine
end

