-- ==== Sys2Proof/Machine/Arrive.lean ====
section
/-! DEFINITION. What arrives at cores and homes: results, refusals, remote accesses, messages, task records, replies and
steals (01 R15, 04 R82, 08 R165 to R170, R176, R182, 09 R188 to R198, R207, 11 R222, R234, 24 R374). An event that names
something that is not there, or whose time has not come, changes nothing. -/

namespace Sys2Proof.Machine

/-! ## Results -/

/-- Whether the counters of the classes of a mask are zero (15 R278). -/
def Core.countersZero (k : Core) (mask : BitVec 3) : Bool :=
  (List.range 3).all (fun c => !mask.getLsbD c || (k.counter c).n == 0)

/-- The ERR bits of the classes of a mask (15 R278). -/
def Core.errBits (k : Core) (mask : BitVec 3) : Nat :=
  ((List.range 3).map (fun c => if mask.getLsbD c && (k.counter c).err then 2 ^ c else 0)).sum

/-- Clears the ERR bits of the classes of a mask. -/
def Core.clearErr (k : Core) (mask : BitVec 3) : Core :=
  (List.range 3).foldl (fun k c => if mask.getLsbD c then k.setCounter c { k.counter c with err := false } else k) k

/-- A word result. -/
def RVal.word (w : Word) : RVal := .g (GReg.ofWord w)

/-- An outstanding result arrives if it is ready (04 R82, 13 R259, 15 R278, 23 R358). -/
def State.arriveOut (s : State) (core x : Nat) (o : Outst) : State :=
  match o.wait with
  | .ready v fl => s.finishOut core x o v fl
  | .gput _ => s.finishOut core x o .none 0
  | .cwait h => match takeStatus s clsCopy core x h with
    | some (s1, st) => s1.finishOut core x o (.word st) 0
    | none => s
  | .swait h => match takeStatus s clsStack core x h with
    | some (s1, st) => s1.finishOut core x o (.word st) 0
    | none => s
  | .efence m =>
    if (s.core core).countersZero m then
      (s.modCore core (fun k => k.clearErr m)).finishOut core x o (.word (BitVec.ofNat 64 ((s.core core).errBits m))) 0
    else s
  | .flush =>
    let s1 := s.settleFlush core
    if (s1.core core).flushing.isEmpty then s1.finishOut core x o .none 0 else s
  | _ => s

/-- Whether a core and a context of it exist. -/
def ctxOk (core x : Nat) : Bool := decide (core < nCores ∧ x < 11)

/-- A step of an outstanding result of a context. -/
def onOut (core ctx idx : Nat) (s : State) (f : State → Outst → State) : Host.Outcome State Fault Refusal :=
  if !ctxOk core ctx then .fault .noSuchPart
  else match (s.ctx core ctx).outs[idx]? with
    | some o => .next (f s o)
    | none => .next s

/-- PENDING_RESULT_ARRIVAL (R82). -/
def execPendingResultArrival (core ctx idx : Nat) (s : State) : Host.Outcome State Fault Refusal :=
  onOut core ctx idx s (fun s o => s.arriveOut core ctx o)

/-- A PURGE is complete when nothing that it waited for is under way any more (11 R234). -/
def State.purgeOut (s : State) (core ctx : Nat) (o : Outst) : State :=
  match o.wait with
  | .purge g ids =>
    let busy := s.purgeIds (fun _ => true)
    if ids.any busy.contains then s else s.deliver core ctx o.id (.ready (.word (BitVec.ofNat 64 g)) 0)
  | _ => s

/-- PURGE_COMPLETE (R234). -/
def execPurgeComplete (core ctx idx : Nat) (s : State) : Host.Outcome State Fault Refusal :=
  onOut core ctx idx s (fun s o => s.purgeOut core ctx o)

/-- A step that a packet of the networks makes. -/
def onPkt (pid : Nat) (s : State) (f : State → Body → State) : Host.Outcome State Fault Refusal :=
  match s.pkt? pid with
  | some b => .next (f s b)
  | none => .next s

/-- REFUSAL_RESPONSE: the pending result is discarded, and PGF, or POIS for a poisoned granule, is raised (R15, 08 R169,
11 R228). -/
def execRefusalResponse (pid : Nat) (s : State) : Host.Outcome State Fault Refusal :=
  onPkt pid s (fun s b => match b with
    | .refusal core ctx out va kind poison =>
      let c := s.ctx core ctx
      let pc := match c.outs.find? (fun o => o.id == out) with
        | some o => o.pc
        | none => 0
      let s1 := (s.dropPkt pid).modCtx core ctx (fun c => c.dropOut out)
      if c.st = .free then s.dropPkt pid
      else match poison with
        | some _ => s1.raiseAsync core ctx tPOIS va pc
        | none => s1.raiseAsync core ctx tPGF va (BitVec.ofNat 64 (kind + 32))
    | _ => s)

/-! ## Remote accesses -/

/-- The core, context and bytes of an access packet. -/
def Body.bytesOf : Body → Option (Nat × Nat × List (Nat × Nat))
  | .request a _ => some (a.core, a.ctx, a.touch)
  | .posted _ _ a => some (a.core, a.ctx, a.touch)
  | _ => none

/-- Whether an access packet is behind an earlier one of its context to the same bytes (10 R212). -/
def State.netBehind (s : State) (pid : Nat) (a : Access) : Bool :=
  (s.net.takeWhile (fun p => p.id != pid)).any (fun p => match p.body.bytesOf with
    | some (c, x, t) => c == a.core && x == a.ctx && overlap t a.touch
    | none => false)

/-- Whether a core may be reached from another now: a shared core that another interface holds keeps what is sent to it
waiting. DESIGN CHOICE (log 45). -/
def State.reaches (s : State) (src dst : Nat) : Bool :=
  decide ((s.mappers (clusterOf dst)).length < 2) || s.vifOf src == s.vifOf dst

/-- Whether every home of an access may be reached. -/
def State.homesReached (s : State) (a : Access) : Bool :=
  a.homes.all (fun l => isStack l || s.reaches a.core (locCore l))

/-- Why the homes of an access refuse it (01 R15, 08 R169). -/
def State.homesRefuse (s : State) (a : Access) : Option Nat := a.homes.findSome? s.homeRefuses

/-- A request reaches its home (08 R174, R176, 09 R203). -/
def State.serveRequest (s : State) (pid : Nat) (a : Access) : State :=
  if (s.homesRefuse a).isSome then (s.dropPkt pid).refuse a none
  else
    let wait := if a.op.counted && decide (32 ≤ s.waitsAt (locCore a.loc)) then s.setPkt pid (.request a true)
      else let s1 := s.dropPkt pid; { s1 with waits := s1.waits ++ [a] }
    if behind s.waits a then wait
    else
      match perform s a with
      | .wait => wait
      | .done s1 v => ((s1.dropPkt pid).answer a v).serve
      | .refused g => (s.dropPkt pid).refuse a (some g)
      | .poison g => (s.dropPkt pid).refuse a (some g)

/-- Whether a carried generation is older than a current one, modulo 2^16 (01 R31). -/
def olderGen (carried current : Nat) : Bool :=
  let d := (current + 65536 - carried % 65536) % 65536
  decide (0 < d ∧ d < 32768)

/-- A posted store carries a stale lease generation: it goes to a local store of its own pen, whose home holds another
(11 R233). -/
def State.staleLease (s : State) (a : Access) : Bool :=
  let t := locCore a.loc
  s.samePen a.core t && (s.core t).cr.lease.toNat != a.lease

/-- A posted store reaches its home: it is performed and acknowledged, or refused (08 R169). -/
def State.servePosted (s : State) (pid core idx : Nat) (a : Access) : State :=
  let refused := fun (s : State) (why : Nat) => (s.dropPkt pid).sendPkt (.postedRefused core idx why)
  if olderGen a.pgen (s.pgenOf a.core) then s.dropPkt pid
  else
    match s.homesRefuse a with
    | some why => refused s why
    | none =>
      if s.staleLease a then refused s 3
      else if behind s.waits a then s
      else
        match perform s a with
        | .wait => s
        | .done s1 _ => ((s1.dropPkt pid).sendPkt (.postedAck core idx)).serve
        | .refused _ => refused s 4
        | .poison _ => refused s 4

/-- REMOTE_ACCESS_AT_HOME (R182). A claim of a line that waited for the access may be granted then (01 R20). -/
def execRemoteAccessAtHome (pid : Nat) (s : State) : Host.Outcome State Fault Refusal :=
  onPkt pid s (fun s b => match b with
    | .request a false => if s.netBehind pid a || !s.homesReached a then s else (s.serveRequest pid a).grant
    | .posted core idx a => if s.netBehind pid a || !s.homesReached a then s else (s.servePosted pid core idx a).grant
    | _ => s)

/-- FULL_EMPTY_RETRY (R176). -/
def execFullEmptyRetry (pid : Nat) (s : State) : Host.Outcome State Fault Refusal :=
  onPkt pid s (fun s b => match b with
    | .request a true => s.setPkt pid (.request a false)
    | _ => s)

/-- POSTED_STORE_ACK: the entry is freed, and what waited for the store no longer does (R169). -/
def execPostedStoreAck (pid : Nat) (s : State) : Host.Outcome State Fault Refusal :=
  onPkt pid s (fun s b => match b with
    | .postedAck core idx =>
      let j := (s.core core).jent idx
      let s1 := (s.dropPkt pid).modCore core (fun k => k.freeEntry idx)
      (if (s.ctx core j.ctx).outs.any (fun o => o.id == j.id) then s1.modCtx core j.ctx (fun c => c.dropOut j.id)
       else s1).grant
    | _ => s)

/-- POSTED_STORE_REFUSED: the entry becomes REFUSED and POST is raised (R170). -/
def execPostedStoreRefused (pid : Nat) (s : State) : Host.Outcome State Fault Refusal :=
  onPkt pid s (fun s b => match b with
    | .postedRefused core idx why =>
      let j := (s.core core).jent idx
      let s1 := (s.dropPkt pid).modCore core (fun k =>
        { k with journal := Store.set Journal.init k.journal idx { j with st := 2, reason := why } })
      let s2 := if (s.ctx core j.ctx).outs.any (fun o => o.id == j.id) then s1.modCtx core j.ctx (fun c => c.dropOut j.id)
        else s1
      s2.raiseLive core j.ctx tPOST j.line (BitVec.ofNat 64 (idx + 32 * why))
    | _ => s)

/-- GATHER_LINE_TIMEOUT: a held line leaves, unless the journal is full (R168). -/
def execGatherLineTimeout (core idx : Nat) (s : State) : Host.Outcome State Fault Refusal :=
  partOk core nCores s (fun s => match (s.core core).gather[idx]? with
    | some l => match s.drainLine core l with
      | some s1 => s1.grant
      | none => s
    | none => s)

/-- PAGE_SCAN: the translation of a context's next fetch is installed, and its page scanned if it asks for that; a page
that the scanner refuses raises ILL in the context, once its held stores have left (R52, 08 R167). -/
def execPageScan (core ctx : Nat) (s : State) : Host.Outcome State Fault Refusal :=
  if !ctxOk core ctx then .fault .noSuchPart
  else if !(s.core core).readyBut ctx then .next s
  else
    let pc := (s.ctx core ctx).pcc.word
    match s.leafFor core ctx pc kFetch with
    | .ok (s1, _) => .next s1
    | .error t =>
      if t.code = tILL then
        match s.drainCtx core ctx with
        | (s1, false) => .next s1
        | (s1, true) =>
          .next ((s1.modCore core (fun k => k.issued ctx)).raiseTrap core ctx ⟨t.code, ctx, false, pc, 1, t.addr, t.info⟩)
      else .next s

/-! ## Messages -/

/-- Whether an address names a core of a shared cluster that another interface holds: what goes there waits. -/
def State.awayNow (s : State) (core : Nat) (a : Word) : Bool :=
  match s.vifOf core with
  | none => false
  | some v =>
    let p := (s.vif v).phys (a.extractLsb' 25 5).toNat
    decide (p < 24) && s.vifOfCluster p != some v

/-- Whether an earlier message of the same core to the same channel is still to be accepted (09 R194). -/
def State.msgBehind (s : State) (pid core : Nat) (cap : Word) : Bool :=
  (s.net.takeWhile (fun p => p.id != pid)).any (fun p => match p.body with
    | .msg c _ _ w _ _ _ _ _ => c == core && (w &&& ~~~0x70#64) == (cap &&& ~~~0x70#64)
    | _ => false)

/-- The message as the receiving core stores it: with the channel's priority, and void when its launch is over (09 R192,
01 R28). -/
def State.stored (s : State) (k : Core) (m : Msg) : Msg :=
  let h := (m.header &&& ~~~(7#256 <<< 84)) ||| (BitVec.ofNat 256 (k.chanPri m.chn) <<< 84)
  { m with header := h, void := m.void || (m.isTask && s.launchOver (lidOf (recOf m.body).header.data)) }

/-- A message that a bank has room for is stored whole in the bank's bytes, its header first, behind the header flit of a pad
record when it goes round the end; its poison goes with it (08 R164, 11 R228). `b'` is the bank with the message in it. -/
def State.placeMsg (s : State) (t b : Nat) (m : Msg) (b' : Bank) : State :=
  let old := (s.core t).bank b
  let base := lsLoc t (b * 16384)
  let at_ := base + (b'.tail + 16384 - m.size) % 16384
  let s1 := if old.used + m.size < b'.used then s.storeGranules (base + old.tail) true [⟨0xFFFF#128 <<< 112, false⟩, .null] else s
  let s2 := s1.storeGranules at_ true m.granules
  let s3 := m.pois.zipIdx.foldl (fun s p => if p.1 then s.setPoison (at_ + 32 + 16 * p.2) true else s) s2
  s3.modCore t (fun k => k.setBank b b')

/-- MESSAGE_ARRIVAL: placed, or NACKed when it finds no room, no FIFO bank or no core (R165, R192); a header whose reserved
bits are not zero is discarded (01 R17). -/
def execMessageArrival (pid : Nat) (s : State) : Host.Outcome State Fault Refusal :=
  onPkt pid s (fun s b => match b with
    | .msg core ctx m cap pg nk 0 pc lid =>
      let nack := s.setPkt pid (.msg core ctx m cap pg nk 1 pc lid)
      if headerBad m.header then s.dropPkt pid
      else if s.awayNow core cap || s.msgBehind pid core cap then s
      else if olderGen pg (s.pgenOf core) then s.dropPkt pid
      else
        match s.windowCore core cap with
        | none => nack
        | some t =>
          let k := s.core t
          match k.chanBank m.chn with
          | none => nack
          | some b =>
            let m' := s.stored k m
            match (k.bank b).place m' with
            | none => nack
            | some b' => ((s.dropPkt pid).placeMsg t b m' b').serveRecv t b
    | _ => s)

/-- CHAN for a message that is given up: channel, priority and whether it is a task message (11 Table 117). -/
def chanInfo (cap : Word) (task : Bool) : Word :=
  BitVec.ofNat 64 (cap.toNat % 16 + 16 * (cap.toNat / 16 % 8) + 128 * task.toNat)

/-- A message's last NACK: it is dropped and counted at its channel, or CHAN is raised (08 R166). -/
def State.giveUpMsg (s : State) (pid core ctx : Nat) (m : Msg) (cap : Word) : State :=
  let s1 := s.dropPkt pid
  match (s.windowCore core cap).filter (fun t => (s.core t).chanDrop m.chn) with
  | some t => s1.modCore t (fun k =>
      { k with drops := Store.set 0 k.drops m.chn (min 65535 (Store.get 0 k.drops m.chn + 1)) })
  | none => s1.raiseLive core ctx tCHAN cap (chanInfo cap m.isTask)

/-- A record's last NACK: CHAN is raised, and the reply slot of its call is freed (09 R188). -/
def State.giveUpRec (s : State) (pid core ctx out : Nat) (dst : Word) (slot : Nat) : State :=
  let s1 := (s.dropPkt pid).modCore core (fun k =>
    { k with slots := Store.set ReplySlot.init k.slots slot ReplySlot.init })
  (s1.modCtx core ctx (fun c => c.dropOut out)).raiseLive core ctx tCHAN dst 128

/-- MESSAGE_NACK: a NACK returns; the 65th is the last (R166). -/
def execMessageNack (pid : Nat) (s : State) : Host.Outcome State Fault Refusal :=
  onPkt pid s (fun s b => match b with
    | .msg core ctx m cap pg nk 1 pc lid =>
      if 64 ≤ nk then s.giveUpMsg pid core ctx m cap else s.setPkt pid (.msg core ctx m cap pg (nk + 1) 2 pc lid)
    | .record core ctx out hd r dst pg nk 1 slot =>
      if 64 ≤ nk then s.giveUpRec pid core ctx out dst slot else s.setPkt pid (.record core ctx out hd r dst pg (nk + 1) 2 slot)
    | _ => s)

/-- MESSAGE_RETRY (R166). -/
def execMessageRetry (pid : Nat) (s : State) : Host.Outcome State Fault Refusal :=
  onPkt pid s (fun s b => match b with
    | .msg core ctx m cap pg nk 2 pc lid => s.setPkt pid (.msg core ctx m cap pg nk 0 pc lid)
    | .record core ctx out hd r dst pg nk 2 slot => s.setPkt pid (.record core ctx out hd r dst pg nk 0 slot)
    | _ => s)

/-! ## Task records and replies -/

/-- A root record of the ringmaster of interface `v` reaches its core; it is retried without limit (20 R319). -/
def State.rootArrival (s : State) (pid v : Nat) (r : Rec) (dst : Word) : State :=
  let p := (s.vif v).phys (dst.extractLsb' 25 5).toNat
  if s.launchOver r.lid then s.dropPkt pid
  else if 24 ≤ p ∨ s.vifOfCluster p ≠ some v then s
  else
    let t := coreAt p (dst.extractLsb' 17 8).toNat
    match (s.core t).push r with
    | some k => (s.dropPkt pid).setCore t k
    | none => s

/-- DEQUE_RECORD_ARRIVAL (R188). A header whose reserved bits are not zero is discarded (01 R17). -/
def execDequeRecordArrival (pid : Nat) (s : State) : Host.Outcome State Fault Refusal :=
  onPkt pid s (fun s b => match b with
    | .record core ctx out hd r dst pg nk 0 slot =>
      if core = nCores then (if headerBad hd then s.dropPkt pid else s.rootArrival pid slot r dst)
      else if s.awayNow core dst then s
      else
        let gone := (s.dropPkt pid).modCtx core ctx (fun c => c.dropOut out)
        if headerBad hd || olderGen pg (s.pgenOf core) || s.launchOver r.lid then gone
        else
          match (s.windowCore core dst).bind (fun t => ((s.core t).push r).map (fun k => (t, k))) with
          | some (t, k) => ((s.dropPkt pid).setCore t k).deliver core ctx out (.ready .none 0)
          | none => s.setPkt pid (.record core ctx out hd r dst pg nk 1 slot)
    | _ => s)

/-- A reply at a reply slot (09 R198). -/
def State.replyAt (s : State) (t i lid : Nat) (v : GReg) : State :=
  let loc := lsLoc t (slotOff i)
  let r := Store.get ReplySlot.init (s.core t).slots i
  if r.st = .free ∨ r.lid ≠ lid then s
  else if r.st = .orphan then s.modCore t (fun k => { k with slots := Store.set ReplySlot.init k.slots i ReplySlot.init })
  else if s.fBit loc then s
  else ((s.storeGranule loc v).setF loc true).serve

/-- REPLY_ARRIVAL (R198). -/
def execReplyArrival (pid : Nat) (s : State) : Host.Outcome State Fault Refusal :=
  onPkt pid s (fun s b => match b with
    | .reply core _ dst v lid pg =>
      if s.awayNow core dst then s
      else if olderGen pg (s.pgenOf core) then s.dropPkt pid
      else
        match s.windowCore core dst with
        | none => s.dropPkt pid
        | some t =>
          let i := (dst.toNat % 2 ^ 17 - 0x1FC00) / 16
          if s.ownedAny (lsLoc t (slotOff i)) 16 then s else (s.dropPkt pid).replyAt t i lid v
    | _ => s)

/-! ## Stealing -/

/-- The first `k` records that may leave, and the records that stay (09 R189). -/
def takeTop : Nat → List Rec → List Rec × List Rec
  | _, [] => ([], [])
  | 0, rs => ([], rs)
  | k + 1, r :: rs => if r.stays then (let (a, b) := takeTop (k + 1) rs; (a, r :: b)) else (let (a, b) := takeTop k rs; (r :: a, b))

/-- A core and its neighbours in the pen report their lengths to each other (09 R189). -/
def State.exchange (s : State) (c : Nat) : State :=
  let ns := s.neighbours c
  let len := fun n => (s.core n).deque.length
  let s1 := ns.foldl (fun s n => s.modCore n (fun k => { k with reported := Store.set 0 k.reported c (len c) })) s
  s1.modCore c (fun k => { k with reported := ns.foldl (fun m n => Store.set 0 m n (len n)) [] })

/-- STEAL_EXCHANGE (R189). -/
def execStealExchange (core : Nat) (s : State) : Host.Outcome State Fault Refusal :=
  partOk core nCores s (fun s =>
    let s1 := s.exchange core
    let k := s1.core core
    let n := k.deque.length
    match bestCore k.reportOf ((s1.neighbours core).filter (fun m => decide (k.reportOf m + 8 < n))) with
    | none => s1
    | some m =>
      let (go, stay) := takeTop ((n - k.reportOf m) / 2) k.deque
      let room := 64 - (s1.core m).deque.length
      let fit := go.drop (go.length - room)
      (s1.modCore core (fun k => { k with deque := go.take (go.length - room) ++ stay })).modCore m (fun k =>
        { k with deque := fit ++ k.deque }))

/-- A steal's answer: the victim's topmost unpinned record goes to `put`, which gives none while it has to wait; the result
is `yes`, or 0 for an empty answer (09 R190, R191, R201). -/
def State.stealFor (s : State) (core ctx : Nat) (o : Outst) (yes : Nat) (put : State → Rec → Option State) : State :=
  let ans := fun (s : State) (n : Nat) => s.deliver core ctx o.id (.ready (.word (BitVec.ofNat 64 n)) 0)
  match s.victim core with
  | none => ans s 0
  | some t =>
    match takeUnpinned (s.core t).deque with
    | none => ans s 0
    | some (r, rest) =>
      match put ((s.modCore t (fun k => { k with deque := rest })).holdRec core r) r with
      | some s1 => ans s1 yes
      | none => s

/-- A steal that an outstanding result waits for (09 R190, R201). -/
def State.stealOut (s : State) (core ctx : Nat) (o : Outst) : State :=
  match o.wait with
  | .steal g tags => s.stealFor core ctx o 1 (fun s r => if s.ownedSegs g then none else some (s.writeSegs g tags r.granules))
  | .schedSteal => s.stealFor core ctx o 3 (fun s r => if s.ownedAny (taskBuf core) 96 then none else some (s.bufferRec core r))
  | _ => s

/-- STEAL_REQUEST (R190). -/
def execStealRequest (core ctx idx : Nat) (s : State) : Host.Outcome State Fault Refusal :=
  onOut core ctx idx s (fun s o => s.stealOut core ctx o)

/-! ## Barriers over packages -/

/-- What comes along the ring for a partition barrier: arrivals that another package has counted, which rank 0 adds to the
round and another rank sends on; or, with `fin`, rank 0's answer, the generation `n` and the maximum, for the participants of
this package, sent on until it is back at rank 0 (24 R374). -/
def State.barForward (s : State) (v b rank arrivals n : Nat) (max : Word) (fin : Bool) : State :=
  let as := s.arrivals (fun c => s.vifOf c == some v) true b
  let x := Store.get Barrier.init (s.vif v).bars b
  let put := fun (s : State) (y : Barrier) => s.modVif v (fun i => { i with bars := Store.set Barrier.init i.bars b y })
  let far := maxWord x.farMax max
  if fin then
    if rank = 0 then s
    else ((put s ⟨(n + 1) % 65536, none, 0, 0⟩).barComplete as (n % 65536) max |>.barAnswer b (n % 65536) max).settleGroup b
  else if rank ≠ 0 then (put s { x with farMax := far }).sendBarrier b arrivals n far false
  else
    let y := { x with far := x.far + arrivals, farMax := far, n := if arrivals = 0 then x.n else some (x.n.getD n) }
    match y.n with
    | none => put s y
    | some want => if want ≤ as.length + y.far then s.barRound v b as y else put s y

/-- PARTITION_BARRIER_FORWARD (R374). -/
def execPartitionBarrierForward (grp arrivals n : Nat) (max : BitVec 64) (fin : Bool) (s : State) :
    Host.Outcome State Fault Refusal :=
  partOk grp 16 s (fun s =>
    let w := (s.group grp).word
    if w.getLsbD 63 then s.barForward (w.extractLsb' 16 6).toNat grp (w.extractLsb' 32 12).toNat arrivals n max fin else s)

/-! ## Traps -/

/-- BUDG: the trap of a helper whose CYC reached its BUDGET while it was STOPPED is raised when it is LIVE again; a LIVE
helper's is raised as it retires (R207). -/
def execBudg (core ctx : Nat) (s : State) : Host.Outcome State Fault Refusal :=
  if !ctxOk core ctx then .fault .noSuchPart
  else
    let c := s.ctx core ctx
    if c.st = .live ∧ ctx ≠ 0 ∧ (c.traps.head?.map (fun t => t.code == tBUDG)).getD false then .next (s.deliverTrap core ctx)
    else .next s

/-- TRAP_ENTRY: the control context waits at a trap point and takes the first pending helper trap (R223). -/
def execTrapEntry (core : Nat) (s : State) : Host.Outcome State Fault Refusal :=
  partOk core nCores s (fun s =>
    let k := s.core core
    if k.waiting && s.trapDue core && k.readyBut 0 then s.takePending core else s)

/-- YIELD_EXPIRY (R137). -/
def execYieldExpiry (core ctx : Nat) (s : State) : Host.Outcome State Fault Refusal :=
  if !ctxOk core ctx then .fault .noSuchPart else .next (s.modCtx core ctx (fun c => { c with yielding := [] }))

end Sys2Proof.Machine
end

