-- ==== Sys2Proof/Machine/Hub.lean ====
section
/-! DEFINITION. The hub die: the device register space, boot, the management path, attestation, PCIe, the KSL ports,
failures of dies and ports, power (24 R363 to R376, 11 R229, R232, R236). -/

namespace Sys2Proof.Machine

/-! ## Boot -/

/-- The cores of a die. -/
def dieCores (d : Nat) : List Nat := (List.range 6).flatMap (fun c => clusterCores (d * 6 + c))

/-- Whether the boot has gone on past the verifications of hub core 0 and of the hub firmware: a stage that fails stops it, and no
software of the hub runs then (24 R367). DEDUCED (log 95). -/
def State.hubRuns (s : State) : Bool := s.sec.failStage == 0

/-- BOOTGO releases the held control contexts of a die, those that a sharing interface has saved too: each begins at MKENTRY (24
R367, R368). A die that has stopped stays so, and after a failed verification nothing begins. -/
def State.bootGo (s : State) (d : Nat) (x : Word) : State :=
  if !x.getLsbD 0 || (s.die d).failed || !s.hubRuns then s
  else
    let free := fun (k : Core) => if k.held then
      { k with held := false, ctxs := Store.set Ctx.init k.ctxs 0 (Ctx.control (s.die d).mkentry) } else k
    let s1 := (dieCores d).foldl (fun s c => s.modCore c free) (s.modDie d (fun k => { k with booted := true }))
    { s1 with vifs := s1.vifs.map (fun v => (v.1, { v.2 with saved := v.2.saved.map (fun q =>
        (q.1, if dieOf q.1 = d then { q.2 with core := free q.2.core } else q.2)) })) }

/-- BOOTGO (R367). -/
def execBootgo (die : Nat) (val : Word) (s : State) : Host.Outcome State Fault Refusal :=
  partOk die 4 s (fun s => s.bootGo die val)

/-- LOCK: writing 1 locks until package reset (Table 227). -/
def execLock (val : Word) (s : State) : Host.Outcome State Fault Refusal := .next { s with lock := s.lock || val.getLsbD 0 }

/-- FREEZE (R237). -/
def execFreeze (val : Word) (s : State) : Host.Outcome State Fault Refusal := .next { s with freeze := val.getLsbD 0 }

/-- FREEZE_REQUEST (R237). -/
def execFreezeRequest (s : State) : Host.Outcome State Fault Refusal := .next { s with freeze := true }

/-- PACKAGE_RESET: every part is in its reset state, and the boot ROM and firmware have run as far as their verification
allows: `failStage` is the failing stage, 0 for none (R367). A stage that begins has computed its digests. The boot count
lasts; numbers already given are not given again; memory reads as never written (log 3). -/
def execPackageReset (failStage : Nat) (s : State) : Host.Outcome State Fault Refusal :=
  partOk failStage 3 s (fun s =>
    let n := s.sec.boots + 1
    let dig := fun (k : Nat) => if k = 0 ∨ failStage ≠ 1 then Config.bootDigest k n.toNat else 0
    { State.reset with
      agenda := s.agenda, nextId := s.nextId, freeCount := s.freeCount
      sec := { Security.init with boots := n, digHub := dig 0, digLoader := dig 1, digDevice := dig 2, failStage := failStage } })

/-! ## Injectors and error rings -/

/-- The core of INJSEL, and its bank (24 Table 228). -/
def injCore (sel : Word) : Nat := (sel.extractLsb' 0 7).toNat % 96 + 96 * ((sel.extractLsb' 8 6).toNat % 48)
def injBank (sel : Word) : Nat := (sel.extractLsb' 16 3).toNat

/-- The injector that a control word goes to, numbered as the targets of INJECTOR_ACT are. -/
def injTarget (d : Nat) (sel w : Word) : Nat :=
  if injAct w < 3 then 8 * nCores + 4 + injSel w % 64
  else if sel.getLsbD 24 then 8 * nCores + d
  else 8 * injCore sel + injBank sel

/-- A write of INJCTL: the control word goes to the target that INJSEL names now; one with an ACT of a lane goes to the lane of
its SEL, 4 for each port, and counts from the flits that have left by then (24 R366, 11 Table 123). INJSEL names no lane.
DESIGN CHOICE (log 72). -/
def State.writeInj (s : State) (d : Nat) (w : Word) : State :=
  let sel := (s.die d).injsel
  let s1 := s.modDie d (fun k => { k with injctl := w, injAt := injTarget d sel w })
  if injAct w < 3 then
    s1.modPort (injSel w / 4 % 16) (fun p => { p with
      lanes := Store.set 0 p.lanes (injSel w % 4) w, laneAt := Store.set 0 p.laneAt (injSel w % 4) p.sent })
  else if sel.getLsbD 24 then s1.modDie d (fun k => { k with specInj := w })
  else s1.modCore (injCore sel) (fun k => { k with injectors := Store.set 0 k.injectors (injBank sel) w })

/-- An injector has acted: ARM is 0 in every INJCTL whose last word went to it (11 Table 123). -/
def State.injDone (s : State) (target : Nat) : State :=
  (List.range 4).foldl (fun s d =>
    if (s.die d).injAt = target then s.modDie d (fun k => { k with injctl := disarm k.injctl }) else s) s

/-- INJCTL (R366). -/
def execInjctl (die : Nat) (val : Word) (s : State) : Host.Outcome State Fault Refusal :=
  partOk die 4 s (fun s => s.writeInj die val)

/-- ERRDROP_WRITE: any value sets 0 (Table 228). -/
def execErrdropWrite (die : Nat) (_val : Word) (s : State) : Host.Outcome State Fault Refusal :=
  partOk die 4 s (fun s => s.modDie die (fun k => { k with errdrop := 0 }))

/-- What an SRAM injector does to a granule: a single bit is corrected, a double bit or a poison leaves it poisoned; the
record says that it was injected (11 R236, R228). -/
def State.inject (s : State) (d loc : Nat) (w : Word) (kind where_ : Nat) (addr : Word) : State :=
  match injAct w with
  | 3 => s.errorRecord d ⟨0, 0, kind, 0, where_, addr, 0, true⟩
  | 4 => (s.setPoison loc true).errorRecord d ⟨1, 0, kind, 0, where_, addr, 0, true⟩
  | 5 => (s.setPoison loc true).errorRecord d ⟨1, 0, kind, 0, where_, addr, 0, true⟩
  | _ => s

/-- The injector of a local-store bank acts and disarms: on its granule of a PAD or FIFO bank, or of a WAY bank on the granule
of stack memory whose line lies there. A way has 256 sets of four granules, indexed by physical address bits [13:6]; the bits
above them are a free value (08 R162, 11 R236). -/
def State.bankAct (s : State) (c b : Nat) : State :=
  let w := Store.get 0 (s.core c).injectors b
  let s1 := (s.modCore c (fun k => { k with injectors := Store.set 0 k.injectors b (disarm w) })).injDone (8 * c + b)
  let off := b * 16384 + 16 * (injN w % 1024)
  if ((s.core c).bank b).role = .way then
    let pa := Config.wayGranule c b (injN w) % 2 ^ 26 * 2 ^ 14 + 16 * (injN w % 1024)
    s1.inject (dieOf c) pa w 0 (whereCore c) (BitVec.ofNat 64 pa)
  else s1.inject (dieOf c) (lsLoc c off) w 0 (whereCore c) (s.windowAddr c off)

/-- The injector of the L2 controller of a die acts and disarms, on the granule of the die's stacks that its granule holds: a
free value (08 R163, 11 R236). -/
def State.l2Act (s : State) (d : Nat) : State :=
  let w := (s.die d).specInj
  let pa := d * 2 ^ 38 + Config.l2Granule d (injN w) % 2 ^ 34 * 16
  ((s.modDie d (fun k => { k with specInj := disarm w })).injDone (8 * nCores + d)).inject d pa w 6 d (BitVec.ofNat 64 pa)

/-- The injector of a lane of a port acts if its flit has left (11 R236). -/
def State.laneStep (s : State) (q l : Nat) : State :=
  if ((s.port q).laneDue l).isSome then (s.modPort q (fun p => p.laneAct l)).injDone (8 * nCores + 4 + 4 * q + l) else s

/-- The injectors whose granule or flit the step has reached act (11 R236). -/
def State.injectDue (s : State) : State :=
  let s1 := s.injDue.foldl (fun s i =>
    if injArmed (Store.get 0 (s.core (i / 8)).injectors (i % 8)) then s.bankAct (i / 8) (i % 8) else s) { s with injDue := [] }
  if s1.ports.any (fun p => p.2.lanes.any (fun l => injArmed l.2)) then
    s1.ports.foldl (fun s p => (List.range 4).foldl (fun s l => s.laneStep p.1 l) s) s1
  else s1

/-- INJECTOR_ACT (R236). Targets: the SRAM banks of core `t / 8`, then the L2 controllers of the dies, then the lanes of the
ports. A write to a granule `granule` of a bank in WAY role or of an L2 controller sets an armed injector off; those of the
other banks and of the lanes act as what they wait for happens. -/
def execInjectorAct (target granule : Nat) (s : State) : Host.Outcome State Fault Refusal :=
  let t := target - 8 * nCores
  if 8 * nCores + 4 + 64 ≤ target then .fault .noSuchPart
  else if target < 8 * nCores then
    let (c, b) := (target / 8, target % 8)
    let w := Store.get 0 (s.core c).injectors b
    .next (if injArmed w && injN w == granule && ((s.core c).bank b).role == .way then s.bankAct c b else s.injectDue)
  else if t < 4 then .next (if injArmed (s.die t).specInj && injN (s.die t).specInj == granule then s.l2Act t else s)
  else .next s.injectDue

/-- UCNA: an uncorrectable error in a granule that nothing consumes poisons it and is recorded (11 R228). -/
def execUcna (loc : Nat) (s : State) : Host.Outcome State Fault Refusal :=
  if lsBase + nCores * 2 ^ 17 ≤ loc then .fault .noSuchPart
  else if isStack loc then
    .next ((s.setPoison loc true).errorRecord (loc / 2 ^ 38) ⟨1, 0, 3, 0, loc / 2 ^ 36, BitVec.ofNat 64 loc, 0, false⟩)
  else
    .next ((s.setPoison loc true).coreError (locCore loc) 1 0 0 (s.windowAddr (locCore loc) (locOff loc)) 0)

/-! ## KSL ports -/

/-- A port resets: its flits in flight are dropped, to be sent again after it has trained; what it has received and
acknowledged is not in flight (11 R232, 24 R372). -/
def Port.reset (p : Port) : Port :=
  { p.withStat (if p.en then 1 else 0) 0 0 with outbox := [], replays := 0 }

/-- PCTL_RESET (R232). -/
def execPctlReset (port : Nat) (s : State) : Host.Outcome State Fault Refusal :=
  partOk port 16 s (fun s => s.modPort port Port.reset)

/-- A write of PCTL.EN: the port trains and runs, or is down (24 Table 229). -/
def Port.enable (p : Port) (en : Bool) : Port :=
  if en then (if p.en then p else { p.withStat 1 0 p.retrains with en := true })
  else { p.withStat 0 0 p.retrains with en := false }

/-- PCTL_ENABLE (R372). -/
def execPctlEnable (port : Nat) (en : Bool) (s : State) : Host.Outcome State Fault Refusal :=
  partOk port 16 s (fun s => s.modPort port (fun p => p.enable en))

/-- The lanes that a port runs on of those that trained: 4, 2 or 1 of them, the lowest (24 R372). -/
def useLanes (l : BitVec 4) : BitVec 4 :=
  let up := (List.range 4).filter (fun i => l.getLsbD i)
  let keep := if up.length = 3 then up.take 2 else up
  BitVec.ofNat 4 ((keep.map (fun i => 2 ^ i)).sum)

/-- A port retrains (24 R372). -/
def Port.retrain (p : Port) : Port := { p.withStat 1 0 (min 255 (p.retrains + 1)) with replays := 0 }

/-- A negative acknowledgement: the flits from that number on are sent again; after 16 failed replays from one flit the port
retrains (24 R372). -/
def Port.nacked (p : Port) (seq : BitVec 16) : Port :=
  let n := if seq = p.nackSeq then p.replays else 0
  if 16 ≤ n then p.retrain
  else { p.resend (p.retry.dropWhile (fun f => flitSeq f != seq)) with replays := n + 1, nackSeq := seq }

/-- KSL_NACK_RECEIVE (R372). -/
def execKslNackReceive (port : Nat) (seq : BitVec 16) (s : State) : Host.Outcome State Fault Refusal :=
  partOk port 16 s (fun s => if (s.port port).state = 2 then s.modPort port (fun p => p.nacked seq) else s)

/-- An acknowledgement: the flits up to that number are done; a replay that succeeded is recorded (24 R372). -/
def State.acked (s : State) (q : Nat) (seq : BitVec 16) : State :=
  let again := (s.port q).replays != 0
  let s1 := s.modPort q (fun p =>
    ({ p with retry := if p.retry.any (fun f => flitSeq f == seq) then (p.retry.dropWhile (fun f => flitSeq f != seq)).tail
                       else p.retry
              replays := 0 } : Port).sendQueued)
  if again then s1.portError q 0 else s1

/-- KSL_FLIT_RECEIVE: a good flit in order is delivered and acknowledged, and forwarded when it is of a group's
ring (R373), one already delivered is acknowledged again, and a bad or an early one is answered with a negative acknowledgement
for the expected number (R372). -/
def execKslFlitReceive (port : Nat) (flit : BitVec 512) (s : State) : Host.Outcome State Fault Refusal :=
  partOk port 16 s (fun s =>
    let p := s.port port
    let say := fun (ty : Nat) (n : BitVec 16) => s.modPort port (fun p => p.push (mkFlit ty 0 n 0))
    if p.state ≠ 2 then s
    else if !flitOk flit then say 4 p.rxSeq
    else match flitType flit with
      | 1 | 2 =>
        let q := flitSeq flit
        if q = p.rxSeq then
          (s.modPort port (fun p =>
            ({ p.push (mkFlit 3 0 q 0) with inbox := p.inbox ++ [flit], rxSeq := p.rxSeq + 1 } : Port).rebuild flit)).forwardFlit
              port flit
        else if olderGen q.toNat p.rxSeq.toNat then say 3 q
        else say 4 p.rxSeq
      | 3 => s.acked port (flitSeq flit)
      | 4 => s.modPort port (fun p => p.nacked (flitSeq flit))
      | _ => s)

/-- Ends the collective rounds whose ring goes over a port with FK 5 (13 R257). -/
def State.endRounds (s : State) (q : Nat) : State :=
  (List.range 16).foldl (fun s g =>
    let w := (s.group g).word
    if grpV w && grpP w != 1 && ((w.extractLsb' 8 4).toNat == q || (w.extractLsb' 0 4).toNat == q) then
      (s.forCopies (fun s e => s.modCopy e (fun cs => cs.map (fun c =>
        if 5 ≤ c.op ∧ c.grp = g ∧ c.accepted ∧ c.code = 0 then { c with code := 3, fk := 5 } else c)))).settleGroup g
    else s) s

/-- PORT_TRAINING_COMPLETE: up, degraded with a LNK record, or down, which ends the rounds that it carries (R372, 13 R257); what
the partner has not acknowledged is sent again. -/
def execPortTrainingComplete (port : Nat) (lanes : BitVec 4) (s : State) : Host.Outcome State Fault Refusal :=
  partOk port 16 s (fun s =>
    let p := s.port port
    if p.state ≠ 1 ∨ !p.en then s
    else
      let s1 := s.modPort port (fun p =>
        let up := { p.withStat (if lanes = 0 then 0 else 2) (useLanes lanes) p.retrains with replays := 0 }
        if lanes = 0 then up else up.resend p.retry)
      let s2 := if lanes = 15#4 then s1 else s1.portError port 4
      if lanes = 0 then s2.endRounds port else s2)

/-- KSL_PARTNER_LOST (R372). -/
def execKslPartnerLost (port : Nat) (s : State) : Host.Outcome State Fault Refusal :=
  partOk port 16 s (fun s =>
    if (s.port port).state ≠ 2 then s
    else (((s.modPort port (fun p => p.withStat 3 p.lanesUp p.retrains)).portError port 4).endRounds port))

/-- A write of a GROUP word: while a round is open it takes effect at the next (24 R373). -/
def State.writeGroup (s : State) (g : Nat) (x : Word) : State :=
  let w := x &&& 0x8FFF0FFF003F0F0F#64
  if s.roundOpen g then s.modGroup g (fun k => { k with next := some w })
  else s.modGroup g (fun k => { k with word := w, next := none })

/-- GROUP_WRITE (R373). -/
def execGroupWrite (grp : Nat) (val : Word) (s : State) : Host.Outcome State Fault Refusal :=
  partOk grp 16 s (fun s => s.writeGroup grp val)

/-! ## The device register space -/

/-- A write of a register of a user page (20 Table 188). -/
def State.writeUser (s : State) (v off : Nat) (x : Word) : State :=
  match off with
  | 0x000 => s.modVif v (fun i => { i with rbase := x &&& ~~~0xFFF#64 })
  | 0x008 => if 12 ≤ x.toNat % 32 ∧ x.toNat % 32 ≤ 24 then s.modVif v (fun i => { i with rsize := x &&& 31 }) else s
  | 0x010 => s.rheadWrite v x
  | 0x018 => s.modVif v (fun i => { i with rtail := x &&& ~~~3#64 })
  | 0x020 => s.modVif v (fun i => i.writeRstat x)
  | 0x028 => s.modVif v (fun i =>
      if 4 ≤ i.trigs.length then { i with ovf := true }
      else { i with trigs := i.trigs ++ [⟨x.toNat % 16, true, x &&& ~~~0xFF#64, [], 0⟩] })
  | 0x030 => s.modVif v (fun i => { i with ovf := i.ovf && !x.getLsbD 4 })
  | 0x040 => s.modVif v (fun i => { i with eqbase := x &&& ~~~0xFFF#64 })
  | 0x048 => if 4 ≤ x.toNat % 16 ∧ x.toNat % 16 ≤ 12 then s.modVif v (fun i => { i with eqsize := x &&& 15 }) else s
  | 0x050 => s.modVif v (fun i => { i with eqhead := x })
  | 0x060 => s.modVif v (fun i => { i with eqdrop := 0 })
  | _ => if 0x400 ≤ off ∧ off < 0x600 ∧ off % 8 = 0 then s.writeLevel v ((off - 0x400) / 8) x else s

/-- A write of a register of a supervisor page (20 Table 189). -/
def State.writeSuper (s : State) (v off : Nat) (x : Word) : State :=
  match off with
  | 0x000 => s.writePctrl v x
  | 0x008 => s.modVif v (fun i => { i with troot := x &&& 0xFFFFFFF800#64 })
  | 0x010 => s.writeShare v x
  | 0x028 => s.modVif v (fun i => { i with savebase := x &&& ~~~0xFFFF#64 })
  | _ => s

/-- A write of a register of the package block (24 Table 227). -/
def State.writePackage (s : State) (off : Nat) (x : Word) : State :=
  match off with
  | 0x000 => { s with lock := s.lock || x.getLsbD 0 }
  | 0x008 => { s with freeze := x.getLsbD 0 }
  | 0x010 => let w := x &&& 0xFFF#64; if 800 ≤ w.toNat ∧ w.toNat ≤ 2400 then { s with pwrcap := w } else s
  | _ => if 0x100 ≤ off ∧ off < 0x180 ∧ off % 8 = 0 then s.writeGroup ((off - 0x100) / 8) x else s

/-- A write of a register of a die block (24 Table 228). `mgmt` says that it comes over the management path, which LOCK
keeps from the boot registers (24 R368); the registers of the injectors are written only over it (11 R236). -/
def State.writeDie (s : State) (mgmt : Bool) (d off : Nat) (x : Word) : State :=
  let shut := mgmt && s.lock
  match off with
  | 0x000 => if shut then s else s.bootGo d x
  | 0x008 => if shut then s else s.modDie d (fun k => { k with mkentry := x })
  | 0x010 => if shut then s else s.modDie d (fun k => { k with kroot := x &&& 0xFFFFFFF800#64 })
  | 0x020 => s.modDie d (fun k => { k with errbase := x &&& ~~~0xFFF#64 })
  | 0x028 => if 4 ≤ x.toNat % 16 ∧ x.toNat % 16 ≤ 12 then s.modDie d (fun k => { k with errsize := x &&& 15 }) else s
  | 0x030 => s.modDie d (fun k => { k with errhead := x })
  | 0x040 => s.modDie d (fun k => { k with errdrop := 0 })
  | 0x048 => if mgmt then s.modDie d (fun k => { k with injsel := x &&& 0x1073F7F#64 }) else s
  | 0x050 => if mgmt then s.writeInj d x else s
  | _ => if 0x800 ≤ off ∧ off < 0xC80 ∧ off % 8 = 0 then s.writeArb (144 * d + (off - 0x800) / 8) x else s

/-- A write of PCTL (24 Table 229). -/
def State.writePctl (s : State) (q : Nat) (x : Word) : State :=
  s.modPort q (fun p => let p := p.enable (x.getLsbD 0); if x.getLsbD 1 then p.reset else p)

/-- Where an address of the physical map leads (24 Table 226). -/
inductive RegPlace where
  | user (v off : Nat)
  | super (v off : Nat)
  | package (off : Nat)
  | die (d off : Nat)
  | port (q off : Nat)
  | none
  deriving DecidableEq, Repr

/-- The register that an address names. -/
def regPlace (a : Nat) : RegPlace :=
  if a < 2 ^ 40 ∨ a % 8 ≠ 0 then .none
  else
    let o := a - 2 ^ 40
    if o < 0x80000 then (if o % 0x2000 < 0x1000 then .user (o / 0x2000) (o % 0x1000) else .super (o / 0x2000) (o % 0x1000))
    else if 0x100000 ≤ o ∧ o < 0x101000 then .package (o - 0x100000)
    else if 0x110000 ≤ o ∧ o < 0x150000 then .die ((o - 0x110000) / 0x10000) ((o - 0x110000) % 0x10000)
    else if 0x200000 ≤ o ∧ o < 0x210000 then .port ((o - 0x200000) / 0x1000) (o % 0x1000)
    else .none

/-- A write of a device register (24 R363, R364). -/
def State.regWrite (s : State) (mgmt : Bool) (a : Nat) (x : Word) : State :=
  match regPlace a with
  | .user v off => s.writeUser v off x
  | .super v off => s.writeSuper v off x
  | .package off => s.writePackage off x
  | .die d off => s.writeDie mgmt d off x
  | .port q off => if off = 8 then s.writePctl q x else s
  | .none => s

/-- DEVICE_REGISTER_WRITE of a hub core (R364). -/
def execDeviceRegisterWrite (addr : Nat) (val : Word) (s : State) : Host.Outcome State Fault Refusal :=
  .next (if s.hubRuns then s.regWrite false addr val else s)

/-- I3C_WRITE (R370). -/
def execI3cWrite (addr : Nat) (val : Word) (s : State) : Host.Outcome State Fault Refusal := .next (s.regWrite true addr val)

/-- The code of a level state (20 Table 191). -/
def LvlSt.code : LvlSt → Nat
  | .free => 0
  | .opened => 1
  | .complete => 2
  | .cancelling => 3

/-- A level register (20 Table 191). -/
def State.levelReg (s : State) (v n : Nat) : Word :=
  let l := (s.vif v).level n
  let count := if l.st = .free then 0 else s.levelCount v n
  BitVec.ofNat 3 l.st.code ++ BitVec.ofNat 3 l.kind ++ BitVec.ofBool l.pv ++ BitVec.ofNat 6 l.parent ++ BitVec.ofBool l.sealed ++
    BitVec.ofBool l.cxl ++ 0#5 ++ BitVec.ofNat 20 l.serial ++ BitVec.ofNat 24 count

/-- CMAP0 or CMAP1 (20 Table 189). -/
def Vif.cmapReg (i : Vif) (hi : Bool) : Word :=
  BitVec.ofNat 64 (((List.range 12).map (fun k => i.phys (k + 12 * hi.toNat) * 32 ^ k)).sum)

/-- RSTAT and TRIGSTAT (20 Table 190). -/
def Vif.rstat (i : Vif) : Word :=
  i.eofs ++ 0#16 ++ i.ecode ++ BitVec.ofNat 6 i.nest.length ++ BitVec.ofBool i.err ++ BitVec.ofBool i.run
def Vif.trigstat (i : Vif) : Word := BitVec.ofNat 64 (i.trigs.length + 16 * i.ovf.toNat)

/-- A read of a user page. -/
def State.readUser (s : State) (v off : Nat) : Word :=
  let i := s.vif v
  match off with
  | 0x000 => i.rbase
  | 0x008 => i.rsize
  | 0x010 => i.rhead
  | 0x018 => i.rtail
  | 0x020 => i.rstat
  | 0x030 => i.trigstat
  | 0x040 => i.eqbase
  | 0x048 => i.eqsize
  | 0x050 => i.eqhead
  | 0x058 => i.eqtail
  | 0x060 => i.eqdrop
  | _ => if 0x400 ≤ off ∧ off < 0x600 then s.levelReg v ((off - 0x400) / 8) else 0

/-- A read of a supervisor page. -/
def Vif.readSuper (i : Vif) (off : Nat) : Word :=
  match off with
  | 0x000 => i.pctrl
  | 0x008 => i.troot
  | 0x010 => i.share
  | 0x018 => i.cmapReg false
  | 0x020 => i.cmapReg true
  | 0x028 => i.savebase
  | _ => 0

/-- A read of the package block. -/
def State.readPackage (s : State) (off : Nat) : Word :=
  match off with
  | 0x000 => BitVec.ofNat 64 s.lock.toNat
  | 0x008 => BitVec.ofNat 64 s.freeze.toNat
  | 0x010 => s.pwrcap
  | 0x018 => s.pwrnow
  | _ => if 0x100 ≤ off ∧ off < 0x180 then (let g := s.group ((off - 0x100) / 8); g.next.getD g.word) else 0

/-- A read of a die block. -/
def State.readDie (s : State) (d off : Nat) : Word :=
  let k := s.die d
  match off with
  | 0x008 => k.mkentry
  | 0x010 => k.kroot
  | 0x020 => k.errbase
  | 0x028 => k.errsize
  | 0x030 => k.errhead
  | 0x038 => k.errtail
  | 0x040 => k.errdrop
  | 0x048 => k.injsel
  | 0x050 => k.injctl
  | _ => if 0x800 ≤ off ∧ off < 0xC80 then s.arb (144 * d + (off - 0x800) / 8) else 0

/-- A read of a device register (24 R363). -/
def State.regRead (s : State) (a : Nat) : Word :=
  match regPlace a with
  | .user v off => s.readUser v off
  | .super v off => (s.vif v).readSuper off
  | .package off => s.readPackage off
  | .die d off => s.readDie d off
  | .port q off => if off = 0 then (s.port q).pstat else if off = 8 then BitVec.ofNat 64 (s.port q).en.toNat else 0
  | .none => 0

/-- A read over the management path. It reads the number of the failing boot stage too, at an address that the spec does not give: a
free value (24 R367). DESIGN CHOICE (log 95). -/
def State.mgmtRead (s : State) (a : Nat) : Word :=
  if regPlace a = .none then (if a = Config.failStageAt then BitVec.ofNat 64 s.sec.failStage else 0) else s.regRead a

/-- I3C_READ: stack memory reads 0 (R370). -/
def execI3cRead (addr : Nat) (s : State) : Host.Outcome State Fault Refusal :=
  .next { s with i3cSeen := ⟨(if addr < 2 ^ 40 then 0 else s.mgmtRead addr).setWidth 2048, 0, 0⟩ }

/-! ## Attestation -/

/-- The bytes of a number of 256 bits. -/
def bytes256 (x : BitVec 256) : List Byte := toLE x.toNat 32

/-- What the configuration digest covers, in its order (24 Table 233). -/
def State.configBytes (s : State) : List Byte :=
  let vs := List.range 64
  vs.flatMap (fun v => toLE (s.vif v).pctrl.toNat 8 ++ toLE ((s.vif v).cmapReg false).toNat 8 ++
      toLE ((s.vif v).cmapReg true).toNat 8) ++
    (vs.filter (fun v => (s.vif v).en)).flatMap (fun v =>
      (((s.vif v).pens.zipIdx).filter (fun p => p.1.w != 0)).flatMap (fun p =>
        Config.penBytes v p.2 p.1.x p.1.y p.1.w p.1.h)) ++
    toLE s.lock.toNat 8 ++ (List.range 576).flatMap (fun b => toLE (s.arb b).toNat 8)

/-- The first 200 bytes of an attestation report (24 Table 233). -/
def State.reportHead (s : State) (nonce : BitVec 256) : List Byte :=
  toLE 1 8 ++ bytes256 nonce ++ bytes256 s.sec.digHub ++ bytes256 s.sec.digLoader ++ bytes256 s.sec.digDevice ++
    toLE (shakeNum s.configBytes).toNat 32 ++ toLE s.sec.boots.toNat 8 ++ toLE 0 24

/-- ATTESTATION_REQUEST of hub software: the report with its signature of 3,309 bytes (R369). -/
def execAttestationRequest (nonce : BitVec 256) (s : State) : Host.Outcome State Fault Refusal :=
  let h := s.reportHead nonce
  .next <| if !s.hubRuns then s else { s with sec := { s.sec with report := h ++ (List.range 3309).map (Config.signatureByte h) } }

/-! ## Memory accesses of the hub and of PCIe -/

/-- What an outside access to stack memory comes to: it waits for a line that an engine owns (01 Table 10), is answered,
or is refused. -/
inductive HubOut where
  | wait
  | ok (s : State) (data : BitVec 2048)
  | refused

/-- A write or a read of stack memory from the hub die (24 R364). A write that would change part of a poisoned granule is
refused (11 R228), as is a read of a poisoned one. -/
def State.hubMem (s : State) (pa : Nat) (wr : Bool) (bs : List Byte) (n : Nat) : HubOut :=
  let m := if wr then bs.length else n
  if 2 ^ 40 < pa + m then .refused
  else if s.ownedAny pa m then .wait
  else if wr then (if (s.partPoison pa m).isSome then .refused else .ok (s.store pa bs false).serve 0)
  else if (s.readPoison pa m).isSome then .refused
  else .ok s (BitVec.ofNat 2048 (s.nat pa n))

/-- What an observer is answered: the hub cores, or the endpoints of a root port. -/
def State.seen (s : State) (q : Nat) (x : Seen) : State := if q = 4 then { s with hubSeen := x } else { s with pcieSeen := x }

/-- Performs an access of the hub die; none while an engine owns a line that it would touch (24 R364, R365, 01 Table 10). -/
def State.hubServe (s : State) (q : Nat) : HubOp → Option State
  | .msi d => some { s with msis := s.msis ++ [(q, d)] }
  | .access pa wr bs n => match s.hubMem pa wr bs n with
    | .wait => none
    | .ok s1 d => some (s1.seen q ⟨d, 0, 0⟩)
    | .refused => some (s.seen q ⟨0, 0, 1⟩)

/-- Performs the accesses of a list that can be performed, each after the earlier ones of its port; the others are kept. -/
def hubRun : List (Nat × HubOp) → List (Nat × HubOp) → State → State
  | [], kept, s => { s with hubq := kept }
  | e :: rest, kept, s =>
    if kept.any (fun x => x.1 == e.1) then hubRun rest (kept ++ [e]) s
    else match s.hubServe e.1 e.2 with
      | some s1 => hubRun rest kept s1
      | none => hubRun rest (kept ++ [e]) s

/-- Performs what waits of the accesses of the hub die. -/
def State.serveHub (s : State) : State := hubRun s.hubq [] s

/-- An access of the hub die is received: those of one root port, and those of the hub cores, are performed in the order
received (24 R365). DESIGN CHOICE for the hub cores and for reads (log 77). -/
def State.hubAccess (s : State) (q : Nat) (o : HubOp) : State := ({ s with hubq := s.hubq ++ [(q, o)] } : State).serveHub

/-- HUB_STACK_ACCESS: an access of a hub core. From 2^40 on it reaches the device registers, which it reads and writes at once
(24 R363, R364). `frozen` says that a store goes to a FROZEN page, which refuses it and invalidates specialisation entries (21
R333). After a failed verification no hub core runs software (R367). -/
def execHubStackAccess (addr : Nat) (wr : Bool) (data : List Byte) (size : Nat) (frozen : Bool) (s : State) :
    Host.Outcome State Fault Refusal :=
  if !s.hubRuns then .next s
  else if 2 ^ 40 ≤ addr then
    (if wr then .next ({ s.regWrite false addr (BitVec.ofNat 64 (leNat data)) with hubSeen := ⟨0, 0, 0⟩ })
     else .next { s with hubSeen := ⟨(s.regRead addr).setWidth 2048, 0, 0⟩ })
  else if wr && frozen then .next { s.frozenHit addr 16 with hubSeen := ⟨0, 0, 1⟩ }
  else .next (s.hubAccess 4 (.access addr wr data size))

/-- An endpoint's DMA access at the physical address that the IOMMU gives, none where it gives none. The device register
space is refused with Unsupported Request (R365). -/
def State.dma (s : State) (port addr : Nat) (pa : Option Nat) (wr : Bool) (bs : List Byte) (n : Nat) : State :=
  match pa with
  | none => s.seen port ⟨0, 0, 1⟩
  | some a =>
    if 2 ^ 40 ≤ addr ∧ addr < 2 ^ 40 + 0x210000 ∨ 2 ^ 40 ≤ a then s.seen port ⟨0, 0, 1⟩
    else s.hubAccess port (.access a wr bs n)

/-- PCIE_DMA_WRITE (R365). -/
def execPcieDmaWrite (port addr : Nat) (pa : Option Nat) (data : List Byte) (s : State) : Host.Outcome State Fault Refusal :=
  partOk port 4 s (fun s => s.dma port addr pa true data 0)

/-- PCIE_DMA_READ (R365). -/
def execPcieDmaRead (port addr : Nat) (pa : Option Nat) (size : Nat) (s : State) : Host.Outcome State Fault Refusal :=
  partOk port 4 s (fun s => s.dma port addr pa false [] size)

/-- MSI: after every earlier DMA write of its port (R365). -/
def execMsi (port : Nat) (data : BitVec 64) (s : State) : Host.Outcome State Fault Refusal :=
  partOk port 4 s (fun s => s.hubAccess port (.msi data))

/-! ## Failures -/

/-- Resets every pen of an interface. -/
def State.resetPens (s : State) (v : Nat) : State :=
  (List.range (s.vif v).pens.length).foldl (fun s i => s.penReset v i false) s

/-- Resets every partition that has a cluster on a die (11 Table 120). -/
def State.dieReset (s : State) (d : Nat) : State :=
  ((s.vifs.filter (fun i => i.2.en && i.2.clusters.any (fun p => p / 6 == d))).map Prod.fst).foldl State.resetPens s

/-- DIE_FAILURE (R229). -/
def execDieFailure (die : Nat) (s : State) : Host.Outcome State Fault Refusal :=
  partOk die 4 s (fun s => (s.errorRecord die ⟨6, 0, 7, 0, die, 0, 0, false⟩).dieReset die)

/-- THERMAL_STOP: the die stops under class DIE; its control contexts are held from then on (R376). -/
def execThermalStop (die : Nat) (s : State) : Host.Outcome State Fault Refusal :=
  partOk die 4 s (fun s =>
    let s1 := (s.errorRecord die ⟨6, 0, 7, 0, die, 0, 0, false⟩).dieReset die
    let s2 := s1.modDie die (fun k => { k with failed := true })
    (dieCores die).foldl (fun s c => s.modCore c (fun k => { k with held := true })) s2)

/-- ROUTE_FAULT: the sender's pen is reset under class FAB (R229). -/
def execRouteFault (core : Nat) (s : State) : Host.Outcome State Fault Refusal :=
  partOk core nCores s (fun s => s.hardReset core 5 0 0 0 0 false)

/-- POWER_THROTTLE: only timing differs (R376). -/
def execPowerThrottle (watts : BitVec 12) (s : State) : Host.Outcome State Fault Refusal :=
  .next { s with pwrnow := watts.setWidth 64 }

/-- A command of a copy engine that resets: it ends CANCELLED, or as it had already ended, with its REC (11 R232, 13 R258). One
that does not own REC's line yet writes none. -/
def State.sweepCopy (s : State) (e : Nat) (c0 : Copy) : State :=
  let c := { c0 with code := if c0.code = 0 then 2 else c0.code }
  if !c.accepted || !c.recCap.tag then s.endCopy e c c.code
  else
    match pageLoc c.pages c.recCap.addr with
    | none => s.endCopy e { c with fk := 6 } 3
    | some loc => if s.owner loc = c.id then s.writeRec e c loc else s.endCopy e c c.code

/-- A copy engine's reset: its inbox is emptied, and every line of its commands is released (11 R232). It is recorded with KIND 2
(13 R261); its CLASS the spec does not give: CHK, as for a failed array. DESIGN CHOICE (log 78). -/
def State.resetCopies (s : State) (e : Nat) : State :=
  let s1 := s.errorRecord (e / 12) ⟨3, 0, 2, 0, e, 0, 0, false⟩
  (s1.copyEng e).foldl (fun s c => s.sweepCopy e c) s1

/-- A stack engine's reset (11 R232, 23 R362). -/
def State.resetStk (s : State) (e : Nat) : State := (s.stkEng e).foldl (fun s c => s.endStk e c 2) s

/-- An array's reset: the commands in its queues and those that it has computed end CANCELLED; FAIL is cleared when its
test passes (11 R232, 16 Table 160). -/
def State.resetArray (s : State) (a : Nat) (testOk : Bool) : State :=
  let s1 := s.forBenches (fun s b =>
    let serves := s.servedBy b == some a || b == a
    s.cancelHires b (fun h => if h.stage == .inbox || h.stage == .queued then serves else h.array == a))
  let s2 := if testOk then s1.modBench a (fun b => { b with
      arbcfg := (b.arbcfg.map (fun w => w &&& ~~~0x8000000000000000#64)).filter (fun w => w != arbReset a) }) else s1
  s2.modBench a (fun b => { b with cur := (s2.serving a).getLast?, left := 0, busy := none })

/-- ENGINE_RESET of an array, a copy engine, a stack engine or a KSL port, by the codes 1 to 4 of Table 121 (R232). -/
def execEngineReset (kind n : Nat) (testOk : Bool) (s : State) : Host.Outcome State Fault Refusal :=
  match kind with
  | 1 => partOk n 576 s (fun s => s.resetArray n testOk)
  | 2 => partOk n 48 s (fun s => s.resetCopies n)
  | 3 => partOk n 16 s (fun s => s.resetStk n)
  | 4 => partOk n 16 s (fun s => s.modPort n Port.reset)
  | _ => .fault .noSuchPart

end Sys2Proof.Machine
end

