-- ==== Sys2Proof/Machine/Debug.lean ====
section
/-! DEFINITION. The debug port and the register cache (01 R22, 04 R78 to R84, 02 R53, 11 R237). -/

namespace Sys2Proof.Machine

/-- The register that a debug item names: 0 to 31 g, 32 to 63 v, 64 to 71 p. -/
def itemReg (n : Nat) : Dest :=
  if n < 32 then .g n else if n < 64 then .v (n - 32) else if n < 72 then .p (n - 64) else .none

/-- Granules at the debug port, the first lowest, with their C bits. -/
def seenGranules (gs : List GReg) : Seen :=
  ⟨BitVec.ofNat 2048 (leNat (granuleBytes gs)), BitVec.ofNat 16 ((gs.zipIdx.map (fun p => p.1.tag.toNat * 2 ^ p.2)).sum), 0⟩

/-- A word at the debug port. -/
def seenNat (n : Nat) : Seen := ⟨BitVec.ofNat 2048 n, 0, 0⟩

/-- A register at the debug port. -/
def seenVal : RVal → Seen
  | .g x => seenGranules [x]
  | .v x => ⟨x, 0, 0⟩
  | .p x => ⟨x.setWidth 2048, 0, 0⟩
  | .none => ⟨0, 0, 0⟩

/-- The item of that name, or none. -/
def seenOpt (x : Option (List GReg)) : Seen :=
  match x with
  | some gs => seenGranules gs
  | none => ⟨0, 0, 0⟩

/-- The granules of a header. -/
def headerGranules (h : BitVec 256) : List GReg := [⟨h.extractLsb' 0 128, false⟩, ⟨h.extractLsb' 128 128, false⟩]

/-- An entry of an inbox, or of a park slot: the command's header and what it carries. -/
def Hire.image (h : Hire) : List GReg :=
  headerGranules h.header ++ [h.a, h.b, h.d, ⟨h.hctl ++ h.geom, false⟩, h.scla, h.sclb,
    ⟨h.tapset.setWidth 64 ++ BitVec.ofNat 64 (h.rows + 2 ^ 32 * h.slab), false⟩]
def Copy.image (c : Copy) : List GReg := headerGranules c.header ++ c.desc ++ [⟨BitVec.ofNat 128 (c.skip + 2 ^ 64 * c.prog), false⟩]
def Stk.image (c : Stk) : List GReg := headerGranules c.header ++ c.desc ++ [⟨c.value ++ BitVec.ofNat 64 c.idx, false⟩]

/-- An entry of the register cache (04 Table 37): whether there is one, drowsy, dirty, whether the register is pending and
whether the null maps hold it. -/
def Core.entryWord (k : Core) (x : Nat) (d : Dest) : Nat :=
  let e := k.entry x d
  e.isSome.toNat + 2 * ((e.map (fun e => e.st == .drowsy)).getD false).toNat + 4 * ((e.map Entry.dirty).getD false).toNat +
    8 * ((k.ctx x).isPending d).toNat + 16 * ((k.ctx x).holds d).toNat

/-- What a park slot holds beyond the command: up to 4095 the accumulator tile, 32 words at a time, and from 4096 on the deferred
pages, 32 addresses at a time (16 R285). -/
def Hire.parkItem (h : Hire) (j : Nat) : Seen :=
  if j < 4096 then seenNat (leNat (((h.acc.flatten.drop (32 * j)).take 32).flatMap (fun w => toLE w.toNat 8)))
  else seenNat (leNat (((h.deferred.drop (32 * (j - 4096))).take 32).flatMap (fun a => toLE a 8)))

/-- A part of a specialisation entry (21 Table 198): 0 the key, the digest, the configuration, the entry offset, the pin count and the
report;
from 1 on the log; from 256 on the uniform copy; from 4096 on the image; from 32768 on the back-map. -/
def Spec.item (e : Spec) (pins n : Nat) : Seen :=
  if n = 0 then seenGranules [⟨e.key, false⟩, ⟨e.digest.extractLsb' 0 128, false⟩, ⟨e.digest.extractLsb' 128 128, false⟩,
      ⟨BitVec.ofNat 64 e.entry ++ e.config, false⟩, ⟨e.fpc ++ e.warn.setWidth 64, false⟩, ⟨BitVec.ofNat 128 pins, false⟩]
  else if n < 256 then seenOpt ((e.log[n - 1]?).map (fun p => [⟨BitVec.ofNat 128 p.1, false⟩, p.2]))
  else if n < 4096 then seenNat (leNat ((e.uniform.drop ((n - 256) * 256)).take 256))
  else if n < 32768 then seenNat (leNat (((e.image.drop ((n - 4096) * 128)).take 128).flatMap (fun w => toLE w.toNat 2)))
  else seenNat (leNat (((e.backmap.drop ((n - 32768) * 32)).take 32).flatMap (fun w => toLE w.toNat 8)))

/-- What an item of a context holds that is no register: 128 on the control registers, 256 on the journal, 320 on the deque,
384 on the FIFO pointers, 512 on the register-cache entries, 640 on the commands in the inbox of the bench, 668 and 669 the
park slots of its array, 672 on the inboxes of the cluster's copy engines, 704 on those of the stack engines, 16384 and 24576 on
the tiles and deferred pages of the park slots, and 65536 on the specialisation entries of the die (11 R237, 21 R331). The numbers
are the model's. DESIGN CHOICE (log 40). -/
def State.debugItem (s : State) (core x n : Nat) : Seen :=
  let k := s.core core
  let b := benchOf core
  let parked := fun (i : Nat) => (s.benches.flatMap (fun p => p.2.hires)).find? (fun h => h.array == b && h.park == i + 1)
  if 128 ≤ n ∧ n < 192 then seenGranules [s.readCr core x (n - 128)]
  else if 256 ≤ n ∧ n < 288 then seenGranules (k.jent (n - 256)).image
  else if 320 ≤ n ∧ n < 384 then seenOpt ((k.deque[n - 320]?).map Rec.granules)
  else if 384 ≤ n ∧ n < 392 then seenNat (bankqWord k (n - 384) 0)
  else if 512 ≤ n ∧ n < 584 then seenNat (k.entryWord x (itemReg (n - 512)))
  else if 640 ≤ n ∧ n < 668 then
    seenOpt ((((s.bench b).hires.filter (fun h => h.stage == .inbox || h.stage == .queued))[n - 640]?).map Hire.image)
  else if n = 668 ∨ n = 669 then
    seenOpt ((parked (n - 668)).map Hire.image)
  else if 672 ≤ n ∧ n < 704 then seenOpt (((s.copyEng (2 * clusterOf core + (n - 672) / 16))[n % 16]?).map Copy.image)
  else if 704 ≤ n ∧ n < 960 then seenOpt (((s.stkEng ((n - 704) / 16))[n % 16]?).map Stk.image)
  else if 16384 ≤ n ∧ n < 32768 then
    (match parked ((n - 16384) / 8192) with
     | some h => h.parkItem (n % 8192)
     | none => ⟨0, 0, 0⟩)
  else if 65536 ≤ n then
    (match (s.die (dieOf core)).specs[n / 65536 - 1]? with
     | some e => e.item (s.pins e.id) (n % 65536)
     | none => ⟨0, 0, 0⟩)
  else ⟨0, 0, 1⟩

/-- DEBUGGER_READ (R83, 11 R237). -/
def execDebuggerRead (core ctx item : Nat) (s : State) : Host.Outcome State Fault Refusal :=
  if !ctxOk core ctx then .fault .noSuchPart
  else if item ≤ 72 then
    (match s.debugReg core ctx (itemReg item) with
     | (s1, v) => .next { s1 with dbgSeen := seenVal v })
  else .next { s with dbgSeen := s.debugItem core ctx item }

/-- A debugger's write of a register (04 R84); g0 and p0 drop it. A result under way to the register is discarded when it
arrives. DESIGN CHOICE (log 65). -/
def State.debugWrite (s : State) (core x item : Nat) (val : BitVec 2048) (tag : Bool) : State :=
  let g : GReg := ⟨val.setWidth 128, tag⟩
  match itemReg item with
  | .g r => if r = 0 then s else s.debugPut core x (.g r) (.g g)
  | .v r => s.debugPut core x (.v r) (.v val)
  | .p r => if r = 0 then s else s.debugPut core x (.p r) (.p (val.setWidth 256))
  | .none => (s.debugPut core x .none (.g g)).modCtx core x (fun c => { c with pcc := g })

/-- DEBUGGER_WRITE: accepted while the context is STOPPED or the core is frozen (R84). -/
def execDebuggerWrite (core ctx item : Nat) (val : BitVec 2048) (tag : Bool) (s : State) :
    Host.Outcome State Fault Refusal :=
  if !ctxOk core ctx then .fault .noSuchPart
  else if ((s.ctx core ctx).st = .stopped ∨ s.freeze) ∧ item ≤ 72 then
    .next { s.debugWrite core ctx item val tag with dbgSeen := ⟨0, 0, 0⟩ }
  else .next { s with dbgSeen := ⟨0, 0, 1⟩ }

/-- DEBUGGER_MEMORY_READ: the current content of a line with its tags, without recall and without waiting (R22). -/
def execDebuggerMemoryRead (loc : Nat) (s : State) : Host.Outcome State Fault Refusal :=
  if lsBase + nCores * 2 ^ 17 ≤ loc then .fault .noSuchPart
  else
    let gs := (List.range (lineSize loc / 16)).map (fun i => s.granule (lineOf loc + 16 * i))
    .next { s with dbgSeen := seenGranules gs }

/-- DEBUGGER_SINGLE_STEP: the next step of the machine is one whole instruction of the context, if it is LIVE and its core
released (R53). -/
def execDebuggerSingleStep (core ctx : Nat) (s : State) : Host.Outcome State Fault Refusal :=
  if !ctxOk core ctx then .fault .noSuchPart
  else if (s.ctx core ctx).st = .live ∧ !(s.core core).held then .next { s with single := some (core, ctx) }
  else .next s

/-- REGISTER_ENTRY_DROWSY: a live entry that is not pending (R80). -/
def execRegisterEntryDrowsy (core ctx item : Nat) (s : State) : Host.Outcome State Fault Refusal :=
  if !ctxOk core ctx then .fault .noSuchPart
  else
    let d := itemReg item
    if (s.ctx core ctx).isPending d then .next s
    else .next (s.modCore core (fun k =>
      { k with entries := k.entries.map (fun e => if e.of ctx d then { e with st := .drowsy } else e) }))

/-- CTXBASE_WRITE: performed only while no helper is LIVE or STOPPED; otherwise ignored, with W.RSV in checked mode. One that
would fill a register from a line that an engine owns waits, and a poisoned slot raises POIS (R78, 11 R228). -/
def execCtxbaseWrite (core : Nat) (val : BitVec 64) (s : State) : Host.Outcome State Fault Refusal :=
  partOk core nCores s (fun s =>
    if (s.core core).anyHelper then
      s.modCtx core 0 (fun c => if c.cr.cm then c else { c with cr := c.cr.addWarn c.pcc.word wRSV })
    else match s.setCtxbase core val with
      | .ok s1 => s1
      | .wait => s
      | .pois a => s.raiseAsync core 0 tPOIS (BitVec.ofNat 64 a) (s.ctx core 0).pcc.word)

end Sys2Proof.Machine
end

