-- ==== Sys2Proof/Machine/GangForms.lean ====
section
/-! DEFINITION. The gang forms of page 4 (07 R156 to R159). -/

namespace Sys2Proof.Machine

/-- The core of the gang member in the slot that k[1:0] names, and whether the file is v (07 R157). -/
def State.gangPeer (s : State) (o : Op) : Nat := troupeCore s.curCore (o.k1 % 4)
def gangFileV (o : Op) : Bool := o.k1.testBit 2

/-- A g register as a gang reach moves it: its tag stays only on a capability that holds K (07 R157). -/
def GReg.reach (x : GReg) : GReg := x.withTag (x.tag && (x.perms &&& pK != 0))

/-- GGET: the value is read at issue, in one step (R157, 04 R83). -/
def execGget (o : Op) (s : State) : Host.Outcome State Fault Refusal :=
  word (.gget o) o s (fun s =>
    let c := s.ctx (s.gangPeer o) s.curCtx
    let free := c.st == .free
    if gangFileV o then later s (.v o.rd) (.v (if free then 0 else c.rv o.ra)) 0
    else later s (.g o.rd) (.g (if free then GReg.null else (c.rg o.ra).reach)) 0)

/-- Room for a result that holds no register entry (07 R143). -/
def withQuota (s : State) (v : Bool) (e : Eff) : Eff :=
  if (if v then s.cx.pendingV < 4 else s.cx.pendingG < 8) then e else .hold s

/-- GPUT: the register is written at issue, in one step; a FREE member drops it (R157, 04 R83). -/
def execGput (o : Op) (s : State) : Host.Outcome State Fault Refusal :=
  word (.gput o) o s (fun s =>
    let m := s.gangPeer o
    let vf := gangFileV o
    let put := if vf then s.setReg m s.curCtx (.v o.rd) (.v (s.v o.ra))
      else s.setReg m s.curCtx (.g o.rd) (.g (s.g o.ra).reach)
    withQuota s vf (.next ((if (s.ctx m s.curCtx).st = .free then s else put).startOut .none (.gput vf) 0 [])))

/-- A collective: the member brings what it contributes to its next round, and rounds complete with their last member
(07 R158). A member may bring further collectives before its earlier rounds complete, within the limits of 04 R81. -/
def collective (op : GangOp) (o : Op) (s : State) : Eff :=
  let dest : Dest := if op = .sync then .none else .v o.rd
  let g : Gang := { op := op, et := BitVec.ofNat 3 o.et, z := o.z, pred := s.p o.pr, src := s.v o.ra, old := s.v o.rd,
                    dst := o.rd, out := s.nextId }
  let go := .next (((s.startOut dest .gang 0 []).modCx (fun c => { c with gang := c.gang ++ [g] })).gangRound
    s.curCore s.curCtx)
  if op = .sync then withQuota s true go else withRoom s dest go

/-- GSUM (R158). -/
def execGsum (o : Op) (s : State) : Host.Outcome State Fault Refusal := word (.gsum o) o s (collective .sum o)

/-- GMAX (R158). -/
def execGmax (o : Op) (s : State) : Host.Outcome State Fault Refusal := word (.gmax o) o s (collective .max o)

/-- GBCAST (R158). -/
def execGbcast (o : Op) (s : State) : Host.Outcome State Fault Refusal :=
  word (.gbcast o) o s (collective (.bcast (o.k1 % 4)) o)

/-- GSYNC (R158). -/
def execGsync (s : State) : Host.Outcome State Fault Refusal := word .gsync s.opr s (collective .sync s.opr)

end Sys2Proof.Machine
end

