-- ==== Sys2Proof/Machine/Dispatch.lean ====
section
/-! DEFINITION. The dispatch: one arm per constructor, each one call of the instruction's meaning. -/

namespace Sys2Proof.Machine

def exec (i : Instr) (s : State) : Host.Outcome State Fault Refusal :=
  match i with
  | .add o => Sys2Proof.Machine.execAdd o s
  | .sub o => Sys2Proof.Machine.execSub o s
  | .and o => Sys2Proof.Machine.execAnd o s
  | .or o => Sys2Proof.Machine.execOr o s
  | .xor o => Sys2Proof.Machine.execXor o s
  | .andn o => Sys2Proof.Machine.execAndn o s
  | .shl o => Sys2Proof.Machine.execShl o s
  | .shr o => Sys2Proof.Machine.execShr o s
  | .sar o => Sys2Proof.Machine.execSar o s
  | .rol o => Sys2Proof.Machine.execRol o s
  | .slt o => Sys2Proof.Machine.execSlt o s
  | .sltu o => Sys2Proof.Machine.execSltu o s
  | .seq o => Sys2Proof.Machine.execSeq o s
  | .sne o => Sys2Proof.Machine.execSne o s
  | .mul o => Sys2Proof.Machine.execMul o s
  | .mulh o => Sys2Proof.Machine.execMulh o s
  | .mov o => Sys2Proof.Machine.execMov o s
  | .neg o => Sys2Proof.Machine.execNeg o s
  | .ldi o => Sys2Proof.Machine.execLdi o s
  | .addi o => Sys2Proof.Machine.execAddi o s
  | .bz o => Sys2Proof.Machine.execBz o s
  | .bnz o => Sys2Proof.Machine.execBnz o s
  | .br o => Sys2Proof.Machine.execBr o s
  | .call o => Sys2Proof.Machine.execCall o s
  | .jmp o => Sys2Proof.Machine.execJmp o s
  | .calli o => Sys2Proof.Machine.execCalli o s
  | .ld o => Sys2Proof.Machine.execLd o s
  | .st o => Sys2Proof.Machine.execSt o s
  | .ldc o => Sys2Proof.Machine.execLdc o s
  | .stc o => Sys2Proof.Machine.execStc o s
  | .slti o => Sys2Proof.Machine.execSlti o s
  | .andi o => Sys2Proof.Machine.execAndi o s
  | .ldhi o => Sys2Proof.Machine.execLdhi o s
  | .cset o => Sys2Proof.Machine.execCset o s
  | .cinc o => Sys2Proof.Machine.execCinc o s
  | .cbnd o => Sys2Proof.Machine.execCbnd o s
  | .cperm o => Sys2Proof.Machine.execCperm o s
  | .cget o => Sys2Proof.Machine.execCget o s
  | .ctag o => Sys2Proof.Machine.execCtag o s
  | .mfc o => Sys2Proof.Machine.execMfc o s
  | .mtc o => Sys2Proof.Machine.execMtc o s
  | .svc o => Sys2Proof.Machine.execSvc o s
  | .div o => Sys2Proof.Machine.execDiv o s
  | .divu o => Sys2Proof.Machine.execDivu o s
  | .rem o => Sys2Proof.Machine.execRem o s
  | .remu o => Sys2Proof.Machine.execRemu o s
  | .min o => Sys2Proof.Machine.execMin o s
  | .max o => Sys2Proof.Machine.execMax o s
  | .minu o => Sys2Proof.Machine.execMinu o s
  | .maxu o => Sys2Proof.Machine.execMaxu o s
  | .clz o => Sys2Proof.Machine.execClz o s
  | .ctz o => Sys2Proof.Machine.execCtz o s
  | .popc o => Sys2Proof.Machine.execPopc o s
  | .rev o => Sys2Proof.Machine.execRev o s
  | .sx o => Sys2Proof.Machine.execSx o s
  | .zx o => Sys2Proof.Machine.execZx o s
  | .bfx o => Sys2Proof.Machine.execBfx o s
  | .bfi o => Sys2Proof.Machine.execBfi o s
  | .csel o => Sys2Proof.Machine.execCsel o s
  | .cselz o => Sys2Proof.Machine.execCselz o s
  | .ldFe o => Sys2Proof.Machine.execLdFe o s
  | .ldFec o => Sys2Proof.Machine.execLdFec o s
  | .stFs o => Sys2Proof.Machine.execStFs o s
  | .stFw o => Sys2Proof.Machine.execStFw o s
  | .stN4 o => Sys2Proof.Machine.execStN4 o s
  | .ldf o => Sys2Proof.Machine.execLdf o s
  | .fadd o => Sys2Proof.Machine.execFadd o s
  | .fsub o => Sys2Proof.Machine.execFsub o s
  | .fmul o => Sys2Proof.Machine.execFmul o s
  | .fdiv o => Sys2Proof.Machine.execFdiv o s
  | .fmin o => Sys2Proof.Machine.execFmin o s
  | .fmax o => Sys2Proof.Machine.execFmax o s
  | .fminp o => Sys2Proof.Machine.execFminp o s
  | .fmaxp o => Sys2Proof.Machine.execFmaxp o s
  | .fsqrt o => Sys2Proof.Machine.execFsqrt o s
  | .fabs o => Sys2Proof.Machine.execFabs o s
  | .fma o => Sys2Proof.Machine.execFma o s
  | .fnma o => Sys2Proof.Machine.execFnma o s
  | .flt o => Sys2Proof.Machine.execFlt o s
  | .fle o => Sys2Proof.Machine.execFle o s
  | .feq o => Sys2Proof.Machine.execFeq o s
  | .funOrd o => Sys2Proof.Machine.execFunOrd o s
  | .cvtif o => Sys2Proof.Machine.execCvtif o s
  | .cvtfi o => Sys2Proof.Machine.execCvtfi o s
  | .cvtff o => Sys2Proof.Machine.execCvtff o s
  | .fclass o => Sys2Proof.Machine.execFclass o s
  | .blz o => Sys2Proof.Machine.execBlz o s
  | .bgez o => Sys2Proof.Machine.execBgez o s
  | .vadd o => Sys2Proof.Machine.execVadd o s
  | .vsub o => Sys2Proof.Machine.execVsub o s
  | .vaddsat o => Sys2Proof.Machine.execVaddsat o s
  | .vsubsat o => Sys2Proof.Machine.execVsubsat o s
  | .vmul o => Sys2Proof.Machine.execVmul o s
  | .vmulh o => Sys2Proof.Machine.execVmulh o s
  | .vmin o => Sys2Proof.Machine.execVmin o s
  | .vmax o => Sys2Proof.Machine.execVmax o s
  | .vand o => Sys2Proof.Machine.execVand o s
  | .vor o => Sys2Proof.Machine.execVor o s
  | .vxor o => Sys2Proof.Machine.execVxor o s
  | .vandn o => Sys2Proof.Machine.execVandn o s
  | .vshl o => Sys2Proof.Machine.execVshl o s
  | .vshr o => Sys2Proof.Machine.execVshr o s
  | .vabs o => Sys2Proof.Machine.execVabs o s
  | .vneg o => Sys2Proof.Machine.execVneg o s
  | .vceq o => Sys2Proof.Machine.execVceq o s
  | .vcne o => Sys2Proof.Machine.execVcne o s
  | .vclt o => Sys2Proof.Machine.execVclt o s
  | .vcle o => Sys2Proof.Machine.execVcle o s
  | .vsel o => Sys2Proof.Machine.execVsel o s
  | .vmov o => Sys2Proof.Machine.execVmov o s
  | .vbcast o => Sys2Proof.Machine.execVbcast o s
  | .vidx o => Sys2Proof.Machine.execVidx o s
  | .vmac o => Sys2Proof.Machine.execVmac o s
  | .vdot4 o => Sys2Proof.Machine.execVdot4 o s
  | .vpopc o => Sys2Proof.Machine.execVpopc o s
  | .vclz o => Sys2Proof.Machine.execVclz o s
  | .pand o => Sys2Proof.Machine.execPand o s
  | .por o => Sys2Proof.Machine.execPor o s
  | .pxor o => Sys2Proof.Machine.execPxor o s
  | .pnot o => Sys2Proof.Machine.execPnot o s
  | .pcnt o => Sys2Proof.Machine.execPcnt o s
  | .pfirst o => Sys2Proof.Machine.execPfirst o s
  | .vext o => Sys2Proof.Machine.execVext o s
  | .vins o => Sys2Proof.Machine.execVins o s
  | .vrsum o => Sys2Proof.Machine.execVrsum o s
  | .vrmax o => Sys2Proof.Machine.execVrmax o s
  | .vrmin o => Sys2Proof.Machine.execVrmin o s
  | .vrand o => Sys2Proof.Machine.execVrand o s
  | .vcvtw o => Sys2Proof.Machine.execVcvtw o s
  | .vcvtn o => Sys2Proof.Machine.execVcvtn o s
  | .vfadd o => Sys2Proof.Machine.execVfadd o s
  | .vfsub o => Sys2Proof.Machine.execVfsub o s
  | .vfmul o => Sys2Proof.Machine.execVfmul o s
  | .vfdiv o => Sys2Proof.Machine.execVfdiv o s
  | .vfma o => Sys2Proof.Machine.execVfma o s
  | .vfnma o => Sys2Proof.Machine.execVfnma o s
  | .vfmin o => Sys2Proof.Machine.execVfmin o s
  | .vfmax o => Sys2Proof.Machine.execVfmax o s
  | .vfminp o => Sys2Proof.Machine.execVfminp o s
  | .vfmaxp o => Sys2Proof.Machine.execVfmaxp o s
  | .vfsqrt o => Sys2Proof.Machine.execVfsqrt o s
  | .vfrsqrt o => Sys2Proof.Machine.execVfrsqrt o s
  | .vfexp2 o => Sys2Proof.Machine.execVfexp2 o s
  | .vflog2 o => Sys2Proof.Machine.execVflog2 o s
  | .vfrecip o => Sys2Proof.Machine.execVfrecip o s
  | .vftanh o => Sys2Proof.Machine.execVftanh o s
  | .vfclass o => Sys2Proof.Machine.execVfclass o s
  | .vfabs o => Sys2Proof.Machine.execVfabs o s
  | .vfneg o => Sys2Proof.Machine.execVfneg o s
  | .vscale o => Sys2Proof.Machine.execVscale o s
  | .vfsig o => Sys2Proof.Machine.execVfsig o s
  | .vfgelu o => Sys2Proof.Machine.execVfgelu o s
  | .vfceq o => Sys2Proof.Machine.execVfceq o s
  | .vfclt o => Sys2Proof.Machine.execVfclt o s
  | .vfcle o => Sys2Proof.Machine.execVfcle o s
  | .vfcun o => Sys2Proof.Machine.execVfcun o s
  | .vcvt o => Sys2Proof.Machine.execVcvt o s
  | .vcvti o => Sys2Proof.Machine.execVcvti o s
  | .vcvtf o => Sys2Proof.Machine.execVcvtf o s
  | .vquant o => Sys2Proof.Machine.execVquant o s
  | .vdequant o => Sys2Proof.Machine.execVdequant o s
  | .vfrsum o => Sys2Proof.Machine.execVfrsum o s
  | .vfrmax o => Sys2Proof.Machine.execVfrmax o s
  | .vfrnd o => Sys2Proof.Machine.execVfrnd o s
  | .vld o => Sys2Proof.Machine.execVld o s
  | .vst o => Sys2Proof.Machine.execVst o s
  | .vlds o => Sys2Proof.Machine.execVlds o s
  | .vsts o => Sys2Proof.Machine.execVsts o s
  | .vldx o => Sys2Proof.Machine.execVldx o s
  | .vstx o => Sys2Proof.Machine.execVstx o s
  | .vldFe o => Sys2Proof.Machine.execVldFe o s
  | .vstFs o => Sys2Proof.Machine.execVstFs o s
  | .vldp o => Sys2Proof.Machine.execVldp o s
  | .vstp o => Sys2Proof.Machine.execVstp o s
  | .vperm o => Sys2Proof.Machine.execVperm o s
  | .vperm2 o => Sys2Proof.Machine.execVperm2 o s
  | .vsld o => Sys2Proof.Machine.execVsld o s
  | .vsrd o => Sys2Proof.Machine.execVsrd o s
  | .vzip o => Sys2Proof.Machine.execVzip o s
  | .vunzip o => Sys2Proof.Machine.execVunzip o s
  | .vcomp o => Sys2Proof.Machine.execVcomp o s
  | .vexp o => Sys2Proof.Machine.execVexp o s
  | .gget o => Sys2Proof.Machine.execGget o s
  | .gput o => Sys2Proof.Machine.execGput o s
  | .gsum o => Sys2Proof.Machine.execGsum o s
  | .gmax o => Sys2Proof.Machine.execGmax o s
  | .gbcast o => Sys2Proof.Machine.execGbcast o s
  | .vlut o => Sys2Proof.Machine.execVlut o s
  | .vlutb o => Sys2Proof.Machine.execVlutb o s
  | .hire o => Sys2Proof.Machine.execHire o s
  | .hireR o => Sys2Proof.Machine.execHireR o s
  | .hwait o => Sys2Proof.Machine.execHwait o s
  | .hpoll o => Sys2Proof.Machine.execHpoll o s
  | .copy o => Sys2Proof.Machine.execCopy o s
  | .cwait o => Sys2Proof.Machine.execCwait o s
  | .cpoll o => Sys2Proof.Machine.execCpoll o s
  | .swait o => Sys2Proof.Machine.execSwait o s
  | .spoll o => Sys2Proof.Machine.execSpoll o s
  | .efence o => Sys2Proof.Machine.execEfence o s
  | .ecnt o => Sys2Proof.Machine.execEcnt o s
  | .cancel o => Sys2Proof.Machine.execCancel o s
  | .hstat o => Sys2Proof.Machine.execHstat o s
  | .copyR o => Sys2Proof.Machine.execCopyR o s
  | .satt o => Sys2Proof.Machine.execSatt o s
  | .sblk o => Sys2Proof.Machine.execSblk o s
  | .tapsel o => Sys2Proof.Machine.execTapsel o s
  | .amoadd o => Sys2Proof.Machine.execAmoadd o s
  | .amoswp o => Sys2Proof.Machine.execAmoswp o s
  | .amoand o => Sys2Proof.Machine.execAmoand o s
  | .amoor o => Sys2Proof.Machine.execAmoor o s
  | .amomin o => Sys2Proof.Machine.execAmomin o s
  | .amomax o => Sys2Proof.Machine.execAmomax o s
  | .cas o => Sys2Proof.Machine.execCas o s
  | .casp o => Sys2Proof.Machine.execCasp o s
  | .send o => Sys2Proof.Machine.execSend o s
  | .recv o => Sys2Proof.Machine.execRecv o s
  | .recvp o => Sys2Proof.Machine.execRecvp o s
  | .callat o => Sys2Proof.Machine.execCallat o s
  | .retto o => Sys2Proof.Machine.execRetto o s
  | .dqpush o => Sys2Proof.Machine.execDqpush o s
  | .dqpop o => Sys2Proof.Machine.execDqpop o s
  | .dqsteal o => Sys2Proof.Machine.execDqsteal o s
  | .dqlen o => Sys2Proof.Machine.execDqlen o s
  | .start o => Sys2Proof.Machine.execStart o s
  | .join o => Sys2Proof.Machine.execJoin o s
  | .bar o => Sys2Proof.Machine.execBar o s
  | .barq o => Sys2Proof.Machine.execBarq o s
  | .waitb o => Sys2Proof.Machine.execWaitb o s
  | .setb o => Sys2Proof.Machine.execSetb o s
  | .lcnt o => Sys2Proof.Machine.execLcnt o s
  | .lcancel o => Sys2Proof.Machine.execLcancel o s
  | .mfcs o => Sys2Proof.Machine.execMfcs o s
  | .mtcs o => Sys2Proof.Machine.execMtcs o s
  | .tlbi o => Sys2Proof.Machine.execTlbi o s
  | .bankcfg o => Sys2Proof.Machine.execBankcfg o s
  | .bankq o => Sys2Proof.Machine.execBankq o s
  | .probew o => Sys2Proof.Machine.execProbew o s
  | .prober o => Sys2Proof.Machine.execProber o s
  | .pjr o => Sys2Proof.Machine.execPjr o s
  | .pjclr o => Sys2Proof.Machine.execPjclr o s
  | .cseal o => Sys2Proof.Machine.execCseal o s
  | .cunseal o => Sys2Proof.Machine.execCunseal o s
  | .lease o => Sys2Proof.Machine.execLease o s
  | .leaseq o => Sys2Proof.Machine.execLeaseq o s
  | .nop => Sys2Proof.Machine.execNop s
  | .doneUnit => Sys2Proof.Machine.execDoneUnit s
  | .brk => Sys2Proof.Machine.execBrk s
  | .ret => Sys2Proof.Machine.execRet s
  | .sched => Sys2Proof.Machine.execSched s
  | .yield => Sys2Proof.Machine.execYield s
  | .gsync => Sys2Proof.Machine.execGsync s
  | .sattHandle => Sys2Proof.Machine.execSattHandle s
  | .tapst => Sys2Proof.Machine.execTapst s
  | .fence => Sys2Proof.Machine.execFence s
  | .sendr => Sys2Proof.Machine.execSendr s
  | .eret => Sys2Proof.Machine.execEret s
  | .wfi => Sys2Proof.Machine.execWfi s
  | .rcflush => Sys2Proof.Machine.execRcflush s
  | .l1inv => Sys2Proof.Machine.execL1inv s
  | .l1wb => Sys2Proof.Machine.execL1wb s
  | .tlbia => Sys2Proof.Machine.execTlbia s
  | .pendingResultArrival core ctx idx => Sys2Proof.Machine.execPendingResultArrival core ctx idx s
  | .refusalResponse pid => Sys2Proof.Machine.execRefusalResponse pid s
  | .remoteAccessAtHome pid => Sys2Proof.Machine.execRemoteAccessAtHome pid s
  | .postedStoreAck pid => Sys2Proof.Machine.execPostedStoreAck pid s
  | .postedStoreRefused pid => Sys2Proof.Machine.execPostedStoreRefused pid s
  | .gatherLineTimeout core idx => Sys2Proof.Machine.execGatherLineTimeout core idx s
  | .fullEmptyRetry pid => Sys2Proof.Machine.execFullEmptyRetry pid s
  | .pageScan core ctx => Sys2Proof.Machine.execPageScan core ctx s
  | .messageArrival pid => Sys2Proof.Machine.execMessageArrival pid s
  | .messageNack pid => Sys2Proof.Machine.execMessageNack pid s
  | .messageRetry pid => Sys2Proof.Machine.execMessageRetry pid s
  | .dequeRecordArrival pid => Sys2Proof.Machine.execDequeRecordArrival pid s
  | .stealExchange core => Sys2Proof.Machine.execStealExchange core s
  | .stealRequest core ctx idx => Sys2Proof.Machine.execStealRequest core ctx idx s
  | .replyArrival pid => Sys2Proof.Machine.execReplyArrival pid s
  | .partitionBarrierForward grp arrivals n max fin => Sys2Proof.Machine.execPartitionBarrierForward grp arrivals n max fin s
  | .quietReport vif pen => Sys2Proof.Machine.execQuietReport vif pen s
  | .budg core ctx => Sys2Proof.Machine.execBudg core ctx s
  | .sharingTurnEnd grp => Sys2Proof.Machine.execSharingTurnEnd grp s
  | .sharingTurnSwitch grp => Sys2Proof.Machine.execSharingTurnSwitch grp s
  | .trapEntry core => Sys2Proof.Machine.execTrapEntry core s
  | .ucna loc => Sys2Proof.Machine.execUcna loc s
  | .engineReset kind n testOk => Sys2Proof.Machine.execEngineReset kind n testOk s
  | .purgeComplete core ctx idx => Sys2Proof.Machine.execPurgeComplete core ctx idx s
  | .injectorAct target granule => Sys2Proof.Machine.execInjectorAct target granule s
  | .freezeRequest => Sys2Proof.Machine.execFreezeRequest s
  | .debuggerRead core ctx item => Sys2Proof.Machine.execDebuggerRead core ctx item s
  | .debuggerWrite core ctx item val tag => Sys2Proof.Machine.execDebuggerWrite core ctx item val tag s
  | .debuggerMemoryRead loc => Sys2Proof.Machine.execDebuggerMemoryRead loc s
  | .registerEntryDrowsy core ctx item => Sys2Proof.Machine.execRegisterEntryDrowsy core ctx item s
  | .ctxbaseWrite core val => Sys2Proof.Machine.execCtxbaseWrite core val s
  | .copyAccept eng => Sys2Proof.Machine.execCopyAccept eng s
  | .copyElement eng cmd => Sys2Proof.Machine.execCopyElement eng cmd s
  | .copyComplete eng cmd => Sys2Proof.Machine.execCopyComplete eng cmd s
  | .collectiveRoundComplete vif grp remote => Sys2Proof.Machine.execCollectiveRoundComplete vif grp remote s
  | .engineCancelArrival pid => Sys2Proof.Machine.execEngineCancelArrival pid s
  | .hireAccept bench cmd => Sys2Proof.Machine.execHireAccept bench cmd s
  | .slabBoundary bench => Sys2Proof.Machine.execSlabBoundary bench s
  | .slabDone bench mismatch => Sys2Proof.Machine.execSlabDone bench mismatch s
  | .hireLanding bench => Sys2Proof.Machine.execHireLanding bench s
  | .hireResumeArrival pid => Sys2Proof.Machine.execHireResumeArrival pid s
  | .arbcfg bench val => Sys2Proof.Machine.execArbcfg bench val s
  | .stackCommandAccept stack => Sys2Proof.Machine.execStackCommandAccept stack s
  | .stackCommandStart stack => Sys2Proof.Machine.execStackCommandStart stack s
  | .stackCommandComplete stack => Sys2Proof.Machine.execStackCommandComplete stack s
  | .sblkWrite stack => Sys2Proof.Machine.execSblkWrite stack s
  | .activationAlert row sequencer => Sys2Proof.Machine.execActivationAlert row sequencer s
  | .streamNop vif => Sys2Proof.Machine.execStreamNop vif s
  | .indirect vif => Sys2Proof.Machine.execIndirect vif s
  | .returnBuf vif => Sys2Proof.Machine.execReturnBuf vif s
  | .launch vif => Sys2Proof.Machine.execLaunch vif s
  | .graphUpload vif => Sys2Proof.Machine.execGraphUpload vif s
  | .graphTrigger vif => Sys2Proof.Machine.execGraphTrigger vif s
  | .waitLevel vif => Sys2Proof.Machine.execWaitLevel vif s
  | .signal vif => Sys2Proof.Machine.execSignal vif s
  | .streamCancel vif => Sys2Proof.Machine.execStreamCancel vif s
  | .penDefine vif => Sys2Proof.Machine.execPenDefine vif s
  | .penReset vif => Sys2Proof.Machine.execPenReset vif s
  | .mapClusters vif => Sys2Proof.Machine.execMapClusters vif s
  | .specEntryDrop die idx => Sys2Proof.Machine.execSpecEntryDrop die idx s
  | .trigger vif val => Sys2Proof.Machine.execTrigger vif val s
  | .triggerRun vif gid => Sys2Proof.Machine.execTriggerRun vif gid s
  | .rstatWrite vif val => Sys2Proof.Machine.execRstatWrite vif val s
  | .rheadWrite vif val => Sys2Proof.Machine.execRheadWrite vif val s
  | .rtailWrite vif val => Sys2Proof.Machine.execRtailWrite vif val s
  | .eqdropWrite vif val => Sys2Proof.Machine.execEqdropWrite vif val s
  | .lvlWrite vif n val => Sys2Proof.Machine.execLvlWrite vif n val s
  | .pctrlWrite vif val => Sys2Proof.Machine.execPctrlWrite vif val s
  | .levelComplete vif slot => Sys2Proof.Machine.execLevelComplete vif slot s
  | .packageReset failStage => Sys2Proof.Machine.execPackageReset failStage s
  | .bootgo die val => Sys2Proof.Machine.execBootgo die val s
  | .lock val => Sys2Proof.Machine.execLock val s
  | .freeze val => Sys2Proof.Machine.execFreeze val s
  | .errdropWrite die val => Sys2Proof.Machine.execErrdropWrite die val s
  | .injctl die val => Sys2Proof.Machine.execInjctl die val s
  | .pctlReset port => Sys2Proof.Machine.execPctlReset port s
  | .pctlEnable port en => Sys2Proof.Machine.execPctlEnable port en s
  | .groupWrite grp val => Sys2Proof.Machine.execGroupWrite grp val s
  | .deviceRegisterWrite addr val => Sys2Proof.Machine.execDeviceRegisterWrite addr val s
  | .i3cRead addr => Sys2Proof.Machine.execI3cRead addr s
  | .i3cWrite addr val => Sys2Proof.Machine.execI3cWrite addr val s
  | .attestationRequest nonce => Sys2Proof.Machine.execAttestationRequest nonce s
  | .pcieDmaWrite port addr pa data => Sys2Proof.Machine.execPcieDmaWrite port addr pa data s
  | .pcieDmaRead port addr pa size => Sys2Proof.Machine.execPcieDmaRead port addr pa size s
  | .msi port data => Sys2Proof.Machine.execMsi port data s
  | .kslFlitReceive port flit => Sys2Proof.Machine.execKslFlitReceive port flit s
  | .kslNackReceive port seq => Sys2Proof.Machine.execKslNackReceive port seq s
  | .kslPartnerLost port => Sys2Proof.Machine.execKslPartnerLost port s
  | .powerThrottle watts => Sys2Proof.Machine.execPowerThrottle watts s
  | .thermalStop die => Sys2Proof.Machine.execThermalStop die s
  | .hubStackAccess addr wr data size frozen => Sys2Proof.Machine.execHubStackAccess addr wr data size frozen s
  | .dieFailure die => Sys2Proof.Machine.execDieFailure die s
  | .routeFault core => Sys2Proof.Machine.execRouteFault core s
  | .portTrainingComplete port lanes => Sys2Proof.Machine.execPortTrainingComplete port lanes s
  | .yieldExpiry core ctx => Sys2Proof.Machine.execYieldExpiry core ctx s
  | .debuggerSingleStep core ctx => Sys2Proof.Machine.execDebuggerSingleStep core ctx s

end Sys2Proof.Machine
end

