-- ==== Sys2Proof/Machine/Drive.lean ====
section
/-! DEFINITION. What the machine does when nothing on its agenda says which part moves next: the cores issue in turn, and
what is due is done (09 R183; the order between parts is the model's own, log 2). -/

namespace Sys2Proof.Machine

/-- Two steps one after the other. -/
def andThen (r : Host.Outcome State Fault Refusal) (f : State → Host.Outcome State Fault Refusal) :
    Host.Outcome State Fault Refusal :=
  match r with
  | .next s => f s
  | .fault e => .fault e
  | .refused e => .refused e

/-- A context of a core issues one instruction. -/
def issueOne (s : State) (core x : Nat) : Host.Outcome State Fault Refusal :=
  match s.beginIssue core x with
  | .over s' => .next s'
  | .exec i s' => exec i s'

/-- A context that is held counts as having issued for those that have yielded to it (06 R137). -/
def State.heldNow (s : State) (core x : Nat) : State :=
  { s.modCore core (fun k => { k with
      ctxs := k.ctxs.map (fun p => (p.1, { p.2 with yielding := p.2.yielding.filter (fun y => y != x) })) }) with stalled := false }

/-- Tries the contexts of a core in order until one of them issues (09 R183). -/
def tryIssue (core : Nat) : List Nat → State → Host.Outcome State Fault Refusal
  | [], s => .next s
  | x :: xs, s =>
    match issueOne s core x with
    | .next s' => if s'.stalled then tryIssue core xs (s'.heldNow core x) else .next s'
    | r => r

/-- A core issues at most one instruction (09 R183). -/
def issueCore (s : State) (core : Nat) : Host.Outcome State Fault Refusal := tryIssue core (s.core core).tryOrder s

/-- Whether an issue has committed an instruction: it counts in CYC, or has ended its helper. -/
def committed (s s' : State) (core x : Nat) : Bool :=
  (s'.ctx core x).cr.cyc != (s.ctx core x).cr.cyc || (x != 0 && (s'.ctx core x).st == .free)

/-- An instruction that the checker found wrong once has committed when it was executed again: the error is recorded, and
CHK is raised in the control context, which leaves a helper as it is (11 R222, R227, R230, Table 117). `s` is the machine
before the instruction and `s'` after it. -/
def State.checkerRetry (s s' : State) (core x : Nat) : State :=
  let pc := (s.ctx core x).pcc.word
  let next := (s'.ctx core x).pcc.word
  let s1 := s'.coreError core 3 tCHK x 0 pc
  let t : Trap := ⟨tCHK, x, true, next, s1.wordsAt core x next, pc, 1⟩
  if x = 0 then s1.raiseAsync core 0 tCHK pc 1 else s1.modCore core (fun k => { k with pending := k.pending ++ [t] })

/-- An issue whose instruction the checker finds wrong: executed once more it agrees, or `again` does not, so that nothing of
it commits and the pen is reset under class CHK (11 R227). An issue that commits nothing has nothing to check. -/
def mismatchIssue (core : Nat) (again : Bool) : List Nat → State → Host.Outcome State Fault Refusal
  | [], s => .next s
  | x :: xs, s =>
    match s.beginIssue core x with
    | .over s' => if s'.stalled then mismatchIssue core again xs (s'.heldNow core x) else .next s'
    | .exec i s1 =>
      match exec i s1 with
      | .next s' =>
        if s'.stalled then mismatchIssue core again xs (s'.heldNow core x)
        else if !committed s1 s' core x then .next s'
        else if again then .next (s1.hardReset core 3 0 x 0 (s1.ctx core x).pcc.word false)
        else .next (s1.checkerRetry s' core x)
      | r => r

/-- The core whose turn it is, among those that are not as package reset leaves them. -/
def State.turnCore (s : State) (t : Nat) : Nat :=
  match s.cores[t % s.cores.length]? with
  | some p => p.1
  | none => 0

/-- What is due at a core: results, steals, PURGEs, registers to be written back, held lines and a trap that the control context waits to take. -/
def State.dueAtCore (s : State) (c : Nat) : Host.Outcome State Fault Refusal :=
  let each := fun (f : State → Nat → Outst → State) (s : State) =>
    (s.core c).ctxs.foldl (fun s x => x.2.outs.foldl (fun s o => f s x.1 o) s) s
  let s1 := each (fun s x o => s.stealOut c x o) s
  let s2 := each (fun s x o => s.purgeOut c x o) s1
  let s3 := each (fun s x o => s.arriveOut c x o) s2
  andThen (execGatherLineTimeout c 0 (s3.settleFlush c)) (execTrapEntry c)

/-- A packet's next step. -/
def stepPkt (s : State) (p : Pkt) : Host.Outcome State Fault Refusal :=
  match p.body with
  | .request _ true => execFullEmptyRetry p.id s
  | .request _ false => execRemoteAccessAtHome p.id s
  | .posted _ _ _ => execRemoteAccessAtHome p.id s
  | .refusal _ _ _ _ _ _ => execRefusalResponse p.id s
  | .postedAck _ _ => execPostedStoreAck p.id s
  | .postedRefused _ _ _ => execPostedStoreRefused p.id s
  | .msg _ _ _ _ _ _ 0 _ _ => execMessageArrival p.id s
  | .msg _ _ _ _ _ _ 1 _ _ => execMessageNack p.id s
  | .msg _ _ _ _ _ _ _ _ _ => execMessageRetry p.id s
  | .record _ _ _ _ _ _ _ _ 0 _ => execDequeRecordArrival p.id s
  | .record _ _ _ _ _ _ _ _ 1 _ => execMessageNack p.id s
  | .record _ _ _ _ _ _ _ _ _ _ => execMessageRetry p.id s
  | .reply _ _ _ _ _ _ => execReplyArrival p.id s
  | .cancel _ _ _ _ _ _ => execEngineCancelArrival p.id s
  | .resume _ _ _ _ _ => execHireResumeArrival p.id s

/-- The packet whose turn it is moves. -/
def State.dueInNet (s : State) (t : Nat) : Host.Outcome State Fault Refusal :=
  match s.net[t % s.net.length]? with
  | some p => stepPkt s p
  | none => .next s

/-- The die on which an event of an engine or a ringmaster takes place (01 R11, R12, 20 R309). -/
def Instr.dieOf (s : State) : Instr → Option Nat
  | .hireAccept b _ | .slabBoundary b | .slabDone b _ | .hireLanding b => some (b / 144)
  | .copyAccept e | .copyElement e _ | .copyComplete e _ => some (e / 12)
  | .collectiveRoundComplete _ g _ => (s.collective g).map (fun x => x.1 / 12)
  | .stackCommandAccept k | .stackCommandStart k | .stackCommandComplete k | .sblkWrite k => some (k / 4)
  | .streamNop v | .indirect v | .returnBuf v | .launch v | .graphUpload v | .graphTrigger v | .waitLevel v | .signal v
  | .streamCancel v | .penDefine v | .penReset v | .mapClusters v | .triggerRun v _ | .levelComplete v _ | .quietReport v _ =>
    some (s.vif v).home
  | .sharingTurnEnd g | .sharingTurnSwitch g => (s.holderOf g).map (fun v => (s.vif v).home)
  | _ => none

/-- Whether a die has stopped (24 R376). -/
def State.stopped (s : State) (d : Nat) : Bool := (s.die d).failed

/-- Whether an event would take place on a die that has stopped. -/
def State.onStoppedDie (s : State) (i : Instr) : Bool := ((Instr.dieOf s i).map s.stopped).getD false

/-- What is due at a bench, a copy engine and a stack engine, but on a die that has stopped (24 R376). -/
def State.dueAtEngines (s : State) (t : Nat) : Host.Outcome State Fault Refusal :=
  let bench := match s.benches[t % s.benches.length]? with
    | none => Host.Outcome.next s
    | some b =>
      if s.stopped (b.1 / 144) then .next s else
      let cmd := match b.2.hires.find? (fun h => h.stage == .inbox) with
        | some h => h.id
        | none => 0
      andThen (andThen (andThen (execHireAccept b.1 cmd s) (execSlabBoundary b.1)) (execSlabDone b.1 false)) (execHireLanding b.1)
  let copy := fun (s : State) => match s.copies[t % s.copies.length]? with
    | none => Host.Outcome.next s
    | some e =>
      if s.stopped (e.1 / 12) then .next s else
      let cmd := match e.2 with
        | c :: _ => c.id
        | [] => 0
      andThen (andThen (execCopyAccept e.1 s) (execCopyElement e.1 cmd)) (execCopyComplete e.1 cmd)
  let stk := fun (s : State) => match s.stks[t % s.stks.length]? with
    | none => Host.Outcome.next s
    | some e =>
      if s.stopped (e.1 / 4) then .next s else
      andThen (andThen (andThen (execStackCommandAccept e.1 s) (execStackCommandStart e.1)) (execSblkWrite e.1))
        (execStackCommandComplete e.1)
  andThen (andThen bench copy) stk

/-- The next command of a stream. -/
def stepStream (v ty : Nat) (s : State) : Host.Outcome State Fault Refusal :=
  match ty with
  | 0x01 => execIndirect v s
  | 0x02 => execReturnBuf v s
  | 0x10 => execLaunch v s
  | 0x11 => execGraphUpload v s
  | 0x12 => execGraphTrigger v s
  | 0x20 => execWaitLevel v s
  | 0x21 => execSignal v s
  | 0x22 => execStreamCancel v s
  | 0x30 => execPenDefine v s
  | 0x31 => execPenReset v s
  | 0x32 => execMapClusters v s
  | _ => execStreamNop v s

/-- What is due at an interface: quiet reports, completions, triggers, and its stream; nothing when the die of its ringmaster has
stopped (24 R376). -/
def State.dueAtRing (s : State) (t : Nat) : Host.Outcome State Fault Refusal :=
  match s.vifs[t % s.vifs.length]? with
  | none => .next s
  | some (v, i) =>
    if s.stopped i.home then .next s else
    let s1 := (List.range i.pens.length).foldl (fun r p => andThen r (execQuietReport v p)) (Host.Outcome.next s)
    let s2 := i.levels.foldl (fun r l => andThen r (execLevelComplete v l.1)) s1
    let s3 := (List.range 16).foldl (fun r g => andThen r (execTriggerRun v g)) s2
    let s4 := andThen (andThen s3 (execSharingTurnEnd i.grp)) (execSharingTurnSwitch i.grp)
    andThen s4 (fun s => match s.nextCmd v with
      | .ok _ ty _ _ _ => stepStream v ty s
      | .error _ _ => execStreamNop v s
      | .idle => .next s)

/-- The machine's own next move, by a counter that rises; what waits to be written in memory is written with the rings' moves. -/
def State.drive (s0 : State) : Host.Outcome State Fault Refusal :=
  let t := s0.turn / 5
  let s := { s0 with turn := s0.turn + 1 }
  match s0.turn % 5 with
  | 0 => issueCore s (s.turnCore t)
  | 1 => s.dueAtCore (s.turnCore t)
  | 2 => s.dueInNet t
  | 3 => s.dueAtEngines t
  | _ => s.flushEvents.serveHub.grant.dueAtRing t

end Sys2Proof.Machine
end

