-- ==== Sys2Proof/Machine/Place.lean ====
section
/-! DEFINITION. How a single instruction is placed where the machine fetches next. -/

namespace Sys2Proof.Machine

/-- Puts a page-table entry into memory. -/
def State.putEntry (s : State) (a : Nat) (e : Word) : State := s.write a (toLE e.toNat 8)

/-- Where the tables and the page of a placed instruction lie in stack memory. -/
def placeRoot : Nat := 0x10000
def placePage : Nat := 0x20000

/-- A translation of the page of `va`, executable and ACCEPTED, through tables of its own (08 R171, R172). -/
def State.placeTables (s : State) (va : Nat) : State :=
  let (t2, t3, t4) := (placeRoot + 0x1000, placeRoot + 0x2000, placeRoot + 0x3000)
  let e4 := t4 + 8 * vaIndex va 4
  let leaf : Word := BitVec.ofNat 64 (placePage + 0x22B)
  let s := s.putEntry (placeRoot + 8 * vaIndex va 1) (BitVec.ofNat 64 (t2 + 1))
  let s := s.putEntry (t2 + 8 * vaIndex va 2) (BitVec.ofNat 64 (t3 + 1))
  let s := s.putEntry (t3 + 8 * vaIndex va 3) (BitVec.ofNat 64 (t4 + 1))
  let s := s.putEntry e4 leaf
  { s with accepted := Store.set 0 s.accepted e4 (leaf &&& leafMask) }

/-- The bytes of words as they are stored (00 R6). -/
def wordBytes (ws : List HWord) : List Byte := ws.flatMap (fun w => toLE w.toNat 2)

/-- The machine with words where the control context of core 0 fetches: the core is released, the page of its PC is
mapped for it, and the next step is its instruction. -/
def State.placeWords (s : State) (ws : List HWord) : State :=
  let pc := (s.ctx 0 0).pcc.addr
  let s := s.placeTables pc
  let s := s.write (placePage + pc % 65536) (wordBytes ws)
  let s := s.modDie 0 (fun d => { d with kroot := BitVec.ofNat 64 placeRoot, tlbs := d.tlbs.filter (fun t => t.1 != 0) })
  let s := s.modCore 0 (fun k => { k with held := false, utlb := [] })
  { s with freeze := false, single := some (0, 0) }

end Sys2Proof.Machine
end

