-- ==== Sys2Proof/Machine/Step.lean ====
section
/-! DEFINITION. One step of the machine: the instruction that a single-step request names, the next move of the agenda,
or the machine's own drive. -/

namespace Sys2Proof.Machine

/-- The events that happen while the package is frozen: its release, the management path and the debug port (11 R237). -/
def Instr.whileFrozen : Instr → Bool
  | .freeze _ | .i3cRead _ | .i3cWrite _ _ | .freezeRequest | .debuggerRead _ _ _ | .debuggerWrite _ _ _ _ _
  | .debuggerMemoryRead _ | .debuggerSingleStep _ _ | .packageReset _ => true
  | _ => false

/-- A move of the agenda. An instruction word is no event: a core issues it. Nothing takes place at the engines and the ringmaster
of a die that has stopped (24 R376). -/
def runMove (s : State) (m : Move) : Host.Outcome State Fault Refusal :=
  match m with
  | .issue core => if nCores ≤ core then .fault .noSuchPart else if s.freeze then .next s else issueCore s core
  | .mismatch core again =>
    if nCores ≤ core then .fault .noSuchPart
    else if s.freeze then .next s else mismatchIssue core again (s.core core).tryOrder s
  | .event i => if i.form?.isSome ∨ (s.freeze ∧ !Instr.whileFrozen i) ∨ s.onStoppedDie i then .next s else exec i s

/-- The injectors that a step has reached act at its end (11 R236). -/
def injected (r : Host.Outcome State Fault Refusal) : Host.Outcome State Fault Refusal :=
  match r with
  | .next s => .next s.injectDue
  | .fault e => .fault e
  | .refused e => .refused e

/-- The move of a step. -/
def move (s : State) : Host.Outcome State Fault Refusal :=
  match s.single with
  | some (core, x) => issueOne { s with single := none } core x
  | none =>
    match s.agenda with
    | m :: rest => runMove { s with agenda := rest } m
    | [] => if s.freeze then .next s else s.drive

/-- One step. -/
def step (s : State) : Host.Outcome State Fault Refusal := injected (move s)

/-- The machine with an instruction of the opcode table where step fetches next. -/
def State.withFetchWord (s : State) (nbits w : Nat) : State := s.placeWords (tableWords nbits w)

end Sys2Proof.Machine
end

