-- ==== Sys2Proof/Safety.lean ====
section
/-! DEFINITION. What a claim may ask of a state and of a run: the canonical form of the stores, what an instruction
leaves alone, and how an instruction completes. -/

namespace Sys2Proof.Machine

/-- Memory and its marks are in their canonical form. -/
def State.canonical (s : State) : Bool := Memory.wf s.mem && Store.wf 0 s.gran

/-! ## What an instruction leaves alone -/

/-- What a register of a context reads. -/
def Ctx.read (c : Ctx) : Dest → RVal
  | .g r => .g (c.rg r)
  | .v r => .v (c.rv r)
  | .p r => .p (c.rp r)
  | .none => .none

/-- What a register reads after a value was written to it: g0 stays null and p0 all ones (02 R44, 04 R73). -/
def Dest.holds (d : Dest) (v : RVal) : RVal :=
  match d with
  | .g r => if r = 0 then .g GReg.null else v
  | .p r => if r = 0 then .p (BitVec.allOnes 256) else v
  | _ => v

/-- The executing context, as state `t` has it. -/
def State.own (s t : State) : Ctx := t.ctx s.curCore s.curCtx

/-- Between `s` and `t` the executing context changed no more than its registers, its control registers, its PC, its
outstanding results and the orders between its operations, the other contexts of the core no more than what a `yield`
waits for, and the rest of the core no more than which context issued last and its register cache. Every other core is
as it was, and so is the rest of the machine except the number of the next operation. -/
structure State.KeepsRest (s t : State) : Prop where
  machine : { t with cores := s.cores, nextId := s.nextId } = s
  bytes : ∀ a, t.byte a = s.byte a
  otherCores : ∀ c, c ≠ s.curCore → t.core c = s.core c
  core : { t.core s.curCore with
    ctxs := s.ck.ctxs, lastIssuer := s.ck.lastIssuer, waiting := s.ck.waiting, entries := s.ck.entries } = s.ck
  otherCtxs : ∀ x, x ≠ s.curCtx →
    { t.ctx s.curCore x with yielding := (s.ctx s.curCore x).yielding } = s.ctx s.curCore x
  own : { s.own t with
    g := s.cx.g, v := s.cx.v, p := s.cx.p, pcc := s.cx.pcc, nullG := s.cx.nullG, nullV := s.cx.nullV, cr := s.cx.cr,
    outs := s.cx.outs, orders := s.cx.orders, parked := s.cx.parked, yielding := s.cx.yielding } = s.cx

/-- The frame of an instruction that writes only the registers `ds` of the executing context. -/
structure State.Keeps (s t : State) (ds : List Dest) : Prop extends State.KeepsRest s t where
  regs : ∀ d, d ∉ ds → (s.own t).read d = s.cx.read d

/-! ## How an instruction completes -/

/-- Nothing follows the instruction's retirement: no HFLT waits where it has M set, and BUDGET is not reached. -/
def State.calm (s : State) (o : Op) : Bool :=
  (!o.m || s.cx.hflts.isEmpty) && (s.curCtx == 0 || s.cx.cr.budget == 0 || s.cx.cr.cyc + 1 != s.cx.cr.budget)

/-- The control registers as a retirement leaves them, from what the instruction's own effect made of them: CYC counts
it, and in checked mode its fallback cases are in WARN (02 R46, R49, R50, 04 Table 44). -/
def State.retiredCr (s : State) (i : Instr) (o : Op) (r : CtxRegs) : CtxRegs :=
  let w := match i.form? with
    | some f => s.cx.warns f o
    | none => 0
  let r' := if s.cx.cr.cm then r else r.addWarn s.pc w
  { r' with cyc := r'.cyc + 1 }

/-- PCC of the next instruction in order (02 R40). -/
def State.nextPcc (s : State) (o : Op) : GReg := s.cx.pcc.withAddr (s.nextPc o)

/-- `i` retires at `s` with PCC `pcc` next, writes the registers `ws` and, from `cr`, the control registers, and nothing
else. -/
def State.CompletesAt (s : State) (i : Instr) (o : Op) (ws : List (Dest × RVal)) (cr : CtxRegs) (pcc : GReg) : Prop :=
  ∃ t, exec i s = .next t ∧ (∀ w ∈ ws, (s.own t).read w.1 = w.1.holds w.2) ∧ s.Keeps t (ws.map Prod.fst) ∧
    (s.own t).cr = s.retiredCr i o cr ∧ (s.own t).pcc = pcc

/-- `i` retires at `s`, writes the registers `ws` and nothing else but CYC, WARN and the PC. -/
def State.Completes (s : State) (i : Instr) (o : Op) (ws : List (Dest × RVal)) : Prop :=
  s.CompletesAt i o ws s.cx.cr (s.nextPcc o)

/-- `i` retires at `s`, writes a register, raises IEEE flags, and changes nothing else but CYC, WARN and the PC. -/
def State.CompletesF (s : State) (i : Instr) (o : Op) (d : Dest) (v : RVal) (fl : Flags) : Prop :=
  s.CompletesAt i o [(d, v)] (s.cx.cr.addFlags fl) (s.nextPcc o)

/-- `i` retires at `s` and leaves one outstanding result for `d`, with value `v` and flags `fl`, that brings them later;
no register changes yet (04 R82, 06 R118). -/
def State.Pends (s : State) (i : Instr) (o : Op) (d : Dest) (v : RVal) (fl : Flags) : Prop :=
  ∃ t, exec i s = .next t ∧ s.Keeps t [] ∧
    (s.own t).outs = s.cx.outs ++ [⟨s.nextId, d, false, true, .ready v fl, 0, [], s.pc⟩] ∧ t.nextId = s.nextId + 1 ∧
    (s.own t).cr = s.retiredCr i o s.cx.cr ∧ (s.own t).pcc = s.nextPcc o

/-- The trap that an instruction raises at its own PC. -/
def State.trapHere (s : State) (o : Op) (code : Nat) (addr info : Word) : Trap :=
  ⟨code, s.curCtx, false, s.pc, o.words, addr, info⟩

/-- `i` raises a trap at its own PC and does nothing else: it does not count in CYC, no register and no byte of memory
changes, and its context's PC stays (11 R222 to R224). A helper becomes STOPPED with the trap pending. The control
context, where no trap is being handled, enters EVEC with the trap registers written. -/
def State.Raises (s : State) (i : Instr) (o : Op) (code : Nat) (addr info : Word) : Prop :=
  ∃ t, exec i s = .next t ∧ (∀ d, (s.own t).read d = s.cx.read d) ∧ (s.own t).cr = s.cx.cr ∧
    (∀ a, t.byte a = s.byte a) ∧ (∀ c, c ≠ s.curCore → t.core c = s.core c) ∧
    if s.curCtx = 0 then
      (t.core s.curCore).cr = s.ck.cr.enter (s.trapHere o code addr info) (s.residualPc s.pc) ∧
        (s.own t).pcc = s.ck.cr.evec.withOtype 0
    else
      (s.own t).st = .stopped ∧ (s.own t).pcc = s.cx.pcc ∧ (t.core s.curCore).cr = s.ck.cr ∧
        (t.core s.curCore).pending = s.ck.pending ++ [s.trapHere o code addr info]

/-- A trap of the executing context is taken at once: no store of the core is held, and the control context handles no
trap and has an EVEC that can be entered. -/
def State.trapReady (s : State) : Bool :=
  s.ck.gather.isEmpty && (s.curCtx != 0 || (!ecHnd s.ck.cr.ecause && evecOk s.ck.cr.evec))

/-! ## Memory -/

/-- The state in which an instruction has its effect when no store of its core is held: the orders that are discharged
are gone. -/
def State.opened (s : State) : State :=
  s.modCx (fun c => { c with orders := liveOrders (s.unperformed s.curCore s.curCtx) c.orders })

/-- The order of operations lets the instruction issue now (10 R212 to R219). -/
def State.mayIssue (s : State) (i : Instr) (o : Op) : Bool :=
  match i.form? with
  | some f => (s.orderGate f o).2
  | none => false

/-- Nothing follows the retirement, no store of the core is held, no access waits at a home and no engine owns a line. -/
def State.settled (s : State) (o : Op) : Bool :=
  s.calm o && s.ck.gather.isEmpty && s.waits.isEmpty && s.owned.isEmpty

/-- The instruction issues now and nothing that is held, waits or is owned meets it; a page 7 form is in the control
context. -/
def State.ready (s : State) (i : Instr) (o : Op) : Bool :=
  s.settled o && s.mayIssue i o && (s.curCtx == 0 || (i.form?.map Form.page).getD 7 != 7)

/-- Bytes at `n` locations from `loc` on lie in no accepted leaf entry, whose ACC bit a write would decide (08 R172). -/
def State.noLeaf (s : State) (loc n : Nat) : Bool := s.accepted.all (fun e => decide (e.1 + 8 ≤ loc ∨ loc + n ≤ e.1))

/-- W.SCOPE of an access to a window with system scope (02 R46). -/
def State.scopedCr (s : State) (i : Instr) (o : Op) (va : Word) : CtxRegs :=
  match i.form? with
  | some f => (s.scopeWarn f o va).cx.cr
  | none => s.cx.cr

/-- What an access reaches: the checks of 08 R174 pass for `n` bytes at `va` through `c`, in their order, and the location
is in stack memory or the core's own local store; `s1` is the state that the translation leaves. -/
def State.Reaches (s : State) (c : GReg) (va : Word) (n al perms : Nat) (types : List Nat) (kind : Nat) (s1 : State)
    (loc : Nat) : Prop :=
  checkCap c va n perms types = .ok () ∧ s.opened.locate s.curCore s.curCtx va n al kind = .ok (s1, loc, false)

/-- `i` retires at `s` with a result for `d`, of value `v`, outstanding and ready; no register changes yet, and the rest of
the machine is as `b` has it (04 R82, 08 R174). -/
def State.Loads (s b : State) (i : Instr) (o : Op) (va : Word) (d : Dest) (v : RVal) (sets : BitVec 4) : Prop :=
  ∃ t, exec i s = .next t ∧ b.KeepsRest t ∧ (∀ e, (s.own t).read e = s.cx.read e) ∧
    (s.own t).outs = s.cx.outs ++ [⟨s.nextId, d, false, true, .ready v 0, sets, [], s.pc⟩] ∧
    (s.own t).cr = s.retiredCr i o (s.scopedCr i o va) ∧ (s.own t).pcc = s.nextPcc o

/-- What a store leaves alone of the state `s1` that finding its location left: everything but the bytes and marks of
memory and the injectors that it sets off, and of the core what `KeepsRest` leaves out. -/
structure State.StoresOnly (s1 t : State) : Prop where
  machine : { t with cores := s1.cores, nextId := s1.nextId, mem := s1.mem, gran := s1.gran, injDue := s1.injDue } = s1
  otherCores : ∀ c, c ≠ s1.curCore → t.core c = s1.core c
  sup : (t.core s1.curCore).cr = s1.ck.cr
  otherCtxs : ∀ x, x ≠ s1.curCtx →
    { t.ctx s1.curCore x with yielding := (s1.ctx s1.curCore x).yielding } = s1.ctx s1.curCore x
  regs : ∀ d, (s1.own t).read d = s1.cx.read d

/-- `i` retires at `s` after finding its location `loc`, which left state `s1`: the `bs.length` bytes from `loc` on hold
`bs`, and no other byte and no register changes. In the granules touched C is clear and F is set where `setF` says so, or
else as it was (04 R90, 08 R163, R175). -/
def State.Stores (s s1 : State) (i : Instr) (o : Op) (va : Word) (loc : Nat) (bs : List Byte) (setF : Bool) : Prop :=
  ∃ t, exec i s = .next t ∧ s1.StoresOnly t ∧ (∀ k, k < bs.length → some (t.byte (loc + k)) = bs[k]?) ∧
    (∀ a, (a < loc ∨ loc + bs.length ≤ a) → t.byte a = s1.byte a) ∧
    (∀ k, k < bs.length → t.cBit (loc + k) = false ∧ t.fBit (loc + k) = (setF || s1.fBit (loc + k))) ∧
    (∀ a, a / 16 < loc / 16 ∨ (loc + bs.length - 1) / 16 < a / 16 → t.marks a = s1.marks a) ∧
    (s.own t).cr = s.retiredCr i o (s.scopedCr i o va) ∧ (s.own t).pcc = s.nextPcc o

/-- Where a block of `n` bytes lies that an instruction reaches through a capability, where every check passes, no home
refuses it, no engine owns a byte of it and no access of the context to it is under way: the state that the translation leaves, and the pieces. -/
def State.blockAt (s : State) (c : GReg) (n al perms kind : Nat) : Option (State × Segs) :=
  match check c c.word n perms, s.locateBlock s.curCore s.curCtx c.word n al kind with
  | .ok (), .ok (s1, g) => if s1.segsRefused s.curCore g || s1.ownedSegs g || s1.underWay s.curCore s.curCtx g then none else some (s1, g)
  | _, _ => none

/-! ## Values -/

/-- The low `n` bits of a g register (06 R116). -/
def State.bits (s : State) (n r : Nat) : BitVec n := (s.g r).word.setWidth n

/-- The value that put(D, x) writes: zero-extended, with tag 0 (06 R117). -/
def putVal {n : Nat} (x : BitVec n) : RVal := .g (GReg.ofWord (x.setWidth 64))

/-- Element `i` of `e` bits of a vector register (04 R74). -/
def laneOf (v : VReg) (e i : Nat) : BitVec e := v.extractLsb' (i * e) e

/-- Whether element `i` of `e` bits is active (07 R141). -/
def State.laneOn (s : State) (o : Op) (e i : Nat) : Bool := o.pr == 0 || (s.p o.pr).getLsbD (i * e / 8)

/-- What a vector result `r` over `old` is, lane by lane (07 R142): `f` where an element of the shape is active, else zero
or what it was, and the same above the shape. -/
def State.LanesAre (s : State) (o : Op) (e : Nat) (old r : VReg) (f : Nat → BitVec e) : Prop :=
  (∀ i, i < o.shapeBits / e → laneOf r e i =
    if s.laneOn o e i then f i else if o.z then 0 else laneOf old e i) ∧
  (∀ b, o.shapeBits ≤ b → r.getLsbD b = (!o.z && old.getLsbD b))

/-- `i` writes v[D], lane by lane. -/
def State.CompletesLanes (s : State) (i : Instr) (o : Op) (e : Nat) (f : Nat → BitVec e) : Prop :=
  ∃ r, s.Completes i o [(.v o.rd, .v r)] ∧ s.LanesAre o e (s.v o.rd) r f

/-- `i` writes v[D], lane by lane, and raises the IEEE flags of its active lanes (07 R151). -/
def State.CompletesFLanes (s : State) (i : Instr) (o : Op) (e : Nat) (f : Nat → Nat × Flags) : Prop :=
  ∃ r fl, s.CompletesF i o (.v o.rd) (.v r) fl ∧ s.LanesAre o e (s.v o.rd) r (fun j => BitVec.ofNat e (f j).1) ∧
    ∀ b, b < 5 → (fl.getLsbD b = true ↔ ∃ j, j < o.shapeBits / e ∧ s.laneOn o e j = true ∧ (f j).2.getLsbD b = true)

/-- `i` leaves v[D] pending; the value that will come is known lane by lane (07 R143, R151). -/
def State.PendsLanes (s : State) (i : Instr) (o : Op) (e : Nat) (f : Nat → Nat × Flags) : Prop :=
  ∃ r fl, s.Pends i o (.v o.rd) (.v r) fl ∧ s.LanesAre o e (s.v o.rd) r (fun j => BitVec.ofNat e (f j).1) ∧
    ∀ b, b < 5 → (fl.getLsbD b = true ↔ ∃ j, j < o.shapeBits / e ∧ s.laneOn o e j = true ∧ (f j).2.getLsbD b = true)

/-- What a predicate result is: every bit under an active element of the shape says whether `f` holds there, and every
other bit is 0 (04 R74, 07 R145). -/
def State.PredIs (s : State) (o : Op) (e : Nat) (q : PredReg) (f : Nat → Bool) : Prop :=
  ∀ b, b < 256 → q.getLsbD b = (decide (b * 8 < o.shapeBits) && s.laneOn o e (b * 8 / e) && f (b * 8 / e))

/-- What a narrow vector result `r` over `old` is (07 R150): element `q n + i` of `en` bits, for each wide element `i` of
the shape, is `f i` where that is active, else zero or what it was, and no other bit changes. -/
def State.NarrowAre (s : State) (o : Op) (ew en q : Nat) (old r : VReg) (f : Nat → BitVec en) : Prop :=
  let n := o.shapeBits / ew
  (∀ i, i < n → laneOf r en (q * n + i) =
    if s.laneOn o ew i then f i else if o.z then 0 else laneOf old en (q * n + i)) ∧
  (∀ b, b < q * n * en ∨ (q + 1) * n * en ≤ b → r.getLsbD b = old.getLsbD b)

/-- A conversion between a source of `es` and a destination of `ed` bits pairs its elements (07 R150): `f` of the narrow
element's number and the source element gives the destination element and its flags. -/
def State.Converts (s : State) (i : Instr) (o : Op) (es ed part : Nat) (f : Nat → Nat → Nat × Flags) : Prop :=
  let ew := max es ed
  let en := min es ed
  let n := o.shapeBits / ew
  let q := part % (ew / en)
  let src (j : Nat) : Nat := (laneOf (s.v o.ra) es (if es < ew then q * n + j else j)).toNat
  let g (j : Nat) : Nat × Flags := f (q * n + j) (src j)
  ∃ r fl, s.CompletesF i o (.v o.rd) (.v r) fl ∧
    (if ed = ew then s.LanesAre o ed (s.v o.rd) r (fun j => BitVec.ofNat ed (g j).1)
     else s.NarrowAre o ew ed q (s.v o.rd) r (fun j => BitVec.ofNat ed (g j).1)) ∧
    ∀ b, b < 5 → (fl.getLsbD b = true ↔ ∃ j, j < n ∧ s.laneOn o ew j = true ∧ (g j).2.getLsbD b = true)

/-- `i` leaves the ready result `v` for g[D] outstanding (11 R242, R246). -/
def State.Answers (s : State) (i : Instr) (o : Op) (v : Nat) (t : State) : Prop :=
  exec i s = .next t ∧ (∀ d, (s.own t).read d = s.cx.read d) ∧
    (s.own t).outs = s.cx.outs ++
      [⟨s.nextId, .g o.rd, false, true, .ready (putVal (BitVec.ofNat 64 v)) 0, 0, [], s.pc⟩] ∧
    (s.own t).pcc = s.nextPcc o

end Sys2Proof.Machine
end

