-- ==== Sys2Proof/WellFormed.lean ====
section
/-! DEFINITION. Which instruction terms are words: the checks that the encoding of 02 R33 to R41 puts on an
operand. -/

namespace Sys2Proof

/-- A chain holds at most four prefixes and at most three PIMMs (02 R39). -/
def Op.chainOk (o : Op) : Bool :=
  decide (o.pimm.length ≤ 3) &&
  decide ((if o.ppag.isSome then 1 else 0) + (if o.preg.isSome then 1 else 0) +
    (if o.pvec.isSome then 1 else 0) + o.pimm.length ≤ 4)

/-- An ignored M or T bit needs a prefix word to stand in (02 Table 22). -/
def Op.rsvOk (o : Op) : Bool :=
  !o.rsv || o.ppag.isSome || o.preg.isSome || o.pvec.isSome || !o.pimm.isEmpty

/-- Every page but 0 is named by a PPAG (02 R43). -/
def Op.pageOk (f : Form) (o : Op) : Bool := f.page == 0 || o.ppag.isSome

/-- The operand bits hold the X bit or the minor code that the form has (02 R36, R47). -/
def Op.selOk (f : Form) (o : Op) : Bool :=
  match f.sel, f.fmt with
  | none, _ => true
  | some x, .fz => o.opnd.toNat == x
  | some x, _ => (o.opnd.toNat % 2) == x

/-- The two forms of `satt` differ in bit 0 of k (23 R356). -/
def Instr.kOk (o : Op) : Instr → Bool
  | .satt _ => (o.pimm.headD 0).toNat % 2 == 0
  | .sattHandle => (o.pimm.headD 0).toNat % 2 == 1
  | _ => true

/-- The instruction, with the operand that it carries or else the one given, is one that words encode. -/
def Instr.wellFormed (i : Instr) (o : Op) : Bool :=
  match i.form? with
  | some f =>
    let o' := i.op?.getD o
    o'.chainOk && o'.rsvOk && o'.pageOk f && o'.selOk f && i.kOk o'
  | none => false

end Sys2Proof
end

