-- ==== Sys2Proof/Certificates/Slice0/Obligations.lean ====
section
/-! DEFINITION. The statements for the provers. -/

open Sys2Proof Sys2Proof.Machine

/-! ## The integer forms -/

/-- 06 R116, R117, R120, R123: every two-source integer form completes; g[D] reads the result at the width that W names,
zero-extended, and nothing else changes. -/
def Obligations.IntegerTwoSourceResults : Prop :=
  ∀ (s : State) (o : Op), s.calm o = true →
    ∀ p ∈ ([(.add, fun _ a b => a + b),
            (.sub, fun _ a b => a - b),
            (.and, fun _ a b => a &&& b),
            (.or, fun _ a b => a ||| b),
            (.xor, fun _ a b => a ^^^ b),
            (.andn, fun _ a b => a &&& ~~~b),
            (.shl, fun n a b => a <<< (b.toNat % n)),
            (.shr, fun n a b => a >>> (b.toNat % n)),
            (.sar, fun n a b => a.sshiftRight (b.toNat % n)),
            (.rol, fun _ a b => a.rotateLeft b.toNat),
            (.slt, fun _ a b => if a.slt b then 1 else 0),
            (.sltu, fun _ a b => if a.ult b then 1 else 0),
            (.seq, fun _ a b => if a = b then 1 else 0),
            (.sne, fun _ a b => if a ≠ b then 1 else 0),
            (.mul, fun _ a b => a * b),
            (.mulh, fun n a b => (a.signExtend (2 * n) * b.signExtend (2 * n)).extractLsb' n n),
            (.min, fun _ a b => if a.sle b then a else b),
            (.max, fun _ a b => if b.sle a then a else b),
            (.minu, fun _ a b => if a.ule b then a else b),
            (.maxu, fun _ a b => if b.ule a then a else b)] :
          List ((Op → Instr) × ((n : Nat) → BitVec n → BitVec n → BitVec n))),
      s.Completes (p.1 o) o [(.g o.rd, putVal (p.2 o.width (s.bits o.width o.s1) (s.bits o.width o.s2)))]

/-- A tagged value of object type 15, which no form copies (04 R86). -/
def uncopied (v : GReg) : Bool := v.tag && v.otype == 15

/-- 06 R116, R117, R120, R123: the one-source integer forms complete and write g[D] alone. `mov` at W = 00 copies all 129
bits, but raises CAPT at a tagged value of object type 15 (04 R86). -/
def Obligations.IntegerOneSourceResults : Prop :=
  ∀ (s : State) (o : Op),
    (s.trapReady = true → o.w = 0 → uncopied (s.g o.ra) = true → s.Raises (.mov o) o tCAPT (s.g o.ra).word 2) ∧
    (s.calm o = true →
    let a := s.bits o.width o.ra
    (∀ p ∈ ([(.neg, -a), (.clz, a.clz), (.ctz, a.ctz), (.popc, a.cpop), (.rev, a.reverse)] :
        List ((Op → Instr) × BitVec o.width)),
      s.Completes (p.1 o) o [(.g o.rd, putVal p.2)]) ∧
    s.Completes (.sx o) o [(.g o.rd, putVal (a.signExtend 64))] ∧
    s.Completes (.zx o) o [(.g o.rd, putVal a)] ∧
    (o.w ≠ 0 ∨ uncopied (s.g o.ra) = false →
      s.Completes (.mov o) o [(.g o.rd, if o.w = 0 then .g (s.g o.ra) else putVal a)]))

/-- 06 R121, R124, R125: immediates, bit fields and conditional moves. A conditional move whose condition fails writes
nothing, and one that holds raises CAPT at a tagged value of object type 15 (04 R86). -/
def Obligations.ImmediateAndFieldResults : Prop :=
  ∀ (s : State) (o : Op),
    (s.trapReady = true → uncopied (s.g o.ra) = true →
      ((s.g o.rb).word ≠ 0 → s.Raises (.csel o) o tCAPT (s.g o.ra).word 2) ∧
      ((s.g o.rb).word = 0 → s.Raises (.cselz o) o tCAPT (s.g o.ra).word 2)) ∧
    (s.calm o = true →
    let n := o.width
    let imm64 : Word := BitVec.ofInt 64 o.fiImm
    let d64 := (s.g o.rd).word
    let a64 := (s.g o.ra).word
    let mask : Word := (BitVec.ofNat 64 (2 ^ (o.k2 / 64 % 64 + 1) - 1)) <<< (o.k2 % 64)
    s.Completes (.ldi o) o [(.g o.rd, putVal imm64)] ∧
    s.Completes (.addi o) o [(.g o.rd, putVal (s.bits n o.rd + BitVec.ofInt n o.fiImm))] ∧
    s.Completes (.slti o) o [(.g o.rd, putVal (if (s.bits n o.rd).toInt < o.fiImm then 1#64 else 0#64))] ∧
    s.Completes (.andi o) o [(.g o.rd, putVal (s.bits n o.rd &&& BitVec.ofInt n o.fiImm))] ∧
    s.Completes (.ldhi o) o [(.g o.rd, putVal ((BitVec.ofInt 32 o.fiImm) ++ d64.setWidth 32))] ∧
    s.Completes (.bfx o) o [(.g o.rd, putVal ((a64 >>> (o.k2 % 64)) &&& BitVec.ofNat 64 (2 ^ (o.k2 / 64 % 64 + 1) - 1)))] ∧
    s.Completes (.bfi o) o [(.g o.rd, putVal ((d64 &&& ~~~mask) ||| ((a64 <<< (o.k2 % 64)) &&& mask)))] ∧
    ((s.g o.rb).word = 0 ∨ uncopied (s.g o.ra) = false →
      s.Completes (.csel o) o (if (s.g o.rb).word ≠ 0 then [(.g o.rd, .g (s.g o.ra))] else [])) ∧
    ((s.g o.rb).word ≠ 0 ∨ uncopied (s.g o.ra) = false →
      s.Completes (.cselz o) o (if (s.g o.rb).word = 0 then [(.g o.rd, .g (s.g o.ra))] else [])))

/-- 06 R122: division and remainder never trap. Where R81 leaves room for an entry for g[D], the result of Table 59 is
outstanding and no register changes yet; where it does not, the instruction is held and nothing changes. -/
def Obligations.DivisionPendsItsResult : Prop :=
  ∀ (s : State) (o : Op),
    let n := o.width
    let a := s.bits n o.s1
    let b := s.bits n o.s2
    ∀ p ∈ ([(.div, if b = 0 then BitVec.allOnes n else a.sdiv b),
            (.divu, if b = 0 then BitVec.allOnes n else a / b),
            (.rem, if b = 0 then a else a.srem b),
            (.remu, if b = 0 then a else a % b)] : List ((Op → Instr) × BitVec n)),
      (s.calm o = true → s.cx.roomFor (.g o.rd) = true → s.Pends (p.1 o) o (.g o.rd) (putVal p.2) 0) ∧
      (s.cx.roomFor (.g o.rd) = false → ∃ t, exec (p.1 o) s = .next t ∧ t.stalled = true ∧
        (∀ d, (s.own t).read d = s.cx.read d) ∧ (s.own t).cr = s.cx.cr ∧ (s.own t).pcc = s.cx.pcc ∧
        (s.own t).outs = s.cx.outs ∧ (s.own t).st = s.cx.st ∧ (t.core s.curCore).pending = s.ck.pending ∧
        ∀ a, t.byte a = s.byte a)

/-! ## The floating forms -/

/-- 06 R126, R127, 05 R106: the immediate floating forms complete, write g[D] with tag 0, and raise exactly the flags of
their operation in FFLAGS. The operations are those of 05. -/
def Obligations.FloatScalarResults : Prop :=
  ∀ (s : State) (o : Op), s.calm o = true →
    let f := o.ffmt
    let a := (s.bits f.width o.s1).toNat
    let b := (s.bits f.width o.s2).toNat
    let x := (s.bits f.width o.ra).toNat
    let y := (s.bits f.width o.rb).toNat
    let z := (s.bits f.width o.rd).toNat
    (∀ p ∈ ([(.fadd, f.op2 FV.add a b), (.fsub, f.op2 FV.sub a b), (.fmul, f.op2 FV.mul a b),
             (.fmin, fminmax f false false a b), (.fmax, fminmax f true false a b),
             (.fminp, fminmax f false true a b), (.fmaxp, fminmax f true true a b),
             (.flt, fcmp false FV.lt f a b), (.fle, fcmp false FV.le f a b), (.feq, fcmp true FV.eqv f a b),
             (.funOrd, fcmp true (fun u v => u.isNan || v.isNan) f a b),
             (.fma, f.fmaOp false x y z), (.fnma, f.fmaOp true x y z)] : List ((Op → Instr) × (Nat × Flags))),
      s.CompletesF (p.1 o) o (.g o.rd) (putVal (BitVec.ofNat 64 p.2.1)) p.2.2) ∧
    s.Completes (.fabs o) o [(.g o.rd, putVal (BitVec.ofNat 64 (x % 2 ^ (f.width - 1))))] ∧
    s.Completes (.fclass o) o [(.g o.rd, putVal (BitVec.ofNat 64 (fclassBits f x)))]

/-- 06 R126, R128: the conversions complete with their flags; `fdiv` and `fsqrt` leave their result, flags with it,
outstanding. -/
def Obligations.FloatConversionsAndSlowForms : Prop :=
  ∀ (s : State) (o : Op), s.calm o = true →
    let f := o.ffmt
    let a := (s.bits f.width o.s1).toNat
    let b := (s.bits f.width o.s2).toNat
    let x := (s.bits f.width o.ra).toNat
    let n := convWidth o
    let int : Int := if convUnsigned o then (s.bits n o.ra).toNat else (s.bits n o.ra).toInt
    let lo : Int := if convUnsigned o then 0 else -(2 ^ (n - 1) : Nat)
    let hi : Int := if convUnsigned o then (2 ^ n : Nat) - 1 else (2 ^ (n - 1) : Nat) - 1
    let fi := (f.decode x).toInt s.rmode lo hi
    let src := cvtffFmt (o.k1 % 8)
    let ff := f.encode s.rmode (src.decode (s.bits src.width o.ra).toNat)
    let ci := f.encode s.rmode (FV.ofInt int)
    s.CompletesF (.cvtif o) o (.g o.rd) (putVal (BitVec.ofNat 64 ci.1)) ci.2 ∧
    s.CompletesF (.cvtfi o) o (.g o.rd) (putVal (BitVec.ofInt n fi.1)) fi.2 ∧
    s.CompletesF (.cvtff o) o (.g o.rd) (putVal (BitVec.ofNat 64 ff.1)) ff.2 ∧
    (s.cx.roomFor (.g o.rd) = true →
      s.Pends (.fdiv o) o (.g o.rd) (putVal (BitVec.ofNat 64 (f.op2 FV.div a b).1)) (f.op2 FV.div a b).2 ∧
      s.Pends (.fsqrt o) o (.g o.rd) (putVal (BitVec.ofNat 64 (f.op1 FV.sqrt x).1)) (f.op1 FV.sqrt x).2)

/-! ## Branches, jumps and capabilities -/

/-- Whether a direct branch is taken (06 Table 64), with the offset of its format. -/
def branches (s : State) (o : Op) : List (Instr × Bool × Int × Bool) :=
  let t := (s.bits o.width o.rd).toInt
  [(.br o, true, o.fbImm, false), (.call o, true, o.fbImm, true), (.bz o, decide (t = 0), o.fiImm, false),
   (.bnz o, decide (t ≠ 0), o.fiImm, false), (.blz o, decide (t < 0), o.fiImm, false),
   (.bgez o, decide (0 ≤ t), o.fiImm, false)]

/-- The link that `call` and `calli` write to lk, g15 (06 R131). -/
def linkOf (s : State) (o : Op) : RVal := .g (((s.cx.pcc.withAddr (s.nextPc o)).withOtype 1).withTag true)

/-- A branch whose target lies in PCC moves the address of PCC there, an untaken one goes on at next_pc, and `call` alone
writes lk. -/
def branchesMove : Prop :=
  ∀ (s : State) (o : Op), s.calm o = true →
    ∀ b ∈ branches s o,
      let target : Int := (s.pc.toNat : Int) + 2 * b.2.2.1
      (b.2.1 = true → s.cx.pcc.bounds.1 ≤ target ∧ target + 2 ≤ s.cx.pcc.bounds.2) →
      s.CompletesAt b.1 o (if b.2.2.2 then [(.g 15, linkOf s o)] else []) s.cx.cr
        (if b.2.1 then s.cx.pcc.withAddr (BitVec.ofInt 64 target) else s.nextPcc o)

/-- A taken branch whose target lies outside PCC raises CAPB with EADR = target, and PCC is unchanged. -/
def branchesOut : Prop :=
  ∀ (s : State) (o : Op), s.trapReady = true →
    ∀ b ∈ branches s o,
      let target : Int := (s.pc.toNat : Int) + 2 * b.2.2.1
      b.2.1 = true → (target < s.cx.pcc.bounds.1 ∨ s.cx.pcc.bounds.2 < target + 2) →
      s.Raises b.1 o tCAPB (BitVec.ofInt 64 target) 2

/-- 06 R129, R131, Table 64: a taken branch whose target lies in PCC changes only the address of PCC, and `call` links
first; an untaken one checks nothing and goes on at next_pc; where the check fails, CAPB is raised at the branch. -/
def Obligations.DirectBranches : Prop := branchesMove ∧ branchesOut

/-- A jump through a capability that is tagged, of object type 0 or 1, holds X and has its address, an even one, in
[base, top − 2] puts it, unsealed, into PCC; `calli` links first. `ret` jumps through lk. -/
def jumpsMove : Prop :=
  ∀ (s : State) (o : Op), s.calm o = true →
    let ok (c : GReg) : Prop := c.tag = true ∧ c.broken = false ∧ (c.otype = 0 ∨ c.otype = 1) ∧ c.perms &&& pX ≠ 0 ∧
      c.bounds.1 ≤ (c.addr : Int) ∧ (c.addr : Int) + 2 ≤ c.bounds.2 ∧ c.addr % 2 = 0
    (ok (s.g o.ra) → s.CompletesAt (.jmp o) o [] s.cx.cr ((s.g o.ra).withOtype 0) ∧
      s.CompletesAt (.calli o) o [(.g 15, linkOf s o)] s.cx.cr ((s.g o.ra).withOtype 0)) ∧
    (o = s.opr → ok (s.g 15) → s.CompletesAt .ret o [] s.cx.cr ((s.g 15).withOtype 0))

/-- The checks of a jump fail in their order, each with its trap at the address of the capability, and PCC is unchanged: CAPT
without a tag or with another object type, CAPP without X, CAPB outside the bounds, and ALN at an odd address (02 R33). -/
def jumpsTrap : Prop :=
  ∀ (s : State) (o : Op), s.trapReady = true →
    let fails (i : Instr) (c : GReg) : Prop :=
      (c.tag = false → s.Raises i o tCAPT c.word 1) ∧
      (c.tag = true → (c.broken = true ∨ (c.otype ≠ 0 ∧ c.otype ≠ 1)) → s.Raises i o tCAPT c.word 2) ∧
      (c.tag = true → c.broken = false → (c.otype = 0 ∨ c.otype = 1) →
        (c.perms &&& pX = 0 → s.Raises i o tCAPP c.word (BitVec.ofNat 64 pX)) ∧
        (c.perms &&& pX ≠ 0 →
          let inside := c.bounds.1 ≤ (c.addr : Int) ∧ (c.addr : Int) + 2 ≤ c.bounds.2
          (¬ inside → s.Raises i o tCAPB c.word 2) ∧ (inside → c.addr % 2 = 1 → s.Raises i o tALN c.word 1)))
    fails (.jmp o) (s.g o.ra) ∧ fails (.calli o) (s.g o.ra) ∧ (o = s.opr → fails .ret (s.g 15))

/-- 06 R130, R131, 04 R87: a jump whose checks pass puts its capability, unsealed, into PCC, and `calli` links first; where a check
fails its trap is raised. -/
def Obligations.JumpsUnsealIntoPcc : Prop := jumpsMove ∧ jumpsTrap

/-- 06 R132 to R134, 04 R88, R89: the derivations complete whatever the source is, and keep the tag of a source only
where it may be derived and the result is representable. -/
def Obligations.CapabilityDerivationResults : Prop :=
  ∀ (s : State) (o : Op), s.calm o = true →
    let c := s.g o.s1
    let v := (s.g o.s2).word
    let at' (a : Word) : RVal := .g ((c.withAddr a).withTag (c.tag && decide (c.otype = 0) && decide (c.expo ≤ 43) &&
      c.representable a.toNat))
    s.Completes (.cset o) o [(.g o.rd, at' v)] ∧
    s.Completes (.cinc o) o [(.g o.rd, at' (c.word + v))] ∧
    s.Completes (.cbnd o) o [(.g o.rd, .g (c.bound v.toNat))] ∧
    s.Completes (.cperm o) o [(.g o.rd, .g ((c.withPerms (c.perms &&& v.toNat % 4096)).withTag
      (c.tag && decide (c.otype = 0) && decide (c.expo ≤ 43))))] ∧
    s.Completes (.cget o) o [(.g o.rd, putVal (BitVec.ofNat 64 ((s.g o.ra).property (o.k1 % 8))))] ∧
    s.Completes (.ctag o) o [(.g o.rd, .g ⟨(s.g o.ra).data, false⟩)]

/-- 04 R89: no derivation widens a capability. Where the result of moving, bounding or restricting `c` has a tag, `c` has
one and is unsealed, the bounds of the result lie within those of `c`, and so do its permissions. -/
def Obligations.DerivationNeverWidens : Prop :=
  ∀ (c : GReg) (a : Word) (n p : Nat), p < 4096 →
    ∀ r ∈ [c.moveTo a, c.bound n, (c.withPerms (c.perms &&& p)).withTag c.derivable],
      r.tag = true → c.tag = true ∧ c.otype = 0 ∧ r.otype = 0 ∧ c.bounds.1 ≤ r.bounds.1 ∧ r.bounds.2 ≤ c.bounds.2 ∧
        r.perms &&& c.perms = r.perms

/-! ## Control registers, the supervisor call and the minor codes -/

/-- 04 R92, 06 R135: `mfc` of a control register that the context may name reads it into g[D]. -/
def controlRegisterReads : Prop :=
  ∀ (s : State) (o : Op), s.calm o = true →
    let n := o.fiRaw
    (n ≤ 14 ∨ (s.curCtx = 0 ∧ 32 ≤ n ∧ n ≤ 42)) →
    s.Completes (.mfc o) o [(.g o.rd, .g (s.readCr s.curCore s.curCtx n))] ∧
    (n = 0 → s.readCr s.curCore s.curCtx n = GReg.ofWord (BitVec.ofNat 64 s.curCtx)) ∧
    (n = 3 → s.readCr s.curCore s.curCtx n = GReg.ofWord s.cx.cr.warn) ∧
    (n = 10 → s.readCr s.curCore s.curCtx n = GReg.ofWord s.cx.cr.fflags) ∧
    (n = 12 → s.readCr s.curCore s.curCtx n = GReg.ofWord s.cx.cr.cyc) ∧
    (n = 32 → s.readCr s.curCore s.curCtx n = s.ck.cr.evec) ∧
    (n = 33 → s.readCr s.curCore s.curCtx n = GReg.ofWord s.ck.cr.ecause) ∧
    (n = 34 → s.readCr s.curCore s.curCtx n = GReg.ofWord s.ck.cr.epc)

/-- 04 R92, Tables 44 to 46: `mtc` to a control register of the context's own writes it under its access codes and
changes no register and no other context: WARN is cleared by ones, a reserved FMT or RM is ignored, FFLAGS takes five
bits, and the read-only registers stay. -/
def controlRegisterWrites : Prop :=
  ∀ (s : State) (o : Op), s.calm o = true →
    let n := o.fiRaw
    let v := s.g o.rd
    let c := s.cx.cr
    n ≤ 14 →
    s.CompletesAt (.mtc o) o []
      (if n = 2 ∧ s.curCtx = 0 then { c with cm := v.word.getLsbD 0 }
       else if n = 3 then { c with warn := c.warn &&& ~~~v.word }
       else if n = 5 then
         { c with fmta := (if v.word.toNat % 16 ≤ 8 then v.word &&& 15 else c.fmta &&& 15) ||| (v.word &&& 16) }
       else if n = 6 then
         { c with fmtb := (if v.word.toNat % 16 ≤ 8 then v.word &&& 15 else c.fmtb &&& 15) ||| (v.word &&& 16) }
       else if n = 7 then { c with scla := v }
       else if n = 8 then { c with sclb := v }
       else if n = 9 then { c with fpm := if v.word.toNat % 8 ≤ 4 then v.word &&& 7 else c.fpm }
       else if n = 10 then { c with fflags := v.word &&& 31 }
       else c)
      (s.nextPcc o)

/-- 04 R78, R92, 11 Tables 116 and 122: `mtc` of the control context to a supervisor or exception register writes it under its
access codes: the reserved bits of ECAUSE and EITER stay zero, and PJHEAD, LEASE and VIID are read-only. CTXBASE is written while no
helper is LIVE or STOPPED, and the entries of the control context become dirty; else it stays. No g, v or p register and no byte
changes. -/
def supervisorRegisterWrites : Prop :=
  ∀ (s : State) (o : Op), s.calm o = true → s.curCtx = 0 → 32 ≤ o.fiRaw → o.fiRaw ≤ 42 →
    let n := o.fiRaw
    let v := s.g o.rd
    let k := s.ck.cr
    let writes (r : CoreRegs) (q : State → Prop) : Prop := ∃ t, exec (.mtc o) s = .next t ∧ (t.core s.curCore).cr = r ∧
      (∀ d, (s.own t).read d = s.cx.read d) ∧ (∀ a, t.byte a = s.byte a) ∧
      (∀ c, c ≠ s.curCore → t.core c = s.core c) ∧ (s.own t).pcc = s.nextPcc o ∧ q t
    (n ≠ 42 → writes
      (if n = 32 then { k with evec := v }
       else if n = 33 then { k with ecause := v.word &&& 0x3F8F0FF#64 }
       else if n = 34 then { k with epc := v.word }
       else if n = 35 then { k with eadr := v.word }
       else if n = 36 then { k with erpc := v.word }
       else if n = 37 then { k with eiter := v.word &&& 0xFFFF#64 }
       else if n = 38 then { k with einfo := v.word }
       else k)
      (fun t => (s.own t).cr = s.retiredCr (.mtc o) o s.cx.cr)) ∧
    (n = 42 → s.ck.anyHelper = false → (s.ck.ctx 0).heldRegs.filter (s.ck.evicted 0) = [] →
      writes { k with ctxbase := v.word } (fun t =>
        ∀ e ∈ (t.core s.curCore).entries, e.ctx = 0 → (s.ck.ctx 0).holds e.reg = true → e.dirty = true)) ∧
    (n = 42 → s.ck.anyHelper = true → writes k (fun _ => True))

/-- 04 R78, R92, 06 R135, Tables 44 to 46, 11 Tables 116 and 122: `mfc` of a control register that the context may name reads it
into g[D], and `mtc` writes one under its access codes and changes no other register. -/
def Obligations.ControlRegisterAccess : Prop := controlRegisterReads ∧ controlRegisterWrites ∧ supervisorRegisterWrites

/-- 04 R92: `mfc` and `mtc` of a number that the context may not name raise ILL. -/
def Obligations.IllegalControlRegisterRaisesIll : Prop :=
  ∀ (s : State) (o : Op), s.trapReady = true →
    let n := o.fiRaw
    ¬ (n ≤ 14 ∨ (s.curCtx = 0 ∧ 32 ≤ n ∧ n ≤ 42)) →
    s.Raises (.mfc o) o tILL s.pc 5 ∧ s.Raises (.mtc o) o tILL s.pc 5

/-- 06 R136 to R138: `svc` in a helper raises SVC with its code and register number in EINFO, `brk` raises BRK in any
context, and `svc` in a control context raises ILL, as `yield` there does. -/
def Obligations.SupervisorCallAndBreakTrap : Prop :=
  ∀ (s : State) (o : Op), s.trapReady = true →
    (s.curCtx ≠ 0 → s.Raises (.svc o) o tSVC 0 (BitVec.ofNat 64 (o.fiRaw % 2 ^ 32 + o.rd * 2 ^ 32))) ∧
    (s.curCtx = 0 → s.Raises (.svc o) o tILL s.pc 4) ∧
    (o = s.opr → s.Raises .brk o tBRK 0 0) ∧
    (o = s.opr → s.curCtx = 0 → s.Raises .yield o tILL s.pc 4)

/-- 06 R137: `nop` and `yield` change no register, no flag and no memory. -/
def Obligations.NopAndYieldChangeNothing : Prop :=
  ∀ (s : State), s.calm s.opr = true →
    s.Completes .nop s.opr [] ∧ (s.curCtx ≠ 0 → s.Completes .yield s.opr [])

/-! ## Memory -/

/-- 08 R174, R175, R178, 09 R203: the loads from stack memory and from the core's own local store leave their value
outstanding and ready, little-endian and zero-extended, with C of the granule as the tag of `ldc` where the authority holds LC. A
plain load and `ldc` do not look at F; `ld.fe` finds F = 1 and keeps it; `waitb` finds all bits of its mask set. -/
def Obligations.LoadsReturnMemory : Prop :=
  ∀ (s s1 : State) (o : Op) (loc : Nat), s.cx.roomFor (.g o.rd) = true →
    let va := s.memAddr o
    let c := s.g o.ra
    let n := o.bytes
    (s.ready (.ld o) o = true → s.Reaches c va n o.logBytes pL [0] kLoad s1 loc → s1.readPoison loc n = none →
      s.Loads s1 (.ld o) o va (.g o.rd) (putVal (BitVec.ofNat 64 (s1.nat loc n))) setL) ∧
    (s.ready (.ldc o) o = true → c.otype = 0 → s.Reaches c va 16 4 pL [0, 3] kLoad s1 loc → s1.readPoison loc 16 = none →
      s.Loads s1 (.ldc o) o va (.g o.rd)
        (.g ⟨BitVec.ofNat 128 (s1.nat loc 16), s1.cBit loc && c.perms &&& pLC != 0⟩) setL) ∧
    (s.ready (.ldf o) o = true → s.Reaches c va 1 0 pF [0] kLoad s1 loc → s1.readPoison loc 1 = none →
      s.Loads s1 (.ldf o) o va (.g o.rd) (putVal (BitVec.ofNat 64 ((s1.fBit loc).toNat + 2 * (s1.cBit loc).toNat))) setL) ∧
    (s.ready (.ldFe o) o = true → s.Reaches c va n o.logBytes (pL ||| pF) (feTypes va) kLoad s1 loc →
      s1.readPoison loc n = none → s1.fBit loc = true →
      s.Loads s1 (.ldFe o) o va (.g o.rd) (putVal (BitVec.ofNat 64 (s1.nat loc n))) setL) ∧
    (s.ready (.waitb o) o = true → s.Reaches c va 8 3 pL [0] kLoad s1 loc → s1.readPoison loc 8 = none →
      s1.word loc &&& (s.g o.rd).word = (s.g o.rd).word →
      s.Loads s1 (.waitb o) o va (.g o.rd) (putVal (s1.word loc)) setL)

/-- 08 R175, R176, 09 R198, 04 R82: `ld.fec` of a full granule returns its bytes and leaves the granule empty in the same step, and
through a reply-slot capability, of object type 3, it frees the slot in that step, as `ldc` of the whole granule does; of an
empty granule each keeps waiting at the home, and no register, mark or byte changes. -/
def Obligations.FullEmptyLoadTakesOrWaits : Prop :=
  ∀ (s s1 : State) (o : Op) (loc : Nat), s.cx.roomFor (.g o.rd) = true →
    let va := s.memAddr o
    let c := s.g o.ra
    let n := o.bytes
    let emptied := s1.setF loc false
    let waits (i : Instr) (m : Nat) : Prop :=
      ∃ t, exec i s = .next t ∧ (∀ e, (s.own t).read e = s.cx.read e) ∧ (∀ a, t.byte a = s1.byte a) ∧
        t.gran = s1.gran ∧ t.waits.length = 1 ∧
        (s.own t).outs = s.cx.outs ++ [⟨s.nextId, .g o.rd, false, true, .away, setL, [(loc, m)], s.pc⟩] ∧
        (s.own t).pcc = s.nextPcc o
    emptied.fBit loc = false ∧
    (∀ i, i < 64 → loc / 16 * 16 = lsLoc s.curCore (slotOff i) →
      Store.get ReplySlot.init ((emptied.freeSlotAt loc).core s.curCore).slots i = ReplySlot.init) ∧
    (s.ready (.ldFec o) o = true → s.Reaches c va n o.logBytes (pL ||| pF) (feTypes va) kLoad s1 loc →
      (s1.fBit loc = true → s1.readPoison loc n = none →
        s.Loads (if c.otype = 3 then emptied.freeSlotAt loc else emptied) (.ldFec o) o va (.g o.rd)
          (putVal (BitVec.ofNat 64 (s1.nat loc n))) setL) ∧
      (s1.fBit loc = false → waits (.ldFec o) n)) ∧
    (s.ready (.ldc o) o = true → c.otype = 3 → s.Reaches c va 16 4 (pL ||| pLC) [0, 3] kLoad s1 loc →
      (s1.fBit loc = true → s1.readPoison loc 16 = none →
        s.Loads (emptied.freeSlotAt loc) (.ldc o) o va (.g o.rd)
          (.g ⟨BitVec.ofNat 128 (s1.nat loc 16), s1.cBit loc && c.perms &&& pLC != 0⟩) setL) ∧
      (s1.fBit loc = false → waits (.ldc o) 16))

/-- 08 R175 to R177, 09 R203, 04 R90: the stores to the core's own local store, and those of no plain form to stack memory, write
exactly their bytes, clear C, and set F where the form says so. `st.fw` finds F = 0. -/
def byteStores : Prop :=
  ∀ (s s1 : State) (o : Op) (loc : Nat),
    let va := s.memAddr o
    let c := s.g o.ra
    let v := (s.g o.rd).word
    let n := o.bytes
    let bs := toLE v.toNat n
    let vn := c.word + BitVec.ofInt 64 (o.off / 2)
    let old := s1.byte loc
    (s.ready (.st o) o = true → s.Reaches c va n o.logBytes pS [0] kStore s1 loc → isStack loc = false →
      s1.partPoison loc n = none → s1.noLeaf loc n = true → s.Stores s1 (.st o) o va loc bs false) ∧
    (s.ready (.stFs o) o = true → s.Reaches c va n o.logBytes (pS ||| pF) [0] kStore s1 loc →
      s1.partPoison loc n = none → s1.noLeaf loc n = true → s.Stores s1 (.stFs o) o va loc bs true) ∧
    (s.ready (.stFw o) o = true → s.Reaches c va n o.logBytes (pS ||| pF) [0] kStore s1 loc → s1.fBit loc = false →
      s1.partPoison loc n = none → s1.noLeaf loc n = true → s.Stores s1 (.stFw o) o va loc bs true) ∧
    (s.ready (.stN4 o) o = true → s.Reaches c vn 1 0 pS [0] kStore s1 loc →
      s1.partPoison loc 1 = none → s1.noLeaf loc 1 = true → s.Stores s1 (.stN4 o) o vn loc
        [if o.off % 2 = 0 then old.extractLsb' 4 4 ++ v.setWidth 4 else v.setWidth 4 ++ old.setWidth 4] false) ∧
    (s.ready (.setb o) o = true → s.Reaches c va 8 3 pS [0] kStore s1 loc →
      s1.partPoison loc 8 = none → s1.noLeaf loc 8 = true →
      s.Stores s1 (.setb o) o va loc (toLE (s1.word loc ||| v).toNat 8) false)

/-- 08 R175, 04 R90: `stc` writes all sixteen bytes of its granule and makes its tag the granule's C, F stays, and poison
is cleared; a tagged value needs SC, and one of object type 15 is not copied (04 R86). No other byte and no other mark
changes. -/
def granuleStores : Prop :=
  ∀ (s s1 : State) (o : Op) (loc : Nat),
    let va := s.memAddr o
    let v := s.g o.rd
    uncopied v = false → s.ready (.stc o) o = true →
    s.Reaches (s.g o.ra) va 16 4 (if v.tag then pS ||| pSC else pS) [0] kStore s1 loc → s1.noLeaf loc 16 = true →
    loc % 16 = 0 →
    ∃ t, exec (.stc o) s = .next t ∧ s1.StoresOnly t ∧ t.granule loc = v ∧ t.fBit loc = s1.fBit loc ∧
      t.poison loc = false ∧ (∀ a, (a < loc ∨ loc + 16 ≤ a) → t.byte a = s1.byte a ∧ t.marks a = s1.marks a) ∧
      (s.own t).cr = s.retiredCr (.stc o) o (s.scopedCr (.stc o) o va) ∧ (s.own t).pcc = s.nextPcc o

/-- 08 R167, R168: a plain store to stack memory is held: no byte of memory changes, and the one held line has exactly the
store's bytes. -/
def heldStores : Prop :=
  ∀ (s s1 : State) (o : Op) (loc : Nat),
    let va := s.memAddr o
    let n := o.bytes
    s.ready (.st o) o = true → s.Reaches (s.g o.ra) va n o.logBytes pS [0] kStore s1 loc → isStack loc = true →
    (o.orderRaw = 0 ∨ o.orderRaw = 5) → s1.partPoison loc n = none →
    ∃ t l, exec (.st o) s = .next t ∧ (t.core s.curCore).gather = [l] ∧ (∀ a, t.byte a = s1.byte a) ∧ t.gran = s1.gran ∧
      l.ctx = s.curCtx ∧ l.loc = loc / 64 * 64 ∧ l.remote = false ∧
      (∀ k, k < 64 → (l.mask.getLsbD k = true ↔ loc % 64 ≤ k ∧ k < loc % 64 + n)) ∧
      (∀ k, k < n → byteOv t [l] (loc + k) = BitVec.ofNat 8 ((s.g o.rd).addr / 256 ^ k)) ∧
      (∀ d, (s.own t).read d = s.cx.read d) ∧ (s.own t).pcc = s.nextPcc o

/-- 08 R167, R168, R175 to R177, 04 R90: a scalar store writes exactly its bytes where it is performed at once, and `stc` its
granule with its tag; a plain store to stack memory is held in the gather buffer with exactly its bytes. -/
def Obligations.ScalarStores : Prop := byteStores ∧ granuleStores ∧ heldStores

/-- 08 R180: an atomic at its home returns the old value and writes the new one in the same step, at its width and
zero-extended; `cas` writes only where the old value is the compare value. Nothing else changes. -/
def wordAtomics : Prop :=
  ∀ (s s1 : State) (o : Op) (loc : Nat), s.cx.roomFor (.g o.rd) = true →
    let va := s.memAddr o
    let n := o.bytes
    let w := 8 * n
    let old : BitVec w := BitVec.ofNat w (s1.nat loc n)
    let v : BitVec w := (s.g (if o.hasPreg then o.rb else o.rd)).word.setWidth w
    let new : BitVec w := (s.g o.rb).word.setWidth w
    let cmp : BitVec w := (s.g o.rd).word.setWidth w
    s.Reaches (s.g o.ra) va n o.logBytes pA [0] kAtomic s1 loc → s1.readPoison loc n = none →
    ∀ p ∈ ([(.amoadd, some (old + v)), (.amoswp, some v), (.amoand, some (old &&& v)), (.amoor, some (old ||| v)),
            (.amomin, some (if old.sle v then old else v)), (.amomax, some (if v.sle old then old else v)),
            (.cas, if old = cmp then some new else none)] : List ((Op → Instr) × Option (BitVec w))),
      s.ready (p.1 o) o = true →
      s.Loads (match p.2 with | some x => s1.store loc (toLE x.toNat n) false | none => s1) (p.1 o) o va (.g o.rd)
        (putVal old) (setL ||| setS)

/-- 08 R181: `casp` compares all 129 bits of a granule with g[D], writes g[B] where they agree, and returns the old granule,
without its tag unless the authority holds LC. -/
def pairAtomics : Prop :=
  ∀ (s s1 : State) (o : Op) (loc : Nat), s.cx.roomFor (.g o.rd) = true →
    let va := s.memAddr o
    let c := s.g o.ra
    let new := s.g o.rb
    let old := s1.granule loc
    s.ready (.casp o) o = true →
    s.Reaches c va 16 4 (if new.tag then pA ||| pSC else pA) [0] kAtomic s1 loc → s1.readPoison loc 16 = none →
    s.Loads (if old = s.g o.rd then s1.storeGranule loc new else s1) (.casp o) o va (.g o.rd)
      (.g ⟨old.data, old.tag && c.perms &&& pLC != 0⟩) (setL ||| setS)

/-- 08 R180, R181: an atomic reads and writes its word, and `casp` its granule, in one step at its home, and the old value is
its outstanding result. -/
def Obligations.AtomicsUpdateAtHome : Prop := wordAtomics ∧ pairAtomics

/-- 08 R175, 04 R90, 11 R228: what a store of bytes does to memory. Every byte stored reads back, every other byte that no
accepted leaf entry holds is as it was, C of every granule touched is clear, and F is kept or set. -/
def Obligations.StoreOfBytesSpecified : Prop :=
  ∀ (s : State) (loc : Nat) (bs : List Byte) (setF : Bool), s.noLeaf loc bs.length = true →
    let t := s.store loc bs setF
    (∀ k, k < bs.length → some (t.byte (loc + k)) = bs[k]?) ∧
    (∀ a, (a < loc ∨ loc + bs.length ≤ a) → t.byte a = s.byte a) ∧
    (∀ k, k < bs.length → t.cBit (loc + k) = false ∧ t.fBit (loc + k) = (setF || s.fBit (loc + k)) ∧
      t.poison (loc + k) = (s.poison (loc + k) && !covers loc bs.length ((loc + k) / 16 * 16))) ∧
    (∀ a, (∀ k, k < bs.length → (loc + k) / 16 ≠ a / 16) → t.marks a = s.marks a) ∧
    (s.canonical = true → t.canonical = true)

/-- 04 R87, 08 R174: the checks of an access come in their order. Through a capability without a tag every scalar memory
form raises CAPT; with a tag and unsealed, but without a permission that it needs, CAPP with the missing permissions; with
them, but out of bounds, CAPB; and with all of that, but unaligned, ALN. No register and no byte changes. -/
def Obligations.AccessChecksTrapInOrder : Prop :=
  ∀ (s : State) (o : Op), s.trapReady = true → s.cx.roomFor (.g o.rd) = true →
    let c := s.g o.ra
    let withSC (p : Nat) (v : GReg) : Nat := if v.tag then p ||| pSC else p
    ∀ p ∈ ([(.ld o, o.bytes, o.logBytes, pL), (.ldc o, 16, 4, pL), (.ldf o, 1, 0, pF),
            (.ldFe o, o.bytes, o.logBytes, pL ||| pF), (.ldFec o, o.bytes, o.logBytes, pL ||| pF),
            (.st o, o.bytes, o.logBytes, pS), (.stc o, 16, 4, withSC pS (s.g o.rd)), (.stN4 o, 1, 0, pS),
            (.stFs o, o.bytes, o.logBytes, pS ||| pF), (.stFw o, o.bytes, o.logBytes, pS ||| pF),
            (.amoadd o, o.bytes, o.logBytes, pA), (.amoswp o, o.bytes, o.logBytes, pA),
            (.amoand o, o.bytes, o.logBytes, pA), (.amoor o, o.bytes, o.logBytes, pA),
            (.amomin o, o.bytes, o.logBytes, pA), (.amomax o, o.bytes, o.logBytes, pA),
            (.cas o, o.bytes, o.logBytes, pA), (.casp o, 16, 4, withSC pA (s.g o.rb)), (.setb o, 8, 3, pS),
            (.waitb o, 8, 3, pL)] : List (Instr × Nat × Nat × Nat)),
      s.mayIssue p.1 o = true →
      let va := if p.1 = .stN4 o then c.word + BitVec.ofInt 64 (o.off / 2) else s.memAddr o
      (c.tag = false → s.Raises p.1 o tCAPT va 1) ∧
      (c.tag = true → c.otype = 0 → c.expo ≤ 43 →
        let missing := p.2.2.2 &&& (c.perms ^^^ 0xFFF)
        (missing ≠ 0 → s.Raises p.1 o tCAPP va (BitVec.ofNat 64 missing)) ∧
        (missing = 0 →
          let inside := c.bounds.1 ≤ (va.toNat : Int) ∧ ((va.toNat + p.2.1 : Nat) : Int) ≤ c.bounds.2
          (¬ inside → s.Raises p.1 o tCAPB va (BitVec.ofNat 64 p.2.1)) ∧
          (inside → va.toNat % 2 ^ p.2.2.1 ≠ 0 → s.Raises p.1 o tALN va (BitVec.ofNat 64 p.2.2.1))))

/-! ## The system forms -/

/-- The page 7 forms, with the operand that the words give them. -/
def page7Forms (s : State) (o : Op) : List (Instr × Op) :=
  [(.mfcs o, o), (.mtcs o, o), (.tlbi o, o), (.bankcfg o, o), (.bankq o, o), (.probew o, o), (.prober o, o), (.pjr o, o),
   (.pjclr o, o), (.cseal o, o), (.cunseal o, o), (.lease o, o), (.leaseq o, o)] ++
  [(.eret, s.opr), (.wfi, s.opr), (.rcflush, s.opr), (.l1inv, s.opr), (.l1wb, s.opr), (.tlbia, s.opr)]

/-- 11 R238: a page 7 form in a helper raises ILL and has no effect. -/
def Obligations.PageSevenInHelperRaisesIll : Prop :=
  ∀ (s : State) (o : Op), s.curCtx ≠ 0 → s.trapReady = true →
    ∀ p ∈ page7Forms s o, s.Raises p.1 p.2 tILL s.pc 4

/-- 11 R226: `eret` clears HND. Of a trap of the control context it returns to EPC, or to ERPC where bit 0 of that is set,
past the instruction after `svc`; of a trap of a STOPPED helper it makes the helper LIVE there, ends its unit, or leaves it
STOPPED, as ACT says. Without a trap being handled it raises ILL. -/
def Obligations.EretReturnsFromTheTrap : Prop :=
  ∀ (s : State), s.curCtx = 0 → s.ready .eret s.opr = true →
    let r := s.ck.cr
    let code := r.ecause.toNat % 256
    let c := r.ecause.toNat / 2 ^ 12 % 16
    let ilen := r.ecause.toNat / 2 ^ 19 % 8
    let act := r.ecause.toNat / 2 ^ 24 % 4
    let a0 := if r.erpc.getLsbD 0 then r.erpc &&& ~~~1#64 else r.epc
    let a := if code = tSVC then a0 + BitVec.ofNat 64 (2 * ilen) else a0
    (r.ecause.getLsbD 23 = false → evecOk r.evec = true → s.Raises .eret s.opr tILL s.pc 10) ∧
    (r.ecause.getLsbD 23 = true →
      (c = 0 → a.getLsbD 0 = false →
        ∃ t, exec .eret s = .next t ∧ (t.core s.curCore).cr = { r with ecause := r.ecause &&& ~~~0x800000#64 } ∧
          (∀ d, (s.own t).read d = s.cx.read d) ∧ (s.own t).pcc = s.cx.pcc.withAddr a) ∧
      (1 ≤ c → c ≤ 10 → code ≠ tCHK → (s.ctx s.curCore c).st = .stopped →
        ∃ t, exec .eret s = .next t ∧ (∀ d, (s.own t).read d = s.cx.read d) ∧ (s.own t).pcc = s.nextPcc s.opr ∧
          (act ≠ 1 → (t.core s.curCore).cr = { r with ecause := r.ecause &&& ~~~0x800000#64 }) ∧
          (act = 0 → (t.ctx s.curCore c).st = .live ∧
            (t.ctx s.curCore c).pcc = (s.ctx s.curCore c).pcc.withAddr a ∧
            ∀ d, (t.ctx s.curCore c).read d = (s.ctx s.curCore c).read d) ∧
          (act = 1 → (t.ctx s.curCore c).st = .free) ∧
          (2 ≤ act → (t.ctx s.curCore c).st = .stopped)))

/-- 11 R240, 04 R78, R84, R93, Table 38: `mfcs` reads a control register, a g register or PCC of a context of the core, and `mtcs`
writes one of a STOPPED helper. Where the core has context blocks, `mfcs` reads an evicted register from its slot and writes a live
one back to it, and `mtcs` leaves the value in the slot, without an entry. -/
def Obligations.SystemAccessToContexts : Prop :=
  ∀ (s : State) (o : Op), s.curCtx = 0 →
    let c := (s.g o.ra).addr % 16
    let n := o.k1 % 128
    let v := s.g o.rd
    let slot := (s.ck.cr.ctxbase.toNat + c * 16384 + 16 * (n - 64)) % 2 ^ 40
    let inSlot (t : State) (x : GReg) : Prop := t.granule slot = x ∧ ∀ a, (a < slot ∨ slot + 16 ≤ a) → t.byte a = s.byte a
    c ≤ 10 →
    (s.ready (.mfcs o) o = true →
      (n ≤ 14 ∨ (c = 0 ∧ 32 ≤ n ∧ n ≤ 42) → s.Completes (.mfcs o) o [(.g o.rd, .g (s.readCr s.curCore c n))]) ∧
      (64 ≤ n → n < 96 → s.ck.cr.ctxbase = 0 →
        s.Completes (.mfcs o) o [(.g o.rd, .g ((s.ctx s.curCore c).rg (n - 64)))]) ∧
      (64 < n → n < 96 → s.ck.cr.ctxbase ≠ 0 → (s.ctx s.curCore c).holds (.g (n - 64)) = true →
        (s.ctx s.curCore c).isPending (.g (n - 64)) = false →
        (s.ck.entry c (.g (n - 64)) = none → s.Completes (.mfcs o) o [(.g o.rd, .g (s.granule slot))]) ∧
        ((s.ck.entry c (.g (n - 64))).isSome = true → slot % 16 = 0 → s.noLeaf slot 16 = true →
          ∃ t, exec (.mfcs o) s = .next t ∧ inSlot t ((s.ctx s.curCore c).rg (n - 64)) ∧
            (∀ d, (s.own t).read d = if d = .g o.rd then d.holds (.g ((s.ctx s.curCore c).rg (n - 64))) else s.cx.read d) ∧
            (s.own t).pcc = s.nextPcc o)) ∧
      (n = 96 → s.Completes (.mfcs o) o [(.g o.rd, .g (s.ctx s.curCore c).pcc)])) ∧
    (s.ready (.mtcs o) o = true → 1 ≤ c → (s.ctx s.curCore c).st = .stopped →
      (n ≤ 14 → ∃ t, exec (.mtcs o) s = .next t ∧ (∀ d, (s.own t).read d = s.cx.read d) ∧
        (∀ d, (t.ctx s.curCore c).read d = (s.ctx s.curCore c).read d) ∧
        (n = 11 → (t.ctx s.curCore c).cr = { (s.ctx s.curCore c).cr with budget := v.word }) ∧
        (n = 9 → v.word.toNat % 8 ≤ 4 → (t.ctx s.curCore c).cr = { (s.ctx s.curCore c).cr with fpm := v.word &&& 7 }) ∧
        (n = 2 → (t.ctx s.curCore c).cr = (s.ctx s.curCore c).cr)) ∧
      (64 ≤ n → n < 96 → s.ck.cr.ctxbase = 0 →
        ∃ t, exec (.mtcs o) s = .next t ∧ (∀ d, (s.own t).read d = s.cx.read d) ∧
          (∀ d, (t.ctx s.curCore c).read d =
            if d = .g (n - 64) then d.holds (.g v) else (s.ctx s.curCore c).read d)) ∧
      (64 < n → n < 96 → s.ck.cr.ctxbase ≠ 0 → slot % 16 = 0 → s.noLeaf slot 16 = true →
        ∃ t, exec (.mtcs o) s = .next t ∧ inSlot t v ∧ (t.core s.curCore).entry c (.g (n - 64)) = none ∧
          (∀ d, (s.own t).read d = s.cx.read d) ∧ (∀ d, (t.ctx s.curCore c).read d =
            if d = .g (n - 64) then .g v else (s.ctx s.curCore c).read d) ∧ (s.own t).pcc = s.nextPcc o) ∧
      (n = 96 → v.tag = true → v.broken = false → v.perms &&& pX ≠ 0 →
        ∃ t, exec (.mtcs o) s = .next t ∧ (∀ d, (s.own t).read d = s.cx.read d) ∧ (t.ctx s.curCore c).pcc = v))

/-- 08 R161, 11 R242: `bankcfg` answers 2 for another role of bank 7, 3 for a reserved role and 0 where it leaves the role or may
change it; a bank that changes role to PAD reads as zero. `bankq` reads a bank's role, marks and counts. That bank 7 asked for PAD
answers 0, and for the reserved role 2, is the model's choice (log 92). -/
def Obligations.BankRolesAndQueries : Prop :=
  ∀ (s : State) (o : Op), s.curCtx = 0 →
    let a := (s.g o.ra).addr
    let b := a % 8
    let r := a / 16 % 4
    (s.ready (.bankcfg o) o = true → s.cx.roomFor (.g o.rd) = true →
      (b = 7 → r ≠ 1 → ∃ t, s.Answers (.bankcfg o) o 2 t ∧ (t.core s.curCore).banks = s.ck.banks) ∧
      (b ≠ 7 → r = 3 → ∃ t, s.Answers (.bankcfg o) o 3 t ∧ (t.core s.curCore).banks = s.ck.banks) ∧
      ((b ≠ 7 ∧ r ≤ 2 ∨ r = 1) → (s.ck.bank b).role = Role.ofCode r →
        ∃ t, s.Answers (.bankcfg o) o 0 t ∧ (t.core s.curCore).banks = s.ck.banks) ∧
      (b ≠ 7 → r = 1 → (s.ck.bank b).role = .way → s.ck.fifoBanks = [] →
        ∃ t, exec (.bankcfg o) s = .next t ∧ ((t.core s.curCore).bank b).role = .pad ∧
          (∀ k, k < 16384 → t.byte (lsLoc s.curCore (b * 16384 + k)) = 0) ∧
          (∀ d, (s.own t).read d = s.cx.read d) ∧ (s.own t).pcc = s.nextPcc o)) ∧
    (s.ready (.bankq o) o = true → o.k1.testBit 4 = false →
      let k := s.ck.bank b
      s.Completes (.bankq o) o [(.g o.rd, putVal (BitVec.ofNat 64 (Role.code k.role + k.chg.toNat * 4 + k.head * 8 +
        k.tail * 2 ^ 18 + k.used * 2 ^ 33 + Store.get 0 s.ck.drops (o.k1 % 16) * 2 ^ 48)))])

/-- 11 R243, R244, 19 R296: `probew` puts an image that passes its checks, with COUNT zero, into the entry that g[D] names, `prober`
writes an entry's image to memory, `pjr` a journal entry's, and `pjclr` frees a REFUSED journal entry. -/
def Obligations.ProbesAndJournal : Prop :=
  ∀ (s s1 : State) (o : Op) (g : Segs) (v : Nat), s.curCtx = 0 →
    let a := s.g o.ra
    let d := s.g o.rd
    let i := a.addr % 32
    (s.ready (.probew o) o = true → s.vifOf s.curCore = some v → s.opened.blockAt a 96 4 (pL ||| pY) kLoad = some (s1, g) →
      s1.poisonSegs g = none →
      let img := s1.readSegs g (a.perms &&& pLC != 0)
      Probe.checks img s.pc = .ok () →
      ∃ t, exec (.probew o) s = .next t ∧ Store.get [] (t.vif v).probes (d.addr % 256) = (Probe.written img).norm ∧
        (∀ e, (s.own t).read e = s.cx.read e) ∧ (∀ b, t.byte b = s1.byte b) ∧ (s.own t).pcc = s.nextPcc o) ∧
    (s.ready (.prober o) o = true → s.opened.blockAt a 96 4 (pS ||| pY) kStore = some (s1, g) →
      ∃ t, exec (.prober o) s = .next t ∧
        (let w := s1.writeSegs g (a.perms &&& pSC != 0) (s1.probe s.curCore (d.addr % 256)).granules
         w.KeepsRest t) ∧
        (∀ e, (s.own t).read e = s.cx.read e) ∧ (s.own t).pcc = s.nextPcc o) ∧
    (s.ready (.pjr o) o = true → s.opened.blockAt d 32 5 (pS ||| pY) kStore = some (s1, g) →
      ∃ t, exec (.pjr o) s = .next t ∧ (s1.writeSegs g false (s.ck.jent i).image).KeepsRest t ∧
        (∀ e, (s.own t).read e = s.cx.read e) ∧ (s.own t).pcc = s.nextPcc o) ∧
    (s.ready (.pjclr o) o = true →
      ((s.ck.jent i).st = 2 → ∃ t, exec (.pjclr o) s = .next t ∧ ((t.core s.curCore).jent i).st = 0 ∧
        (∀ j, j ≠ i → (t.core s.curCore).jent j = s.ck.jent j) ∧
        (∀ e, (s.own t).read e = if e = .g o.rd then e.holds (putVal 1#64) else s.cx.read e)) ∧
      ((s.ck.jent i).st ≠ 2 → s.Completes (.pjclr o) o [(.g o.rd, putVal 0#64)]))

/-- 11 R245, 04 R86, R89: under an authority that is tagged, unsealed and holds Y, `cseal` seals g[D] with the object type
that its address names, 1 to 14, and `cunseal` unseals a g[D] of that type, 2 to 14. A seal keeps the tag where g[D] may
be derived, and of a channel only at a channel's address. -/
def Obligations.SealAndUnseal : Prop :=
  ∀ (s : State) (o : Op), s.curCtx = 0 →
    let a := s.g o.ra
    let d := s.g o.rd
    a.tag = true → a.otype = 0 → a.expo ≤ 43 → a.perms &&& pY ≠ 0 →
    (s.ready (.cseal o) o = true → 1 ≤ a.addr → a.addr ≤ 14 →
      s.Completes (.cseal o) o [(.g o.rd, .g ((d.withOtype a.addr).withTag
        (d.tag && decide (d.otype = 0) && decide (d.expo ≤ 43) && (decide (a.addr ≠ 2) || isChannelAddr d.word))))]) ∧
    (s.ready (.cunseal o) o = true → 2 ≤ a.addr → a.addr ≤ 14 → a.addr = d.otype →
      s.Completes (.cunseal o) o [(.g o.rd, .g ((d.withOtype 0).withTag (d.tag && decide (d.expo ≤ 43))))])

/-- 11 R246, R233: `lease` advances the lease generation of every core of the pen by one and answers it; `leaseq` answers the
generation of the core that its operand names. -/
def leases : Prop :=
  ∀ (s : State) (o : Op), s.curCtx = 0 → s.cx.roomFor (.g o.rd) = true →
    let w := (s.g o.ra).word
    (s.ready (.lease o) o = true → w.getLsbD 0 = false → s.purging (fun c => (s.leaseCores s.curCore).contains c) = false →
      s.curCore ∈ s.leaseCores s.curCore →
      ∃ t, s.Answers (.lease o) o (s.ck.cr.lease + 1).toNat t ∧
        (∀ c ∈ s.leaseCores s.curCore, (t.core c).cr.lease = s.ck.cr.lease + 1) ∧
        ∀ c, c ∉ s.leaseCores s.curCore → t.core c = s.core c) ∧
    (s.ready (.leaseq o) o = true → ∀ c, s.namedCore w = some c →
      ∃ t, s.Answers (.leaseq o) o (s.core c).cr.lease.toNat t)

/-- 11 R239, R241, R222: `wfi` ends at once where no trap is pending; the cache forms change no byte; an invalidation of the
core's own extent leaves the core no translation that it names; all of them count as completed at once. -/
def waitsAndInvalidations : Prop :=
  ∀ (s : State) (o : Op), s.curCtx = 0 →
    (s.ready .wfi s.opr = true → s.trapDue s.curCore = false → s.Completes .wfi s.opr []) ∧
    (∀ i ∈ [Instr.l1inv, Instr.l1wb], s.ready i s.opr = true →
      ∃ t, exec i s = .next t ∧ s.Keeps t [] ∧ (s.own t).pcc = s.nextPcc s.opr) ∧
    (s.ready .rcflush s.opr = true → s.ck.cr.ctxbase = 0 →
      ∃ t, exec .rcflush s = .next t ∧ s.Keeps t [] ∧ (s.own t).pcc = s.nextPcc s.opr) ∧
    (s.ready (.tlbi o) o = true → o.k1 % 4 = 0 →
      ∃ t, exec (.tlbi o) s = .next t ∧ (∀ d, (s.own t).read d = s.cx.read d) ∧ (∀ a, t.byte a = s.byte a) ∧
        (∀ e, e ∈ (t.core s.curCore).utlb ↔ e ∈ s.ck.utlb ∧
          ¬ ((e.kernel = true ∨ e.vif = (s.g o.rd).addr % 64) ∧ e.vpn = (s.g o.ra).addr / 2 ^ pageBits e.level)) ∧
        (s.own t).pcc = s.nextPcc o) ∧
    (s.ready .tlbia s.opr = true → s.opr.k1 % 4 = 0 →
      ∃ t, exec .tlbia s = .next t ∧ (∀ d, (s.own t).read d = s.cx.read d) ∧ (∀ a, t.byte a = s.byte a) ∧
        (∀ e, e ∈ (t.core s.curCore).utlb ↔ e ∈ s.ck.utlb ∧ e.kernel = false ∧ e.vif ≠ (s.g s.opr.rd).addr % 64) ∧
        (s.own t).pcc = s.nextPcc s.opr)

/-- 11 R239, R241, R246: `lease` advances the generation of every core of the pen and `leaseq` reads one; `wfi` ends at once
where no trap is pending (the model's choice, log 15), and the invalidations complete and change no byte. -/
def Obligations.LeasesWaitsAndInvalidations : Prop := leases ∧ waitsAndInvalidations

/-! ## The vector forms -/

/-- 07 R142, R144: the two-source lane forms of page 2 write every active element of the shape, zero or keep the inactive
ones, and change nothing else. -/
def Obligations.IntegerLanesTwoSource : Prop :=
  ∀ (s : State) (o : Op), s.calm o = true →
    let e := o.elemBits
    let sg := o.signed
    let val (x : BitVec e) : Int := if sg then x.toInt else x.toNat
    let lo : Int := if sg then -(2 ^ (e - 1) : Nat) else 0
    let hi : Int := if sg then (2 ^ (e - 1) : Nat) - 1 else (2 ^ e : Nat) - 1
    let clamp (x : Int) : BitVec e := BitVec.ofInt e (max lo (min hi x))
    ∀ p ∈ ([(.vadd, fun a b => a + b), (.vsub, fun a b => a - b),
            (.vaddsat, fun a b => clamp (val a + val b)), (.vsubsat, fun a b => clamp (val a - val b)),
            (.vmul, fun a b => a * b), (.vmulh, fun a b => BitVec.ofInt e (val a * val b / (2 ^ e : Nat))),
            (.vmin, fun a b => if val a ≤ val b then a else b), (.vmax, fun a b => if val b ≤ val a then a else b),
            (.vand, fun a b => a &&& b), (.vor, fun a b => a ||| b), (.vxor, fun a b => a ^^^ b),
            (.vandn, fun a b => a &&& ~~~b), (.vshl, fun a b => a <<< (b.toNat % e)),
            (.vshr, fun a b => if sg then a.sshiftRight (b.toNat % e) else a >>> (b.toNat % e))] :
          List ((Op → Instr) × (BitVec e → BitVec e → BitVec e))),
      s.CompletesLanes (p.1 o) o e (fun i => p.2 (laneOf (s.v o.s1) e i) (laneOf (s.v o.s2) e i))

/-- 07 R142, R144, R145, R155: the one- and three-source lane forms of page 2, the broadcast, the index and the byte lookup. -/
def Obligations.IntegerLanesOtherForms : Prop :=
  ∀ (s : State) (o : Op), s.calm o = true →
    let e := o.elemBits
    let a (i : Nat) := laneOf (s.v o.ra) e i
    let b (i : Nat) := laneOf (s.v o.rb) e i
    let d (i : Nat) := laneOf (s.v o.rd) e i
    let x : BitVec e := (s.g o.ra).word.setWidth e
    let quarter (v : BitVec e) (j : Nat) : Int :=
      let q : BitVec (e / 4) := v.extractLsb' (j * (e / 4)) (e / 4)
      if o.signed then q.toInt else q.toNat
    (∀ p ∈ ([(.vabs, fun i => if o.signed then (a i).abs else a i), (.vneg, fun i => -(a i)), (.vmov, a),
             (.vpopc, fun i => (a i).cpop), (.vclz, fun i => (a i).clz),
             (.vmac, fun i => d i + a i * b i),
             (.vdot4, fun i => d i + BitVec.ofInt e (quarter (a i) 0 * quarter (b i) 0 + quarter (a i) 1 * quarter (b i) 1 +
               quarter (a i) 2 * quarter (b i) 2 + quarter (a i) 3 * quarter (b i) 3)),
             (.vbcast, fun _ => x), (.vidx, fun i => x + BitVec.ofNat e i)] :
           List ((Op → Instr) × (Nat → BitVec e))),
      s.CompletesLanes (p.1 o) o e p.2) ∧
    (∃ r, s.Completes (.vsel o) o [(.v o.rd, .v r)] ∧
      (∀ i, i < o.shapeBits / e → laneOf r e i = if s.laneOn o e i then a i else b i) ∧
      (∀ n, o.shapeBits ≤ n → r.getLsbD n = (!o.z && (s.v o.rd).getLsbD n))) ∧
    s.CompletesLanes (.vlutb o) o 8 (fun i => laneOf (s.v o.s2) 8 (laneOf (s.v o.s1) 8 i).toNat)

/-- 07 R145, R146, 04 R74: the compares write a predicate, and only that; the predicate forms act on all 256 bits; p0 stays all
ones. `pcnt` and `pfirst` count and find the active set elements. -/
def Obligations.PredicateResults : Prop :=
  ∀ (s : State) (o : Op), s.calm o = true →
    let e := o.elemBits
    let val (x : BitVec e) : Int := if o.signed then x.toInt else x.toNat
    let a (i : Nat) := val (laneOf (s.v o.s1) e i)
    let b (i : Nat) := val (laneOf (s.v o.s2) e i)
    let p1 := s.p (if o.hasPreg then o.pa else o.pd)
    let p2 := s.p (if o.hasPreg then o.pb else o.pa)
    let set (i : Nat) : Bool := (s.p o.pa).getLsbD (i * e / 8) && s.laneOn o e i
    let hits := (List.range (o.shapeBits / e)).filter set
    (∀ c ∈ ([(.vceq, fun i => decide (a i = b i)), (.vcne, fun i => decide (a i ≠ b i)),
             (.vclt, fun i => decide (a i < b i)), (.vcle, fun i => decide (a i ≤ b i))] :
           List ((Op → Instr) × (Nat → Bool))),
      ∃ q, s.Completes (c.1 o) o [(.p o.pd, .p q)] ∧ s.PredIs o e q c.2) ∧
    (∀ c ∈ ([(.pand, p1 &&& p2), (.por, p1 ||| p2), (.pxor, p1 ^^^ p2), (.pnot, ~~~(s.p o.pa))] :
           List ((Op → Instr) × PredReg)),
      s.Completes (c.1 o) o [(.p o.pd, .p c.2)]) ∧
    s.Completes (.pcnt o) o [(.g o.rd, putVal (BitVec.ofNat 64 hits.length))] ∧
    s.Completes (.pfirst o) o [(.g o.rd, putVal (BitVec.ofNat 64 (hits.headD (o.shapeBits / e))))]

/-- 07 R147, R148, 05 R113: the moves of one element, and the reductions: the sum, the greatest, the least and the bitwise AND
of the active elements, extended as their type says; over no element, the identity. -/
def Obligations.ElementMovesAndReductions : Prop :=
  ∀ (s : State) (o : Op), s.calm o = true →
    let e := o.elemBits
    let sg := o.signed
    let val (x : BitVec e) : Int := if sg then x.toInt else x.toNat
    let ext (x : BitVec e) : RVal := putVal (BitVec.ofInt 64 (val x))
    let i := o.k1 % 256
    let fold (f : BitVec e → BitVec e → BitVec e) (x : BitVec e) : BitVec e :=
      (List.range (o.shapeBits / e)).foldl (fun y j => if s.laneOn o e j then f y (laneOf (s.v o.ra) e j) else y) x
    s.Completes (.vext o) o [(.g o.rd, if i < 2048 / e then ext (laneOf (s.v o.ra) e i) else putVal 0#64)] ∧
    (2048 / e ≤ i → s.Completes (.vins o) o []) ∧
    (i < 2048 / e → ∃ r, s.Completes (.vins o) o [(.v o.rd, .v r)] ∧
      laneOf r e i = (s.g o.ra).word.setWidth e ∧ ∀ j, j < 2048 / e → j ≠ i → laneOf r e j = laneOf (s.v o.rd) e j) ∧
    s.Completes (.vrsum o) o [(.g o.rd, ext (fold (fun x y => x + y) 0))] ∧
    s.Completes (.vrmax o) o [(.g o.rd, ext (fold (fun x y => if val y ≤ val x then x else y)
      (if sg then BitVec.intMin e else 0)))] ∧
    s.Completes (.vrmin o) o [(.g o.rd, ext (fold (fun x y => if val x ≤ val y then x else y)
      (if sg then BitVec.intMax e else BitVec.allOnes e)))] ∧
    s.Completes (.vrand o) o [(.g o.rd, ext (fold (fun x y => x &&& y) (BitVec.allOnes e)))]

/-- 07 R149, R150: `vcvtw` widens the elements of its part, and `vcvtn` narrows with clamping into its part alone; to
64 bits it copies, by the narrow rule, which is the model's choice (log 90). -/
def Obligations.IntegerLaneConversions : Prop :=
  ∀ (s : State) (o : Op), s.calm o = true →
    let e := o.elemBits
    let sg := o.signed
    let h := e / 2
    let w := if e = 64 then 64 else 2 * e
    let lo : Int := if sg then -(2 ^ (e - 1) : Nat) else 0
    let hi : Int := if sg then (2 ^ (e - 1) : Nat) - 1 else (2 ^ e : Nat) - 1
    let wide (i : Nat) : BitVec w := laneOf (s.v o.ra) w i
    s.CompletesLanes (.vcvtw o) o e (fun i =>
      let x : BitVec h := laneOf (s.v o.ra) h (o.k1 % 2 * (o.shapeBits / e) + i)
      if sg then x.signExtend e else x.setWidth e) ∧
    ∃ r, s.Completes (.vcvtn o) o [(.v o.rd, .v r)] ∧
      s.NarrowAre o w e (o.k1 % 2 % (w / e)) (s.v o.rd) r (fun i =>
        BitVec.ofInt e (max lo (min hi (if sg then (wide i).toInt else (wide i).toNat))))

/-- 07 R142, R151, 05 R103 to R106: the floating lane forms that complete at once. The lanes are computed by the operations of 05
in the format that ET names, and FFLAGS takes the flags of the active lanes alone. -/
def Obligations.FloatLaneResults : Prop :=
  ∀ (s : State) (o : Op), s.calm o = true →
    let f := o.vffmt
    let e := f.width
    let a (i : Nat) := (laneOf (s.v o.s1) e i).toNat
    let b (i : Nat) := (laneOf (s.v o.s2) e i).toNat
    let x (i : Nat) := (laneOf (s.v o.ra) e i).toNat
    let y (i : Nat) := (laneOf (s.v o.rb) e i).toNat
    let d (i : Nat) := (laneOf (s.v o.rd) e i).toNat
    ∀ p ∈ ([(.vfadd, fun i => f.op2 FV.add (a i) (b i)), (.vfsub, fun i => f.op2 FV.sub (a i) (b i)),
            (.vfmul, fun i => f.op2 FV.mul (a i) (b i)), (.vfmin, fun i => fminmax f false false (a i) (b i)),
            (.vfmax, fun i => fminmax f true false (a i) (b i)), (.vfminp, fun i => fminmax f false true (a i) (b i)),
            (.vfmaxp, fun i => fminmax f true true (a i) (b i)), (.vfma, fun i => f.fmaOp false (x i) (y i) (d i)),
            (.vfnma, fun i => f.fmaOp true (x i) (y i) (d i)),
            (.vfclass, fun i => (fclassBits f (x i), 0)), (.vfabs, fun i => (x i % 2 ^ (e - 1), 0)),
            (.vfneg, fun i => (x i ^^^ 2 ^ (e - 1), 0)),
            (.vscale, fun i => f.encode .rne ((f.decode (a i)).scaleClamped (laneOf (s.v o.s2) e i).toInt)),
            (.vfrnd, fun i => ((f.encode .rne ((f.decode (x i)).integral (vfrndMode o.k1)).1).1,
              ((f.decode (x i)).integral (vfrndMode o.k1)).2 &&& fNV))] :
          List ((Op → Instr) × (Nat → Nat × Flags))),
      s.CompletesFLanes (p.1 o) o e p.2

/-- 07 R145, R151, 05 R113: the floating compares write a predicate and raise the flags of their active lanes; the floating
reductions write the root of their tree. -/
def Obligations.FloatComparesAndReductions : Prop :=
  ∀ (s : State) (o : Op), s.calm o = true →
    let f := o.vffmt
    let e := f.width
    let a (i : Nat) := (laneOf (s.v o.s1) e i).toNat
    let b (i : Nat) := (laneOf (s.v o.s2) e i).toNat
    let elems (idn : Nat) := (List.range (o.shapeBits / e)).map (fun i =>
      if s.laneOn o e i then (laneOf (s.v o.ra) e i).toNat else idn)
    (∀ c ∈ ([(.vfceq, fcmp true FV.eqv f), (.vfclt, fcmp false FV.lt f), (.vfcle, fcmp false FV.le f),
             (.vfcun, fcmp true (fun u v => u.isNan || v.isNan) f)] :
           List ((Op → Instr) × (Nat → Nat → Nat × Flags))),
      ∃ q fl, s.CompletesF (c.1 o) o (.p o.pd) (.p q) fl ∧ s.PredIs o e q (fun i => (c.2 (a i) (b i)).1 == 1) ∧
        ∀ n, n < 5 → (fl.getLsbD n = true ↔
          ∃ i, i < o.shapeBits / e ∧ s.laneOn o e i = true ∧ (c.2 (a i) (b i)).2.getLsbD n = true)) ∧
    s.CompletesF (.vfrsum o) o (.g o.rd) (putVal (BitVec.ofNat 64 (treeSum f (elems (2 ^ (e - 1)))).1))
      (treeSum f (elems (2 ^ (e - 1)))).2 ∧
    s.CompletesF (.vfrmax o) o (.g o.rd) (putVal (BitVec.ofNat 64 (treeMax f (elems f.nan)).1)) (treeMax f (elems f.nan)).2

/-- 07 R143, R151, R152: division, square root and the special functions leave v[D] pending with the values of their lanes as
they were read at issue. A special function's value, where the spec leaves it open, is the one that `SpecFn.apply` takes from the
configuration within the bound. -/
def Obligations.SlowFloatLanesPend : Prop :=
  ∀ (s : State) (o : Op), s.calm o = true → s.cx.roomFor (.v o.rd) = true →
    let f := o.vffmt
    let e := f.width
    let a (i : Nat) := (laneOf (s.v o.s1) e i).toNat
    let b (i : Nat) := (laneOf (s.v o.s2) e i).toNat
    let x (i : Nat) := (laneOf (s.v o.ra) e i).toNat
    ∀ p ∈ ([(.vfdiv, fun i => f.op2 FV.div (a i) (b i)), (.vfsqrt, fun i => f.op1 FV.sqrt (x i)),
            (.vfrsqrt, fun i => SpecFn.rsqrt.apply f (x i)), (.vfexp2, fun i => SpecFn.exp2.apply f (x i)),
            (.vflog2, fun i => SpecFn.log2.apply f (x i)), (.vfrecip, fun i => SpecFn.recip.apply f (x i)),
            (.vftanh, fun i => SpecFn.tanh.apply f (x i)), (.vfsig, fun i => SpecFn.sig.apply f (x i)),
            (.vfgelu, fun i => SpecFn.gelu.apply f (x i))] : List ((Op → Instr) × (Nat → Nat × Flags))),
      s.PendsLanes (p.1 o) o e p.2

/-- 07 R150, R153, R154: the conversions of page 3 pair their elements by width and part, round under FPM.RM, and apply the
block scale of each 32 narrow elements exactly; a scale of 255 takes the NaN row. That a conversion between equal widths follows the
wide rule is the model's choice (log 90). -/
def Obligations.FloatLaneConversions : Prop :=
  ∀ (s : State) (o : Op), s.calm o = true →
    let k := o.k1 % 8
    let part := o.k1 / 8 % 16
    let d := etFmt o.et
    let sf := etFmt k
    let qf := etFmt (k % 4)
    let n := 8 * 2 ^ (k % 4)
    let uns := decide (4 ≤ k)
    let rm := s.rmode
    let scale (j : Nat) : Nat := ((s.g o.rb).data.extractLsb' (8 * (j / 32)) 8).toNat
    s.Converts (.vcvt o) o sf.width d.width part (fun _ a => d.encode rm (sf.decode a)) ∧
    s.Converts (.vcvti o) o d.width n part (fun _ a =>
      let r := (d.decode a).toInt rm (if uns then 0 else -(2 ^ (n - 1) : Nat))
        (if uns then (2 ^ n : Nat) - 1 else (2 ^ (n - 1) : Nat) - 1)
      ((BitVec.ofInt n r.1).toNat, r.2)) ∧
    s.Converts (.vcvtf o) o n d.width part (fun _ a =>
      d.encode rm (FV.ofInt (if uns then (a : Int) else (BitVec.ofNat n a).toInt))) ∧
    s.Converts (.vquant o) o qf.width d.width part (fun j a =>
      d.encode rm (if scale j = 255 then .nan (qf.decode a).isSig else (qf.decode a).scale (127 - scale j))) ∧
    s.Converts (.vdequant o) o d.width qf.width part (fun j a =>
      if scale j = 255 then (qf.nan, fNV) else qf.encode rm ((d.decode a).scale ((scale j : Int) - 127)))

/-- 07 R155: the permutes and lookups of page 4, lane by lane; `vcomp` packs the active elements. -/
def Obligations.PermuteResults : Prop :=
  ∀ (s : State) (o : Op), s.calm o = true →
    let e := width4 o.et
    let n := o.shapeBits / e
    let x (i : Nat) := laneOf (s.v o.s1) e i
    let y (i : Nat) := laneOf (s.v o.s2) e i
    let a (i : Nat) := laneOf (s.v o.ra) e i
    let d (i : Nat) := laneOf (s.v o.rd) e i
    let idx (i : Nat) := (laneOf (s.v o.rb) e i).toNat % (2 * n)
    let c := o.k2 % 1024
    let half := o.k1 % 2
    let act := (List.range n).filter (s.laneOn o e)
    (∀ p ∈ ([(.vperm, fun i => x ((y i).toNat % n)),
             (.vperm2, fun i => if idx i < n then d (idx i) else a (idx i - n)),
             (.vsld, fun i => if i + c < n then x (i + c) else if i + c < 2 * n then y (i + c - n) else 0),
             (.vsrd, fun i => if c ≤ i then x (i - c) else if c ≤ n + i then y (n + i - c) else 0),
             (.vzip, fun i => (if i % 2 = 0 then x else y) (half * (n / 2) + i / 2)),
             (.vunzip, fun i => if i < n / 2 then x (2 * i + half) else y (2 * (i - n / 2) + half)),
             (.vexp, fun i => a (act.idxOf i)),
             (.vlut, fun i => y (laneOf (s.v o.s1) 4 i).toNat)] : List ((Op → Instr) × (Nat → BitVec e))),
      s.CompletesLanes (p.1 o) o e p.2) ∧
    (∃ r, s.Completes (.vcomp o) o [(.v o.rd, .v r)] ∧
      (∀ i, i < act.length → laneOf r e i = a (act.getD i 0)) ∧
      (∀ i, act.length ≤ i → i < n → laneOf r e i = if o.z then 0 else d i) ∧
      (∀ b, o.shapeBits ≤ b → r.getLsbD b = (!o.z && (s.v o.rd).getLsbD b)))

/-! ## Vector memory -/

/-- The vector loads, with the element addresses of each; the first Bool says that its elements are consecutive, the
second that it is a full/empty form (08 Table 88). -/
def vecLoads (o : Op) : List (Instr × Bool × Bool × (State → Nat → Nat → Int)) :=
  [(.vld o, true, false, addrUnit o), (.vlds o, false, false, addrStride o), (.vldx o, false, false, addrIndex o),
   (.vldFe o, true, true, addrUnit o)]

/-- The vector stores. -/
def vecStores (o : Op) : List (Instr × Bool × Bool × (State → Nat → Nat → Int)) :=
  [(.vst o, true, false, addrUnit o), (.vsts o, false, false, addrStride o), (.vstx o, false, false, addrIndex o),
   (.vstFs o, true, true, addrUnit o)]

/-- 08 R179: the vector loads and stores. Each active element is checked and located at its own address; a load puts
every one of them into its lane, and a store writes every one, the later of two over the earlier, and no other byte.
`vldp` and `vstp` move the 32 bytes of a p register. -/
def Obligations.VectorMemoryMoves : Prop :=
  ∀ (s s1 : State) (o : Op),
    let base := s.memAddr o
    let c := s.g o.ra
    let scopeCr (i : Instr) (es : List Elem) : CtxRegs := match es.find? (fun x => isWindow x.va) with
      | some x => s.scopedCr i o x.va
      | none => s.cx.cr
    (∀ p ∈ vecLoads o, ∀ es, s.ready p.1 o = true → s.cx.roomFor (.v o.rd) = true →
      let e := vmBits o p.2.1
      let fe := p.2.2.1
      (fe = true → base.toNat % 16 = 0) →
      State.vmAll c e (if fe then pL ||| pF else pL) kLoad none (s.vmElems o e (p.2.2.2 s e)) s.opened = .ok (s1, es, false) →
      (∀ x ∈ es, s1.poison x.loc = false ∧ (fe = true → s1.fBit x.loc = true)) →
      es.map (fun x => (x.lane / e, (x.va.toNat : Int))) = s.vmElems o e (p.2.2.2 s e) ∧
      ∃ t r, exec p.1 s = .next t ∧ s1.KeepsRest t ∧ (∀ d, (s.own t).read d = s.cx.read d) ∧
        (s.own t).outs = s.cx.outs ++ [⟨s.nextId, .v o.rd, false, true, .ready (.v r) 0, setL, [], s.pc⟩] ∧
        (s.own t).cr = s.retiredCr p.1 o (scopeCr p.1 es) ∧
        (s.own t).pcc = s.nextPcc o ∧
        s.LanesAre o e (s.v o.rd) r (fun i => match es.find? (fun x => x.lane == i * e) with
          | some x => BitVec.ofNat e (x.read s1 [])
          | none => 0)) ∧
    (∀ p ∈ vecStores o, ∀ es, s.ready p.1 o = true →
      let e := vmBits o p.2.1
      let fs := p.2.2.1
      (fs = true → base.toNat % 16 = 0) →
      State.vmAll c e (if fs then pS ||| pF else pS) kStore none (s.vmElems o e (p.2.2.2 s e)) s.opened = .ok (s1, es, false) →
      (∀ x ∈ es, s1.poison x.loc = false ∧ s1.noLeaf x.loc x.size = true) →
      es.map (fun x => (x.lane / e, (x.va.toNat : Int))) = s.vmElems o e (p.2.2.2 s e) ∧
      ∃ t, exec p.1 s = .next t ∧ s1.StoresOnly t ∧
        (∀ l x r, es = l ++ x :: r →
          (∀ y ∈ r, y.loc + y.size ≤ x.loc ∨ x.loc + x.size ≤ y.loc ∨ (e < 8 ∧ y.loc = x.loc ∧ y.bit ≠ x.bit)) →
          x.read t [] = vget (s.v o.rd) x.lane x.width) ∧
        (∀ a, (∀ x ∈ es, a < x.loc ∨ x.loc + x.size ≤ a) → t.byte a = s1.byte a) ∧
        (∀ x ∈ es, t.cBit x.loc = false ∧ t.fBit x.loc = (fs || s1.fBit x.loc)) ∧
        (∀ a, (∀ x ∈ es, x.loc / 16 ≠ a / 16) → t.marks a = s1.marks a) ∧
        (s.own t).outs = s.cx.outs ++ [⟨s.nextId, .none, false, true, .ready .none 0, setS, [], s.pc⟩] ∧
        (s.own t).cr = s.retiredCr p.1 o (scopeCr p.1 es) ∧
        (s.own t).pcc = s.nextPcc o) ∧
    (∀ loc, s.ready (.vldp o) o = true → s.Reaches c base 32 5 pL [0] kLoad s1 loc → s1.readPoison loc 32 = none →
      s.Loads s1 (.vldp o) o base (.p o.pd) (.p (BitVec.ofNat 256 (s1.nat loc 32))) setL) ∧
    (∀ loc, s.ready (.vstp o) o = true → s.Reaches c base 32 5 pS [0] kStore s1 loc → s1.partPoison loc 32 = none →
      s1.noLeaf loc 32 = true → s.Stores s1 (.vstp o) o base loc (toLE (s.p o.pd).toNat 32) false)

/-! ## The gang -/

/-- 07 R157, R158: `gget` reads and `gput` writes a register of a member in the same step, a FREE member reading as zero and
dropping what is put, and a tag passes only on a capability that holds K. A member contributes to its next round, behind what it has
brought to earlier ones, and nothing else changes while another member is still to come. A collective whose last member arrives ends
the round of every member: the arriving one has its result lane by lane, over the contributions of slots 0 to 3, and every other
member that brought a collective has its own result over the same contributions in its destination, unless it has written that since
(R159, 04 R82). -/
def Obligations.GangReachesAndCollectives : Prop :=
  ∀ (s : State) (o : Op), (∀ x ∈ s.cx.outs, x.id ≠ s.nextId) →
    let m := s.gangPeer o
    let vf := gangFileV o
    let peer := s.ctx m s.curCtx
    let d : Dest := if vf then .v o.rd else .g o.rd
    (s.calm o = true → s.cx.roomFor d = true →
      s.Pends (.gget o) o d (if vf then .v (if peer.st = .free then 0 else peer.rv o.ra)
        else .g (if peer.st = .free then GReg.null else (peer.rg o.ra).withTag
          ((peer.rg o.ra).tag && (peer.rg o.ra).perms &&& pK != 0))) 0) ∧
    (s.calm o = true → (if vf then s.cx.pendingV < 4 else s.cx.pendingG < 8) →
      ∃ t, exec (.gput o) s = .next t ∧ (∀ a, t.byte a = s.byte a) ∧
        (∀ c, c ≠ m → c ≠ s.curCore → t.core c = s.core c) ∧
        (m ≠ s.curCore → ∀ e, (s.own t).read e = s.cx.read e) ∧
        (∀ e, (t.ctx m s.curCtx).read e = if e = d ∧ peer.st ≠ .free then
          d.holds (if vf then .v (s.v o.ra) else .g ((s.g o.ra).withTag ((s.g o.ra).tag && (s.g o.ra).perms &&& pK != 0)))
          else peer.read e) ∧
        (s.own t).pcc = s.nextPcc o) ∧
    ∀ p ∈ ([(.gsum o, o, .sum, true), (.gmax o, o, .max, true), (.gbcast o, o, .bcast (o.k1 % 4), true),
            (.gsync, s.opr, .sync, false)] : List (Instr × Op × GangOp × Bool)),
      s.calm p.2.1 = true →
      (if p.2.2.2 then s.cx.roomFor (.v o.rd) = true else s.cx.pendingV < 4) → s.cx.st ≠ .free →
      let member (i : Nat) : Ctx := s.ctx (troupeCore s.curCore i) s.curCtx
      let mine : Gang := ⟨p.2.2.1, BitVec.ofNat 3 p.2.1.et, p.2.1.z, s.p p.2.1.pr, s.v p.2.1.ra, s.v p.2.1.rd, p.2.1.rd, s.nextId⟩
      let here (i : Nat) : Option Gang :=
        if troupeCore s.curCore i = s.curCore then some mine else (member i).brought
      let done (i : Nat) : Bool := (member i).st == .free || decide ((member i).gangSkip ≠ 0) || (here i).isSome
      ((∃ i, i < 4 ∧ troupeCore s.curCore i ≠ s.curCore ∧ (member i).st ≠ .free ∧ (member i).gangSkip = 0 ∧
          (member i).gang = []) → ∃ t, exec p.1 s = .next t ∧ (s.own t).gang = s.cx.gang ++ [mine] ∧
        (∀ e, (s.own t).read e = s.cx.read e) ∧ (∀ c, c ≠ s.curCore → t.core c = s.core c) ∧
        (∀ a, t.byte a = s.byte a) ∧ (s.own t).pcc = s.nextPcc p.2.1) ∧
      (s.cx.gang = [] → s.cx.gangSkip = 0 → (∀ i, i < 4 → done i = true) → ∃ t, exec p.1 s = .next t ∧
        (s.own t).gang = [] ∧
        (∀ i, i < 4 → troupeCore s.curCore i ≠ s.curCore →
          let u := t.ctx (troupeCore s.curCore i) s.curCtx
          u.gang = (if (member i).gangSkip = 0 then (member i).gang.tail else (member i).gang) ∧
          (here i = none → ∀ e, u.read e = (member i).read e) ∧
          ∀ g, here i = some g → (∀ x ∈ u.outs, x.id ≠ g.out) ∧ ∀ e, u.read e =
            if e = .v g.dst ∧ g.op ≠ .sync ∧ ((member i).outs.any (fun x => x.id == g.out && x.sup)) = false then
              .v (gangResult g ((List.range 4).map here)).1 else (member i).read e) ∧
        (∀ a, t.byte a = s.byte a) ∧
        (∀ e, (p.2.2.2 = true → e ≠ .v o.rd) → (s.own t).read e = s.cx.read e) ∧
        (∀ c, (∀ i, i < 4 → c ≠ troupeCore s.curCore i) → t.core c = s.core c) ∧
        (s.own t).pcc = s.nextPcc p.2.1 ∧
        let lanes (e : Nat) (x : Nat → Nat) : Prop := ∃ r, (s.own t).read (.v o.rd) = .v r ∧ ∀ i, i < 2048 / e →
          laneOf r e i = if mine.pred.getLsbD (i * e / 8) then BitVec.ofNat e (x i) else
            if mine.z then 0 else laneOf (s.v o.rd) e i
        let f := gangFmt mine.et.toNat
        match p.2.2.1 with
        | .sum => lanes f.width (fun i => (treeSum f ((List.range 4).map (fun k => gangLane f.negZero f.width i (here k)))).1)
        | .max => lanes f.width (fun i => (treeMax f ((List.range 4).map (fun k => gangLane f.nan f.width i (here k)))).1)
        | .bcast k => lanes (width4 mine.et.toNat) (fun i => match here k with
            | some g => if g.op = .sync then 0 else (laneOf g.src (width4 mine.et.toNat) i).toNat
            | none => 0)
        | .sync => True)

/-! ## Messages and calls -/

/-- The fields of a message header that the executing core composes (01 Table 9): no reply is asked, and the reserved bits are
zero. -/
structure HeaderFields (s : State) (h : BitVec 256) (opc len pri chn kind dcl didx ctx hnd : Nat) : Prop where
  reply : h.extractLsb' 128 128 = 0
  opc : h.extractLsb' 112 16 = BitVec.ofNat 16 opc
  pgen : h.extractLsb' 96 16 = BitVec.ofNat 16 (s.pgenOf s.curCore)
  viid : h.extractLsb' 90 6 = BitVec.ofNat 6 (s.vifNo s.curCore)
  len : h.extractLsb' 87 3 = BitVec.ofNat 3 len
  pri : h.extractLsb' 84 3 = BitVec.ofNat 3 pri
  chn : h.extractLsb' 80 4 = BitVec.ofNat 4 chn
  kind : h.extractLsb' 77 3 = BitVec.ofNat 3 kind
  dcl : h.extractLsb' 72 5 = BitVec.ofNat 5 dcl
  didx : h.extractLsb' 64 8 = BitVec.ofNat 8 didx
  orcl : h.extractLsb' 59 5 = BitVec.ofNat 5 (s.lclOf s.curCore)
  oridx : h.extractLsb' 51 8 = BitVec.ofNat 8 (cidxOf s.curCore)
  orctx : h.extractLsb' 47 4 = BitVec.ofNat 4 ctx
  hnd : h.extractLsb' 40 7 = BitVec.ofNat 7 hnd
  reserved : h.extractLsb' 0 40 = 0

/-- What a message to a channel carries in its header: its address names the receiver, the priority and the channel. -/
def headerIs (s : State) (h : BitVec 256) (opc len : Nat) (dst : Word) : Prop :=
  HeaderFields s h opc len (dst.extractLsb' 4 3).toNat (dst.extractLsb' 0 4).toNat 0 (dst.extractLsb' 25 5).toNat
    (dst.extractLsb' 17 8).toNat s.curCtx 0

/-- 09 R194: `send` sends the body that its capability reaches, and `sendr` that of g4 to g7, as one message: the header
names the sender, the receiver and the channel, and the poison of each granule goes with it (11 R228). No register and no byte
changes. A tagged granule of object type 15, or without K, raises CAPT or CAPP instead (04 R86, 01 R18). That the slots in use count
calls and replies too is the model's choice (log 84). -/
def sends : Prop :=
  ∀ (s s1 : State) (o : Op) (g : Segs), s.sendSlots s.curCore < 8 →
    let a := s.g o.ra
    let nb := o.k1 % 8
    let body := s1.readSegs g (a.perms &&& pLC != 0)
    (s.ready (.send o) o = true →
      let c := s.g o.rd
      checkCap c c.word 0 pM [2] = .ok () → (s.windowCore s.curCore c.word).isSome = true →
      s.opened.blockAt a (32 * nb) 5 pL kLoad = some (s1, g) →
      (o.k1.testBit 3 = false → s.trapReady = true → ∀ tr, bodyBad false a.word body = some tr →
        s.Raises (.send o) o tr.code tr.addr tr.info) ∧
      (o.k1.testBit 3 = false → bodyBad false a.word body = none →
        ∃ t m, exec (.send o) s = .next t ∧ t.net = s.net ++
            [⟨s.nextId, .msg s.curCore s.curCtx m c.word (s.pgenOf s.curCore) 0 0 s.pc noLid⟩] ∧
          headerIs s m.header 0x100 nb c.word ∧ m.body = body ∧ m.void = false ∧
          m.pois = (segGranules g).map s1.poison ∧
          (∀ d, (s.own t).read d = s.cx.read d) ∧ (∀ b, t.byte b = s1.byte b) ∧ (s.own t).pcc = s.nextPcc o) ∧
      (o.k1.testBit 3 = true → nb = 3 → s1.poisonSegs g = none → checkRec (recOf body) false = .ok () →
        let sent := body.modify 0 (fun h => withIds h s.task)
        bodyBad true a.word sent = none → s1.countRoom (lidOf s.task) = true →
        ∃ t m, exec (.send o) s = .next t ∧ t.net = s.net ++
            [⟨s.nextId, .msg s.curCore s.curCtx m c.word (s.pgenOf s.curCore) 0 0 s.pc (lidOf s.task)⟩] ∧
          headerIs s m.header 0x102 3 c.word ∧ m.body = sent ∧ m.void = false ∧ (∀ x ∈ m.pois, x = false) ∧
          (∀ d, (s.own t).read d = s.cx.read d) ∧ (∀ b, t.byte b = s1.byte b) ∧ (s.own t).pcc = s.nextPcc o)) ∧
    (s.ready .sendr s.opr = true →
      let c := s.g s.opr.rd
      let gs := [s.g 4, s.g 5, s.g 6, s.g 7]
      let goes (x : GReg) : Prop := x.tag = true → x.otype ≠ 15 ∧ x.perms &&& pK ≠ 0
      checkCap c c.word 0 pM [2] = .ok () → (s.windowCore s.curCore c.word).isSome = true →
      (s.trapReady = true → ∀ l x r, gs = l ++ x :: r → (∀ y ∈ l, goes y) → x.tag = true →
        (x.otype = 15 → s.Raises .sendr s.opr tCAPT x.word 2) ∧
        (x.otype ≠ 15 → x.perms &&& pK = 0 → s.Raises .sendr s.opr tCAPP x.word (BitVec.ofNat 64 pK))) ∧
      ((∀ x ∈ gs, goes x) →
      ∃ t m, exec .sendr s = .next t ∧ t.net = s.net ++
          [⟨s.nextId, .msg s.curCore s.curCtx m c.word (s.pgenOf s.curCore) 0 0 s.pc noLid⟩] ∧
        headerIs s m.header 0x101 2 c.word ∧ m.body = gs ∧ m.void = false ∧ m.pois = [] ∧
        (∀ d, (s.own t).read d = s.cx.read d) ∧ (∀ b, t.byte b = s.byte b) ∧ (s.own t).pcc = s.nextPcc s.opr))

/-- 09 R195: `recv` and `recvp` take the message at the head of their channel's bank, write its granules and return
header[127:64]; where the bank is empty `recv` waits there and `recvp` returns 0. -/
def Obligations.ReceivesTakeTheHead : Prop :=
  ∀ (s s1 : State) (o : Op) (g : Segs) (b : Nat), (∀ x ∈ s.cx.outs, x.id ≠ s.nextId) →
    let ch := o.k1 % 16
    let a := s.g o.ra
    let tags := a.perms &&& pSC != 0
    s.ck.chanBank ch = some b → s.ck.firstRecv b = none → s.opened.blockAt a 256 5 pS kStore = some (s1, g) →
    (∀ m rest, (s.ck.bank b).items = .msg m :: rest → m.void = false → s1.headPoison s.curCore b m = none →
      let w := s1.writeSegs g tags m.granules
      let res := putVal (m.header.extractLsb' 64 64)
      (s.ready (.recv o) o = true → s.cx.roomFor (.g o.rd) = true →
        ∃ t, exec (.recv o) s = .next t ∧ (∀ x, t.byte x = w.byte x) ∧ t.gran = w.gran ∧
          ((t.core s.curCore).bank b).items = rest ∧ (∀ d, (s.own t).read d = s.cx.read d) ∧
          (s.own t).outs = s.cx.outs ++ [⟨s.nextId, .g o.rd, false, true, .ready res 0, setL, [], s.pc⟩] ∧
          (s.own t).pcc = s.nextPcc o) ∧
      (s.ready (.recvp o) o = true →
        ∃ t, exec (.recvp o) s = .next t ∧ (∀ x, t.byte x = w.byte x) ∧ t.gran = w.gran ∧
          ((t.core s.curCore).bank b).items = rest ∧
          (∀ d, (s.own t).read d = if d = .g o.rd then d.holds res else s.cx.read d) ∧ (s.own t).pcc = s.nextPcc o)) ∧
    ((s.ck.bank b).items = [] →
      (s.ready (.recv o) o = true → s.cx.roomFor (.g o.rd) = true →
        ∃ t, exec (.recv o) s = .next t ∧ (∀ x, t.byte x = s1.byte x) ∧ t.gran = s1.gran ∧
          (∀ d, (s.own t).read d = s.cx.read d) ∧
          (s.own t).outs = s.cx.outs ++ [⟨s.nextId, .g o.rd, false, true, .recv ch g tags, setL, [], s.pc⟩] ∧
          (s.own t).pcc = s.nextPcc o) ∧
      (s.ready (.recvp o) o = true →
        ∃ t, exec (.recvp o) s = .next t ∧ (∀ x, t.byte x = s1.byte x) ∧ t.gran = s1.gran ∧
          (∀ d, (s.own t).read d = if d = .g o.rd then d.holds (putVal 0#64) else s.cx.read d) ∧
          (s.own t).pcc = s.nextPcc o))

/-- 09 R196 to R198: `callat` makes the lowest free reply slot BUSY for its context, empties it, returns a capability to it
and sends its record, behind a header whose OPC is a free value (log 85); `retto` sends its value to the slot that its capability
names. -/
def callsAndReplies : Prop :=
  ∀ (s : State) (o : Op), s.sendSlots s.curCore < 8 → s.opened.countRoom (lidOf s.task) = true →
    (s.ready (.callat o) o = true → ∀ target i,
      let args := [s.g 4, s.g 5, s.g 6, s.g 7]
      let loc := lsLoc s.curCore (slotOff i)
      s.namedCore (s.g o.rb).word = some target →
      checkRec ⟨.null, s.g o.ra, args⟩ (target != s.curCore) = .ok () →
      (List.range 64).find? (fun j => (Store.get ReplySlot.init s.ck.slots j).st == .free) = some i →
      s.noLeaf loc 16 = true →
      ∃ t r id h, exec (.callat o) s = .next t ∧ headerIs s h (Config.recordOpc 0).toNat 3 (s.windowAddr target 0) ∧
        Store.get ReplySlot.init (t.core s.curCore).slots i = ⟨.busy, s.curCtx, lidOf s.task⟩ ∧
        t.granule loc = .null ∧ t.fBit loc = false ∧ (∀ a, (a < loc ∨ loc + 16 ≤ a) → t.byte a = s.byte a) ∧
        (∀ d, (s.own t).read d = if d = .g o.rd then
            d.holds (.g (makeCap (pL ||| pLC ||| pF) 3 (s.windowAddr s.curCore (slotOff i)).toNat 16
              (s.windowAddr s.curCore (slotOff i)))) else s.cx.read d) ∧
        t.net = s.net ++ [⟨id, .record s.curCore s.curCtx s.nextId h r (s.windowAddr target 0) (s.pgenOf s.curCore) 0 0 i⟩] ∧
        r.entry = s.g o.ra ∧ r.args = args ∧ r.lid = lidOf s.task ∧ r.header.data.extractLsb' 28 6 = BitVec.ofNat 6 i ∧
        r.header.data.getLsbD 47 = true ∧ (s.own t).pcc = s.nextPcc o) ∧
    (s.ready (.retto o) o = true →
      let c := s.g o.rd
      let v := s.g o.ra
      let a := c.word
      c.tag = true → c.broken = false → c.otype = 3 → c.perms &&& pS ≠ 0 → isSlotAddr a = true →
      c.bounds.1 ≤ (a.toNat : Int) → ((a.toNat + 16 : Nat) : Int) ≤ c.bounds.2 →
      (s.windowCore s.curCore a).isSome = true → (v.tag = true → v.otype ≠ 15 ∧ v.perms &&& pK ≠ 0) →
      ∃ t, exec (.retto o) s = .next t ∧ t.net = s.net ++
          [⟨s.nextId, .reply s.curCore s.curCtx a v (lidOf s.task) (s.pgenOf s.curCore)⟩] ∧
        (∀ d, (s.own t).read d = s.cx.read d) ∧ (∀ b, t.byte b = s.byte b) ∧ (s.own t).pcc = s.nextPcc o)

/-- 09 R194, R196 to R198: `send`, `sendr`, `callat` and `retto` put one message, call or reply on the network, with the
contents that the spec lays out, and change no register and no byte but those of a call's reply slot. -/
def Obligations.SendsCallsAndReplies : Prop := sends ∧ callsAndReplies

/-! ## Tasks -/

/-- 09 R188, R190, R191: `dqpush` puts a record at the bottom of the core's deque, or answers 0 where it holds 64; `dqpop`
takes the record at the bottom; `dqsteal` asks the victim, or answers 0 without one; `dqlen` reads a length. -/
def Obligations.DequeForms : Prop :=
  ∀ (s s1 : State) (o : Op) (g : Segs), s.cx.roomFor (.g o.rd) = true →
    let a := s.g o.ra
    let answer (t : State) (v : Nat) (sets : BitVec 4) : Prop := (∀ d, (s.own t).read d = s.cx.read d) ∧
      (s.own t).outs = s.cx.outs ++
        [⟨s.nextId, .g o.rd, false, true, .ready (putVal (BitVec.ofNat 64 v)) 0, sets, [], s.pc⟩] ∧
      (s.own t).pcc = s.nextPcc o
    (s.ready (.dqpush o) o = true → s.opened.blockAt a 96 4 pL kLoad = some (s1, g) → s1.poisonSegs g = none →
      let r := recOf (s1.readSegs g (a.perms &&& pLC != 0))
      checkRec r false = .ok () →
      (s.ck.deque.length < 64 → s1.countRoom r.lid = true → ∃ t, exec (.dqpush o) s = .next t ∧ answer t 1 setM ∧
        (t.core s.curCore).deque = s.ck.deque ++ [r] ∧ ∀ b, t.byte b = s1.byte b) ∧
      (64 ≤ s.ck.deque.length → ∃ t, exec (.dqpush o) s = .next t ∧ answer t 0 setM ∧
        (t.core s.curCore).deque = s.ck.deque ∧ ∀ b, t.byte b = s1.byte b)) ∧
    (s.curCtx = 0 → s.opened.blockAt a 96 4 pS kStore = some (s1, g) →
      (s.ready (.dqpop o) o = true →
        (∀ r rest, s.ck.deque = rest ++ [r] → ∃ t, exec (.dqpop o) s = .next t ∧ answer t 1 setL ∧
          (t.core s.curCore).deque = rest ∧ (t.core s.curCore).taken = some r.lid ∧
          ∀ b, t.byte b = (s1.writeSegs g (a.perms &&& pSC != 0) (r.header :: r.entry :: r.args)).byte b) ∧
        (s.ck.deque = [] → ∃ t, exec (.dqpop o) s = .next t ∧ answer t 0 setL ∧ ∀ b, t.byte b = s1.byte b)) ∧
      (s.ready (.dqsteal o) o = true →
        (s.victim s.curCore = none → ∃ t, exec (.dqsteal o) s = .next t ∧ answer t 0 setL ∧ ∀ b, t.byte b = s1.byte b) ∧
        ((s.victim s.curCore).isSome = true → ∃ t, exec (.dqsteal o) s = .next t ∧
          (∀ d, (s.own t).read d = s.cx.read d) ∧ (s.own t).outs = s.cx.outs ++
            [⟨s.nextId, .g o.rd, false, true, .steal g (a.perms &&& pSC != 0), setL, [], s.pc⟩] ∧
          (∀ b, t.byte b = s1.byte b) ∧ (s.own t).pcc = s.nextPcc o))) ∧
    (s.ready (.dqlen o) o = true → ∀ c, s.namedCore a.word = some c →
      s.Completes (.dqlen o) o [(.g o.rd, putVal (BitVec.ofNat 64
        (if c = s.curCore then s.ck.deque.length else s.ck.reportOf c)))])

/-- 09 R199 to R201, 04 Table 35: `start` makes the lowest FREE helper LIVE at the record's entry with its four arguments
in g4 to g7, or answers 0 where no helper is FREE; `join` on a FREE helper returns how its last unit ended; `done` makes
its helper FREE; `sched` takes a task message, else a record of the deque, into the task buffer. -/
def Obligations.HelperLife : Prop :=
  ∀ (s s1 : State) (o : Op) (g : Segs),
    (s.curCtx = 0 → s.ready (.start o) o = true → s.ck.startHeld = false →
      let a := s.g o.ra
      s.opened.blockAt a 96 4 pL kLoad = some (s1, g) → s1.poisonSegs g = none →
      let r := recOf (s1.readSegs g (a.perms &&& pLC != 0))
      checkRec r false = .ok () →
      (∀ x, s.ck.freeHelper = some x → s1.launchOver r.lid = false → s.ck.cr.ctxbase ≠ 0 →
          (s1.countRoom r.lid = true ∨ s1.ck.taken = some r.lid) →
        ∃ t, exec (.start o) s = .next t ∧
          (let h := t.ctx s.curCore x
           h.st = .live ∧ h.pcc = r.entry.withOtype 0 ∧ (∀ j, j < 4 → h.rg (4 + j) = r.args.getD j .null) ∧
             h.rg 3 = selfWindowCap ∧ (∀ j, 8 ≤ j → h.rg j = .null) ∧ (∀ j, h.rv j = 0) ∧ h.outs = [] ∧
             lidOf h.task = r.lid) ∧
          (∀ d, (s.own t).read d = if d = .g o.rd then d.holds (putVal (BitVec.ofNat 64 x)) else s.cx.read d) ∧
          (∀ b, t.byte b = s1.byte b) ∧ (s.own t).pcc = s.nextPcc o) ∧
      (s.ck.freeHelper = none → ∃ t, exec (.start o) s = .next t ∧ s1.KeepsRest t ∧
        (∀ d, (s.own t).read d = if d = .g o.rd then d.holds (putVal 0#64) else s.cx.read d) ∧
        (s.own t).pcc = s.nextPcc o)) ∧
    (s.curCtx = 0 → s.ready (.join o) o = true → s.trapDue s.curCore = false →
      let x := (s.g o.ra).addr % 16
      1 ≤ x → x ≤ 10 → (s.ctx s.curCore x).st = .free →
      ∃ t, exec (.join o) s = .next t ∧
        (∀ d, (s.own t).read d = if d = .g o.rd then d.holds (putVal (match (s.ctx s.curCore x).ended with
          | .done => 1#64 | .cancelled => 2#64 | .none => 3#64)) else s.cx.read d) ∧
        (t.ctx s.curCore x).ended = .none ∧ (∀ b, t.byte b = s.byte b) ∧ (s.own t).pcc = s.nextPcc o) ∧
    (s.curCtx ≠ 0 → s.ready .doneUnit s.opr = true → s.cx.hflts = [] → s.cx.outs = [] →
      ∃ t, exec .doneUnit s = .next t ∧ (s.own t).st = .free ∧ (s.own t).ended = .done ∧ ∀ b, t.byte b = s.byte b) ∧
    (s.curCtx = 0 → s.ready .sched s.opr = true → s.trapDue s.curCore = false → s.cx.roomFor (.g 8) = true →
      let buf := taskBuf s.curCore
      let answer (t : State) (v : Nat) : Prop := (∀ d, (s.own t).read d = s.cx.read d) ∧
        (s.own t).outs = s.cx.outs ++
          [⟨s.nextId, .g 8, false, true, .ready (putVal (BitVec.ofNat 64 v)) 0, setL, [], s.pc⟩] ∧
        (s.own t).pcc = s.nextPcc s.opr
      (∀ b m rest, s.ck.fifoBanks = [b] → (s.ck.bank b).items = .msg m :: rest → m.void = false → m.isTask = true →
        s.headPoison s.curCore b m = none →
        ∃ t, exec .sched s = .next t ∧ answer t 1 ∧ ((t.core s.curCore).bank b).items = rest ∧
          (t.core s.curCore).taken = some (recOf m.body).lid ∧
          ∀ x, t.byte x = (s.storeGranules buf true (recOf m.body).granules).byte x) ∧
      (s.ck.fifoBanks = [] →
        (∀ r rest, s.ck.deque = rest ++ [r] → ∃ t, exec .sched s = .next t ∧ answer t 2 ∧
          (t.core s.curCore).deque = rest ∧ (t.core s.curCore).taken = some r.lid ∧
          ∀ x, t.byte x = (s.storeGranules buf true r.granules).byte x) ∧
        (s.ck.deque = [] → s.victim s.curCore = none → ∃ t, exec .sched s = .next t ∧ answer t 0 ∧
          ∀ x, t.byte x = s.byte x)))

/-- 09 R202, R204, R205: a barrier whose last participant arrives answers it with the generation, or `barq` alone with its value,
and goes on to the next generation; an earlier one waits. Of a partition that spans packages rank 0 counts its own arrivals with
those of the others, and another rank sends its own on (24 R374). `lcnt` reads and `lcancel` cancels a level of the task; `fence`
retires at once and makes its successor set wait for what is not performed of its predecessor set. -/
def Obligations.BarriersLevelsAndFences : Prop :=
  ∀ (s : State) (o : Op), (∀ x ∈ s.cx.outs, x.id ≠ s.nextId) →
    (s.cx.roomFor (.g o.rd) = true → o.k1.testBit 4 = false → ∀ v i p, s.penOf s.curCore = some (v, i, p) →
      p.has s.curCore = true →
      let id := o.k1 % 16
      let b := Store.get Barrier.init p.bars id
      let others := s.opened.arrivals p.has false id
      ∀ q ∈ ([(.bar o, false, 0#64, (s.g o.ra).addr % 65536), (.barq o, true, (s.g o.ra).word, (s.g o.rb).addr % 65536)] :
          List (Instr × Bool × Word × Nat)), s.ready q.1 o = true →
        let want := b.n.getD q.2.2.2
        let ends (t : State) (w : Wait) (b' : Barrier) : Prop := (∀ d, (s.own t).read d = s.cx.read d) ∧
          (s.own t).outs.getLast? = some ⟨s.nextId, .g o.rd, false, true, w, 0, [], s.pc⟩ ∧
          (((t.vif v).pens[i]?).map (fun p => Store.get Barrier.init p.bars id)) = some b' ∧
          (∀ a, t.byte a = s.byte a) ∧ (s.own t).pcc = s.nextPcc o
        (others.length + 1 + b.far < want → ∃ t, exec q.1 s = .next t ∧
          ends t (.bar q.2.1 false id q.2.2.2 q.2.2.1) { b with n := some want }) ∧
        (want ≤ others.length + 1 + b.far → (q.2.1 = true → others = []) → ∃ t, exec q.1 s = .next t ∧
          ends t (.ready (putVal (if q.2.1 then q.2.2.1 else BitVec.ofNat 64 b.gen)) 0)
            ⟨(b.gen + 1) % 65536, none, 0, 0⟩)) ∧
    (s.cx.roomFor (.g o.rd) = true → o.k1.testBit 4 = true → ∀ v, s.vifOf s.curCore = some v →
      let id := o.k1 % 16
      let b := Store.get Barrier.init (s.vif v).bars id
      let others := s.opened.arrivals (fun c => s.vifOf c == some v) true id
      let w := (s.group id).word
      let spans := w.getLsbD 63 = true ∧ (w.extractLsb' 16 6).toNat = v
      let rank := (w.extractLsb' 32 12).toNat
      ∀ q ∈ ([(.bar o, false, 0#64, (s.g o.ra).addr % 65536), (.barq o, true, (s.g o.ra).word, (s.g o.rb).addr % 65536)] :
          List (Instr × Bool × Word × Nat)), s.ready q.1 o = true →
        let want := b.n.getD q.2.2.2
        let waits := Wait.bar q.2.1 true id q.2.2.2 q.2.2.1
        let ends (t : State) (x : Wait) (b' : Barrier) : Prop := (∀ d, (s.own t).read d = s.cx.read d) ∧
          (s.own t).outs.getLast? = some ⟨s.nextId, .g o.rd, false, true, x, 0, [], s.pc⟩ ∧
          Store.get Barrier.init (t.vif v).bars id = b' ∧ (∀ a, t.byte a = s.byte a) ∧ (s.own t).pcc = s.nextPcc o
        let next : Barrier := ⟨(b.gen + 1) % 65536, none, 0, 0⟩
        ((spans → rank = 0) → others.length + 1 + b.far < want → ∃ t, exec q.1 s = .next t ∧
          ends t waits { b with n := some want } ∧ t.ports = s.ports) ∧
        (¬ spans → want ≤ others.length + 1 + b.far → (q.2.1 = true → others = []) → ∃ t, exec q.1 s = .next t ∧
          ends t (.ready (putVal (if q.2.1 then q.2.2.1 else BitVec.ofNat 64 b.gen)) 0) next) ∧
        (spans → rank = 0 → want ≤ others.length + 1 + b.far → (q.2.1 = true → others = []) → ∃ t, exec q.1 s = .next t ∧
          ends t (.ready (putVal (if q.2.1 then maxWord b.farMax q.2.2.1 else BitVec.ofNat 64 b.gen)) 0) next) ∧
        (spans → rank ≠ 0 → others = [] → ∃ t, exec q.1 s = .next t ∧ ends t waits { b with n := some want } ∧
          t.port (grpNext w) = (s.port (grpNext w)).sendData 2 (8 + 16 * id) (Config.fwdPayload 1 want
            (if q.2.1 then maxWord b.farMax q.2.2.1 else b.farMax) false))) ∧
    (let n := (s.g o.ra).addr % 8
     let lid := lidOf s.task
     1 ≤ n → n ≤ 4 → (s.curCtx = 0 ∨ n = 1) →
      (s.ready (.lcnt o) o = true → s.cx.roomFor (.g o.rd) = true → ∃ v, s.Pends (.lcnt o) o (.g o.rd) (putVal v) 0 ∧
        ∀ slot, s.levelSlot lid n = some slot → v = BitVec.ofNat 64 (s.opened.levelCount (lidVif lid) slot)) ∧
      (s.ready (.lcancel o) o = true →
        (s.levelSlot lid n = none → s.Completes (.lcancel o) o [(.g o.rd, putVal 0#64)]) ∧
        (∀ slot, s.levelSlot lid n = some slot → ((s.vif (lidVif lid)).level slot).st ≠ .opened →
          s.Completes (.lcancel o) o [(.g o.rd, putVal 0#64)]) ∧
        (∀ slot, s.levelSlot lid n = some slot → ((s.vif (lidVif lid)).level slot).st = .opened →
          s.benches = [] → s.copies = [] → s.stks = [] → s.net = [] →
          ∃ t, exec (.lcancel o) s = .next t ∧ ((t.vif (lidVif lid)).level slot).st = .cancelling ∧
            (∀ d, (s.own t).read d = if d = .g o.rd then d.holds (putVal 1#64) else s.cx.read d) ∧
            (∀ a, t.byte a = s.byte a) ∧ (s.own t).pcc = s.nextPcc o))) ∧
    (s.ready .fence s.opr = true →
      let ids := pendingOf (s.unperformed s.curCore s.curCtx) (fencePred s.opr)
      ∃ t, exec .fence s = .next t ∧ s.Keeps t [] ∧ (s.own t).orders = s.opened.cx.orders ++
          (if ids = [] ∨ (fenceSucc s.opr = 0 ∧ fencePred s.opr &&& setS = 0) then []
           else [⟨fenceSucc s.opr, ids, some (s.pc, s.pc + BitVec.ofNat 64 (2 * s.opr.words))⟩]) ∧
        (s.own t).pcc = s.nextPcc s.opr)

/-! ## Engine commands -/

/-- How a command is counted at issue (01 Table 11, 15 R273): with D = 0 the counter of its class rises; otherwise the lowest
free handle is its own, and g[D] names it. -/
def takesHandle (s t : State) (cls d : Nat) (hd : Option Nat) : Prop :=
  match hd with
  | none => (t.core s.curCore).counter cls = ⟨(s.ck.counter cls).n + 1, (s.ck.counter cls).err⟩ ∧
      ∀ e, (s.own t).read e = s.cx.read e
  | some h => (t.core s.curCore).handle cls h = ⟨true, s.curCtx, s.nextId, none, false⟩ ∧
      ∀ e, (s.own t).read e = if e = .g d then e.holds (putVal (BitVec.ofNat 64 h)) else s.cx.read e

/-- A handle is free where D asks for one, and the counter is not at its end otherwise. -/
def handleFor (s : State) (cls d : Nat) (hd : Option Nat) : Prop :=
  if d = 0 then hd = none ∧ (s.ck.counter cls).n ≠ 65535 else hd ≠ none ∧ s.ck.freeHandle cls = hd

/-- 15 R273, 13 R254, 23 R356, R357: an engine command whose descriptor passes its checks, where its engine has room and its
launch may count one more, is the last of its engine's queue, with what its descriptor and the control registers gave it
and the header of 01 Table 9. It takes a handle or is counted; `satt` in its response form leaves its result outstanding, and
the HND of its header is the model's choice (log 70). No byte changes. -/
def Obligations.EngineCommandsAreSent : Prop :=
  ∀ (s s1 : State) (o : Op) (g : Segs) (hd : Option Nat),
    let ga := s.g o.ra
    let gs := s1.readSegs g true
    let hnd : Nat := hd.getD 64
    (s.ready (.hire o) o = true → s.opened.blockAt ga 64 4 (pL ||| pLC) kLoad = some (s1, g) → s1.poisonSegs g = none →
      let h := s1.sampleHire gs
      let b := benchOf s.curCore
      h.checks s1 ga = .ok () → (s1.bench b).queued s.curCore < 4 → s1.mayCount = true → handleFor s clsArray o.rd hd →
      ∃ t x, exec (.hire o) s = .next t ∧ HeaderFields s x 0x300 4 0 0 1 (s.lclOf s.curCore) (benchIn s.curCore) s.curCtx hnd ∧
        (t.bench b).hires = (s.bench b).hires ++ [{ h with id := s.nextId, handle := hd, header := x }] ∧
        h.a = gs.getD 0 .null ∧ h.b = gs.getD 1 .null ∧ h.d = gs.getD 2 .null ∧ h.stage = .inbox ∧
        takesHandle s t clsArray o.rd hd ∧ (∀ a, t.byte a = s1.byte a) ∧ (s.own t).pcc = s.nextPcc o) ∧
    (∀ p ∈ ([(.copy o, false, 0), (.copyR o, true, (s.g o.rb).addr % 2 ^ 48)] : List (Instr × Bool × Nat)),
      s.ready p.1 o = true → s.opened.blockAt ga 128 4 (pL ||| pLC) kLoad = some (s1, g) → s1.poisonSegs g = none →
      let c := s1.sampleCopy gs p.2.2
      let e := 2 * (s1.copyCluster c).getD 0 + c.eng
      c.checks s1 ga.word p.2.1 (decide (o.rd = 0)) = .ok () → (s1.copyEng e).length < 16 → s1.mayCount = true →
      handleFor s clsCopy o.rd hd →
      ∃ t x, exec p.1 s = .next t ∧ HeaderFields s x (if p.2.1 then 0x201 else 0x200) (if p.2.1 then 5 else 4) 0 0 2
          (if c.owncl then s.lclOf s.curCore else c.cl) c.eng s.curCtx hnd ∧
        t.copyEng e = s.copyEng e ++ [{ c with id := s.nextId, handle := hd, header := x }] ∧
        c.desc = gs ∧ c.skip = p.2.2 ∧ c.accepted = false ∧
        takesHandle s t clsCopy o.rd hd ∧ (∀ a, t.byte a = s1.byte a) ∧ (s.own t).pcc = s.nextPcc o) ∧
    (s.ready (.satt o) o = true → o.rd ≠ 0 → s.cx.roomFor (.g o.rd) = true →
      s.opened.blockAt ga 128 4 (pL ||| pLC) kLoad = some (s1, g) → s1.poisonSegs g = none →
      let c := s1.sampleStk 0 gs
      c.checks s1 = .ok () → s1.stkRoom c.eng = true →
      ∃ t x, exec (.satt o) s = .next t ∧ HeaderFields s x 0x402 4 0 0 3 0 c.eng s.curCtx o.rd ∧
        t.stkEng c.eng = s.stkEng c.eng ++ [{ c with id := s.nextId, out := s.nextId + 1, header := x }] ∧ c.desc = gs ∧
        (s.own t).outs = s.cx.outs ++ [⟨s.nextId + 1, .g o.rd, false, true, .satt s.nextId, 0, [], s.pc⟩] ∧
        (∀ e, (s.own t).read e = s.cx.read e) ∧ (∀ a, t.byte a = s1.byte a) ∧ (s.own t).pcc = s.nextPcc o) ∧
    (s.ready .sattHandle s.opr = true → s.opr.rd ≠ 0 →
      s.opened.blockAt (s.g s.opr.ra) 128 4 (pL ||| pLC) kLoad = some (s1, g) → s1.poisonSegs g = none →
      let c := s1.sampleStk 1 gs
      c.checks s1 = .ok () → s1.stkRoom c.eng = true → handleFor s clsStack s.opr.rd hd →
      ∃ t x, exec .sattHandle s = .next t ∧ HeaderFields s x 0x400 4 0 0 3 0 c.eng s.curCtx hnd ∧
        t.stkEng c.eng = s.stkEng c.eng ++ [{ c with id := s.nextId, handle := hd, header := x }] ∧
        takesHandle s t clsStack s.opr.rd hd ∧ (∀ a, t.byte a = s1.byte a) ∧ (s.own t).pcc = s.nextPcc s.opr) ∧
    (s.ready (.sblk o) o = true →
      let i := (s.g o.rb).addr % 2 ^ 32
      let a := ga.word + BitVec.ofNat 64 (8 * i)
      let root := match s.vifOf s.curCore with | some v => (s.vif v).troot | none => 0
      check ga a 8 (pS ||| pE) = .ok () → a.toNat % 8 = 0 → ∀ pa, s.opened.translateRoot root a kStore = .ok (s1, pa) →
      s1.stkRoom (pa / 2 ^ 36) = true → (s.ck.counter clsStack).n ≠ 65535 →
      ∃ t c, exec (.sblk o) s = .next t ∧ t.stkEng (pa / 2 ^ 36) = s.stkEng (pa / 2 ^ 36) ++ [c] ∧ c.id = s.nextId ∧
        HeaderFields s c.header 0x401 1 0 0 3 0 (pa / 2 ^ 36) s.curCtx 64 ∧ c.desc = [ga] ∧ c.idx = i ∧
        c.form = 2 ∧ c.pa = pa ∧ c.value = (s.g o.rd).word ∧ c.core = s.curCore ∧ c.ctx = s.curCtx ∧
        takesHandle s t clsStack 0 none ∧ (∀ b, t.byte b = s1.byte b) ∧ (s.own t).pcc = s.nextPcc o)

/-- What a handle reads as for `hpoll`, `cpoll` and `spoll`: 4 where it is not the context's own, 0 while its command has
not completed, and the final status, which frees it (15 R275, 13 R259, 23 R358). -/
def pollValue (v : Option Handle) : Word :=
  match v with
  | none => 4
  | some h => h.done.getD 0

/-- 15 R275 to R278, 13 R259, 23 R358, 19 R307: polls, waits, `hstat`, `cancel` and `hire.r` on a handle, the counters, and the
tap selectors. -/
def Obligations.HandlesCountersAndTaps : Prop :=
  ∀ (s : State) (o : Op),
    let w := (s.g o.ra).addr
    let h := w % 64
    let own (cls : Nat) : Option Handle := s.ck.named cls s.curCtx h false
    let named := if s.curCtx = 0 then w / 4096 % 16 else s.curCtx
    let handle (cls : Nat) : Option Handle := s.ck.named cls named h (decide (s.curCtx = 0))
    let freed (t : State) (cls : Nat) : Prop := ∀ v, own cls = some v → v.done.isSome = true →
      (t.core s.curCore).handle cls h = Handle.init
    let writes (i : Instr) (v : Word) (q : State → Prop) : Prop := ∃ t, exec i s = .next t ∧ q t ∧
      (∀ d, (s.own t).read d = if d = .g o.rd then d.holds (putVal v) else s.cx.read d) ∧
      (∀ a, t.byte a = s.byte a) ∧ (s.own t).pcc = s.nextPcc o
    let waits (i : Instr) (x : Wait) (sets : BitVec 4) (q : State → Prop) : Prop := ∃ t, exec i s = .next t ∧ q t ∧
      (∀ d, (s.own t).read d = s.cx.read d) ∧
      (s.own t).outs = s.cx.outs ++ [⟨s.nextId, .g o.rd, false, true, x, sets, [], s.pc⟩] ∧
      (∀ a, t.byte a = s.byte a) ∧ (s.own t).pcc = s.nextPcc o
    let any : State → Prop := fun _ => True
    (s.ready (.cpoll o) o = true → writes (.cpoll o) (pollValue (own clsCopy)) (freed · clsCopy)) ∧
    (s.ready (.spoll o) o = true → writes (.spoll o) (pollValue (own clsStack)) (freed · clsStack)) ∧
    (s.ready (.hpoll o) o = true →
      (∀ v st, own clsArray = some v → v.done = some st → st.getLsbD 8 = false ∧ st.extractLsb' 0 4 ≠ 5) →
      writes (.hpoll o) (pollValue (own clsArray)) (freed · clsArray)) ∧
    (s.cx.roomFor (.g o.rd) = true →
      (s.ready (.hwait o) o = true →
        (own clsArray = none → waits (.hwait o) (.ready (putVal 4#64) 0) 0 any) ∧
        (∀ v st, own clsArray = some v → v.done = some st → s.cx.hflts = [] → st.getLsbD 8 = false →
          st.extractLsb' 0 4 ≠ 5 → waits (.hwait o) (.ready (putVal st) 0) 0 (freed · clsArray))) ∧
      (s.ready (.cwait o) o = true → (own clsCopy = none → waits (.cwait o) (.ready (putVal 4#64) 0) 0 any) ∧
        ((own clsCopy).isSome = true → waits (.cwait o) (.cwait h) setL any)) ∧
      (s.ready (.swait o) o = true → (own clsStack = none → waits (.swait o) (.ready (putVal 4#64) 0) 0 any) ∧
        ((own clsStack).isSome = true → waits (.swait o) (.swait h) setL any)) ∧
      (s.ready (.efence o) o = true → waits (.efence o) (.efence (if w % 8 = 0 then 7 else BitVec.ofNat 3 w)) setL any) ∧
      (s.ready (.hstat o) o = true → named ≤ 10 → w / 256 % 4 ≠ 3 →
        let cls := w / 256 % 4
        (handle cls = none → waits (.hstat o) (.ready (putVal 4#64) 0) 0 any) ∧
        (∀ v, handle cls = some v → waits (.hstat o)
          (.ready (putVal (v.done.getD (s.runningStatus cls s.curCore v.cmd))) 0) 0 any))) ∧
    (s.ready (.cancel o) o = true → named ≤ 10 → w / 256 % 4 ≠ 3 →
      let cls := w / 256 % 4
      (handle cls = none → writes (.cancel o) 0 (fun t => t.net = s.net)) ∧
      (∀ v, handle cls = some v → v.done.isSome = true → writes (.cancel o) 0 (fun t => t.net = s.net)) ∧
      (∀ v, handle cls = some v → v.done = none → s.cx.roomFor (.g o.rd) = true →
        waits (.cancel o) .away (setM ||| setE) (fun t => ∃ x,
          (cls = clsArray → HeaderFields s x 0x302 0 0 0 1 (s.lclOf s.curCore) (benchIn s.curCore) named h) ∧
          t.net = s.net ++ [⟨s.nextId + 1, .cancel x cls v.cmd s.curCore s.curCtx s.nextId⟩]))) ∧
    (let y := if s.curCtx = 0 then w / 256 % 16 else s.curCtx
     let handle := s.ck.named clsArray y h (decide (s.curCtx = 0))
     s.ready (.hireR o) o = true → y ≤ 10 →
      (handle = none → writes (.hireR o) 0 (fun t => t.net = s.net)) ∧
      (∀ v x, handle = some v → (s.bench (benchOf s.curCore)).find v.cmd = some x →
        (x.stage = .parked → s.cx.roomFor (.g o.rd) = true → waits (.hireR o) .away (setM ||| setE) (fun t => ∃ q,
          HeaderFields s q 0x301 0 0 0 1 (s.lclOf s.curCore) (benchIn s.curCore) y h ∧
          t.net = s.net ++ [⟨s.nextId + 1, .resume q x.id s.curCore s.curCtx s.nextId⟩])) ∧
        (x.stage ≠ .parked → writes (.hireR o) 0 (fun t => t.net = s.net)))) ∧
    (s.ready (.ecnt o) o = true → w % 4 ≠ 3 → s.Completes (.ecnt o) o [(.g o.rd, putVal (BitVec.ofNat 64
      ((s.ck.counter (w % 4)).n + (s.ck.counter (w % 4)).err.toNat * 65536)))]) ∧
    (let slot := o.k1 % 4
     let ts := s.cx.cr.tapset
     let idx := (s.g o.rd).addr % 256
     (s.ready (.tapsel o) o = true →
      (o.k1.testBit 2 = true → s.CompletesAt (.tapsel o) o []
        { s.cx.cr with tapset := ts &&& ~~~(1#64 <<< (32 + slot)) } (s.nextPcc o)) ∧
      (o.k1.testBit 2 = false → check (s.g o.ra) (BitVec.ofNat 64 idx) 1 pP = .ok () →
        ∃ ts', s.CompletesAt (.tapsel o) o [] { s.cx.cr with tapset := ts' } (s.nextPcc o) ∧
          (ts'.extractLsb' (8 * slot) 8).toNat = idx ∧ ts'.getLsbD (32 + slot) = true ∧
          ∀ j, j < 4 → j ≠ slot → ts'.extractLsb' (8 * j) 8 = ts.extractLsb' (8 * j) 8 ∧
            ts'.getLsbD (32 + j) = ts.getLsbD (32 + j)))) ∧
    (s.ready .tapst s.opr = true →
      let slot := s.opr.k1 % 4
      let ts := s.cx.cr.tapset
      let p := s.probe s.curCore (ts.extractLsb' (8 * slot) 8).toNat
      (ts.getLsbD (32 + slot) = false → s.Completes .tapst s.opr [(.g s.opr.rd, putVal 0#64)]) ∧
      (ts.getLsbD (32 + slot) = true → s.opr.k1.testBit 2 = false →
        s.Completes .tapst s.opr [(.g s.opr.rd, putVal (BitVec.ofNat 64 p.count))]) ∧
      (ts.getLsbD (32 + slot) = true → s.opr.k1.testBit 2 = true →
        ∃ t, exec .tapst s = .next t ∧
          (∀ d, (s.own t).read d = if d = .g s.opr.rd then d.holds (putVal (BitVec.ofNat 64 p.count)) else s.cx.read d) ∧
          (let q := t.probe s.curCore (ts.extractLsb' (8 * slot) 8).toNat
           q.count = 0 ∧ ∀ k, k ≠ 4 → q.gran k = p.gran k) ∧
          (∀ a, t.byte a = s.byte a) ∧ (s.own t).pcc = s.nextPcc s.opr))

/-! ## What arrives -/

/-- A value of the kind of a destination. -/
def fits (d : Dest) (v : RVal) : Bool :=
  match d, v with
  | .g _, .g _ => true
  | .v _, .v _ => true
  | .p _, .p _ => true
  | _, _ => false

/-- 04 R82, 08 R168 to R170, R176, 01 R15: an outstanding result that is ready is written, with its flags, unless a later
write superseded it, and is outstanding no more; requests and posted stores are served, refused or acknowledged at their
homes and their answers reach the sender; a held line leaves with exactly its bytes. -/
def Obligations.ResultsAndHomes : Prop :=
  ∀ (s : State),
    (∀ core x idx o v fl, core < nCores → x < 11 → (s.ctx core x).outs[idx]? = some o → o.wait = .ready v fl →
      fits o.dest v = true → (s.core core).flushing = [] →
      ∃ t, exec (.pendingResultArrival core x idx) s = .next t ∧
        (∀ d, (t.ctx core x).read d = if d = o.dest ∧ o.sup = false then d.holds v else (s.ctx core x).read d) ∧
        (t.ctx core x).outs.map Outst.id = ((s.ctx core x).outs.filter (fun q => q.id != o.id)).map Outst.id ∧
        (t.ctx core x).cr = (s.ctx core x).cr.addFlags fl ∧ (t.ctx core x).pcc = (s.ctx core x).pcc ∧
        (∀ a, t.byte a = s.byte a) ∧ ∀ c, c ≠ core → t.core c = s.core c) ∧
    (∀ core x idx o g ids, core < nCores → x < 11 → (s.ctx core x).outs[idx]? = some o → o.wait = .purge g ids →
      ids.any (s.purgeIds (fun _ => true)).contains = false →
      ∃ t, exec (.purgeComplete core x idx) s = .next t ∧
        (t.ctx core x).outs[idx]? = some { o with wait := .ready (putVal (BitVec.ofNat 64 g)) 0 } ∧
        (∀ d, (t.ctx core x).read d = (s.ctx core x).read d) ∧ ∀ a, t.byte a = s.byte a) ∧
    (∀ pid core x out va kind, s.pkt? pid = some (.refusal core x out va kind none) → x ≠ 0 → (s.ctx core x).st = .live →
      (s.core core).gather = [] →
      ∃ t tr, exec (.refusalResponse pid) s = .next t ∧ t.pkt? pid = none ∧ (t.ctx core x).st = .stopped ∧
        (∀ o ∈ (t.ctx core x).outs, o.id ≠ out) ∧ (t.core core).pending = (s.core core).pending ++ [tr] ∧
        tr.code = tPGF ∧ tr.ctx = x ∧ tr.async = true ∧ tr.addr = va ∧ tr.info = BitVec.ofNat 64 (kind + 32) ∧
        (∀ d, (t.ctx core x).read d = (s.ctx core x).read d) ∧ ∀ a, t.byte a = s.byte a) ∧
    (∀ pid a n slot, s.pkt? pid = some (.request a false) → a.op = .load n .plain slot → s.waits = [] → s.owned = [] → s.claims = [] →
      s.netBehind pid a = false → s.homesReached a = true →
      (s.homesRefuse a = none → s.readPoison a.loc n = none →
        ∃ t, exec (.remoteAccessAtHome pid) s = .next t ∧ t.pkt? pid = none ∧ (∀ b, t.byte b = s.byte b) ∧
          ∀ o ∈ (t.ctx a.core a.ctx).outs, o.id = a.out → o.wait = .ready (putVal (BitVec.ofNat 64 (s.nat a.loc n))) 0) ∧
      (∀ why, s.homesRefuse a = some why →
        ∃ t, exec (.remoteAccessAtHome pid) s = .next t ∧ (∀ b, t.byte b = s.byte b) ∧
          t.net = s.net.filter (fun p => p.id != pid) ++
            [⟨s.nextId, .refusal a.core a.ctx a.out a.va 0 none⟩])) ∧
    (∀ pid a, s.pkt? pid = some (.request a true) →
      ∃ t, exec (.fullEmptyRetry pid) s = .next t ∧ t.pkt? pid = some (.request a false) ∧ { t with net := s.net } = s) ∧
    (∀ pid core idx, s.pkt? pid = some (.postedAck core idx) → s.claims = [] →
      ∃ t, exec (.postedStoreAck pid) s = .next t ∧ t.pkt? pid = none ∧ ((t.core core).jent idx).st = 0 ∧
        (∀ j, j ≠ idx → (t.core core).jent j = (s.core core).jent j) ∧ ∀ a, t.byte a = s.byte a) ∧
    (∀ pid core idx why, s.pkt? pid = some (.postedRefused core idx why) → (s.core core).gather = [] →
      let j := (s.core core).jent idx
      j.ctx ≠ 0 → (s.ctx core j.ctx).st = .live →
      ∃ t tr, exec (.postedStoreRefused pid) s = .next t ∧ (t.core core).jent idx = { j with st := 2, reason := why } ∧
        (t.ctx core j.ctx).st = .stopped ∧ (t.core core).pending = (s.core core).pending ++ [tr] ∧ tr.code = tPOST ∧
        tr.ctx = j.ctx ∧ tr.addr = j.line ∧ tr.info = BitVec.ofNat 64 (idx + 32 * why) ∧ ∀ a, t.byte a = s.byte a) ∧
    (∀ core l, core < nCores → (s.core core).gather = [l] → l.remote = false → s.waits = [] → s.owned = [] → s.claims = [] →
      s.noLeaf l.loc 64 = true → (∀ k, k < 64 → s.poison (l.loc + k) = false) →
      ∃ t, exec (.gatherLineTimeout core 0) s = .next t ∧ (t.core core).gather = [] ∧
        (∀ k, k < 64 → t.byte (l.loc + k) = if l.mask.getLsbD k then l.data.extractLsb' (8 * k) 8 else s.byte (l.loc + k)) ∧
        (∀ a, (a < l.loc ∨ l.loc + 64 ≤ a) → t.byte a = s.byte a) ∧
        (∀ k, k < 64 → l.mask.getLsbD k = true → t.cBit (l.loc + k) = false)) ∧
    (∀ core x s1 l, core < nCores → x < 11 → (s.core core).readyBut x = true →
      s.leafFor core x (s.ctx core x).pcc.word kFetch = .ok (s1, l) → exec (.pageScan core x) s = .next s1)

/-- 11 R222, R223, 09 R207, 06 R137: the control context that waits at a trap point takes the first pending helper trap;
BUDG stops its helper; a `yield` ends when it expires. -/
def trapSteps : Prop :=
  ∀ (s : State) (core : Nat), core < nCores →
    (∀ tr rest, (s.core core).pending = tr :: rest → (s.core core).waiting = true → (s.core core).readyBut 0 = true →
      ecHnd (s.core core).cr.ecause = false → evecOk (s.core core).cr.evec = true →
      ∃ t, exec (.trapEntry core) s = .next t ∧ (t.core core).pending = rest ∧
        (t.core core).cr = (s.core core).cr.enter tr (s.residualPc tr.pc) ∧
        (t.ctx core 0).pcc = (s.core core).cr.evec.withOtype 0 ∧
        (∀ x d, (t.ctx core x).read d = (s.ctx core x).read d) ∧ (∀ a, t.byte a = s.byte a) ∧
        ∀ c, c ≠ core → t.core c = s.core c) ∧
    (∀ x tr rest, x < 11 → x ≠ 0 → (s.ctx core x).st = .live → (s.ctx core x).traps = tr :: rest → tr.code = tBUDG →
      (s.core core).gather = [] →
      ∃ t u, exec (.budg core x) s = .next t ∧ (t.ctx core x).st = .stopped ∧ (t.ctx core x).traps = rest ∧
        (t.core core).pending = (s.core core).pending ++ [u] ∧ u.code = tBUDG ∧ u.ctx = x ∧ u.async = true ∧
        u.info = tr.info ∧ (∀ d, (t.ctx core x).read d = (s.ctx core x).read d) ∧ ∀ a, t.byte a = s.byte a) ∧
    (∀ x, x < 11 → ∃ t, exec (.yieldExpiry core x) s = .next t ∧ t.ctx core x = { s.ctx core x with yielding := [] } ∧
      (∀ y, y ≠ x → t.ctx core y = s.ctx core y) ∧ { t with cores := s.cores } = s)

/-- 08 R165, R166, 09 R188 to R192, R198, 24 R374: a message goes into its channel's bank, or is NACKed, and is then tried
again; a task record enters the deque of its core and its call completes; a reply fills its BUSY slot; neighbours report
the lengths of their deques; a steal takes the victim's topmost record that may leave its core: R190 says the topmost that is not
pinned, and that one with a tagged argument without K stays as a pinned one does is the model's reading (log 71). -/
def messageSteps : Prop :=
  ∀ (s : State) (pid core x : Nat),
    (∀ m cap pg nk pc lid, s.pkt? pid = some (.msg core x m cap pg nk 0 pc lid) → headerBad m.header = true →
      exec (.messageArrival pid) s = .next (s.dropPkt pid)) ∧
    (∀ m cap pg nk pc lid tgt b, s.pkt? pid = some (.msg core x m cap pg nk 0 pc lid) → headerBad m.header = false →
      s.awayNow core cap = false →
      s.msgBehind pid core cap = false → olderGen pg (s.pgenOf core) = false → s.windowCore core cap = some tgt →
      (s.core tgt).chanBank m.chn = some b →
      (∀ b', let m' := s.stored (s.core tgt) m
        let base := lsLoc tgt (b * 16384)
        let at' := (b'.tail + 16384 - m'.size) % 16384
        ((s.core tgt).bank b).place m' = some b' → (s.core tgt).firstRecv b = none → s.noLeaf base 16384 = true →
        ((s.core tgt).bank b).tail + 32 ≤ 16384 → at' + m'.size ≤ 16384 →
        ∃ t, exec (.messageArrival pid) s = .next t ∧ t.pkt? pid = none ∧ (t.core tgt).bank b = b' ∧
          (∀ k, k < m'.size → some (t.byte (base + at' + k)) = (granuleBytes m'.granules)[k]?) ∧
          ∀ a, (a < base ∨ base + 16384 ≤ a) → t.byte a = s.byte a) ∧
      (((s.core tgt).bank b).place (s.stored (s.core tgt) m) = none →
        ∃ t, exec (.messageArrival pid) s = .next t ∧ t.pkt? pid = some (.msg core x m cap pg nk 1 pc lid) ∧
          { t with net := s.net } = s)) ∧
    (∀ m cap pg nk pc lid,
      (s.pkt? pid = some (.msg core x m cap pg nk 1 pc lid) → nk < 64 → ∃ t, exec (.messageNack pid) s = .next t ∧
        t.pkt? pid = some (.msg core x m cap pg (nk + 1) 2 pc lid) ∧ { t with net := s.net } = s) ∧
      (s.pkt? pid = some (.msg core x m cap pg nk 2 pc lid) → ∃ t, exec (.messageRetry pid) s = .next t ∧
        t.pkt? pid = some (.msg core x m cap pg nk 0 pc lid) ∧ { t with net := s.net } = s)) ∧
    (∀ out h r dst pg nk slot tgt, s.pkt? pid = some (.record core x out h r dst pg nk 0 slot) → core ≠ nCores →
      headerBad h = false →
      s.awayNow core dst = false → olderGen pg (s.pgenOf core) = false → s.launchOver r.lid = false →
      s.windowCore core dst = some tgt → (s.core tgt).deque.length < 64 →
      ∃ t, exec (.dequeRecordArrival pid) s = .next t ∧ t.pkt? pid = none ∧
        (t.core tgt).deque = (s.core tgt).deque ++ [r] ∧
        (∀ o ∈ (t.ctx core x).outs, o.id = out → o.wait = .ready .none 0) ∧ ∀ a, t.byte a = s.byte a) ∧
    (∀ dst v lid pg tgt, s.pkt? pid = some (.reply core x dst v lid pg) → s.awayNow core dst = false →
      olderGen pg (s.pgenOf core) = false → s.windowCore core dst = some tgt → s.owned = [] → s.waits = [] →
      let i := (dst.toNat % 2 ^ 17 - 0x1FC00) / 16
      let loc := lsLoc tgt (slotOff i)
      Store.get ReplySlot.init (s.core tgt).slots i = ⟨.busy, x, lid⟩ → s.fBit loc = false → s.noLeaf loc 16 = true →
      ∃ t, exec (.replyArrival pid) s = .next t ∧ t.pkt? pid = none ∧ t.granule loc = v ∧ t.fBit loc = true ∧
        ∀ a, (a < loc ∨ loc + 16 ≤ a) → t.byte a = s.byte a) ∧
    (core < nCores → (∀ m ∈ s.neighbours core, (s.core core).deque.length ≤ (s.core m).deque.length + 8) →
      ∃ t, exec (.stealExchange core) s = .next t ∧
        (∀ m ∈ s.neighbours core, (t.core core).reportOf m = (s.core m).deque.length ∧
          (t.core m).reportOf core = (s.core core).deque.length) ∧
        (∀ c, (t.core c).deque = (s.core c).deque) ∧ ∀ a, t.byte a = s.byte a) ∧
    (∀ idx o g tags tgt r rest, core < nCores → x < 11 → (s.ctx core x).outs[idx]? = some o → o.wait = .steal g tags →
      s.victim core = some tgt → tgt ≠ core → takeUnpinned (s.core tgt).deque = some (r, rest) → s.ownedSegs g = false →
      s.waits = [] →
      ∃ t, exec (.stealRequest core x idx) s = .next t ∧ (t.core tgt).deque = rest ∧ r.pin = false ∧
        r.stays = false ∧ (t.core core).taken = some r.lid ∧
        (t.ctx core x).outs[idx]? = some { o with wait := .ready (putVal 1#64) 0 } ∧
        ∀ a, t.byte a = (s.writeSegs g tags r.granules).byte a) ∧
    (∀ grp arrivals n max, grp < 16 →
      let w := (s.group grp).word
      let v := (w.extractLsb' 16 6).toNat
      let b := Store.get Barrier.init (s.vif v).bars grp
      let far := maxWord b.farMax max
      let as := s.arrivals (fun c => s.vifOf c == some v) true grp
      w.getLsbD 63 = true →
      (w.extractLsb' 32 12 ≠ 0#12 → ∃ t, exec (.partitionBarrierForward grp arrivals n max false) s = .next t ∧
        Store.get Barrier.init (t.vif v).bars grp = { b with farMax := far } ∧
        t.port (grpNext w) = (s.port (grpNext w)).sendData 2 (8 + 16 * grp) (Config.fwdPayload arrivals n far false) ∧
        { t with vifs := s.vifs, ports := s.ports } = s) ∧
      (w.extractLsb' 32 12 = 0#12 → 1 ≤ arrivals → as.length + (b.far + arrivals) < b.n.getD n →
        ∃ t, exec (.partitionBarrierForward grp arrivals n max false) s = .next t ∧
          Store.get Barrier.init (t.vif v).bars grp =
            { b with far := b.far + arrivals, farMax := far, n := some (b.n.getD n) } ∧ { t with vifs := s.vifs } = s))

/-- 11 R222, R227: an instruction that the checker finds wrong once is executed again and commits; the error is recorded and
CHK is raised in the control context, with the PC of the instruction in EADR, and its helper stays LIVE. Found wrong again,
it does not commit, and the pen is reset under class CHK. -/
def checkerSteps : Prop :=
  ∀ (s s1 u : State) (core x : Nat) (xs : List Nat) (again : Bool) (rest : List Move) (i : Instr),
    s.single = none → s.agenda = .mismatch core again :: rest → s.freeze = false → core < nCores →
    (s.core core).tryOrder = x :: xs → ({ s with agenda := rest }).beginIssue core x = .exec i s1 → exec i s1 = .next u →
    u.stalled = false → (u.ctx core x).cr.cyc = (s1.ctx core x).cr.cyc + 1 →
    let pc := (s1.ctx core x).pcc.word
    (again = true → step s = .next (s1.hardReset core 3 0 x 0 pc false).injectDue) ∧
    (again = false → x ≠ 0 → ∃ (t : State) (tr : Trap), step s = .next t.injectDue ∧ (t.ctx core x).st = (u.ctx core x).st ∧
      (∀ d, (t.ctx core x).read d = (u.ctx core x).read d) ∧ (t.ctx core x).pcc = (u.ctx core x).pcc ∧
      (t.core core).pending = (u.core core).pending ++ [tr] ∧ tr.code = tCHK ∧ tr.ctx = x ∧ tr.async = true ∧
      tr.pc = (u.ctx core x).pcc.word ∧ tr.addr = pc ∧ tr.info = 1 ∧ (t.die (dieOf core)).seq = (u.die (dieOf core)).seq + 1)

/-- 11 R222, R223, R227, 09 R188 to R192, R198, R207, 08 R165, R166, 06 R137, 24 R374: the traps that become due, and what the
networks bring to cores: messages, task records, replies, reports of deque lengths, steals and barrier rounds. Which record a
steal takes is the model's reading (log 71). -/
def Obligations.TrapsAndMessagesArrive : Prop := trapSteps ∧ messageSteps ∧ checkerSteps

/-! ## The engines -/

/-- The handle or the counter of a command reports its end (01 R25, 15 R278): a handle that its context still holds has the
status word, and a counted command leaves its counter with ERR where the status is not 1. -/
def reported (s t : State) (core cls cmd : Nat) (handle : Option Nat) (status : Word) : Prop :=
  match handle with
  | some h => ((s.core core).handle cls h).used = true → ((s.core core).handle cls h).cmd = cmd →
      ((s.core core).handle cls h).orphan = false → ((t.core core).handle cls h).done = some status
  | none => (t.core core).counter cls = ⟨((s.core core).counter cls).n - 1,
      ((s.core core).counter cls).err || status.extractLsb' 0 4 != 1#4⟩

/-- An engine has answered the message of a context: its result is outstanding no more, and where nothing else follows the step its
register holds `w`, unless it was written since (15 R276, R277, Table 154, 04 R82). -/
def answered (s t : State) (core x out : Nat) (w : Word) : Prop :=
  (∀ o ∈ (t.ctx core x).outs, o.id ≠ out) ∧
  (s.waits = [] → s.claims = [] → (s.core core).flushing = [] →
    ∀ o, (s.ctx core x).outs.find? (fun o => o.id == out) = some o → ∀ d, (t.ctx core x).read d =
      if d = o.dest ∧ o.sup = false ∧ fits d (putVal w) = true then d.holds (putVal w) else (s.ctx core x).read d)

/-- 15 R276, R277, 16 R279 to R288: the steps of a bench. A hire is taken into its master's queue, or ends CANCELLED when its
pen has been reset since; the arbiter gives its array the master's earliest hire; a slab that agrees is added, and one
that disagrees for the first time is loaded again; a hire whose pages translate lands its rows and completes, a landing that
faults parks its hire, and a resumed one goes back; a cancelled hire leaves its array, and its array answers. That the answers are 1
where there was something to resume or to cancel, and else 0, is the model's reading (log 73). -/
def hireSteps : Prop :=
  ∀ (s : State) (b : Nat), b < 576 →
    (∀ h, (s.bench b).find h.id = some h → h.stage = .inbox →
      headerBad h.header = false →
      (∀ s1 ps ds, s.pgenOf h.core = h.pgen → (s.servedBy b).isSome = true → h.badBank s = false →
        s.hirePages h.core (pieces h.d.addr h.extD) = some (s1, ps, ds) →
        ∃ t h', exec (.hireAccept b h.id) s = .next t ∧ (t.bench b).find h.id = some h' ∧ h'.stage = .queued ∧
          h'.order = s.nextId ∧ h'.a = h.a ∧ h'.b = h.b ∧ h'.d = h.d) ∧
      (s.pgenOf h.core ≠ h.pgen → ∃ t, exec (.hireAccept b h.id) s = .next t ∧ (t.bench b).find h.id = none ∧
        reported s t h.core clsArray h.id h.handle (h.status 2))) ∧
    (∀ c h, (s.bench b).busy = none → (s.bench b).cur = none → s.nextMaster (s.serving b) none = some c →
      s.current c = some h → s.ownsAll h.id = false →
      ∃ t, exec (.slabBoundary b) s = .next t ∧ (t.bench b).busy = some h.id ∧ (t.bench b).cur = some c ∧
        (t.bench b).left = s.weight c - 1 ∧ ∀ a, t.byte a = s.byte a) ∧
    (∀ h, (s.bench b).busy = some h.id → s.hire h.id = some h → h ∈ (s.bench (benchOf h.core)).hires → h.loaded = true →
      h.retried = false →
      (h.mismatched false = false → ∃ t h', exec (.slabDone b false) s = .next t ∧ (t.bench b).busy = none ∧
        h' ∈ (t.bench (benchOf h.core)).hires ∧ h'.id = h.id ∧ h'.slab = h.slab + 1 ∧
        (h'.stage = if h.slab + 1 = h.slabs then .computed else h.stage) ∧ h'.acc.length = h.m) ∧
      (h.mismatched true = true → ∃ t h', exec (.slabDone b true) s = .next t ∧ (t.bench b).busy = some h.id ∧
        h' ∈ (t.bench (benchOf h.core)).hires ∧ h' = { h with retried := true })) ∧
    (∀ val, s.waits = [] → s.claims = [] → ∃ t, exec (.arbcfg b val) s = .next t ∧
      t.arb b = (val &&& 0x401F0000FFFFFFFF#64) ||| (s.arb b &&& 0x8000000000000000#64) ∧ ∀ a, t.byte a = s.byte a) ∧
    (∀ h h1 s1 va fk hd p, s.nextLanding b = some h → landPages h h.deferred s = (s1, h1, some (va, fk)) →
      h1.core = h.core → h1.ctx = h.ctx → h1.handle = some hd → h1.park = 0 → h1.id = h.id →
      (List.range 2).find? (fun i => !(s1.parkTaken h1.array).contains i) = some p →
      h.ctx ≠ 0 → (s1.ctx h.core h.ctx).st ≠ .free → (∃ x ∈ (s1.bench (benchOf h.core)).hires, x.id = h.id) →
      ∃ t h', exec (.hireLanding b) s = .next t ∧ h' ∈ (t.bench (benchOf h.core)).hires ∧ h'.id = h.id ∧
        h'.stage = .parked ∧ h'.park = p + 1 ∧
        (t.ctx h.core h.ctx).hflts = (s1.ctx h.core h.ctx).hflts ++
          [⟨tHFLT, h.ctx, true, 0, 0, BitVec.ofNat 64 va, BitVec.ofNat 64 (hd + 64 * p)⟩]) ∧
    (∀ h, s.nextLanding b = some h → h ∈ (s.bench (benchOf h.core)).hires → h.deferred = [] → s.ownsAll h.id = true →
      h.tap = false → h.epi = false →
      ∃ t, exec (.hireLanding b) s = .next t ∧ (∀ x ∈ (t.bench (benchOf h.core)).hires, x.id ≠ h.id) ∧
        reported s t h.core clsArray h.id h.handle (Hire.status { h with rows := h.m, tev := false } 1) ∧
        (s.claims = [] → s.waits = [] → ∀ a, t.byte a =
          ((List.range h.m).foldl (fun u i => h.landRow u i (h.rowOut i none)) s).byte a)) ∧
    (∀ pid hx cmd core x out, s.pkt? pid = some (.resume hx cmd core x out) → headerBad hx = false →
      (s.core core).flushing = [] →
      let b := s.bench (benchOf core)
      (∀ h, b.find cmd = some h → h.stage = .parked →
        ∃ t, exec (.hireResumeArrival pid) s = .next t ∧ t.pkt? pid = none ∧ answered s t core x out 1 ∧
          (t.bench (benchOf core)).find cmd = some { h with stage := .resumed, free := s.nextId } ∧ ∀ a, t.byte a = s.byte a) ∧
      ((∀ h, b.find cmd = some h → h.stage ≠ .parked) → ∃ t, exec (.hireResumeArrival pid) s = .next t ∧
        t.pkt? pid = none ∧ answered s t core x out 0 ∧ t.benches = s.benches ∧ ∀ a, t.byte a = s.byte a)) ∧
    (∀ pid hx cmd core x out, s.pkt? pid = some (.cancel hx clsArray cmd core x out) → headerBad hx = false →
      ∃ t, exec (.engineCancelArrival pid) s = .next t ∧ (∀ e h, h ∈ (t.bench e).hires → h.id ≠ cmd) ∧
        answered s t core x out (if s.holdsCmd clsArray cmd then 1 else 0))

/-- 13 R255 to R258, 10 R211, 11 R228: the steps of a copy engine. The oldest command is accepted with its destination translated;
an element of a fill moves the command on, and the last one of its granule writes the granule, in one write that sets F: that an
element is buffered till then is the model's choice (log 74); a command that has ended is reported and leaves; a round to which
every member brings the same operation lands and ends, its poisoned elements poisoned, and a member that brings another ends it with
FK 5. -/
def copySteps : Prop :=
  ∀ (s : State) (e : Nat), e < 48 →
    (∀ c s1 ps, s.nextCopy e = some c → headerBad c.header = false → c.code = 0 → s.pgenOf c.core = c.pgen → c.op < 5 →
      s.copyPages c.core c.spans = .ok (s1, ps) →
      ∃ t c', exec (.copyAccept e) s = .next t ∧ c' ∈ t.copyEng e ∧ c'.id = c.id ∧ c'.accepted = true ∧ c'.pages = ps ∧
        c'.pos = min c.skip c.total ∧ c'.desc = c.desc) ∧
    (∀ c loc, (s.copyEng e).find? (fun x => x.id == c.id) = some c → c.accepted = true → c.code = 0 → c.op = 3 →
      s.ownsAll c.id = true → c.dbits ≠ 4 →
      let va := (c.pos? c.dstWalk c.pos).1.toNat
      let g := loc / 16 * 16
      let new := (List.range c.dsz).map (fun k => (⟨loc + k, (c.gran 7).data.extractLsb' (8 * k) 8, false, c.pos⟩ : Landing))
      let buf := c.buf.filter (fun x => !new.any (fun y => y.loc == x.loc)) ++ new
      pageLoc c.pages va = some loc → loc % c.dsz = 0 → s.poison loc = false → s.owner g = c.id → s.noLeaf g 16 = true →
      (c.buf.map Landing.loc).Nodup → s.waits = [] → s.claims = [] →
      let later := (c.restSpans (c.pos + 1)).any (touchesG (va / 16 * 16))
      let lands (x : Landing) : Prop := later = false ∧ x.loc / 16 = loc / 16
      ∃ t c', exec (.copyElement e c.id) s = .next t ∧ (∀ x ∈ buf, lands x → t.byte x.loc = x.byte) ∧
        (∀ a, (∀ x ∈ buf, lands x → x.loc ≠ a) → t.byte a = s.byte a) ∧ (later = false → t.fBit loc = true) ∧
        c' ∈ t.copyEng e ∧ c'.id = c.id ∧ c'.pos = c.pos + 1 ∧ (c'.code = if c.pos + 1 = c.total then 1 else 0) ∧
        ∀ x, x ∈ c'.buf ↔ x ∈ buf ∧ ¬ lands x) ∧
    (∀ c, (s.copyEng e).find? (fun x => x.id == c.id) = some c → c.code ≠ 0 → c.recCap.tag = false → c.buf = [] →
      s.waits = [] → s.claims = [] →
      ∃ t, exec (.copyComplete e c.id) s = .next t ∧ (∀ x ∈ t.copyEng e, x.id ≠ c.id) ∧
        reported s t c.core clsCopy c.id c.handle (c.status c.code) ∧ ∀ a, t.byte a = s.byte a) ∧
    (∀ v grp remote c, v < 64 → grp < 16 → s.collective grp = some (e, c) → s.vifOf c.core = some v →
      c ∈ s.copyEng e →
      let ends (fk : Nat) : Prop := ∃ t c', exec (.collectiveRoundComplete v grp remote) s = .next t ∧ c' ∈ t.copyEng e ∧
        c'.id = c.id ∧ c'.code = 3 ∧ c'.fk = fk ∧ ∀ a, t.byte a = s.byte a
      ((∃ m ∈ remote, remoteMatches m c = false) → ends 5) ∧
      ((∀ m ∈ remote, remoteMatches m c = true) → c.op = 7 → (∃ m ∈ remote, m.dext < c.p * c.n0 * c.dsz) → ends 3) ∧
      (∀ s1 bs pois, roundErr c remote = none → s.ownsAll c.id = true →
        let r := grpRank (s.group grp).word
        (∀ q, q < c.p → q = r ∨ ∃ m ∈ remote, m.rank = q) →
        s.engRead c.core c.id c.src.addr (c.n0 * c.ssz) = .ok s1 bs pois → c ∈ s1.copyEng e →
        let out := collResult c c.p r (memberData r c.p (splitElems c.ssz c.n0 bs) remote (fun m => m.data.map BitVec.toNat))
        let bad := collPoison c c.p r (memberData r c.p (s1.ownPoison c) remote RemoteMember.pois)
        let g := c.destSpans.flatMap (fun p => pageSegs c.pages p.1 p.2)
        (g.map Prod.snd).sum = out.length * c.dsz → s1.landRefused g = false →
        ∃ t c', exec (.collectiveRoundComplete v grp remote) s = .next t ∧ c' ∈ t.copyEng e ∧ c'.id = c.id ∧ c'.code = 1 ∧
          c'.pos = c.n0 ∧ c'.poi = (pois || bad.any id) ∧
          ∀ a, t.byte a = (s1.landSegs g (out.zipIdx.flatMap (fun x =>
            (toLE x.1 c.dsz).map (fun b => (b, bad.getD x.2 false))))).byte a))

/-- 23 R348, R354 to R357, R361, 21 R333: the steps of a stack engine: commands are accepted in order, an attention is
computed, landed and reported, an entry is written; an alert is charged to the attention that runs. The specialiser may
drop an entry that nothing pins. -/
def stackSteps : Prop :=
  ∀ (s : State) (k : Nat), k < 16 →
    (∀ c, (s.stkEng k).find? (fun c => !c.accepted) = some c → headerBad c.header = false →
      s.pgenOf c.core = c.pgen → c.form = 2 →
      ∃ t c', exec (.stackCommandAccept k) s = .next t ∧ c' ∈ t.stkEng k ∧ c' = { c with accepted := true }) ∧
    (∀ c s1 fs, s.headStk k = some c → c.form ≠ 2 → c.started = false → s.ownsAll c.id = true →
      c.compute k s = .ok (s1, fs) → s1.stkEng k = s.stkEng k →
      ∃ t c', exec (.stackCommandStart k) s = .next t ∧ c' ∈ t.stkEng k ∧ c'.id = c.id ∧ c'.started = true ∧
        c'.rows = fs.map Soft.row ∧ c'.stats = fs.map Soft.stat ∧ ∀ a, t.byte a = s1.byte a) ∧
    (∀ c, s.headStk k = some c → c.started = true → c.form = 0 → s.waits = [] → s.claims = [] →
      s.landRefused ((List.range c.nq).flatMap c.rowSegs ++ c.statSegs) = false →
      ∃ t, exec (.stackCommandComplete k) s = .next t ∧ (∀ x ∈ t.stkEng k, x.id ≠ c.id) ∧
        (∀ a, t.byte a = (c.land s).byte a) ∧
        ∀ o ∈ (t.ctx c.core c.ctx).outs, o.id = c.out → o.wait = .ready (putVal (c.status 1)) 0) ∧
    (∀ c, s.headStk k = some c → c.form = 2 → s.ownsAll c.id = true → s.partPoison c.pa 8 = none →
      s.noLeaf c.pa 8 = true → s.waits = [] → s.claims = [] →
      ∃ t, exec (.sblkWrite k) s = .next t ∧ t.nat c.pa 8 = c.value.toNat ∧
        (∀ a, (a < c.pa ∨ c.pa + 8 ≤ a) → t.byte a = s.byte a) ∧ (∀ x ∈ t.stkEng k, x.id ≠ c.id) ∧
        reported s t c.core clsStack c.id c.handle (c.status 1)) ∧
    (∀ c row, s.headStk k = some c → c.started = true →
      let key := 16 * row + k
      let bit (u : State) := Store.get false u.rowBits key
      let mit (u : State) := Store.get 0 u.mitigated key
      ∃ t c', exec (.activationAlert (16 * row + k) true) s = .next t ∧ c' ∈ t.stkEng k ∧ c' = { c with acn := min 255 (c.acn + 1) } ∧
        (bit s = false → bit t = true ∧ mit t = mit s + 1) ∧ (bit s = true → mit t = mit s) ∧
        { t with stks := s.stks, rowBits := s.rowBits, mitigated := s.mitigated } = s) ∧
    (∀ d idx x, d < 4 → (s.die d).specs[idx]? = some x → s.pinned x.id = false →
      ∃ t, exec (.specEntryDrop d idx) s = .next t ∧ (∀ y ∈ (t.die d).specs, y.id ≠ x.id) ∧
        (∀ y ∈ (s.die d).specs, y.id ≠ x.id → y ∈ (t.die d).specs) ∧ { t with dies := s.dies } = s)

/-- 15 R276, R277, 16 R279 to R288, 13 R255 to R258, 23 R348, R354 to R357, R361, 21 R333: the steps of the benches' arrays, of the
copy engines, of the stack engines and of the specialiser, each where it is due. The answers to a resumption and to a cancellation,
and when a copied element is landed, are the model's reading and choice (logs 73, 74); the mitigation of an alerted row is its
choice too (log 75). -/
def Obligations.EngineSteps : Prop := hireSteps ∧ copySteps ∧ stackSteps

/-! ## The ringmasters -/

/-- 20 R319, 09 R187: a launch whose pen is free and whose cluster its interface holds, with no specialisation asked for. Where its
kernel record cannot be read, its slot reads COMPLETE with CXL and the stream moves on. Where its operands can be read and
pass their checks, every core of the pen takes the kernel's bank roles and CHANCFG, its slot opens with the uniform
capability, and its root record, pinned and with the launch's LID, sets out for its core, behind a header whose OPC is a free value
and whose sender's fields are zero (log 85). -/
def launches (s s1 : State) (v : Nat) (c : LaunchCmd) (pen : Nat) (p : Pen) : Prop :=
  let i := s1.vif v
  (s1.rootRead i.troot c.krec 128 = .fault → s1.rootAway v c.slot = false → s1.waits = [] →
    ∃ t, exec (.launch v) s = .next t ∧ ((t.vif v).level c.slot).st = .complete ∧ ((t.vif v).level c.slot).cxl = true ∧
      (t.vif v).began = false) ∧
  ∀ s2 s3 s4 s5 s6 gk gt gu gb, s1.rootRead i.troot c.krec 128 = .ok s2 gk → s2.rootRead i.troot c.trec 96 = .ok s3 gt →
    s3.rootRead i.troot c.ucap 16 = .ok s4 gu →
    let kr := kRecOf (s4.readPieces gk)
    let r := recOf (s4.granulesOf gt)
    let u := (s4.granulesOf gu).getD 0 .null
    let lid := mkLid v c.slot (i.level c.slot).serial
    s4.rootRead i.troot u.addr (max kr.unifSize 1) = .ok s5 gb →
    checkRec r false = .ok () → (s5.openLaunch v c pen).ucapOk i.troot u kr.unifSize = true → kr.rolesOk = true →
    kr.kflags % 2 = 0 →
    p.cores.foldl (fun a x => ((a.1.applyKernel kr x).1, a.2 && (a.1.applyKernel kr x).2)) (s5.openLaunch v c pen, true) =
      (s6, true) →
    ∃ t id, exec (.launch v) s = .next t ∧ (t.vif v).began = true ∧ (t.vif v).rhead = i.rhead ∧
      (let l := (t.vif v).level c.slot
       l.st = .opened ∧ l.kind = 1 ∧ l.pv = c.pv ∧ l.serial = (i.level c.slot).serial ∧ l.uniform = u ∧ l.pen = pen) ∧
      (∀ x ∈ p.cores, (t.core x).chancfg = kr.chancfg) ∧
      (rootRec r lid kr).lid = lid ∧ (rootRec r lid kr).pin = true ∧
      t.net = s6.net ++ [⟨id, .record nCores 0 0
        (mkHeader (Config.recordOpc 1).toNat 0 v 3 0 0 0 c.lcl c.core 0 0 0 0) (rootRec r lid kr)
        (BitVec.ofNat 64 (0xFFFF800000000000 + c.lcl * 2 ^ 25 + c.core * 2 ^ 17)) 0 0 0 v⟩]

/-- 20 R310 to R314, R318 to R325: a command that cannot be taken stops its stream with its error code. Otherwise each command
has its effect and the stream moves past it: nested buffers, waits, signals, cancellations, a launch that sends its root record
and ends when that has been accepted, graphs and triggers, pens and the cluster map. -/
def Obligations.StreamCommands : Prop :=
  ∀ (s s1 : State) (v : Nat), v < 64 →
    (∀ e ∈ [Instr.streamNop v, .indirect v, .returnBuf v, .launch v, .graphUpload v, .graphTrigger v, .waitLevel v, .signal v,
        .streamCancel v, .penDefine v, .penReset v, .mapClusters v], ∀ c, s.nextCmd v = .error s1 c →
      ∃ t, exec e s = .next t ∧ (t.vif v).run = false ∧ (t.vif v).err = true ∧ (t.vif v).ecode = BitVec.ofNat 8 c) ∧
    ∀ ty fl n ws, s.nextCmd v = .ok s1 ty fl n ws →
      let i := s1.vif v
      let past (i : Vif) : Vif := (i.moveOn (n + 1)).unnest
      let runs (e : Instr) (q : State → Prop) : Prop := ∃ t, exec e s = .next t ∧ q t
      let moves (e : Instr) (q : State → Prop) : Prop := runs e (fun t => (t.vif v).rhead = (past i).rhead ∧
        (t.vif v).nest = (past i).nest ∧ (t.vif v).began = false ∧ q t)
      (ty = 0x00 → moves (.streamNop v) (fun t => t.vif v = past i ∧ ∀ a, t.byte a = s1.byte a)) ∧
      (ty = 0x01 → (payload2 ws 1).toNat % 4 = 0 → 1 ≤ payload ws 3 → payload ws 3 ≤ 2 ^ 20 →
        runs (.indirect v) (fun t => (t.vif v).nest = ⟨payload2 ws 1, payload ws 3, 0⟩ :: (i.moveOn 4).nest ∧
          (t.vif v).rhead = (i.moveOn 4).rhead)) ∧
      (ty = 0x02 → runs (.returnBuf v) (fun t =>
        (t.vif v).nest = i.nest.tail.dropWhile (fun b => decide (b.len ≤ b.pos)) ∧ (t.vif v).rhead = i.rhead)) ∧
      (ty = 0x20 → payload ws 1 < 64 →
        let l := i.level (payload ws 1)
        (l.st ≠ .complete → exec (.waitLevel v) s = .next s1) ∧
        (l.st = .complete → ¬ (fl = 1 ∧ l.cxl = true) → moves (.waitLevel v) (fun t => ∀ a, t.byte a = s1.byte a))) ∧
      (ty = 0x21 → fl = 0 → (payload2 ws 1).toNat % 8 = 0 → ∀ s2 pa,
        s1.translateRoot i.troot (payload2 ws 1) kStore = .ok (s2, pa) → s2.ownedAny pa 8 = false →
        s2.partPoison pa 8 = none → s2.noLeaf pa 8 = true → s2.waits = [] → s2.vif v = i →
        moves (.signal v) (fun t => t.nat pa 8 = (payload2 ws 3).toNat ∧
          ∀ a, (a < pa ∨ pa + 8 ≤ a) → t.byte a = s2.byte a)) ∧
      (ty = 0x22 → payload ws 1 < 64 → i.began = false →
        let l := i.level (payload ws 1)
        (l.st ≠ .opened → moves (.streamCancel v) (fun t => ∀ a, t.byte a = s1.byte a)) ∧
        (l.st = .opened → s1.benches = [] → s1.copies = [] → s1.stks = [] → s1.net = [] →
          runs (.streamCancel v) (fun t => (t.vif v).began = true ∧ ((t.vif v).level (payload ws 1)).st = .cancelling))) ∧
      (ty = 0x10 →
        let c := launchCmd (fl == 1) none ws
        (i.began = true → s1.rootAway v c.slot = false → moves (.launch v) (fun t => ∀ a, t.byte a = s1.byte a)) ∧
        (i.began = false → s1.launchBad v c = true →
          runs (.launch v) (fun t => (t.vif v).err = true ∧ (t.vif v).ecode = 6)) ∧
        (i.began = false → s1.launchBad v c = false →
          ∀ pen p, i.penAt (coreAt (i.phys c.lcl) c.core) = some (pen, p) → i.penBusy pen = false →
          s1.vifOfCluster (i.phys c.lcl) = some v → launches s s1 v c pen p)) ∧
      (ty = 0x11 →
        let w := payload ws 1
        let a := payload2 ws 2
        w / 16 % 16 = 0 → w / 2 ^ 14 % 4 = 0 → w / 2 ^ 22 = 0 → a.toNat % 32 = 0 → 1 ≤ payload ws 4 → payload ws 4 ≤ 64 →
        (∀ t ∈ i.trigs, t.gid ≠ w % 16) → (i.graph (w % 16)).cur = none →
        moves (.graphUpload v) (fun t => (t.vif v).graph (w % 16) = { Graph.init with
          up := true, slot := w / 2 ^ 8 % 64, pv := fl == 1, parent := w / 2 ^ 16 % 64, list := a, nl := payload ws 4 })) ∧
      (ty = 0x12 → payload ws 1 < 16 → ws.length = 1 → i.trigs.length < 4 → (i.graph (payload ws 1)).up = true →
        moves (.graphTrigger v) (fun t => (t.vif v).trigs = i.trigs ++
          [⟨payload ws 1, false, 0, [], BitVec.ofNat 32 i.offset⟩])) ∧
      (ty = 0x30 → payload ws 1 + 1 = ws.length →
        let rs := (ws.drop 1).filterMap rectWord
        rs.length = payload ws 1 → coverRects rs i.clusters = true →
        (∀ l ∈ i.levels, l.2.kind = 1 → l.2.st ≠ .opened ∧ l.2.st ≠ .cancelling) →
        moves (.penDefine v) (fun t => (t.vif v).pens = rs.map (fun r => ⟨r.1, r.2.1, r.2.2.1, r.2.2.2, 0, 0, []⟩))) ∧
      (ty = 0x31 → ∀ p, payload ws 1 < 256 → i.pens[payload ws 1]? = some p → p.w ≠ 0 →
        runs (.penReset v) (fun t => ((t.vif v).pens[payload ws 1]?).map Pen.pgen = some ((p.pgen + 1) % 65536) ∧
          ((t.vif v).pens[payload ws 1]?).map Pen.gen = some (p.gen + 1))) ∧
      (ty = 0x32 →
        let l := payload ws 1 % 32
        let q := payload ws 1 / 2 ^ 8 % 32
        payload ws 1 / 2 ^ 5 % 8 = 0 → payload ws 1 / 2 ^ 13 = 0 → l < 24 → s1.mayMap v q = true → 24 ≤ i.phys l →
        runs (.mapClusters v) (fun t => (t.vif v).phys l = q ∧ ∀ m, m ≠ l → (t.vif v).phys m = i.phys m))

/-- 20 R309, R313, R316, R317, R322, Tables 188 to 191, 09 R206, R208: the registers of an interface, the life of a level, the
end of a trigger, and the turns of a sharing group. -/
def Obligations.RingRegistersAndLevels : Prop :=
  ∀ (s : State) (v : Nat) (val : Word), v < 64 →
    let i := s.vif v
    let only (e : Instr) (q : State → Prop) : Prop := ∃ t, exec e s = .next t ∧ q t ∧ { t with vifs := s.vifs } = s
    only (.rstatWrite v val) (fun t => (t.vif v).err = (i.err && !val.getLsbD 1) ∧
      (t.vif v).run = (val.getLsbD 0 && !(i.err && !val.getLsbD 1))) ∧
    (i.run = true → only (.rheadWrite v val) (fun t => t.vif v = i)) ∧
    (i.run = false → i.began = false → only (.rheadWrite v val) (fun t =>
      (t.vif v).rhead = val &&& ~~~3#64 ∧ (t.vif v).nest = [])) ∧
    only (.rtailWrite v val) (fun t => t.vif v = { i with rtail := val &&& ~~~3#64 }) ∧
    only (.eqdropWrite v val) (fun t => t.vif v = { i with eqdrop := 0 }) ∧
    only (.trigger v val) (fun t => t.vif v = if 4 ≤ i.trigs.length then { i with ovf := true }
      else { i with trigs := i.trigs ++ [⟨val.toNat % 16, true, val &&& ~~~0xFF#64, [], 0⟩] }) ∧
    (∀ g tr, g < 16 → (i.graph g).cur = some tr → (i.level (i.graph g).slot).st = .opened →
      (i.level (i.graph g).slot).kind = 2 → (i.graph g).entries = [] →
      only (.triggerRun v g) (fun t => ((t.vif v).graph g).cur = none ∧
        ((t.vif v).level (i.graph g).slot).sealed = true ∧ ((t.vif v).level (i.graph g).slot).st = .opened)) ∧
    (∀ n, n < 64 →
      let l := i.level n
      (l.st = .free → val.extractLsb' 61 3 = 1#3 → (val.extractLsb' 58 3 = 3#3 ∨ val.extractLsb' 58 3 = 4#3) →
        val.getLsbD 57 = false → only (.lvlWrite v n val) (fun t =>
          ((t.vif v).level n).st = .opened ∧ ((t.vif v).level n).kind = (val.extractLsb' 58 3).toNat ∧
          ((t.vif v).level n).pv = false ∧ ((t.vif v).level n).sealed = val.getLsbD 50 ∧
          ((t.vif v).level n).serial = l.serial)) ∧
      (l.st = .opened → (l.kind = 3 ∨ l.kind = 4) → val.getLsbD 50 = true → only (.lvlWrite v n val) (fun t =>
        (t.vif v).level n = { l with sealed := true })) ∧
      (l.st = .complete → val.extractLsb' 61 3 = 0#3 → only (.lvlWrite v n val) (fun t =>
        ((t.vif v).level n).st = .free ∧ ((t.vif v).level n).serial = (l.serial + 1) % 2 ^ 20)) ∧
      (l.st = .cancelling → exec (.lvlWrite v n val) s = .next s) ∧
      (∀ cxl, s.levelDone v n = some cxl → ∃ t, exec (.levelComplete v n) s = .next t ∧
        ((t.vif v).level n).st = .complete ∧ ((t.vif v).level n).cxl = cxl)) ∧
    (∀ p, s.penQuiet v p = true → only (.quietReport v p) (fun t => ∀ l ∈ (t.vif v).levels, l.2.kind = 1 →
      l.2.pen = p → l.2.st = .opened → l.2.quiet = true)) ∧
    (let j : Vif := { i with pctrl := val &&& 0xF#64 }
     (val.getLsbD 0 = true → s.mayEnable v j = false → exec (.pctrlWrite v val) s = .next s) ∧
     (val.getLsbD 0 = true → s.mayEnable v j = true → i.en = false →
      ∃ t, exec (.pctrlWrite v val) s = .next t ∧ (t.vif v).pctrl = val &&& 0xF#64 ∧
        (t.vif v).pens.length = i.clusters.length ∧ (t.vif v).probes = [] ∧ ∀ a, t.byte a = s.byte a) ∧
     (val.getLsbD 0 = false → i.holds = false →
      only (.pctrlWrite v val) (fun t => (t.vif v).en = false ∧ (t.vif v).pens = i.pens))) ∧
    (∀ g h, g < 16 → s.holderOf g = some h →
      ((s.vif h).turnEnding = false → (s.vif h).hasWork = false →
        ∃ t, exec (.sharingTurnEnd g) s = .next t ∧ (t.vif h).turnEnding = true ∧
          (∀ c ∈ s.sharedCores h, (t.core c).startHeld = true) ∧ ∀ a, t.byte a = s.byte a) ∧
      ((s.vif h).turnEnding = true → s.turnDrained h = true → ∀ w, (s.settleDeficits g h).nextHolder g = some w → w ≠ h →
        ∃ t, exec (.sharingTurnSwitch g) s = .next t ∧ (t.vif w).holds = true ∧ (t.vif h).holds = false ∧
          (t.vif h).turnEnding = false))

/-! ## The hub die and the debug port -/

/-- 24 R363 to R370, R373, R376, 11 R236, R237, Tables 226 to 231: boot releases the held control contexts of its die at MKENTRY;
LOCK, FREEZE, the registers of the device space and of the management path; stack memory as the hub and PCIe reach it;
messages, reports and package reset; after a failed boot verification no software of the hub runs, and BOOTGO releases nothing. How
the accesses of a root port wait in their order, how lane injectors are addressed (INJSEL names no lane) and what CTXBASE keeps are
the model's choices (logs 77, 72, 41). -/
def Obligations.HubRegistersAndMemory : Prop :=
  ∀ (s : State) (d v : Nat) (x : Word), d < 4 → v < 64 →
    let hub : Prop := s.sec.failStage = 0
    (hub → x.getLsbD 0 = true → (s.die d).failed = false → ∃ t, exec (.bootgo d x) s = .next t ∧
      (∀ c ∈ dieCores d, (t.core c).held = false ∧
        ((s.core c).held = true → (t.core c).ctx 0 = Ctx.control (s.die d).mkentry)) ∧
      (∀ c, c ∉ dieCores d → t.core c = s.core c) ∧ t.die d = { s.die d with booted := true } ∧
      { t with cores := s.cores, dies := s.dies, vifs := s.vifs } = s) ∧
    (¬ hub → exec (.bootgo d x) s = .next s ∧ (∀ a bs n w fz, exec (.deviceRegisterWrite a x) s = .next s ∧
      exec (.hubStackAccess a w bs n fz) s = .next s) ∧ ∀ nonce, exec (.attestationRequest nonce) s = .next s) ∧
    exec (.lock x) s = .next { s with lock := s.lock || x.getLsbD 0 } ∧
    exec (.freeze x) s = .next { s with freeze := x.getLsbD 0 } ∧
    exec .freezeRequest s = .next { s with freeze := true } ∧
    (∀ n, n < 3 → ∃ t, exec (.packageReset n) s = .next t ∧ t.sec.boots = s.sec.boots + 1 ∧ t.sec.failStage = n ∧
      { t with agenda := [], nextId := 1, freeCount := 0, sec := Security.init } = State.reset) ∧
    (let both (a : Nat) (q : State → Prop) : Prop := ∃ t, exec (.i3cWrite a x) s = .next t ∧ q t ∧
        (hub → exec (.deviceRegisterWrite a x) s = .next t)
     both (2 ^ 40 + 0x2000 * v + 0x18) (fun t =>
        t.vif v = { s.vif v with rtail := x &&& ~~~3#64 } ∧ { t with vifs := s.vifs } = s) ∧
     both (2 ^ 40 + 0x2000 * v + 0x1008) (fun t =>
        t.vif v = { s.vif v with troot := x &&& 0xFFFFFFF800#64 } ∧ { t with vifs := s.vifs } = s) ∧
     both (2 ^ 40 + 0x100008) (fun t => t = { s with freeze := x.getLsbD 0 })) ∧
    (hub → ∃ t, exec (.deviceRegisterWrite (2 ^ 40 + 0x110000 + 0x10000 * d + 8) x) s = .next t ∧
      t.die d = { s.die d with mkentry := x } ∧ { t with dies := s.dies } = s) ∧
    (s.lock = true → exec (.i3cWrite (2 ^ 40 + 0x110000 + 0x10000 * d + 8) x) s = .next s) ∧
    (∀ a, a < 2 ^ 40 → exec (.deviceRegisterWrite a x) s = .next s ∧ exec (.i3cWrite a x) s = .next s ∧
      exec (.i3cRead a) s = .next { s with i3cSeen := ⟨0, 0, 0⟩ }) ∧
    exec (.i3cRead (2 ^ 40 + 0x2000 * v + 0x18)) s =
      .next { s with i3cSeen := ⟨(s.vif v).rtail.setWidth 2048, 0, 0⟩ } ∧
    (hub → ∀ bs n fz, exec (.hubStackAccess (2 ^ 40 + 0x2000 * v + 0x18) false bs n fz) s =
        .next { s with hubSeen := ⟨(s.vif v).rtail.setWidth 2048, 0, 0⟩ }) ∧
    (hub → ∀ a bs n fz, 2 ^ 40 ≤ a → ∃ t, exec (.deviceRegisterWrite a (BitVec.ofNat 64 (leNat bs))) s = .next t ∧
      exec (.hubStackAccess a true bs n fz) s = .next { t with hubSeen := ⟨0, 0, 0⟩ }) ∧
    (exec (.deviceRegisterWrite (2 ^ 40 + 0x110000 + 0x10000 * d + 0x48) x) s = .next s ∧
      exec (.deviceRegisterWrite (2 ^ 40 + 0x110000 + 0x10000 * d + 0x50) x) s = .next s) ∧
    (∃ t, exec (.i3cWrite (2 ^ 40 + 0x110000 + 0x10000 * d + 0x48) x) s = .next t ∧
      t.die d = { s.die d with injsel := x &&& 0x1073F7F#64 } ∧ { t with dies := s.dies } = s) ∧
    (hub → ∀ nonce, ∃ t, exec (.attestationRequest nonce) s = .next t ∧ t.sec.report.length = 3509 ∧
      t.sec.report.take 40 = toLE 1 8 ++ toLE nonce.toNat 32 ∧ (t.sec.report.drop 168).take 8 = toLE s.sec.boots.toNat 8 ∧
      { t with sec := s.sec } = s) ∧
    (∀ a bs n, s.owned = [] → s.waits = [] → s.hubq = [] →
      let written (t : State) : Prop := (∀ k, k < bs.length → some (t.byte (a + k)) = bs[k]?) ∧
        ∀ b, (b < a ∨ a + bs.length ≤ b) → t.byte b = s.byte b
      (a < 2 ^ 40 → a + bs.length ≤ 2 ^ 40 → s.partPoison a bs.length = none → s.noLeaf a bs.length = true →
        (hub → ∃ t, exec (.hubStackAccess a true bs n false) s = .next t ∧ written t ∧ t.hubSeen.status = 0) ∧
        ∃ t, exec (.pcieDmaWrite d 0 (some a) bs) s = .next t ∧ written t ∧ t.pcieSeen.status = 0) ∧
      (a < 2 ^ 40 → a + n ≤ 2 ^ 40 → s.readPoison a n = none →
        (hub → exec (.hubStackAccess a false bs n false) s =
          .next { s with hubSeen := ⟨BitVec.ofNat 2048 (s.nat a n), 0, 0⟩ }) ∧
        exec (.pcieDmaRead d 0 (some a) n) s = .next { s with pcieSeen := ⟨BitVec.ofNat 2048 (s.nat a n), 0, 0⟩ }) ∧
      (hub → a < 2 ^ 40 → ∃ t, exec (.hubStackAccess a true bs n true) s = .next t ∧ t.hubSeen.status = 1 ∧
        ∀ b, t.byte b = s.byte b) ∧
      exec (.pcieDmaRead d (2 ^ 40) (some a) n) s = .next { s with pcieSeen := ⟨0, 0, 1⟩ } ∧
      exec (.pcieDmaWrite d a none bs) s = .next { s with pcieSeen := ⟨0, 0, 1⟩ }) ∧
    (s.hubq = [] → exec (.msi d x) s = .next { s with msis := s.msis ++ [(d, x)] }) ∧
    (∀ a bs, a + bs.length ≤ 2 ^ 40 → s.ownedAny a bs.length = true →
      let late := (d, HubOp.access a true bs 0)
      (s.hubq = [] → a < 2 ^ 40 → exec (.pcieDmaWrite d 0 (some a) bs) s = .next { s with hubq := [late] }) ∧
      (s.hubq = [late] → exec (.msi d x) s = .next { s with hubq := [late, (d, .msi x)] })) ∧
    (∃ t, exec (.errdropWrite d x) s = .next t ∧ t.die d = { s.die d with errdrop := 0 } ∧ { t with dies := s.dies } = s) ∧
    (∃ t, exec (.injctl d x) s = .next t ∧ (t.die d).injctl = x ∧
      (injAct x < 3 →
        let p := injSel x / 4 % 16
        Store.get 0 (t.port p).lanes (injSel x % 4) = x ∧ Store.get 0 (t.port p).laneAt (injSel x % 4) = (s.port p).sent) ∧
      (3 ≤ injAct x → (s.die d).injsel.getLsbD 24 = true → (t.die d).specInj = x) ∧
      (3 ≤ injAct x → (s.die d).injsel.getLsbD 24 = false →
        Store.get 0 (t.core (injCore (s.die d).injsel)).injectors (injBank (s.die d).injsel) = x)) ∧
    (∀ g, g < 16 → s.roundOpen g = false → ∃ t, exec (.groupWrite g x) s = .next t ∧
      (t.group g).word = x &&& 0x8FFF0FFF003F0F0F#64 ∧ { t with groups := s.groups } = s) ∧
    (∀ w, exec (.powerThrottle w) s = .next { s with pwrnow := w.setWidth 64 }) ∧
    (∀ c, c < nCores → (s.core c).anyHelper = false →
      ((s.core c).ctx 0).heldRegs.filter ((s.core c).evicted 0) = [] → ∃ t, exec (.ctxbaseWrite c x) s = .next t ∧
      (t.core c).cr = { (s.core c).cr with ctxbase := x } ∧
      (∀ e ∈ (t.core c).entries, e.ctx = 0 → ((s.core c).ctx 0).holds e.reg = true → e.dirty = true) ∧
      ∀ a, t.byte a = s.byte a) ∧
    (∀ c, c < nCores → (s.core c).anyHelper = true → ∃ t, exec (.ctxbaseWrite c x) s = .next t ∧
      (t.core c).cr = (s.core c).cr ∧ ∀ a, t.byte a = s.byte a)

/-- The first 24 bytes of an error record of class `cls`, trap code 0 and kind `kind` (11 Table 121), and whether SYND bit 63 says
that an injector made it; SEQ is that of the die's arbiter. -/
def recorded (s t : State) (d cls kind loc : Nat) (addr : Word) (inj : Bool) : Prop :=
  let e := s.die d
  let pa := (e.errbase.toNat + 32 * (e.errtail.toNat % 2 ^ (e.errsize.toNat % 16))) % 2 ^ 40
  (t.die d).errtail = e.errtail + 1 ∧ (t.die d).seq = e.seq + 1 ∧ (t.die d).errdrop = e.errdrop ∧
    (∀ k, k < 24 → some (t.byte (pa + k)) = ([BitVec.ofNat 8 cls, 0] ++ toLE e.seq.toNat 2 ++ [BitVec.ofNat 8 kind, 0] ++
      toLE loc 2 ++ toLE addr.toNat 8 ++ toLE 0 8)[k]?) ∧
    (t.byte (pa + 31)).getLsbD 7 = inj ∧ ∀ a, (a < pa ∨ pa + 32 ≤ a) → t.byte a = s.byte a

/-- The error ring of a die has room, and its next record can be written at once. -/
def recordable (s : State) (d : Nat) : Prop :=
  let e := s.die d
  e.errtail - e.errhead ≠ BitVec.ofNat 64 (2 ^ (e.errsize.toNat % 16)) ∧
    s.events.any (fun q => q.1 == 64 + d) = false ∧ s.waits = [] ∧ s.claims = [] ∧ s.owned = [] ∧
    s.noLeaf ((e.errbase.toNat + 32 * (e.errtail.toNat % 2 ^ (e.errsize.toNat % 16))) % 2 ^ 40) 32 = true

/-- 24 R371 to R373, R376, 11 R228, R229, R232, R236, 01 R22, 02 R53, 04 R78 to R84: the KSL ports, injected and unconsumed errors,
failures and resets of dies, routes and engines, and the debug port. An error puts its record of Table 121 into the ring of its die
where that has room (R366), and else is dropped and counted. Where a flit's message bytes lie in its payload and how the lanes'
injectors are addressed are the model's choices (logs 80, 72). -/
def Obligations.PortsFailuresAndDebug : Prop :=
  ∀ (s : State) (q d : Nat), q < 16 → d < 4 →
    let p := s.port q
    let ports (e : Instr) (r : Port) : Prop := ∃ t, exec e s = .next t ∧ t.port q = r ∧ { t with ports := s.ports } = s
    ports (.pctlReset q) p.reset ∧
    (p.en = false → ports (.pctlEnable q true) { p with en := true, pstat := BitVec.ofNat 64 (1 + p.retrains * 256) }) ∧
    ports (.pctlEnable q false) { p with en := false, pstat := BitVec.ofNat 64 (p.retrains * 256) } ∧
    (p.state = 1 → p.en = true → ports (.portTrainingComplete q 15#4)
      { p with pstat := BitVec.ofNat 64 (2 + 15 * 16 + p.retrains * 256)
               outbox := p.retry, sent := p.sent + p.retry.length, replays := 0 }) ∧
    (p.state = 2 → ∀ n,
      let again := p.retry.dropWhile (fun f => flitSeq f != n)
      let replay (k : Nat) : Port :=
        { p with outbox := again, sent := p.sent + again.length, replays := k, nackSeq := n }
      (n = p.nackSeq → p.replays < 16 → ports (.kslNackReceive q n) (replay (p.replays + 1))) ∧
      (n ≠ p.nackSeq → ports (.kslNackReceive q n) (replay 1)) ∧
      (n = p.nackSeq → 16 ≤ p.replays → ports (.kslNackReceive q n)
        { p with pstat := BitVec.ofNat 64 (1 + min 255 (p.retrains + 1) * 256), replays := 0 })) ∧
    (p.state = 2 → ∀ f, flitOk f = true → (flitType f = 1 ∨ flitType f = 2) → flitSeq f = p.rxSeq →
      let w := (s.group (flitVc f / 16)).word
      let ring : Prop := flitType f = 2 ∧ w.getLsbD 63 = true ∧ (w.extractLsb' 0 4).toNat = q
      let vc := flitVc f % 8
      let got := Store.get [] p.parts vc ++ [flitPayload f]
      let last : Prop := flitVc f / 8 % 2 = 1
      let taken : Port := { p with
        inbox := p.inbox ++ [f], rxSeq := p.rxSeq + 1, sent := p.sent + 1, outbox := p.outbox ++ [mkFlit 3 0 p.rxSeq 0]
        parts := if flitType f = 1 then Store.set [] p.parts vc (if last then [] else got) else p.parts
        msgs := if flitType f = 1 ∧ last then p.msgs ++ [(vc, got.flatMap (fun y => toLE y.toNat 56))] else p.msgs }
      (¬ring → ports (.kslFlitReceive q f) taken) ∧
      (ring → grpNext w ≠ q → ∃ t, exec (.kslFlitReceive q f) s = .next t ∧ t.port q = taken ∧
        t.port (grpNext w) = (if Config.flitGoesOn (flitPayload f) (w.extractLsb' 32 12).toNat
          then (s.port (grpNext w)).sendData 2 (flitVc f) (flitPayload f) else s.port (grpNext w)) ∧
        { t with ports := s.ports } = s)) ∧
    (p.state = 2 → ∀ f, flitOk f = false →
      ports (.kslFlitReceive q f) { p with outbox := p.outbox ++ [mkFlit 4 0 p.rxSeq 0], sent := p.sent + 1 }) ∧
    (p.state = 2 → ∃ t, exec (.kslPartnerLost q) s = .next t ∧ (t.port q).state = 3) ∧
    (∀ c b g, c < nCores → b < 8 → g < 1024 →
      let w := Store.get 0 (s.core c).injectors b
      let k := s.die (dieOf c)
      let acts (loc : Nat) : Prop := ∃ t, exec (.injectorAct (8 * c + b) g) s = .next t ∧ t.poison loc = true ∧
        injArmed (Store.get 0 (t.core c).injectors b) = false ∧ ∀ a, t.byte a = s.byte a
      injArmed w = true → g = injN w → injAct w = 5 →
      k.errtail - k.errhead = BitVec.ofNat 64 (2 ^ (k.errsize.toNat % 16)) → s.events.any (fun e => e.1 == 64 + dieOf c) = false →
      (((s.core c).bank b).role ≠ .way → s.injDue = [8 * c + b] → acts (lsLoc c (b * 16384 + 16 * g))) ∧
      (((s.core c).bank b).role = .way → acts (Config.wayGranule c b g % 2 ^ 26 * 2 ^ 14 + 16 * g))) ∧
    (∀ c b g, c < nCores → b < 8 → g < 1024 → recordable s (dieOf c) →
      let w := Store.get 0 (s.core c).injectors b
      let off := b * 16384 + 16 * g
      injArmed w = true → g = injN w → injAct w = 5 → ((s.core c).bank b).role ≠ .way → s.injDue = [8 * c + b] →
      (∀ q l, injArmed (Store.get 0 (s.port q).lanes l) = false) →
      ∃ t, exec (.injectorAct (8 * c + b) g) s = .next t ∧
        recorded s t (dieOf c) 1 0 (whereCore c) (s.windowAddr c off) true) ∧
    (∀ loc, lsBase ≤ loc → loc < lsBase + nCores * 2 ^ 17 → recordable s (dieOf (locCore loc)) →
      ∃ t, exec (.ucna loc) s = .next t ∧ ((s.die (dieOf (locCore loc))).errbase.toNat % 4096 = 0 → t.poison loc = true) ∧
        recorded s t (dieOf (locCore loc)) 1 0
        (whereCore (locCore loc)) (s.windowAddr (locCore loc) (locOff loc)) false) ∧
    (∀ k, k < 16 → recordable s (k / 4) → ∃ t, exec (.ucna (2 ^ 36 * k)) s = .next t ∧
      recorded s t (k / 4) 1 3 k (BitVec.ofNat 64 (2 ^ 36 * k)) false) ∧
    (∀ c b off bs, c < nCores → b < 8 → bs ≠ [] → off + bs.length ≤ 16384 → ((s.core c).bank b).role ≠ .way →
      let w := Store.get 0 (s.core c).injectors b
      injArmed w = true → off / 16 ≤ injN w → injN w ≤ (off + bs.length - 1) / 16 →
      8 * c + b ∈ (s.write (lsLoc c (b * 16384 + off)) bs).injDue) ∧
    (∀ l, l < 4 → p.state = 2 → p.outbox = [] → (∀ m, m ≠ l → injArmed (Store.get 0 p.lanes m) = false) →
      let w := Store.get 0 p.lanes l
      injArmed w = true → Store.get 0 p.laneAt l + max 1 (injN w) = p.sent + 1 → ∀ f, flitOk f = false →
      let after (out : List (BitVec 512)) : Prop := ∃ t, exec (.kslFlitReceive q f) s = .next t ∧
        (t.injectDue.port q).outbox = out ∧ injArmed (Store.get 0 (t.injectDue.port q).lanes l) = false
      (injAct w = 0 → after [corruptBit (mkFlit 4 0 p.rxSeq 0)]) ∧ (injAct w = 1 → after [])) ∧
    (∀ loc, loc < lsBase + nCores * 2 ^ 17 → lsBase ≤ loc →
      let e := s.die (dieOf (locCore loc))
      e.errtail - e.errhead = BitVec.ofNat 64 (2 ^ (e.errsize.toNat % 16)) →
      s.events.any (fun e => e.1 == 64 + dieOf (locCore loc)) = false →
      ∃ t, exec (.ucna loc) s = .next t ∧ t.poison loc = true ∧ (t.die (dieOf (locCore loc))).errdrop =
          (if e.errdrop = BitVec.allOnes 64 then e.errdrop else e.errdrop + 1) ∧
        ∀ a, t.byte a = s.byte a) ∧
    (∃ t, exec (.dieFailure d) s = .next t ∧ (t.die d).seq = (s.die d).seq + 1) ∧
    (∃ t, exec (.thermalStop d) s = .next t ∧ (t.die d).failed = true ∧ ∀ c ∈ dieCores d, (t.core c).held = true) ∧
    (∀ c, c < nCores → ∃ t, exec (.routeFault c) s = .next t ∧
      (s.penOf c = none → (t.core c).ctxs = [(0, Ctx.control (s.die (dieOf c)).mkentry)] ∧
        (t.core c).cr.lease = (s.core c).cr.lease + 1)) ∧
    (∀ n ok, n < 576 → ∃ t, exec (.engineReset 1 n ok) s = .next t ∧ (t.bench n).busy = none) ∧
    (∀ n ok, n < 48 → ∃ t, exec (.engineReset 2 n ok) s = .next t ∧ t.copyEng n = []) ∧
    (∀ n ok, n < 16 → (∃ t, exec (.engineReset 3 n ok) s = .next t ∧ t.stkEng n = []) ∧
      ∃ t, exec (.engineReset 4 n ok) s = .next t ∧ t.port n = (s.port n).reset) ∧
    (∀ c x r, c < nCores → x < 11 → 1 ≤ r → r < 32 → (s.core c).cr.ctxbase ≠ 0 →
      let k := s.ctx c x
      let d : Dest := .g r
      let slot := ((s.core c).cr.ctxbase.toNat + x * 16384 + 16 * r) % 2 ^ 40
      let seen (v : GReg) : Seen := ⟨v.data.setWidth 2048, BitVec.ofNat 16 v.tag.toNat, 0⟩
      let inSlot (t : State) (v : GReg) : Prop := t.granule slot = v ∧ ∀ a, (a < slot ∨ slot + 16 ≤ a) → t.byte a = s.byte a
      slot % 16 = 0 → s.noLeaf slot 16 = true →
      (k.holds d = true → (s.core c).entry x d = none → k.isPending d = false →
        exec (.debuggerRead c x r) s = .next { s with dbgSeen := seen (s.granule slot) }) ∧
      (k.holds d = true → ((s.core c).entry x d).isSome = true → k.isPending d = false → s.owned = [] →
        ∃ t, exec (.debuggerRead c x r) s = .next t ∧ t.dbgSeen = seen (k.rg r) ∧ inSlot t (k.rg r) ∧
          ∀ e, (t.ctx c x).read e = k.read e) ∧
      (∀ val tag, (k.st = .stopped ∨ s.freeze = true) →
        let g : GReg := ⟨val.setWidth 128, tag⟩
        ∃ t, exec (.debuggerWrite c x r val tag) s = .next t ∧ t.dbgSeen.status = 0 ∧ inSlot t g ∧
          (t.core c).entry x d = none ∧ ∀ e, (t.ctx c x).read e = if e = d then .g g else k.read e)) ∧
    (∀ c x r, c < nCores → x < 11 → (s.core c).cr.ctxbase = 0 →
      let k := s.ctx c x
      (r < 32 → exec (.debuggerRead c x r) s =
        .next { s with dbgSeen := ⟨(k.rg r).data.setWidth 2048, BitVec.ofNat 16 (k.rg r).tag.toNat, 0⟩ }) ∧
      (r < 32 → exec (.debuggerRead c x (32 + r)) s = .next { s with dbgSeen := ⟨k.rv r, 0, 0⟩ }) ∧
      (r < 8 → exec (.debuggerRead c x (64 + r)) s = .next { s with dbgSeen := ⟨(k.rp r).setWidth 2048, 0, 0⟩ }) ∧
      (∀ val tag, r < 32 → (k.st = .stopped ∨ s.freeze = true) →
        ∃ t, exec (.debuggerWrite c x r val tag) s = .next t ∧ t.dbgSeen.status = 0 ∧ (∀ a, t.byte a = s.byte a) ∧
          ∀ e, (t.ctx c x).read e = if e = .g r then e.holds (.g ⟨val.setWidth 128, tag⟩) else k.read e) ∧
      (∀ val tag, k.st ≠ .stopped → s.freeze = false →
        exec (.debuggerWrite c x r val tag) s = .next { s with dbgSeen := ⟨0, 0, 1⟩ })) ∧
    (∀ loc, loc < lsBase + nCores * 2 ^ 17 → ∃ z, exec (.debuggerMemoryRead loc) s = .next { s with dbgSeen := z } ∧
      z.data = BitVec.ofNat 2048 (s.nat (lineOf loc) (lineSize loc)) ∧ z.status = 0 ∧
      ∀ i, i < lineSize loc / 16 → z.tags.getLsbD i = s.cBit (lineOf loc + 16 * i)) ∧
    (∀ c x, c < nCores → x < 11 →
      ((s.ctx c x).st = .live → (s.core c).held = false →
        exec (.debuggerSingleStep c x) s = .next { s with single := some (c, x) }) ∧
      (∀ r e, r < 32 → (s.core c).entry x (.g r) = some e → (s.ctx c x).isPending (.g r) = false →
        ∃ t, exec (.registerEntryDrowsy c x r) s = .next t ∧ (t.core c).entry x (.g r) = some { e with st := .drowsy } ∧
          ∀ y f, (t.ctx c y).read f = (s.ctx c y).read f))

/-! ## The whole machine: reset, decoding, fetching, freezing, and the form of memory -/

/-- The words at addresses from `a` on, fetched one after another for the instruction at `pc`, are `ws`; the translations
of the fetches leave `t`. -/
def fetches (core x : Nat) (pc : Word) : List HWord → State → Word → State → Prop
  | [], s, _, t => t = s
  | w :: ws, s, a, t => ∃ s1, s.fetchWord core x pc a = .ok (s1, w) ∧ fetches core x pc ws s1 (a + 2) t

/-- The words at the PC of a context are `ws`: it is even, they lie in one block of 64 KiB, and their fetches leave `t`. -/
def wordsAtPc (s : State) (core x : Nat) (ws : List HWord) (t : State) : Prop :=
  let pc := (s.ctx core x).pcc.word
  pc.getLsbD 0 = false ∧ (∀ k, k < ws.length → (pc + BitVec.ofNat 64 (2 * k)).toNat / 65536 = pc.toNat / 65536) ∧
    fetches core x pc ws s pc t

/-- 04 R71, R91, R92, Tables 43 to 46, 08 R160, Table 81, 20 Tables 188 and 189, 24 R367, Tables 227 to 229: the state that package
reset leaves. The values are those that the spec states, but for three that it leaves open, which are the model's choice: the
address of g1 to g3, at their bases (log 66), the address of PCC of a control context that is held, 0 (log 4), and the form in which
memory that nothing has written is kept (log 3). -/
def Obligations.ResetState : Prop :=
  let s := State.reset
  s.canonical = true ∧ s.lock = false ∧ s.freeze = false ∧ s.pwrcap = 2400 ∧
  ∀ c, c < nCores →
    (s.core c).held = true ∧ (s.ctx c 0).st = .live ∧ (∀ x, x ≠ 0 → (s.ctx c x).st = .free) ∧
    (∀ r, (s.ctx c 0).rg r = if r = 1 then rootCap permsNoX 27 0 0x100000 0
      else if r = 2 then rootCap permsNoX 10 0 0x100000 0xFFFF800000000000#64
      else if r = 3 then selfWindowCap else GReg.null) ∧
    (s.ctx c 0).pcc.bounds = (0, 2 ^ 47) ∧ (s.ctx c 0).pcc.perms = 0xB02 ∧ (s.ctx c 0).pcc.addr = 0 ∧
    (rootCap permsNoX 27 0 0x100000 0).bounds = (0, 2 ^ 47) ∧
    (rootCap permsNoX 10 0 0x100000 0xFFFF800000000000#64).bounds = (0xFFFF800000000000, 0xFFFF800040000000) ∧
    selfWindowCap.bounds = (0xFFFFFFFFFFFE0000, 2 ^ 64) ∧
    (∀ p ∈ ([(0, 0), (2, 3), (3, 0), (4, 0), (5, 3), (6, 3), (9, 0), (10, 0), (11, 0), (12, 0), (13, 0), (14, 1), (33, 0),
        (34, 0), (35, 0), (36, 0), (37, 0), (38, 0), (40, 0), (41, 0x40), (42, 0)] : List (Nat × Word)),
      s.readCr c 0 p.1 = GReg.ofWord p.2) ∧
    s.readCr c 0 7 = GReg.null ∧ s.readCr c 0 8 = GReg.null ∧ s.readCr c 0 32 = GReg.null ∧
    (∀ b, b < 8 → ((s.core c).bank b).role = if b < 2 then Role.way else Role.pad) ∧
    (∀ v, v < 64 → (s.vif v).rsize = 12 ∧ (s.vif v).eqsize = 4 ∧ (s.vif v).share = 1 ∧ (s.vif v).rstat = 0 ∧
      (s.vif v).en = false ∧ (∀ l, (s.vif v).phys l = 31) ∧ ∀ n, ((s.vif v).level n).st = .free) ∧
    (∀ d, d < 4 → (s.die d).mkentry = 0 ∧ (s.die d).kroot = 0 ∧ (s.die d).errsize = 8) ∧
    ∀ q, q < 16 → (s.port q).pstat = 0 ∧ (s.port q).en = false

/-- 02 R34 to R47, Tables 14 to 20c: words written out bit by bit from their encodings decode to the instructions that they
stand for. -/
def Obligations.WordsDecode : Prop :=
  let is (ws : List HWord) (f : Op → Instr) (o : Op) : Prop := decode ws = .ok ((f o, o), [])
  let op (x : BitVec 9) : Op := ⟨false, false, x, none, none, none, [], false⟩
  -- add g5, g6: OP 2, D 5, A 6, X 0
  is [0b00_00010_0101_0110_0#16] .add (op 0b0101_0110_0#9) ∧
  -- st g4, [g8 + 8]: PIMM 8, then page 0 OP 15, D 4, A 8, X 1
  is [0b00_11100_000001000#16, 0b00_01111_0100_1000_1#16] .st { op 0b0100_1000_1#9 with pimm := [8#9] } ∧
  -- nop and ret: OP 26, minor codes 0 and 3
  is [0b00_11010_000000000#16] (fun _ => .nop) (op 0#9) ∧
  is [0b00_11010_000000011#16] (fun _ => .ret) (op 3#9) ∧
  -- br -2 with the switch marker: OP 12, M 1
  is [0b10_01100_111111110#16] .br { op 0b111111110#9 with m := true } ∧
  -- csel g17, g2, g3: PREG with B 3 and D4, PPAG page 1, then OP 8, D 1, A 2, X 0
  is [0b00_11101_0011_1_0_0_00#16, 0b00_11110_0001_10_000#16, 0b00_01000_0001_0010_0#16] .csel
    { op 0b0001_0010_0#9 with ppag := some ⟨2#2, 0#3⟩, preg := some ⟨3#4, true, false, false, 0#2⟩ } ∧
  -- eret: PPAG page 7, OP 0, minor code 0
  is [0b00_11110_0111_10_000#16, 0#16] (fun _ => .eret) { op 0#9 with ppag := some ⟨2#2, 0#3⟩ } ∧
  -- PPAG of page 8, a reserved opcode, five prefixes, and a second PREG
  decode [0b00_11110_1000_10_000#16, 0#16] = .error .pageAbove7 ∧
  decode [0b00_11110_0111_10_000#16, 0b00_11011_000000000#16] = .error .reservedOp ∧
  decode [0x3800#16, 0x3800#16, 0x3800#16, 0x3A00#16, 0x3C10#16, 0#16] = .error .badChain ∧
  decode [0x3A00#16, 0x3A00#16, 0#16] = .error .badChain

/-- How many words of a list have an OP. -/
def opCount (op : Nat) (ws : List HWord) : Nat := (ws.filter (fun w => wordOp w == op)).length

/-- 02 R39: a chain of prefix words followed by a base word is refused as a chain exactly when it is longer than four, or
repeats PREG, PPAG or PVEC, or has more than three PIMMs, in whatever order they come. Where the words at a context's PC
are refused, or run over the end of their 64 KiB block, the context raises ILL there, in both code modes, and no part of the
instruction executes: no register, no control register and no byte changes but by the translations of the fetches. -/
def Obligations.IllegalChainsRaiseIll : Prop :=
  (∀ (pre : List HWord) (b : HWord) (rest : List HWord), (∀ w ∈ pre, isPrefix w = true) → isPrefix b = false →
    (decode (pre ++ b :: rest) = .error .badChain ↔
      4 < pre.length ∨ 3 < opCount 28 pre ∨ 1 < opCount 29 pre ∨ 1 < opCount 30 pre ∨ 1 < opCount 31 pre)) ∧
  ∀ (s t : State) (core x : Nat) (ws : List HWord) (reason : Nat),
    let c := s.ctx core x
    c.traps = [] → (s.core core).gather = [] → s.awaitsEngine core x = false →
    ((∃ e, wordsAtPc { s with curCore := core, curCtx := x, stalled := false } core x ws t ∧ decode ws = .error e ∧
        e ≠ .short ∧ reason = DecodeErr.reason e ∧ ∀ k, k < ws.length → decode (ws.take k) = .error .short) ∨
      (wordsAtPc { s with curCore := core, curCtx := x, stalled := false } core x ws t ∧ ws ≠ [] ∧
        decode ws = .error .short ∧ reason = 3 ∧
        (c.pcc.word + BitVec.ofNat 64 (2 * ws.length)).toNat / 65536 ≠ c.pcc.word.toNat / 65536)) →
    let tr : Trap := ⟨tILL, x, false, c.pcc.word, ws.length, c.pcc.word, BitVec.ofNat 64 reason⟩
    let same (u : State) : Prop := (∀ d, (u.ctx core x).read d = (t.ctx core x).read d) ∧
      (u.ctx core x).cr = (t.ctx core x).cr ∧ ∀ a, u.byte a = t.byte a
    ∃ u, issueOne s core x = .next u ∧
      (x ≠ 0 → same u ∧ (u.ctx core x).st = .stopped ∧ (u.core core).pending = (t.core core).pending ++ [tr]) ∧
      (x = 0 → ecHnd (t.core core).cr.ecause = false → evecOk (t.core core).cr.evec = true →
        same u ∧ (u.core core).cr = (t.core core).cr.enter tr (t.residualPc c.pcc.word) ∧
        (u.ctx core 0).pcc = (t.core core).cr.evec.withOtype 0)

/-- 02 R43, Tables 15 and 17: PPAG selects the page, the scope and the order of the instruction; without it the page is 0,
the scope is package and the order is plain. -/
def Obligations.PpagSelectsPageScopeAndOrder : Prop :=
  ∀ (ws rest : List HWord) (i : Instr) (o : Op), decode ws = .ok ((i, o), rest) →
    let pre := ws.takeWhile isPrefix
    ∃ f, i.form? = some f ∧ i.op?.getD o = o ∧ f.page < 8 ∧
      (∀ w ∈ pre, wordOp w = 30 → f.page = (payload w).toNat / 32 ∧ o.scope = (payload w).toNat / 8 % 4 ∧
        (o.ppag.map PPag.order) = some ((payload w).extractLsb' 0 3)) ∧
      ((∀ w ∈ pre, wordOp w ≠ 30) → f.page = 0 ∧ o.scope = 2 ∧ o.ppag = none)

/-- 02 R33 to R47, R60: for every well-formed instruction and whatever words follow, decoding what it encodes to gives it
back, with every field of its operand at every value that the encoding admits. -/
def Obligations.DecodeEncode : Prop :=
  ∀ (i : Instr) (o : Op) (rest : List HWord), i.wellFormed o = true →
    decode (encode i o ++ rest) = .ok ((i, i.op?.getD o), rest)

/-- A step runs the instruction that the words at the PC decode to. A context whose words are fetched executes it, with its operand
in `opr`, as the single step of a debugger, as the next move of the agenda or as the turn of its core, once the registers that the
cache has evicted have been filled and the engines have accepted its commands; an event of the agenda happens as itself, but at an
engine or the ringmaster of a die that has stopped (24 R376), and then the injectors act whose granule or flit the step has reached.
A word is fetched where the translation of its address says. -/
def stepRuns : Prop :=
  ∀ (s t : State) (core x : Nat) (ws : List HWord) (i : Instr) (o : Op),
    let at' (s0 : State) : State := { s0 with curCore := core, curCtx := x, stalled := false }
    let runs (s0 u : State) : Prop := (s0.ctx core x).traps = [] ∧ s0.awaitsEngine core x = false ∧ wordsAtPc (at' s0) core x ws t ∧
      decode ws = .ok ((i, o), []) ∧ ∃ f, i.form? = some f ∧ t.bringFor core x f o = .ok u
    (∀ u, s.single = some (core, x) → runs { s with single := none } u → step s = injected (exec i { u with opr := o })) ∧
    (s.single = none → ∀ rest xs, s.agenda = .issue core :: rest → s.freeze = false → core < nCores →
      (s.core core).tryOrder = x :: xs → ∀ u r, runs { s with agenda := rest } u →
      exec i { u with opr := o } = .next r → r.stalled = false → step s = injected (.next r)) ∧
    (s.single = none → s.agenda = [] → s.freeze = false → s.turn % 5 = 0 → ∀ xs, s.turnCore (s.turn / 5) = core →
      (s.core core).tryOrder = x :: xs → ∀ u r, runs { s with turn := s.turn + 1 } u →
      exec i { u with opr := o } = .next r → r.stalled = false → step s = injected (.next r)) ∧
    (s.single = none → ∀ rest e, s.agenda = .event e :: rest → s.freeze = false → e.form? = none →
      step s = injected (if ({ s with agenda := rest }).onStoppedDie e then .next { s with agenda := rest }
        else exec e { s with agenda := rest })) ∧
    (∀ r : State, r.injDue = [] → (r.ports.all fun p => p.2.lanes.all fun l => !injArmed l.2) = true → injected (.next r) = .next r) ∧
    (∀ l a, let c := s.ctx core x
      check (c.pcc.withAddr c.pcc.word) a 2 pX = .ok () → a.toNat < 2 ^ 47 → s.leafFor core x a kFetch = .ok (s, l) →
      l.allows a kFetch = .ok () → (c.cr.cm = true → s.isAccepted l = true ∨ isResidual a.toNat = true) →
      s.ownedAny (l.pa a.toNat) 2 = false → s.poison (l.pa a.toNat) = false →
      s.fetchWord core x c.pcc.word a = .ok (s, s.byte (l.pa a.toNat + 1) ++ s.byte (l.pa a.toNat)))

/-- While the package is frozen a step is the single step of a debugger, an event of the debug port or of the
management path, or nothing; the move that does not happen is gone from the agenda. -/
def frozenSteps : Prop :=
  ∀ (s : State), s.freeze = true → s.single = none →
    (s.agenda = [] → step s = injected (.next s)) ∧
    (∀ core rest again, (s.agenda = .issue core :: rest ∨ s.agenda = .mismatch core again :: rest) → core < nCores →
      step s = injected (.next { s with agenda := rest })) ∧
    (∀ e rest, s.agenda = .event e :: rest → Instr.whileFrozen e = false →
      step s = injected (.next { s with agenda := rest }))

/-- 02 R33, R40, 09 R183, 11 R237: a step is the execution of the instruction that the words at the PC decode to, or an event
of the agenda; while the package is frozen nothing issues, and no event happens but those of the debug port and of the
management path. -/
def Obligations.StepRunsDecoded : Prop := stepRuns ∧ frozenSteps

/-- 08 R163, 04 R90: every step keeps memory and its marks in the model's canonical form, so that equal memories are equal
data, from every state that has them so. -/
def Obligations.StepKeepsCanonicalMemory : Prop :=
  ∀ (s t : State), s.canonical = true → step s = .next t → t.canonical = true
end

