-- ==== Sys2Proof/Laws/Store.lean ====
section
/-! SUPPORT. The laws of sparse stores: a read after a write, and the canonical form. -/

namespace Sys2Proof.Machine

variable {β : Type}

@[simp] theorem Store.get_nil (d : β) (k : Nat) : Store.get d [] k = d := rfl

theorem Store.get_cons (d : β) (k' : Nat) (v : β) (m : Store β) (k : Nat) :
    Store.get d ((k', v) :: m) k = if k' = k then v else Store.get d m k := rfl

theorem Store.get_drop_self (d : β) (m : Store β) (k : Nat) : Store.get d (m.drop k) k = d := by
  induction m with
  | nil => rfl
  | cons p m ih =>
    obtain ⟨k', v⟩ := p
    by_cases h : k' = k
    · subst h; simpa [Store.drop] using ih
    · simpa [Store.drop, h, Store.get_cons] using ih

theorem Store.get_drop_ne (d : β) (m : Store β) {k j : Nat} (h : j ≠ k) :
    Store.get d (m.drop k) j = Store.get d m j := by
  induction m with
  | nil => rfl
  | cons p m ih =>
    obtain ⟨k', v⟩ := p
    by_cases hk : k' = k
    · subst hk
      have : ¬ k' = j := fun e => h e.symm
      simpa [Store.drop, Store.get_cons, this] using ih
    · by_cases hj : k' = j
      · subst hj; simp [Store.drop, hk, Store.get_cons]
      · simpa [Store.drop, hk, Store.get_cons, hj] using ih

theorem Store.get_insert_self (d : β) (k : Nat) (v : β) (m : Store β) (h : ∀ p ∈ m, p.1 ≠ k) :
    Store.get d (Store.insert k v m) k = v := by
  induction m with
  | nil => simp [Store.insert, Store.get_cons]
  | cons p m ih =>
    obtain ⟨k', v'⟩ := p
    have hk : k' ≠ k := h (k', v') (by simp)
    have hm : ∀ p ∈ m, p.1 ≠ k := fun p hp => h p (by simp [hp])
    by_cases hlt : k < k'
    · simp [Store.insert, hlt, Store.get_cons]
    · simp [Store.insert, hlt, Store.get_cons, hk, ih hm]

theorem Store.get_insert_ne (d : β) {k j : Nat} (v : β) (m : Store β) (h : j ≠ k) :
    Store.get d (Store.insert k v m) j = Store.get d m j := by
  have hkj : ¬ k = j := fun e => h e.symm
  induction m with
  | nil => simp [Store.insert, Store.get_cons, hkj]
  | cons p m ih =>
    obtain ⟨k', v'⟩ := p
    by_cases hlt : k < k'
    · simp [Store.insert, hlt, Store.get_cons, hkj]
    · simp [Store.insert, hlt, Store.get_cons, ih]

theorem Store.mem_drop_ne {m : Store β} {k : Nat} : ∀ p ∈ m.drop k, p.1 ≠ k := by
  intro p hp
  simp only [Store.drop, List.mem_filter, bne_iff_ne] at hp
  exact hp.2

variable [DecidableEq β]

/-- A read of a key after a write of it gives the value written. -/
@[simp] theorem Store.get_set_self (d : β) (m : Store β) (k : Nat) (v : β) :
    Store.get d (Store.set d m k v) k = v := by
  unfold Store.set
  split
  · next h => rw [Store.get_drop_self, h]
  · exact Store.get_insert_self d k v _ Store.mem_drop_ne

/-- A write of one key leaves every other key alone. -/
theorem Store.get_set_ne (d : β) (m : Store β) {k j : Nat} (v : β) (h : j ≠ k) :
    Store.get d (Store.set d m k v) j = Store.get d m j := by
  unfold Store.set
  split
  · exact Store.get_drop_ne d m h
  · rw [Store.get_insert_ne d v _ h, Store.get_drop_ne d m h]

theorem Store.wfFrom_mono (d : β) (m : Store β) {a b : Nat} (h : a ≤ b) (hb : Store.wfFrom d b m = true) :
    Store.wfFrom d a m = true := by
  cases m with
  | nil => rfl
  | cons p m =>
    simp only [Store.wfFrom, Bool.and_eq_true, decide_eq_true_eq] at hb ⊢
    exact ⟨⟨h.trans hb.1.1, hb.1.2⟩, hb.2⟩

theorem Store.wfFrom_drop (d : β) (m : Store β) (a k : Nat) (h : Store.wfFrom d a m = true) :
    Store.wfFrom d a (m.drop k) = true := by
  induction m generalizing a with
  | nil => rfl
  | cons p m ih =>
    obtain ⟨k', v⟩ := p
    simp only [Store.wfFrom, Bool.and_eq_true, decide_eq_true_eq] at h
    by_cases hk : k' = k
    · have : Store.drop ((k', v) :: m) k = Store.drop m k := by simp [Store.drop, hk]
      rw [this]
      exact ih a (Store.wfFrom_mono d m (Nat.le_succ_of_le h.1.1) h.2)
    · have : Store.drop ((k', v) :: m) k = (k', v) :: Store.drop m k := by simp [Store.drop, hk]
      rw [this]
      simp only [Store.wfFrom, Bool.and_eq_true, decide_eq_true_eq]
      exact ⟨h.1, ih _ h.2⟩

theorem Store.wfFrom_insert (d : β) (m : Store β) (a k : Nat) (v : β) (hv : v ≠ d) (ha : a ≤ k)
    (hne : ∀ p ∈ m, p.1 ≠ k) (h : Store.wfFrom d a m = true) :
    Store.wfFrom d a (Store.insert k v m) = true := by
  induction m generalizing a with
  | nil => simp [Store.insert, Store.wfFrom, hv, ha]
  | cons p m ih =>
    obtain ⟨k', v'⟩ := p
    simp only [Store.wfFrom, Bool.and_eq_true, decide_eq_true_eq] at h
    have hk : k' ≠ k := hne (k', v') (by simp)
    by_cases hlt : k < k'
    · simp only [Store.insert, hlt, if_true, Store.wfFrom, Bool.and_eq_true, decide_eq_true_eq]
      exact ⟨⟨ha, hv⟩, ⟨by omega, h.1.2⟩, h.2⟩
    · simp only [Store.insert, hlt, if_false, Store.wfFrom, Bool.and_eq_true, decide_eq_true_eq]
      refine ⟨h.1, ih _ (by omega) (fun p hp => hne p (by simp [hp])) h.2⟩

/-- A write keeps the canonical form. -/
theorem Store.wf_set (d : β) (m : Store β) (k : Nat) (v : β) (h : Store.wf d m = true) :
    Store.wf d (Store.set d m k v) = true := by
  unfold Store.set Store.wf at *
  split
  · exact Store.wfFrom_drop d m 0 k h
  · next hv =>
      exact Store.wfFrom_insert d (m.drop k) 0 k v hv (Nat.zero_le k) Store.mem_drop_ne (Store.wfFrom_drop d m 0 k h)

end Sys2Proof.Machine
end

