-- ==== Sys2Proof/Laws/State.lean ====
section
/-! SUPPORT. The laws of the state: what each update of a part leaves of the other parts, and reads of the part that an
update writes. -/

namespace Sys2Proof.Machine

/-! ## Each update leaves every other field alone -/

@[simp] theorem State.setCore_mem (s : State) (c : Nat) (k : Core) : (s.setCore c k).mem = s.mem := rfl
@[simp] theorem State.setCore_gran (s : State) (c : Nat) (k : Core) : (s.setCore c k).gran = s.gran := rfl
@[simp] theorem State.setCore_owned (s : State) (c : Nat) (k : Core) : (s.setCore c k).owned = s.owned := rfl
@[simp] theorem State.setCore_claims (s : State) (c : Nat) (k : Core) : (s.setCore c k).claims = s.claims := rfl
@[simp] theorem State.setCore_accepted (s : State) (c : Nat) (k : Core) : (s.setCore c k).accepted = s.accepted := rfl
@[simp] theorem State.setCore_net (s : State) (c : Nat) (k : Core) : (s.setCore c k).net = s.net := rfl
@[simp] theorem State.setCore_waits (s : State) (c : Nat) (k : Core) : (s.setCore c k).waits = s.waits := rfl
@[simp] theorem State.setCore_benches (s : State) (c : Nat) (k : Core) : (s.setCore c k).benches = s.benches := rfl
@[simp] theorem State.setCore_copies (s : State) (c : Nat) (k : Core) : (s.setCore c k).copies = s.copies := rfl
@[simp] theorem State.setCore_stks (s : State) (c : Nat) (k : Core) : (s.setCore c k).stks = s.stks := rfl
@[simp] theorem State.setCore_vifs (s : State) (c : Nat) (k : Core) : (s.setCore c k).vifs = s.vifs := rfl
@[simp] theorem State.setCore_dies (s : State) (c : Nat) (k : Core) : (s.setCore c k).dies = s.dies := rfl
@[simp] theorem State.setCore_lock (s : State) (c : Nat) (k : Core) : (s.setCore c k).lock = s.lock := rfl
@[simp] theorem State.setCore_freeze (s : State) (c : Nat) (k : Core) : (s.setCore c k).freeze = s.freeze := rfl
@[simp] theorem State.setCore_pwrcap (s : State) (c : Nat) (k : Core) : (s.setCore c k).pwrcap = s.pwrcap := rfl
@[simp] theorem State.setCore_pwrnow (s : State) (c : Nat) (k : Core) : (s.setCore c k).pwrnow = s.pwrnow := rfl
@[simp] theorem State.setCore_groups (s : State) (c : Nat) (k : Core) : (s.setCore c k).groups = s.groups := rfl
@[simp] theorem State.setCore_ports (s : State) (c : Nat) (k : Core) : (s.setCore c k).ports = s.ports := rfl
@[simp] theorem State.setCore_sec (s : State) (c : Nat) (k : Core) : (s.setCore c k).sec = s.sec := rfl
@[simp] theorem State.setCore_hubSeen (s : State) (c : Nat) (k : Core) : (s.setCore c k).hubSeen = s.hubSeen := rfl
@[simp] theorem State.setCore_i3cSeen (s : State) (c : Nat) (k : Core) : (s.setCore c k).i3cSeen = s.i3cSeen := rfl
@[simp] theorem State.setCore_dbgSeen (s : State) (c : Nat) (k : Core) : (s.setCore c k).dbgSeen = s.dbgSeen := rfl
@[simp] theorem State.setCore_pcieSeen (s : State) (c : Nat) (k : Core) : (s.setCore c k).pcieSeen = s.pcieSeen := rfl
@[simp] theorem State.setCore_msis (s : State) (c : Nat) (k : Core) : (s.setCore c k).msis = s.msis := rfl
@[simp] theorem State.setCore_hubq (s : State) (c : Nat) (k : Core) : (s.setCore c k).hubq = s.hubq := rfl
@[simp] theorem State.setCore_events (s : State) (c : Nat) (k : Core) : (s.setCore c k).events = s.events := rfl
@[simp] theorem State.setCore_injDue (s : State) (c : Nat) (k : Core) : (s.setCore c k).injDue = s.injDue := rfl
@[simp] theorem State.setCore_rowBits (s : State) (c : Nat) (k : Core) : (s.setCore c k).rowBits = s.rowBits := rfl
@[simp] theorem State.setCore_mitigated (s : State) (c : Nat) (k : Core) : (s.setCore c k).mitigated = s.mitigated := rfl
@[simp] theorem State.setCore_nextId (s : State) (c : Nat) (k : Core) : (s.setCore c k).nextId = s.nextId := rfl
@[simp] theorem State.setCore_freeCount (s : State) (c : Nat) (k : Core) : (s.setCore c k).freeCount = s.freeCount := rfl
@[simp] theorem State.setCore_agenda (s : State) (c : Nat) (k : Core) : (s.setCore c k).agenda = s.agenda := rfl
@[simp] theorem State.setCore_single (s : State) (c : Nat) (k : Core) : (s.setCore c k).single = s.single := rfl
@[simp] theorem State.setCore_turn (s : State) (c : Nat) (k : Core) : (s.setCore c k).turn = s.turn := rfl
@[simp] theorem State.setCore_curCore (s : State) (c : Nat) (k : Core) : (s.setCore c k).curCore = s.curCore := rfl
@[simp] theorem State.setCore_curCtx (s : State) (c : Nat) (k : Core) : (s.setCore c k).curCtx = s.curCtx := rfl
@[simp] theorem State.setCore_stalled (s : State) (c : Nat) (k : Core) : (s.setCore c k).stalled = s.stalled := rfl
@[simp] theorem State.setCore_opr (s : State) (c : Nat) (k : Core) : (s.setCore c k).opr = s.opr := rfl

@[simp] theorem State.modCore_mem (s : State) (c : Nat) (f : Core → Core) : (s.modCore c f).mem = s.mem := rfl
@[simp] theorem State.modCore_gran (s : State) (c : Nat) (f : Core → Core) : (s.modCore c f).gran = s.gran := rfl
@[simp] theorem State.modCore_owned (s : State) (c : Nat) (f : Core → Core) : (s.modCore c f).owned = s.owned := rfl
@[simp] theorem State.modCore_claims (s : State) (c : Nat) (f : Core → Core) : (s.modCore c f).claims = s.claims := rfl
@[simp] theorem State.modCore_accepted (s : State) (c : Nat) (f : Core → Core) : (s.modCore c f).accepted = s.accepted := rfl
@[simp] theorem State.modCore_net (s : State) (c : Nat) (f : Core → Core) : (s.modCore c f).net = s.net := rfl
@[simp] theorem State.modCore_waits (s : State) (c : Nat) (f : Core → Core) : (s.modCore c f).waits = s.waits := rfl
@[simp] theorem State.modCore_benches (s : State) (c : Nat) (f : Core → Core) : (s.modCore c f).benches = s.benches := rfl
@[simp] theorem State.modCore_copies (s : State) (c : Nat) (f : Core → Core) : (s.modCore c f).copies = s.copies := rfl
@[simp] theorem State.modCore_stks (s : State) (c : Nat) (f : Core → Core) : (s.modCore c f).stks = s.stks := rfl
@[simp] theorem State.modCore_vifs (s : State) (c : Nat) (f : Core → Core) : (s.modCore c f).vifs = s.vifs := rfl
@[simp] theorem State.modCore_dies (s : State) (c : Nat) (f : Core → Core) : (s.modCore c f).dies = s.dies := rfl
@[simp] theorem State.modCore_lock (s : State) (c : Nat) (f : Core → Core) : (s.modCore c f).lock = s.lock := rfl
@[simp] theorem State.modCore_freeze (s : State) (c : Nat) (f : Core → Core) : (s.modCore c f).freeze = s.freeze := rfl
@[simp] theorem State.modCore_pwrcap (s : State) (c : Nat) (f : Core → Core) : (s.modCore c f).pwrcap = s.pwrcap := rfl
@[simp] theorem State.modCore_pwrnow (s : State) (c : Nat) (f : Core → Core) : (s.modCore c f).pwrnow = s.pwrnow := rfl
@[simp] theorem State.modCore_groups (s : State) (c : Nat) (f : Core → Core) : (s.modCore c f).groups = s.groups := rfl
@[simp] theorem State.modCore_ports (s : State) (c : Nat) (f : Core → Core) : (s.modCore c f).ports = s.ports := rfl
@[simp] theorem State.modCore_sec (s : State) (c : Nat) (f : Core → Core) : (s.modCore c f).sec = s.sec := rfl
@[simp] theorem State.modCore_hubSeen (s : State) (c : Nat) (f : Core → Core) : (s.modCore c f).hubSeen = s.hubSeen := rfl
@[simp] theorem State.modCore_i3cSeen (s : State) (c : Nat) (f : Core → Core) : (s.modCore c f).i3cSeen = s.i3cSeen := rfl
@[simp] theorem State.modCore_dbgSeen (s : State) (c : Nat) (f : Core → Core) : (s.modCore c f).dbgSeen = s.dbgSeen := rfl
@[simp] theorem State.modCore_pcieSeen (s : State) (c : Nat) (f : Core → Core) : (s.modCore c f).pcieSeen = s.pcieSeen := rfl
@[simp] theorem State.modCore_msis (s : State) (c : Nat) (f : Core → Core) : (s.modCore c f).msis = s.msis := rfl
@[simp] theorem State.modCore_hubq (s : State) (c : Nat) (f : Core → Core) : (s.modCore c f).hubq = s.hubq := rfl
@[simp] theorem State.modCore_events (s : State) (c : Nat) (f : Core → Core) : (s.modCore c f).events = s.events := rfl
@[simp] theorem State.modCore_injDue (s : State) (c : Nat) (f : Core → Core) : (s.modCore c f).injDue = s.injDue := rfl
@[simp] theorem State.modCore_rowBits (s : State) (c : Nat) (f : Core → Core) : (s.modCore c f).rowBits = s.rowBits := rfl
@[simp] theorem State.modCore_mitigated (s : State) (c : Nat) (f : Core → Core) : (s.modCore c f).mitigated = s.mitigated := rfl
@[simp] theorem State.modCore_nextId (s : State) (c : Nat) (f : Core → Core) : (s.modCore c f).nextId = s.nextId := rfl
@[simp] theorem State.modCore_freeCount (s : State) (c : Nat) (f : Core → Core) : (s.modCore c f).freeCount = s.freeCount := rfl
@[simp] theorem State.modCore_agenda (s : State) (c : Nat) (f : Core → Core) : (s.modCore c f).agenda = s.agenda := rfl
@[simp] theorem State.modCore_single (s : State) (c : Nat) (f : Core → Core) : (s.modCore c f).single = s.single := rfl
@[simp] theorem State.modCore_turn (s : State) (c : Nat) (f : Core → Core) : (s.modCore c f).turn = s.turn := rfl
@[simp] theorem State.modCore_curCore (s : State) (c : Nat) (f : Core → Core) : (s.modCore c f).curCore = s.curCore := rfl
@[simp] theorem State.modCore_curCtx (s : State) (c : Nat) (f : Core → Core) : (s.modCore c f).curCtx = s.curCtx := rfl
@[simp] theorem State.modCore_stalled (s : State) (c : Nat) (f : Core → Core) : (s.modCore c f).stalled = s.stalled := rfl
@[simp] theorem State.modCore_opr (s : State) (c : Nat) (f : Core → Core) : (s.modCore c f).opr = s.opr := rfl

@[simp] theorem State.setCtx_mem (s : State) (c x : Nat) (v : Ctx) : (s.setCtx c x v).mem = s.mem := rfl
@[simp] theorem State.setCtx_gran (s : State) (c x : Nat) (v : Ctx) : (s.setCtx c x v).gran = s.gran := rfl
@[simp] theorem State.setCtx_owned (s : State) (c x : Nat) (v : Ctx) : (s.setCtx c x v).owned = s.owned := rfl
@[simp] theorem State.setCtx_claims (s : State) (c x : Nat) (v : Ctx) : (s.setCtx c x v).claims = s.claims := rfl
@[simp] theorem State.setCtx_accepted (s : State) (c x : Nat) (v : Ctx) : (s.setCtx c x v).accepted = s.accepted := rfl
@[simp] theorem State.setCtx_net (s : State) (c x : Nat) (v : Ctx) : (s.setCtx c x v).net = s.net := rfl
@[simp] theorem State.setCtx_waits (s : State) (c x : Nat) (v : Ctx) : (s.setCtx c x v).waits = s.waits := rfl
@[simp] theorem State.setCtx_benches (s : State) (c x : Nat) (v : Ctx) : (s.setCtx c x v).benches = s.benches := rfl
@[simp] theorem State.setCtx_copies (s : State) (c x : Nat) (v : Ctx) : (s.setCtx c x v).copies = s.copies := rfl
@[simp] theorem State.setCtx_stks (s : State) (c x : Nat) (v : Ctx) : (s.setCtx c x v).stks = s.stks := rfl
@[simp] theorem State.setCtx_vifs (s : State) (c x : Nat) (v : Ctx) : (s.setCtx c x v).vifs = s.vifs := rfl
@[simp] theorem State.setCtx_dies (s : State) (c x : Nat) (v : Ctx) : (s.setCtx c x v).dies = s.dies := rfl
@[simp] theorem State.setCtx_lock (s : State) (c x : Nat) (v : Ctx) : (s.setCtx c x v).lock = s.lock := rfl
@[simp] theorem State.setCtx_freeze (s : State) (c x : Nat) (v : Ctx) : (s.setCtx c x v).freeze = s.freeze := rfl
@[simp] theorem State.setCtx_pwrcap (s : State) (c x : Nat) (v : Ctx) : (s.setCtx c x v).pwrcap = s.pwrcap := rfl
@[simp] theorem State.setCtx_pwrnow (s : State) (c x : Nat) (v : Ctx) : (s.setCtx c x v).pwrnow = s.pwrnow := rfl
@[simp] theorem State.setCtx_groups (s : State) (c x : Nat) (v : Ctx) : (s.setCtx c x v).groups = s.groups := rfl
@[simp] theorem State.setCtx_ports (s : State) (c x : Nat) (v : Ctx) : (s.setCtx c x v).ports = s.ports := rfl
@[simp] theorem State.setCtx_sec (s : State) (c x : Nat) (v : Ctx) : (s.setCtx c x v).sec = s.sec := rfl
@[simp] theorem State.setCtx_hubSeen (s : State) (c x : Nat) (v : Ctx) : (s.setCtx c x v).hubSeen = s.hubSeen := rfl
@[simp] theorem State.setCtx_i3cSeen (s : State) (c x : Nat) (v : Ctx) : (s.setCtx c x v).i3cSeen = s.i3cSeen := rfl
@[simp] theorem State.setCtx_dbgSeen (s : State) (c x : Nat) (v : Ctx) : (s.setCtx c x v).dbgSeen = s.dbgSeen := rfl
@[simp] theorem State.setCtx_pcieSeen (s : State) (c x : Nat) (v : Ctx) : (s.setCtx c x v).pcieSeen = s.pcieSeen := rfl
@[simp] theorem State.setCtx_msis (s : State) (c x : Nat) (v : Ctx) : (s.setCtx c x v).msis = s.msis := rfl
@[simp] theorem State.setCtx_hubq (s : State) (c x : Nat) (v : Ctx) : (s.setCtx c x v).hubq = s.hubq := rfl
@[simp] theorem State.setCtx_events (s : State) (c x : Nat) (v : Ctx) : (s.setCtx c x v).events = s.events := rfl
@[simp] theorem State.setCtx_injDue (s : State) (c x : Nat) (v : Ctx) : (s.setCtx c x v).injDue = s.injDue := rfl
@[simp] theorem State.setCtx_rowBits (s : State) (c x : Nat) (v : Ctx) : (s.setCtx c x v).rowBits = s.rowBits := rfl
@[simp] theorem State.setCtx_mitigated (s : State) (c x : Nat) (v : Ctx) : (s.setCtx c x v).mitigated = s.mitigated := rfl
@[simp] theorem State.setCtx_nextId (s : State) (c x : Nat) (v : Ctx) : (s.setCtx c x v).nextId = s.nextId := rfl
@[simp] theorem State.setCtx_freeCount (s : State) (c x : Nat) (v : Ctx) : (s.setCtx c x v).freeCount = s.freeCount := rfl
@[simp] theorem State.setCtx_agenda (s : State) (c x : Nat) (v : Ctx) : (s.setCtx c x v).agenda = s.agenda := rfl
@[simp] theorem State.setCtx_single (s : State) (c x : Nat) (v : Ctx) : (s.setCtx c x v).single = s.single := rfl
@[simp] theorem State.setCtx_turn (s : State) (c x : Nat) (v : Ctx) : (s.setCtx c x v).turn = s.turn := rfl
@[simp] theorem State.setCtx_curCore (s : State) (c x : Nat) (v : Ctx) : (s.setCtx c x v).curCore = s.curCore := rfl
@[simp] theorem State.setCtx_curCtx (s : State) (c x : Nat) (v : Ctx) : (s.setCtx c x v).curCtx = s.curCtx := rfl
@[simp] theorem State.setCtx_stalled (s : State) (c x : Nat) (v : Ctx) : (s.setCtx c x v).stalled = s.stalled := rfl
@[simp] theorem State.setCtx_opr (s : State) (c x : Nat) (v : Ctx) : (s.setCtx c x v).opr = s.opr := rfl

@[simp] theorem State.modCtx_mem (s : State) (c x : Nat) (f : Ctx → Ctx) : (s.modCtx c x f).mem = s.mem := rfl
@[simp] theorem State.modCtx_gran (s : State) (c x : Nat) (f : Ctx → Ctx) : (s.modCtx c x f).gran = s.gran := rfl
@[simp] theorem State.modCtx_owned (s : State) (c x : Nat) (f : Ctx → Ctx) : (s.modCtx c x f).owned = s.owned := rfl
@[simp] theorem State.modCtx_claims (s : State) (c x : Nat) (f : Ctx → Ctx) : (s.modCtx c x f).claims = s.claims := rfl
@[simp] theorem State.modCtx_accepted (s : State) (c x : Nat) (f : Ctx → Ctx) : (s.modCtx c x f).accepted = s.accepted := rfl
@[simp] theorem State.modCtx_net (s : State) (c x : Nat) (f : Ctx → Ctx) : (s.modCtx c x f).net = s.net := rfl
@[simp] theorem State.modCtx_waits (s : State) (c x : Nat) (f : Ctx → Ctx) : (s.modCtx c x f).waits = s.waits := rfl
@[simp] theorem State.modCtx_benches (s : State) (c x : Nat) (f : Ctx → Ctx) : (s.modCtx c x f).benches = s.benches := rfl
@[simp] theorem State.modCtx_copies (s : State) (c x : Nat) (f : Ctx → Ctx) : (s.modCtx c x f).copies = s.copies := rfl
@[simp] theorem State.modCtx_stks (s : State) (c x : Nat) (f : Ctx → Ctx) : (s.modCtx c x f).stks = s.stks := rfl
@[simp] theorem State.modCtx_vifs (s : State) (c x : Nat) (f : Ctx → Ctx) : (s.modCtx c x f).vifs = s.vifs := rfl
@[simp] theorem State.modCtx_dies (s : State) (c x : Nat) (f : Ctx → Ctx) : (s.modCtx c x f).dies = s.dies := rfl
@[simp] theorem State.modCtx_lock (s : State) (c x : Nat) (f : Ctx → Ctx) : (s.modCtx c x f).lock = s.lock := rfl
@[simp] theorem State.modCtx_freeze (s : State) (c x : Nat) (f : Ctx → Ctx) : (s.modCtx c x f).freeze = s.freeze := rfl
@[simp] theorem State.modCtx_pwrcap (s : State) (c x : Nat) (f : Ctx → Ctx) : (s.modCtx c x f).pwrcap = s.pwrcap := rfl
@[simp] theorem State.modCtx_pwrnow (s : State) (c x : Nat) (f : Ctx → Ctx) : (s.modCtx c x f).pwrnow = s.pwrnow := rfl
@[simp] theorem State.modCtx_groups (s : State) (c x : Nat) (f : Ctx → Ctx) : (s.modCtx c x f).groups = s.groups := rfl
@[simp] theorem State.modCtx_ports (s : State) (c x : Nat) (f : Ctx → Ctx) : (s.modCtx c x f).ports = s.ports := rfl
@[simp] theorem State.modCtx_sec (s : State) (c x : Nat) (f : Ctx → Ctx) : (s.modCtx c x f).sec = s.sec := rfl
@[simp] theorem State.modCtx_hubSeen (s : State) (c x : Nat) (f : Ctx → Ctx) : (s.modCtx c x f).hubSeen = s.hubSeen := rfl
@[simp] theorem State.modCtx_i3cSeen (s : State) (c x : Nat) (f : Ctx → Ctx) : (s.modCtx c x f).i3cSeen = s.i3cSeen := rfl
@[simp] theorem State.modCtx_dbgSeen (s : State) (c x : Nat) (f : Ctx → Ctx) : (s.modCtx c x f).dbgSeen = s.dbgSeen := rfl
@[simp] theorem State.modCtx_pcieSeen (s : State) (c x : Nat) (f : Ctx → Ctx) : (s.modCtx c x f).pcieSeen = s.pcieSeen := rfl
@[simp] theorem State.modCtx_msis (s : State) (c x : Nat) (f : Ctx → Ctx) : (s.modCtx c x f).msis = s.msis := rfl
@[simp] theorem State.modCtx_hubq (s : State) (c x : Nat) (f : Ctx → Ctx) : (s.modCtx c x f).hubq = s.hubq := rfl
@[simp] theorem State.modCtx_events (s : State) (c x : Nat) (f : Ctx → Ctx) : (s.modCtx c x f).events = s.events := rfl
@[simp] theorem State.modCtx_injDue (s : State) (c x : Nat) (f : Ctx → Ctx) : (s.modCtx c x f).injDue = s.injDue := rfl
@[simp] theorem State.modCtx_rowBits (s : State) (c x : Nat) (f : Ctx → Ctx) : (s.modCtx c x f).rowBits = s.rowBits := rfl
@[simp] theorem State.modCtx_mitigated (s : State) (c x : Nat) (f : Ctx → Ctx) : (s.modCtx c x f).mitigated = s.mitigated := rfl
@[simp] theorem State.modCtx_nextId (s : State) (c x : Nat) (f : Ctx → Ctx) : (s.modCtx c x f).nextId = s.nextId := rfl
@[simp] theorem State.modCtx_freeCount (s : State) (c x : Nat) (f : Ctx → Ctx) : (s.modCtx c x f).freeCount = s.freeCount := rfl
@[simp] theorem State.modCtx_agenda (s : State) (c x : Nat) (f : Ctx → Ctx) : (s.modCtx c x f).agenda = s.agenda := rfl
@[simp] theorem State.modCtx_single (s : State) (c x : Nat) (f : Ctx → Ctx) : (s.modCtx c x f).single = s.single := rfl
@[simp] theorem State.modCtx_turn (s : State) (c x : Nat) (f : Ctx → Ctx) : (s.modCtx c x f).turn = s.turn := rfl
@[simp] theorem State.modCtx_curCore (s : State) (c x : Nat) (f : Ctx → Ctx) : (s.modCtx c x f).curCore = s.curCore := rfl
@[simp] theorem State.modCtx_curCtx (s : State) (c x : Nat) (f : Ctx → Ctx) : (s.modCtx c x f).curCtx = s.curCtx := rfl
@[simp] theorem State.modCtx_stalled (s : State) (c x : Nat) (f : Ctx → Ctx) : (s.modCtx c x f).stalled = s.stalled := rfl
@[simp] theorem State.modCtx_opr (s : State) (c x : Nat) (f : Ctx → Ctx) : (s.modCtx c x f).opr = s.opr := rfl

@[simp] theorem State.modCx_mem (s : State) (f : Ctx → Ctx) : (s.modCx f).mem = s.mem := rfl
@[simp] theorem State.modCx_gran (s : State) (f : Ctx → Ctx) : (s.modCx f).gran = s.gran := rfl
@[simp] theorem State.modCx_owned (s : State) (f : Ctx → Ctx) : (s.modCx f).owned = s.owned := rfl
@[simp] theorem State.modCx_claims (s : State) (f : Ctx → Ctx) : (s.modCx f).claims = s.claims := rfl
@[simp] theorem State.modCx_accepted (s : State) (f : Ctx → Ctx) : (s.modCx f).accepted = s.accepted := rfl
@[simp] theorem State.modCx_net (s : State) (f : Ctx → Ctx) : (s.modCx f).net = s.net := rfl
@[simp] theorem State.modCx_waits (s : State) (f : Ctx → Ctx) : (s.modCx f).waits = s.waits := rfl
@[simp] theorem State.modCx_benches (s : State) (f : Ctx → Ctx) : (s.modCx f).benches = s.benches := rfl
@[simp] theorem State.modCx_copies (s : State) (f : Ctx → Ctx) : (s.modCx f).copies = s.copies := rfl
@[simp] theorem State.modCx_stks (s : State) (f : Ctx → Ctx) : (s.modCx f).stks = s.stks := rfl
@[simp] theorem State.modCx_vifs (s : State) (f : Ctx → Ctx) : (s.modCx f).vifs = s.vifs := rfl
@[simp] theorem State.modCx_dies (s : State) (f : Ctx → Ctx) : (s.modCx f).dies = s.dies := rfl
@[simp] theorem State.modCx_lock (s : State) (f : Ctx → Ctx) : (s.modCx f).lock = s.lock := rfl
@[simp] theorem State.modCx_freeze (s : State) (f : Ctx → Ctx) : (s.modCx f).freeze = s.freeze := rfl
@[simp] theorem State.modCx_pwrcap (s : State) (f : Ctx → Ctx) : (s.modCx f).pwrcap = s.pwrcap := rfl
@[simp] theorem State.modCx_pwrnow (s : State) (f : Ctx → Ctx) : (s.modCx f).pwrnow = s.pwrnow := rfl
@[simp] theorem State.modCx_groups (s : State) (f : Ctx → Ctx) : (s.modCx f).groups = s.groups := rfl
@[simp] theorem State.modCx_ports (s : State) (f : Ctx → Ctx) : (s.modCx f).ports = s.ports := rfl
@[simp] theorem State.modCx_sec (s : State) (f : Ctx → Ctx) : (s.modCx f).sec = s.sec := rfl
@[simp] theorem State.modCx_hubSeen (s : State) (f : Ctx → Ctx) : (s.modCx f).hubSeen = s.hubSeen := rfl
@[simp] theorem State.modCx_i3cSeen (s : State) (f : Ctx → Ctx) : (s.modCx f).i3cSeen = s.i3cSeen := rfl
@[simp] theorem State.modCx_dbgSeen (s : State) (f : Ctx → Ctx) : (s.modCx f).dbgSeen = s.dbgSeen := rfl
@[simp] theorem State.modCx_pcieSeen (s : State) (f : Ctx → Ctx) : (s.modCx f).pcieSeen = s.pcieSeen := rfl
@[simp] theorem State.modCx_msis (s : State) (f : Ctx → Ctx) : (s.modCx f).msis = s.msis := rfl
@[simp] theorem State.modCx_hubq (s : State) (f : Ctx → Ctx) : (s.modCx f).hubq = s.hubq := rfl
@[simp] theorem State.modCx_events (s : State) (f : Ctx → Ctx) : (s.modCx f).events = s.events := rfl
@[simp] theorem State.modCx_injDue (s : State) (f : Ctx → Ctx) : (s.modCx f).injDue = s.injDue := rfl
@[simp] theorem State.modCx_rowBits (s : State) (f : Ctx → Ctx) : (s.modCx f).rowBits = s.rowBits := rfl
@[simp] theorem State.modCx_mitigated (s : State) (f : Ctx → Ctx) : (s.modCx f).mitigated = s.mitigated := rfl
@[simp] theorem State.modCx_nextId (s : State) (f : Ctx → Ctx) : (s.modCx f).nextId = s.nextId := rfl
@[simp] theorem State.modCx_freeCount (s : State) (f : Ctx → Ctx) : (s.modCx f).freeCount = s.freeCount := rfl
@[simp] theorem State.modCx_agenda (s : State) (f : Ctx → Ctx) : (s.modCx f).agenda = s.agenda := rfl
@[simp] theorem State.modCx_single (s : State) (f : Ctx → Ctx) : (s.modCx f).single = s.single := rfl
@[simp] theorem State.modCx_turn (s : State) (f : Ctx → Ctx) : (s.modCx f).turn = s.turn := rfl
@[simp] theorem State.modCx_curCore (s : State) (f : Ctx → Ctx) : (s.modCx f).curCore = s.curCore := rfl
@[simp] theorem State.modCx_curCtx (s : State) (f : Ctx → Ctx) : (s.modCx f).curCtx = s.curCtx := rfl
@[simp] theorem State.modCx_stalled (s : State) (f : Ctx → Ctx) : (s.modCx f).stalled = s.stalled := rfl
@[simp] theorem State.modCx_opr (s : State) (f : Ctx → Ctx) : (s.modCx f).opr = s.opr := rfl

@[simp] theorem State.setReg_mem (s : State) (c x : Nat) (d : Dest) (v : RVal) : (s.setReg c x d v).mem = s.mem := rfl
@[simp] theorem State.setReg_gran (s : State) (c x : Nat) (d : Dest) (v : RVal) : (s.setReg c x d v).gran = s.gran := rfl
@[simp] theorem State.setReg_owned (s : State) (c x : Nat) (d : Dest) (v : RVal) : (s.setReg c x d v).owned = s.owned := rfl
@[simp] theorem State.setReg_claims (s : State) (c x : Nat) (d : Dest) (v : RVal) : (s.setReg c x d v).claims = s.claims := rfl
@[simp] theorem State.setReg_accepted (s : State) (c x : Nat) (d : Dest) (v : RVal) : (s.setReg c x d v).accepted = s.accepted := rfl
@[simp] theorem State.setReg_net (s : State) (c x : Nat) (d : Dest) (v : RVal) : (s.setReg c x d v).net = s.net := rfl
@[simp] theorem State.setReg_waits (s : State) (c x : Nat) (d : Dest) (v : RVal) : (s.setReg c x d v).waits = s.waits := rfl
@[simp] theorem State.setReg_benches (s : State) (c x : Nat) (d : Dest) (v : RVal) : (s.setReg c x d v).benches = s.benches := rfl
@[simp] theorem State.setReg_copies (s : State) (c x : Nat) (d : Dest) (v : RVal) : (s.setReg c x d v).copies = s.copies := rfl
@[simp] theorem State.setReg_stks (s : State) (c x : Nat) (d : Dest) (v : RVal) : (s.setReg c x d v).stks = s.stks := rfl
@[simp] theorem State.setReg_vifs (s : State) (c x : Nat) (d : Dest) (v : RVal) : (s.setReg c x d v).vifs = s.vifs := rfl
@[simp] theorem State.setReg_dies (s : State) (c x : Nat) (d : Dest) (v : RVal) : (s.setReg c x d v).dies = s.dies := rfl
@[simp] theorem State.setReg_lock (s : State) (c x : Nat) (d : Dest) (v : RVal) : (s.setReg c x d v).lock = s.lock := rfl
@[simp] theorem State.setReg_freeze (s : State) (c x : Nat) (d : Dest) (v : RVal) : (s.setReg c x d v).freeze = s.freeze := rfl
@[simp] theorem State.setReg_pwrcap (s : State) (c x : Nat) (d : Dest) (v : RVal) : (s.setReg c x d v).pwrcap = s.pwrcap := rfl
@[simp] theorem State.setReg_pwrnow (s : State) (c x : Nat) (d : Dest) (v : RVal) : (s.setReg c x d v).pwrnow = s.pwrnow := rfl
@[simp] theorem State.setReg_groups (s : State) (c x : Nat) (d : Dest) (v : RVal) : (s.setReg c x d v).groups = s.groups := rfl
@[simp] theorem State.setReg_ports (s : State) (c x : Nat) (d : Dest) (v : RVal) : (s.setReg c x d v).ports = s.ports := rfl
@[simp] theorem State.setReg_sec (s : State) (c x : Nat) (d : Dest) (v : RVal) : (s.setReg c x d v).sec = s.sec := rfl
@[simp] theorem State.setReg_hubSeen (s : State) (c x : Nat) (d : Dest) (v : RVal) : (s.setReg c x d v).hubSeen = s.hubSeen := rfl
@[simp] theorem State.setReg_i3cSeen (s : State) (c x : Nat) (d : Dest) (v : RVal) : (s.setReg c x d v).i3cSeen = s.i3cSeen := rfl
@[simp] theorem State.setReg_dbgSeen (s : State) (c x : Nat) (d : Dest) (v : RVal) : (s.setReg c x d v).dbgSeen = s.dbgSeen := rfl
@[simp] theorem State.setReg_pcieSeen (s : State) (c x : Nat) (d : Dest) (v : RVal) : (s.setReg c x d v).pcieSeen = s.pcieSeen := rfl
@[simp] theorem State.setReg_msis (s : State) (c x : Nat) (d : Dest) (v : RVal) : (s.setReg c x d v).msis = s.msis := rfl
@[simp] theorem State.setReg_hubq (s : State) (c x : Nat) (d : Dest) (v : RVal) : (s.setReg c x d v).hubq = s.hubq := rfl
@[simp] theorem State.setReg_events (s : State) (c x : Nat) (d : Dest) (v : RVal) : (s.setReg c x d v).events = s.events := rfl
@[simp] theorem State.setReg_injDue (s : State) (c x : Nat) (d : Dest) (v : RVal) : (s.setReg c x d v).injDue = s.injDue := rfl
@[simp] theorem State.setReg_rowBits (s : State) (c x : Nat) (d : Dest) (v : RVal) : (s.setReg c x d v).rowBits = s.rowBits := rfl
@[simp] theorem State.setReg_mitigated (s : State) (c x : Nat) (d : Dest) (v : RVal) : (s.setReg c x d v).mitigated = s.mitigated := rfl
@[simp] theorem State.setReg_nextId (s : State) (c x : Nat) (d : Dest) (v : RVal) : (s.setReg c x d v).nextId = s.nextId := rfl
@[simp] theorem State.setReg_freeCount (s : State) (c x : Nat) (d : Dest) (v : RVal) : (s.setReg c x d v).freeCount = s.freeCount := rfl
@[simp] theorem State.setReg_agenda (s : State) (c x : Nat) (d : Dest) (v : RVal) : (s.setReg c x d v).agenda = s.agenda := rfl
@[simp] theorem State.setReg_single (s : State) (c x : Nat) (d : Dest) (v : RVal) : (s.setReg c x d v).single = s.single := rfl
@[simp] theorem State.setReg_turn (s : State) (c x : Nat) (d : Dest) (v : RVal) : (s.setReg c x d v).turn = s.turn := rfl
@[simp] theorem State.setReg_curCore (s : State) (c x : Nat) (d : Dest) (v : RVal) : (s.setReg c x d v).curCore = s.curCore := rfl
@[simp] theorem State.setReg_curCtx (s : State) (c x : Nat) (d : Dest) (v : RVal) : (s.setReg c x d v).curCtx = s.curCtx := rfl
@[simp] theorem State.setReg_stalled (s : State) (c x : Nat) (d : Dest) (v : RVal) : (s.setReg c x d v).stalled = s.stalled := rfl
@[simp] theorem State.setReg_opr (s : State) (c x : Nat) (d : Dest) (v : RVal) : (s.setReg c x d v).opr = s.opr := rfl

@[simp] theorem State.addOut_mem (s : State) (o : Outst) : (s.addOut o).mem = s.mem := rfl
@[simp] theorem State.addOut_gran (s : State) (o : Outst) : (s.addOut o).gran = s.gran := rfl
@[simp] theorem State.addOut_owned (s : State) (o : Outst) : (s.addOut o).owned = s.owned := rfl
@[simp] theorem State.addOut_claims (s : State) (o : Outst) : (s.addOut o).claims = s.claims := rfl
@[simp] theorem State.addOut_accepted (s : State) (o : Outst) : (s.addOut o).accepted = s.accepted := rfl
@[simp] theorem State.addOut_net (s : State) (o : Outst) : (s.addOut o).net = s.net := rfl
@[simp] theorem State.addOut_waits (s : State) (o : Outst) : (s.addOut o).waits = s.waits := rfl
@[simp] theorem State.addOut_benches (s : State) (o : Outst) : (s.addOut o).benches = s.benches := rfl
@[simp] theorem State.addOut_copies (s : State) (o : Outst) : (s.addOut o).copies = s.copies := rfl
@[simp] theorem State.addOut_stks (s : State) (o : Outst) : (s.addOut o).stks = s.stks := rfl
@[simp] theorem State.addOut_vifs (s : State) (o : Outst) : (s.addOut o).vifs = s.vifs := rfl
@[simp] theorem State.addOut_dies (s : State) (o : Outst) : (s.addOut o).dies = s.dies := rfl
@[simp] theorem State.addOut_lock (s : State) (o : Outst) : (s.addOut o).lock = s.lock := rfl
@[simp] theorem State.addOut_freeze (s : State) (o : Outst) : (s.addOut o).freeze = s.freeze := rfl
@[simp] theorem State.addOut_pwrcap (s : State) (o : Outst) : (s.addOut o).pwrcap = s.pwrcap := rfl
@[simp] theorem State.addOut_pwrnow (s : State) (o : Outst) : (s.addOut o).pwrnow = s.pwrnow := rfl
@[simp] theorem State.addOut_groups (s : State) (o : Outst) : (s.addOut o).groups = s.groups := rfl
@[simp] theorem State.addOut_ports (s : State) (o : Outst) : (s.addOut o).ports = s.ports := rfl
@[simp] theorem State.addOut_sec (s : State) (o : Outst) : (s.addOut o).sec = s.sec := rfl
@[simp] theorem State.addOut_hubSeen (s : State) (o : Outst) : (s.addOut o).hubSeen = s.hubSeen := rfl
@[simp] theorem State.addOut_i3cSeen (s : State) (o : Outst) : (s.addOut o).i3cSeen = s.i3cSeen := rfl
@[simp] theorem State.addOut_dbgSeen (s : State) (o : Outst) : (s.addOut o).dbgSeen = s.dbgSeen := rfl
@[simp] theorem State.addOut_pcieSeen (s : State) (o : Outst) : (s.addOut o).pcieSeen = s.pcieSeen := rfl
@[simp] theorem State.addOut_msis (s : State) (o : Outst) : (s.addOut o).msis = s.msis := rfl
@[simp] theorem State.addOut_hubq (s : State) (o : Outst) : (s.addOut o).hubq = s.hubq := rfl
@[simp] theorem State.addOut_events (s : State) (o : Outst) : (s.addOut o).events = s.events := rfl
@[simp] theorem State.addOut_injDue (s : State) (o : Outst) : (s.addOut o).injDue = s.injDue := rfl
@[simp] theorem State.addOut_rowBits (s : State) (o : Outst) : (s.addOut o).rowBits = s.rowBits := rfl
@[simp] theorem State.addOut_mitigated (s : State) (o : Outst) : (s.addOut o).mitigated = s.mitigated := rfl
@[simp] theorem State.addOut_nextId (s : State) (o : Outst) : (s.addOut o).nextId = s.nextId := rfl
@[simp] theorem State.addOut_freeCount (s : State) (o : Outst) : (s.addOut o).freeCount = s.freeCount := rfl
@[simp] theorem State.addOut_agenda (s : State) (o : Outst) : (s.addOut o).agenda = s.agenda := rfl
@[simp] theorem State.addOut_single (s : State) (o : Outst) : (s.addOut o).single = s.single := rfl
@[simp] theorem State.addOut_turn (s : State) (o : Outst) : (s.addOut o).turn = s.turn := rfl
@[simp] theorem State.addOut_curCore (s : State) (o : Outst) : (s.addOut o).curCore = s.curCore := rfl
@[simp] theorem State.addOut_curCtx (s : State) (o : Outst) : (s.addOut o).curCtx = s.curCtx := rfl
@[simp] theorem State.addOut_stalled (s : State) (o : Outst) : (s.addOut o).stalled = s.stalled := rfl
@[simp] theorem State.addOut_opr (s : State) (o : Outst) : (s.addOut o).opr = s.opr := rfl

@[simp] theorem State.modVif_cores (s : State) (v : Nat) (f : Vif → Vif) : (s.modVif v f).cores = s.cores := rfl
@[simp] theorem State.modVif_mem (s : State) (v : Nat) (f : Vif → Vif) : (s.modVif v f).mem = s.mem := rfl
@[simp] theorem State.modVif_gran (s : State) (v : Nat) (f : Vif → Vif) : (s.modVif v f).gran = s.gran := rfl
@[simp] theorem State.modVif_owned (s : State) (v : Nat) (f : Vif → Vif) : (s.modVif v f).owned = s.owned := rfl
@[simp] theorem State.modVif_claims (s : State) (v : Nat) (f : Vif → Vif) : (s.modVif v f).claims = s.claims := rfl
@[simp] theorem State.modVif_accepted (s : State) (v : Nat) (f : Vif → Vif) : (s.modVif v f).accepted = s.accepted := rfl
@[simp] theorem State.modVif_net (s : State) (v : Nat) (f : Vif → Vif) : (s.modVif v f).net = s.net := rfl
@[simp] theorem State.modVif_waits (s : State) (v : Nat) (f : Vif → Vif) : (s.modVif v f).waits = s.waits := rfl
@[simp] theorem State.modVif_benches (s : State) (v : Nat) (f : Vif → Vif) : (s.modVif v f).benches = s.benches := rfl
@[simp] theorem State.modVif_copies (s : State) (v : Nat) (f : Vif → Vif) : (s.modVif v f).copies = s.copies := rfl
@[simp] theorem State.modVif_stks (s : State) (v : Nat) (f : Vif → Vif) : (s.modVif v f).stks = s.stks := rfl
@[simp] theorem State.modVif_dies (s : State) (v : Nat) (f : Vif → Vif) : (s.modVif v f).dies = s.dies := rfl
@[simp] theorem State.modVif_lock (s : State) (v : Nat) (f : Vif → Vif) : (s.modVif v f).lock = s.lock := rfl
@[simp] theorem State.modVif_freeze (s : State) (v : Nat) (f : Vif → Vif) : (s.modVif v f).freeze = s.freeze := rfl
@[simp] theorem State.modVif_pwrcap (s : State) (v : Nat) (f : Vif → Vif) : (s.modVif v f).pwrcap = s.pwrcap := rfl
@[simp] theorem State.modVif_pwrnow (s : State) (v : Nat) (f : Vif → Vif) : (s.modVif v f).pwrnow = s.pwrnow := rfl
@[simp] theorem State.modVif_groups (s : State) (v : Nat) (f : Vif → Vif) : (s.modVif v f).groups = s.groups := rfl
@[simp] theorem State.modVif_ports (s : State) (v : Nat) (f : Vif → Vif) : (s.modVif v f).ports = s.ports := rfl
@[simp] theorem State.modVif_sec (s : State) (v : Nat) (f : Vif → Vif) : (s.modVif v f).sec = s.sec := rfl
@[simp] theorem State.modVif_hubSeen (s : State) (v : Nat) (f : Vif → Vif) : (s.modVif v f).hubSeen = s.hubSeen := rfl
@[simp] theorem State.modVif_i3cSeen (s : State) (v : Nat) (f : Vif → Vif) : (s.modVif v f).i3cSeen = s.i3cSeen := rfl
@[simp] theorem State.modVif_dbgSeen (s : State) (v : Nat) (f : Vif → Vif) : (s.modVif v f).dbgSeen = s.dbgSeen := rfl
@[simp] theorem State.modVif_pcieSeen (s : State) (v : Nat) (f : Vif → Vif) : (s.modVif v f).pcieSeen = s.pcieSeen := rfl
@[simp] theorem State.modVif_msis (s : State) (v : Nat) (f : Vif → Vif) : (s.modVif v f).msis = s.msis := rfl
@[simp] theorem State.modVif_hubq (s : State) (v : Nat) (f : Vif → Vif) : (s.modVif v f).hubq = s.hubq := rfl
@[simp] theorem State.modVif_events (s : State) (v : Nat) (f : Vif → Vif) : (s.modVif v f).events = s.events := rfl
@[simp] theorem State.modVif_injDue (s : State) (v : Nat) (f : Vif → Vif) : (s.modVif v f).injDue = s.injDue := rfl
@[simp] theorem State.modVif_rowBits (s : State) (v : Nat) (f : Vif → Vif) : (s.modVif v f).rowBits = s.rowBits := rfl
@[simp] theorem State.modVif_mitigated (s : State) (v : Nat) (f : Vif → Vif) : (s.modVif v f).mitigated = s.mitigated := rfl
@[simp] theorem State.modVif_nextId (s : State) (v : Nat) (f : Vif → Vif) : (s.modVif v f).nextId = s.nextId := rfl
@[simp] theorem State.modVif_freeCount (s : State) (v : Nat) (f : Vif → Vif) : (s.modVif v f).freeCount = s.freeCount := rfl
@[simp] theorem State.modVif_agenda (s : State) (v : Nat) (f : Vif → Vif) : (s.modVif v f).agenda = s.agenda := rfl
@[simp] theorem State.modVif_single (s : State) (v : Nat) (f : Vif → Vif) : (s.modVif v f).single = s.single := rfl
@[simp] theorem State.modVif_turn (s : State) (v : Nat) (f : Vif → Vif) : (s.modVif v f).turn = s.turn := rfl
@[simp] theorem State.modVif_curCore (s : State) (v : Nat) (f : Vif → Vif) : (s.modVif v f).curCore = s.curCore := rfl
@[simp] theorem State.modVif_curCtx (s : State) (v : Nat) (f : Vif → Vif) : (s.modVif v f).curCtx = s.curCtx := rfl
@[simp] theorem State.modVif_stalled (s : State) (v : Nat) (f : Vif → Vif) : (s.modVif v f).stalled = s.stalled := rfl
@[simp] theorem State.modVif_opr (s : State) (v : Nat) (f : Vif → Vif) : (s.modVif v f).opr = s.opr := rfl

@[simp] theorem State.modDie_cores (s : State) (d : Nat) (f : Die → Die) : (s.modDie d f).cores = s.cores := rfl
@[simp] theorem State.modDie_mem (s : State) (d : Nat) (f : Die → Die) : (s.modDie d f).mem = s.mem := rfl
@[simp] theorem State.modDie_gran (s : State) (d : Nat) (f : Die → Die) : (s.modDie d f).gran = s.gran := rfl
@[simp] theorem State.modDie_owned (s : State) (d : Nat) (f : Die → Die) : (s.modDie d f).owned = s.owned := rfl
@[simp] theorem State.modDie_claims (s : State) (d : Nat) (f : Die → Die) : (s.modDie d f).claims = s.claims := rfl
@[simp] theorem State.modDie_accepted (s : State) (d : Nat) (f : Die → Die) : (s.modDie d f).accepted = s.accepted := rfl
@[simp] theorem State.modDie_net (s : State) (d : Nat) (f : Die → Die) : (s.modDie d f).net = s.net := rfl
@[simp] theorem State.modDie_waits (s : State) (d : Nat) (f : Die → Die) : (s.modDie d f).waits = s.waits := rfl
@[simp] theorem State.modDie_benches (s : State) (d : Nat) (f : Die → Die) : (s.modDie d f).benches = s.benches := rfl
@[simp] theorem State.modDie_copies (s : State) (d : Nat) (f : Die → Die) : (s.modDie d f).copies = s.copies := rfl
@[simp] theorem State.modDie_stks (s : State) (d : Nat) (f : Die → Die) : (s.modDie d f).stks = s.stks := rfl
@[simp] theorem State.modDie_vifs (s : State) (d : Nat) (f : Die → Die) : (s.modDie d f).vifs = s.vifs := rfl
@[simp] theorem State.modDie_lock (s : State) (d : Nat) (f : Die → Die) : (s.modDie d f).lock = s.lock := rfl
@[simp] theorem State.modDie_freeze (s : State) (d : Nat) (f : Die → Die) : (s.modDie d f).freeze = s.freeze := rfl
@[simp] theorem State.modDie_pwrcap (s : State) (d : Nat) (f : Die → Die) : (s.modDie d f).pwrcap = s.pwrcap := rfl
@[simp] theorem State.modDie_pwrnow (s : State) (d : Nat) (f : Die → Die) : (s.modDie d f).pwrnow = s.pwrnow := rfl
@[simp] theorem State.modDie_groups (s : State) (d : Nat) (f : Die → Die) : (s.modDie d f).groups = s.groups := rfl
@[simp] theorem State.modDie_ports (s : State) (d : Nat) (f : Die → Die) : (s.modDie d f).ports = s.ports := rfl
@[simp] theorem State.modDie_sec (s : State) (d : Nat) (f : Die → Die) : (s.modDie d f).sec = s.sec := rfl
@[simp] theorem State.modDie_hubSeen (s : State) (d : Nat) (f : Die → Die) : (s.modDie d f).hubSeen = s.hubSeen := rfl
@[simp] theorem State.modDie_i3cSeen (s : State) (d : Nat) (f : Die → Die) : (s.modDie d f).i3cSeen = s.i3cSeen := rfl
@[simp] theorem State.modDie_dbgSeen (s : State) (d : Nat) (f : Die → Die) : (s.modDie d f).dbgSeen = s.dbgSeen := rfl
@[simp] theorem State.modDie_pcieSeen (s : State) (d : Nat) (f : Die → Die) : (s.modDie d f).pcieSeen = s.pcieSeen := rfl
@[simp] theorem State.modDie_msis (s : State) (d : Nat) (f : Die → Die) : (s.modDie d f).msis = s.msis := rfl
@[simp] theorem State.modDie_hubq (s : State) (d : Nat) (f : Die → Die) : (s.modDie d f).hubq = s.hubq := rfl
@[simp] theorem State.modDie_events (s : State) (d : Nat) (f : Die → Die) : (s.modDie d f).events = s.events := rfl
@[simp] theorem State.modDie_injDue (s : State) (d : Nat) (f : Die → Die) : (s.modDie d f).injDue = s.injDue := rfl
@[simp] theorem State.modDie_rowBits (s : State) (d : Nat) (f : Die → Die) : (s.modDie d f).rowBits = s.rowBits := rfl
@[simp] theorem State.modDie_mitigated (s : State) (d : Nat) (f : Die → Die) : (s.modDie d f).mitigated = s.mitigated := rfl
@[simp] theorem State.modDie_nextId (s : State) (d : Nat) (f : Die → Die) : (s.modDie d f).nextId = s.nextId := rfl
@[simp] theorem State.modDie_freeCount (s : State) (d : Nat) (f : Die → Die) : (s.modDie d f).freeCount = s.freeCount := rfl
@[simp] theorem State.modDie_agenda (s : State) (d : Nat) (f : Die → Die) : (s.modDie d f).agenda = s.agenda := rfl
@[simp] theorem State.modDie_single (s : State) (d : Nat) (f : Die → Die) : (s.modDie d f).single = s.single := rfl
@[simp] theorem State.modDie_turn (s : State) (d : Nat) (f : Die → Die) : (s.modDie d f).turn = s.turn := rfl
@[simp] theorem State.modDie_curCore (s : State) (d : Nat) (f : Die → Die) : (s.modDie d f).curCore = s.curCore := rfl
@[simp] theorem State.modDie_curCtx (s : State) (d : Nat) (f : Die → Die) : (s.modDie d f).curCtx = s.curCtx := rfl
@[simp] theorem State.modDie_stalled (s : State) (d : Nat) (f : Die → Die) : (s.modDie d f).stalled = s.stalled := rfl
@[simp] theorem State.modDie_opr (s : State) (d : Nat) (f : Die → Die) : (s.modDie d f).opr = s.opr := rfl

@[simp] theorem State.modBench_cores (s : State) (b : Nat) (f : Bench → Bench) : (s.modBench b f).cores = s.cores := rfl
@[simp] theorem State.modBench_mem (s : State) (b : Nat) (f : Bench → Bench) : (s.modBench b f).mem = s.mem := rfl
@[simp] theorem State.modBench_gran (s : State) (b : Nat) (f : Bench → Bench) : (s.modBench b f).gran = s.gran := rfl
@[simp] theorem State.modBench_owned (s : State) (b : Nat) (f : Bench → Bench) : (s.modBench b f).owned = s.owned := rfl
@[simp] theorem State.modBench_claims (s : State) (b : Nat) (f : Bench → Bench) : (s.modBench b f).claims = s.claims := rfl
@[simp] theorem State.modBench_accepted (s : State) (b : Nat) (f : Bench → Bench) : (s.modBench b f).accepted = s.accepted := rfl
@[simp] theorem State.modBench_net (s : State) (b : Nat) (f : Bench → Bench) : (s.modBench b f).net = s.net := rfl
@[simp] theorem State.modBench_waits (s : State) (b : Nat) (f : Bench → Bench) : (s.modBench b f).waits = s.waits := rfl
@[simp] theorem State.modBench_copies (s : State) (b : Nat) (f : Bench → Bench) : (s.modBench b f).copies = s.copies := rfl
@[simp] theorem State.modBench_stks (s : State) (b : Nat) (f : Bench → Bench) : (s.modBench b f).stks = s.stks := rfl
@[simp] theorem State.modBench_vifs (s : State) (b : Nat) (f : Bench → Bench) : (s.modBench b f).vifs = s.vifs := rfl
@[simp] theorem State.modBench_dies (s : State) (b : Nat) (f : Bench → Bench) : (s.modBench b f).dies = s.dies := rfl
@[simp] theorem State.modBench_lock (s : State) (b : Nat) (f : Bench → Bench) : (s.modBench b f).lock = s.lock := rfl
@[simp] theorem State.modBench_freeze (s : State) (b : Nat) (f : Bench → Bench) : (s.modBench b f).freeze = s.freeze := rfl
@[simp] theorem State.modBench_pwrcap (s : State) (b : Nat) (f : Bench → Bench) : (s.modBench b f).pwrcap = s.pwrcap := rfl
@[simp] theorem State.modBench_pwrnow (s : State) (b : Nat) (f : Bench → Bench) : (s.modBench b f).pwrnow = s.pwrnow := rfl
@[simp] theorem State.modBench_groups (s : State) (b : Nat) (f : Bench → Bench) : (s.modBench b f).groups = s.groups := rfl
@[simp] theorem State.modBench_ports (s : State) (b : Nat) (f : Bench → Bench) : (s.modBench b f).ports = s.ports := rfl
@[simp] theorem State.modBench_sec (s : State) (b : Nat) (f : Bench → Bench) : (s.modBench b f).sec = s.sec := rfl
@[simp] theorem State.modBench_hubSeen (s : State) (b : Nat) (f : Bench → Bench) : (s.modBench b f).hubSeen = s.hubSeen := rfl
@[simp] theorem State.modBench_i3cSeen (s : State) (b : Nat) (f : Bench → Bench) : (s.modBench b f).i3cSeen = s.i3cSeen := rfl
@[simp] theorem State.modBench_dbgSeen (s : State) (b : Nat) (f : Bench → Bench) : (s.modBench b f).dbgSeen = s.dbgSeen := rfl
@[simp] theorem State.modBench_pcieSeen (s : State) (b : Nat) (f : Bench → Bench) : (s.modBench b f).pcieSeen = s.pcieSeen := rfl
@[simp] theorem State.modBench_msis (s : State) (b : Nat) (f : Bench → Bench) : (s.modBench b f).msis = s.msis := rfl
@[simp] theorem State.modBench_hubq (s : State) (b : Nat) (f : Bench → Bench) : (s.modBench b f).hubq = s.hubq := rfl
@[simp] theorem State.modBench_events (s : State) (b : Nat) (f : Bench → Bench) : (s.modBench b f).events = s.events := rfl
@[simp] theorem State.modBench_injDue (s : State) (b : Nat) (f : Bench → Bench) : (s.modBench b f).injDue = s.injDue := rfl
@[simp] theorem State.modBench_rowBits (s : State) (b : Nat) (f : Bench → Bench) : (s.modBench b f).rowBits = s.rowBits := rfl
@[simp] theorem State.modBench_mitigated (s : State) (b : Nat) (f : Bench → Bench) : (s.modBench b f).mitigated = s.mitigated := rfl
@[simp] theorem State.modBench_nextId (s : State) (b : Nat) (f : Bench → Bench) : (s.modBench b f).nextId = s.nextId := rfl
@[simp] theorem State.modBench_freeCount (s : State) (b : Nat) (f : Bench → Bench) : (s.modBench b f).freeCount = s.freeCount := rfl
@[simp] theorem State.modBench_agenda (s : State) (b : Nat) (f : Bench → Bench) : (s.modBench b f).agenda = s.agenda := rfl
@[simp] theorem State.modBench_single (s : State) (b : Nat) (f : Bench → Bench) : (s.modBench b f).single = s.single := rfl
@[simp] theorem State.modBench_turn (s : State) (b : Nat) (f : Bench → Bench) : (s.modBench b f).turn = s.turn := rfl
@[simp] theorem State.modBench_curCore (s : State) (b : Nat) (f : Bench → Bench) : (s.modBench b f).curCore = s.curCore := rfl
@[simp] theorem State.modBench_curCtx (s : State) (b : Nat) (f : Bench → Bench) : (s.modBench b f).curCtx = s.curCtx := rfl
@[simp] theorem State.modBench_stalled (s : State) (b : Nat) (f : Bench → Bench) : (s.modBench b f).stalled = s.stalled := rfl
@[simp] theorem State.modBench_opr (s : State) (b : Nat) (f : Bench → Bench) : (s.modBench b f).opr = s.opr := rfl

@[simp] theorem State.modPort_cores (s : State) (q : Nat) (f : Port → Port) : (s.modPort q f).cores = s.cores := rfl
@[simp] theorem State.modPort_mem (s : State) (q : Nat) (f : Port → Port) : (s.modPort q f).mem = s.mem := rfl
@[simp] theorem State.modPort_gran (s : State) (q : Nat) (f : Port → Port) : (s.modPort q f).gran = s.gran := rfl
@[simp] theorem State.modPort_owned (s : State) (q : Nat) (f : Port → Port) : (s.modPort q f).owned = s.owned := rfl
@[simp] theorem State.modPort_claims (s : State) (q : Nat) (f : Port → Port) : (s.modPort q f).claims = s.claims := rfl
@[simp] theorem State.modPort_accepted (s : State) (q : Nat) (f : Port → Port) : (s.modPort q f).accepted = s.accepted := rfl
@[simp] theorem State.modPort_net (s : State) (q : Nat) (f : Port → Port) : (s.modPort q f).net = s.net := rfl
@[simp] theorem State.modPort_waits (s : State) (q : Nat) (f : Port → Port) : (s.modPort q f).waits = s.waits := rfl
@[simp] theorem State.modPort_benches (s : State) (q : Nat) (f : Port → Port) : (s.modPort q f).benches = s.benches := rfl
@[simp] theorem State.modPort_copies (s : State) (q : Nat) (f : Port → Port) : (s.modPort q f).copies = s.copies := rfl
@[simp] theorem State.modPort_stks (s : State) (q : Nat) (f : Port → Port) : (s.modPort q f).stks = s.stks := rfl
@[simp] theorem State.modPort_vifs (s : State) (q : Nat) (f : Port → Port) : (s.modPort q f).vifs = s.vifs := rfl
@[simp] theorem State.modPort_dies (s : State) (q : Nat) (f : Port → Port) : (s.modPort q f).dies = s.dies := rfl
@[simp] theorem State.modPort_lock (s : State) (q : Nat) (f : Port → Port) : (s.modPort q f).lock = s.lock := rfl
@[simp] theorem State.modPort_freeze (s : State) (q : Nat) (f : Port → Port) : (s.modPort q f).freeze = s.freeze := rfl
@[simp] theorem State.modPort_pwrcap (s : State) (q : Nat) (f : Port → Port) : (s.modPort q f).pwrcap = s.pwrcap := rfl
@[simp] theorem State.modPort_pwrnow (s : State) (q : Nat) (f : Port → Port) : (s.modPort q f).pwrnow = s.pwrnow := rfl
@[simp] theorem State.modPort_groups (s : State) (q : Nat) (f : Port → Port) : (s.modPort q f).groups = s.groups := rfl
@[simp] theorem State.modPort_sec (s : State) (q : Nat) (f : Port → Port) : (s.modPort q f).sec = s.sec := rfl
@[simp] theorem State.modPort_hubSeen (s : State) (q : Nat) (f : Port → Port) : (s.modPort q f).hubSeen = s.hubSeen := rfl
@[simp] theorem State.modPort_i3cSeen (s : State) (q : Nat) (f : Port → Port) : (s.modPort q f).i3cSeen = s.i3cSeen := rfl
@[simp] theorem State.modPort_dbgSeen (s : State) (q : Nat) (f : Port → Port) : (s.modPort q f).dbgSeen = s.dbgSeen := rfl
@[simp] theorem State.modPort_pcieSeen (s : State) (q : Nat) (f : Port → Port) : (s.modPort q f).pcieSeen = s.pcieSeen := rfl
@[simp] theorem State.modPort_msis (s : State) (q : Nat) (f : Port → Port) : (s.modPort q f).msis = s.msis := rfl
@[simp] theorem State.modPort_hubq (s : State) (q : Nat) (f : Port → Port) : (s.modPort q f).hubq = s.hubq := rfl
@[simp] theorem State.modPort_events (s : State) (q : Nat) (f : Port → Port) : (s.modPort q f).events = s.events := rfl
@[simp] theorem State.modPort_injDue (s : State) (q : Nat) (f : Port → Port) : (s.modPort q f).injDue = s.injDue := rfl
@[simp] theorem State.modPort_rowBits (s : State) (q : Nat) (f : Port → Port) : (s.modPort q f).rowBits = s.rowBits := rfl
@[simp] theorem State.modPort_mitigated (s : State) (q : Nat) (f : Port → Port) : (s.modPort q f).mitigated = s.mitigated := rfl
@[simp] theorem State.modPort_nextId (s : State) (q : Nat) (f : Port → Port) : (s.modPort q f).nextId = s.nextId := rfl
@[simp] theorem State.modPort_freeCount (s : State) (q : Nat) (f : Port → Port) : (s.modPort q f).freeCount = s.freeCount := rfl
@[simp] theorem State.modPort_agenda (s : State) (q : Nat) (f : Port → Port) : (s.modPort q f).agenda = s.agenda := rfl
@[simp] theorem State.modPort_single (s : State) (q : Nat) (f : Port → Port) : (s.modPort q f).single = s.single := rfl
@[simp] theorem State.modPort_turn (s : State) (q : Nat) (f : Port → Port) : (s.modPort q f).turn = s.turn := rfl
@[simp] theorem State.modPort_curCore (s : State) (q : Nat) (f : Port → Port) : (s.modPort q f).curCore = s.curCore := rfl
@[simp] theorem State.modPort_curCtx (s : State) (q : Nat) (f : Port → Port) : (s.modPort q f).curCtx = s.curCtx := rfl
@[simp] theorem State.modPort_stalled (s : State) (q : Nat) (f : Port → Port) : (s.modPort q f).stalled = s.stalled := rfl
@[simp] theorem State.modPort_opr (s : State) (q : Nat) (f : Port → Port) : (s.modPort q f).opr = s.opr := rfl

@[simp] theorem State.modGroup_cores (s : State) (g : Nat) (f : Group → Group) : (s.modGroup g f).cores = s.cores := rfl
@[simp] theorem State.modGroup_mem (s : State) (g : Nat) (f : Group → Group) : (s.modGroup g f).mem = s.mem := rfl
@[simp] theorem State.modGroup_gran (s : State) (g : Nat) (f : Group → Group) : (s.modGroup g f).gran = s.gran := rfl
@[simp] theorem State.modGroup_owned (s : State) (g : Nat) (f : Group → Group) : (s.modGroup g f).owned = s.owned := rfl
@[simp] theorem State.modGroup_claims (s : State) (g : Nat) (f : Group → Group) : (s.modGroup g f).claims = s.claims := rfl
@[simp] theorem State.modGroup_accepted (s : State) (g : Nat) (f : Group → Group) : (s.modGroup g f).accepted = s.accepted := rfl
@[simp] theorem State.modGroup_net (s : State) (g : Nat) (f : Group → Group) : (s.modGroup g f).net = s.net := rfl
@[simp] theorem State.modGroup_waits (s : State) (g : Nat) (f : Group → Group) : (s.modGroup g f).waits = s.waits := rfl
@[simp] theorem State.modGroup_benches (s : State) (g : Nat) (f : Group → Group) : (s.modGroup g f).benches = s.benches := rfl
@[simp] theorem State.modGroup_copies (s : State) (g : Nat) (f : Group → Group) : (s.modGroup g f).copies = s.copies := rfl
@[simp] theorem State.modGroup_stks (s : State) (g : Nat) (f : Group → Group) : (s.modGroup g f).stks = s.stks := rfl
@[simp] theorem State.modGroup_vifs (s : State) (g : Nat) (f : Group → Group) : (s.modGroup g f).vifs = s.vifs := rfl
@[simp] theorem State.modGroup_dies (s : State) (g : Nat) (f : Group → Group) : (s.modGroup g f).dies = s.dies := rfl
@[simp] theorem State.modGroup_lock (s : State) (g : Nat) (f : Group → Group) : (s.modGroup g f).lock = s.lock := rfl
@[simp] theorem State.modGroup_freeze (s : State) (g : Nat) (f : Group → Group) : (s.modGroup g f).freeze = s.freeze := rfl
@[simp] theorem State.modGroup_pwrcap (s : State) (g : Nat) (f : Group → Group) : (s.modGroup g f).pwrcap = s.pwrcap := rfl
@[simp] theorem State.modGroup_pwrnow (s : State) (g : Nat) (f : Group → Group) : (s.modGroup g f).pwrnow = s.pwrnow := rfl
@[simp] theorem State.modGroup_ports (s : State) (g : Nat) (f : Group → Group) : (s.modGroup g f).ports = s.ports := rfl
@[simp] theorem State.modGroup_sec (s : State) (g : Nat) (f : Group → Group) : (s.modGroup g f).sec = s.sec := rfl
@[simp] theorem State.modGroup_hubSeen (s : State) (g : Nat) (f : Group → Group) : (s.modGroup g f).hubSeen = s.hubSeen := rfl
@[simp] theorem State.modGroup_i3cSeen (s : State) (g : Nat) (f : Group → Group) : (s.modGroup g f).i3cSeen = s.i3cSeen := rfl
@[simp] theorem State.modGroup_dbgSeen (s : State) (g : Nat) (f : Group → Group) : (s.modGroup g f).dbgSeen = s.dbgSeen := rfl
@[simp] theorem State.modGroup_pcieSeen (s : State) (g : Nat) (f : Group → Group) : (s.modGroup g f).pcieSeen = s.pcieSeen := rfl
@[simp] theorem State.modGroup_msis (s : State) (g : Nat) (f : Group → Group) : (s.modGroup g f).msis = s.msis := rfl
@[simp] theorem State.modGroup_hubq (s : State) (g : Nat) (f : Group → Group) : (s.modGroup g f).hubq = s.hubq := rfl
@[simp] theorem State.modGroup_events (s : State) (g : Nat) (f : Group → Group) : (s.modGroup g f).events = s.events := rfl
@[simp] theorem State.modGroup_injDue (s : State) (g : Nat) (f : Group → Group) : (s.modGroup g f).injDue = s.injDue := rfl
@[simp] theorem State.modGroup_rowBits (s : State) (g : Nat) (f : Group → Group) : (s.modGroup g f).rowBits = s.rowBits := rfl
@[simp] theorem State.modGroup_mitigated (s : State) (g : Nat) (f : Group → Group) : (s.modGroup g f).mitigated = s.mitigated := rfl
@[simp] theorem State.modGroup_nextId (s : State) (g : Nat) (f : Group → Group) : (s.modGroup g f).nextId = s.nextId := rfl
@[simp] theorem State.modGroup_freeCount (s : State) (g : Nat) (f : Group → Group) : (s.modGroup g f).freeCount = s.freeCount := rfl
@[simp] theorem State.modGroup_agenda (s : State) (g : Nat) (f : Group → Group) : (s.modGroup g f).agenda = s.agenda := rfl
@[simp] theorem State.modGroup_single (s : State) (g : Nat) (f : Group → Group) : (s.modGroup g f).single = s.single := rfl
@[simp] theorem State.modGroup_turn (s : State) (g : Nat) (f : Group → Group) : (s.modGroup g f).turn = s.turn := rfl
@[simp] theorem State.modGroup_curCore (s : State) (g : Nat) (f : Group → Group) : (s.modGroup g f).curCore = s.curCore := rfl
@[simp] theorem State.modGroup_curCtx (s : State) (g : Nat) (f : Group → Group) : (s.modGroup g f).curCtx = s.curCtx := rfl
@[simp] theorem State.modGroup_stalled (s : State) (g : Nat) (f : Group → Group) : (s.modGroup g f).stalled = s.stalled := rfl
@[simp] theorem State.modGroup_opr (s : State) (g : Nat) (f : Group → Group) : (s.modGroup g f).opr = s.opr := rfl

@[simp] theorem State.modCopy_cores (s : State) (e : Nat) (f : List Copy → List Copy) : (s.modCopy e f).cores = s.cores := rfl
@[simp] theorem State.modCopy_mem (s : State) (e : Nat) (f : List Copy → List Copy) : (s.modCopy e f).mem = s.mem := rfl
@[simp] theorem State.modCopy_gran (s : State) (e : Nat) (f : List Copy → List Copy) : (s.modCopy e f).gran = s.gran := rfl
@[simp] theorem State.modCopy_owned (s : State) (e : Nat) (f : List Copy → List Copy) : (s.modCopy e f).owned = s.owned := rfl
@[simp] theorem State.modCopy_claims (s : State) (e : Nat) (f : List Copy → List Copy) : (s.modCopy e f).claims = s.claims := rfl
@[simp] theorem State.modCopy_accepted (s : State) (e : Nat) (f : List Copy → List Copy) : (s.modCopy e f).accepted = s.accepted := rfl
@[simp] theorem State.modCopy_net (s : State) (e : Nat) (f : List Copy → List Copy) : (s.modCopy e f).net = s.net := rfl
@[simp] theorem State.modCopy_waits (s : State) (e : Nat) (f : List Copy → List Copy) : (s.modCopy e f).waits = s.waits := rfl
@[simp] theorem State.modCopy_benches (s : State) (e : Nat) (f : List Copy → List Copy) : (s.modCopy e f).benches = s.benches := rfl
@[simp] theorem State.modCopy_stks (s : State) (e : Nat) (f : List Copy → List Copy) : (s.modCopy e f).stks = s.stks := rfl
@[simp] theorem State.modCopy_vifs (s : State) (e : Nat) (f : List Copy → List Copy) : (s.modCopy e f).vifs = s.vifs := rfl
@[simp] theorem State.modCopy_dies (s : State) (e : Nat) (f : List Copy → List Copy) : (s.modCopy e f).dies = s.dies := rfl
@[simp] theorem State.modCopy_lock (s : State) (e : Nat) (f : List Copy → List Copy) : (s.modCopy e f).lock = s.lock := rfl
@[simp] theorem State.modCopy_freeze (s : State) (e : Nat) (f : List Copy → List Copy) : (s.modCopy e f).freeze = s.freeze := rfl
@[simp] theorem State.modCopy_pwrcap (s : State) (e : Nat) (f : List Copy → List Copy) : (s.modCopy e f).pwrcap = s.pwrcap := rfl
@[simp] theorem State.modCopy_pwrnow (s : State) (e : Nat) (f : List Copy → List Copy) : (s.modCopy e f).pwrnow = s.pwrnow := rfl
@[simp] theorem State.modCopy_groups (s : State) (e : Nat) (f : List Copy → List Copy) : (s.modCopy e f).groups = s.groups := rfl
@[simp] theorem State.modCopy_ports (s : State) (e : Nat) (f : List Copy → List Copy) : (s.modCopy e f).ports = s.ports := rfl
@[simp] theorem State.modCopy_sec (s : State) (e : Nat) (f : List Copy → List Copy) : (s.modCopy e f).sec = s.sec := rfl
@[simp] theorem State.modCopy_hubSeen (s : State) (e : Nat) (f : List Copy → List Copy) : (s.modCopy e f).hubSeen = s.hubSeen := rfl
@[simp] theorem State.modCopy_i3cSeen (s : State) (e : Nat) (f : List Copy → List Copy) : (s.modCopy e f).i3cSeen = s.i3cSeen := rfl
@[simp] theorem State.modCopy_dbgSeen (s : State) (e : Nat) (f : List Copy → List Copy) : (s.modCopy e f).dbgSeen = s.dbgSeen := rfl
@[simp] theorem State.modCopy_pcieSeen (s : State) (e : Nat) (f : List Copy → List Copy) : (s.modCopy e f).pcieSeen = s.pcieSeen := rfl
@[simp] theorem State.modCopy_msis (s : State) (e : Nat) (f : List Copy → List Copy) : (s.modCopy e f).msis = s.msis := rfl
@[simp] theorem State.modCopy_hubq (s : State) (e : Nat) (f : List Copy → List Copy) : (s.modCopy e f).hubq = s.hubq := rfl
@[simp] theorem State.modCopy_events (s : State) (e : Nat) (f : List Copy → List Copy) : (s.modCopy e f).events = s.events := rfl
@[simp] theorem State.modCopy_injDue (s : State) (e : Nat) (f : List Copy → List Copy) : (s.modCopy e f).injDue = s.injDue := rfl
@[simp] theorem State.modCopy_rowBits (s : State) (e : Nat) (f : List Copy → List Copy) : (s.modCopy e f).rowBits = s.rowBits := rfl
@[simp] theorem State.modCopy_mitigated (s : State) (e : Nat) (f : List Copy → List Copy) : (s.modCopy e f).mitigated = s.mitigated := rfl
@[simp] theorem State.modCopy_nextId (s : State) (e : Nat) (f : List Copy → List Copy) : (s.modCopy e f).nextId = s.nextId := rfl
@[simp] theorem State.modCopy_freeCount (s : State) (e : Nat) (f : List Copy → List Copy) : (s.modCopy e f).freeCount = s.freeCount := rfl
@[simp] theorem State.modCopy_agenda (s : State) (e : Nat) (f : List Copy → List Copy) : (s.modCopy e f).agenda = s.agenda := rfl
@[simp] theorem State.modCopy_single (s : State) (e : Nat) (f : List Copy → List Copy) : (s.modCopy e f).single = s.single := rfl
@[simp] theorem State.modCopy_turn (s : State) (e : Nat) (f : List Copy → List Copy) : (s.modCopy e f).turn = s.turn := rfl
@[simp] theorem State.modCopy_curCore (s : State) (e : Nat) (f : List Copy → List Copy) : (s.modCopy e f).curCore = s.curCore := rfl
@[simp] theorem State.modCopy_curCtx (s : State) (e : Nat) (f : List Copy → List Copy) : (s.modCopy e f).curCtx = s.curCtx := rfl
@[simp] theorem State.modCopy_stalled (s : State) (e : Nat) (f : List Copy → List Copy) : (s.modCopy e f).stalled = s.stalled := rfl
@[simp] theorem State.modCopy_opr (s : State) (e : Nat) (f : List Copy → List Copy) : (s.modCopy e f).opr = s.opr := rfl

@[simp] theorem State.modStk_cores (s : State) (e : Nat) (f : List Stk → List Stk) : (s.modStk e f).cores = s.cores := rfl
@[simp] theorem State.modStk_mem (s : State) (e : Nat) (f : List Stk → List Stk) : (s.modStk e f).mem = s.mem := rfl
@[simp] theorem State.modStk_gran (s : State) (e : Nat) (f : List Stk → List Stk) : (s.modStk e f).gran = s.gran := rfl
@[simp] theorem State.modStk_owned (s : State) (e : Nat) (f : List Stk → List Stk) : (s.modStk e f).owned = s.owned := rfl
@[simp] theorem State.modStk_claims (s : State) (e : Nat) (f : List Stk → List Stk) : (s.modStk e f).claims = s.claims := rfl
@[simp] theorem State.modStk_accepted (s : State) (e : Nat) (f : List Stk → List Stk) : (s.modStk e f).accepted = s.accepted := rfl
@[simp] theorem State.modStk_net (s : State) (e : Nat) (f : List Stk → List Stk) : (s.modStk e f).net = s.net := rfl
@[simp] theorem State.modStk_waits (s : State) (e : Nat) (f : List Stk → List Stk) : (s.modStk e f).waits = s.waits := rfl
@[simp] theorem State.modStk_benches (s : State) (e : Nat) (f : List Stk → List Stk) : (s.modStk e f).benches = s.benches := rfl
@[simp] theorem State.modStk_copies (s : State) (e : Nat) (f : List Stk → List Stk) : (s.modStk e f).copies = s.copies := rfl
@[simp] theorem State.modStk_vifs (s : State) (e : Nat) (f : List Stk → List Stk) : (s.modStk e f).vifs = s.vifs := rfl
@[simp] theorem State.modStk_dies (s : State) (e : Nat) (f : List Stk → List Stk) : (s.modStk e f).dies = s.dies := rfl
@[simp] theorem State.modStk_lock (s : State) (e : Nat) (f : List Stk → List Stk) : (s.modStk e f).lock = s.lock := rfl
@[simp] theorem State.modStk_freeze (s : State) (e : Nat) (f : List Stk → List Stk) : (s.modStk e f).freeze = s.freeze := rfl
@[simp] theorem State.modStk_pwrcap (s : State) (e : Nat) (f : List Stk → List Stk) : (s.modStk e f).pwrcap = s.pwrcap := rfl
@[simp] theorem State.modStk_pwrnow (s : State) (e : Nat) (f : List Stk → List Stk) : (s.modStk e f).pwrnow = s.pwrnow := rfl
@[simp] theorem State.modStk_groups (s : State) (e : Nat) (f : List Stk → List Stk) : (s.modStk e f).groups = s.groups := rfl
@[simp] theorem State.modStk_ports (s : State) (e : Nat) (f : List Stk → List Stk) : (s.modStk e f).ports = s.ports := rfl
@[simp] theorem State.modStk_sec (s : State) (e : Nat) (f : List Stk → List Stk) : (s.modStk e f).sec = s.sec := rfl
@[simp] theorem State.modStk_hubSeen (s : State) (e : Nat) (f : List Stk → List Stk) : (s.modStk e f).hubSeen = s.hubSeen := rfl
@[simp] theorem State.modStk_i3cSeen (s : State) (e : Nat) (f : List Stk → List Stk) : (s.modStk e f).i3cSeen = s.i3cSeen := rfl
@[simp] theorem State.modStk_dbgSeen (s : State) (e : Nat) (f : List Stk → List Stk) : (s.modStk e f).dbgSeen = s.dbgSeen := rfl
@[simp] theorem State.modStk_pcieSeen (s : State) (e : Nat) (f : List Stk → List Stk) : (s.modStk e f).pcieSeen = s.pcieSeen := rfl
@[simp] theorem State.modStk_msis (s : State) (e : Nat) (f : List Stk → List Stk) : (s.modStk e f).msis = s.msis := rfl
@[simp] theorem State.modStk_hubq (s : State) (e : Nat) (f : List Stk → List Stk) : (s.modStk e f).hubq = s.hubq := rfl
@[simp] theorem State.modStk_events (s : State) (e : Nat) (f : List Stk → List Stk) : (s.modStk e f).events = s.events := rfl
@[simp] theorem State.modStk_injDue (s : State) (e : Nat) (f : List Stk → List Stk) : (s.modStk e f).injDue = s.injDue := rfl
@[simp] theorem State.modStk_rowBits (s : State) (e : Nat) (f : List Stk → List Stk) : (s.modStk e f).rowBits = s.rowBits := rfl
@[simp] theorem State.modStk_mitigated (s : State) (e : Nat) (f : List Stk → List Stk) : (s.modStk e f).mitigated = s.mitigated := rfl
@[simp] theorem State.modStk_nextId (s : State) (e : Nat) (f : List Stk → List Stk) : (s.modStk e f).nextId = s.nextId := rfl
@[simp] theorem State.modStk_freeCount (s : State) (e : Nat) (f : List Stk → List Stk) : (s.modStk e f).freeCount = s.freeCount := rfl
@[simp] theorem State.modStk_agenda (s : State) (e : Nat) (f : List Stk → List Stk) : (s.modStk e f).agenda = s.agenda := rfl
@[simp] theorem State.modStk_single (s : State) (e : Nat) (f : List Stk → List Stk) : (s.modStk e f).single = s.single := rfl
@[simp] theorem State.modStk_turn (s : State) (e : Nat) (f : List Stk → List Stk) : (s.modStk e f).turn = s.turn := rfl
@[simp] theorem State.modStk_curCore (s : State) (e : Nat) (f : List Stk → List Stk) : (s.modStk e f).curCore = s.curCore := rfl
@[simp] theorem State.modStk_curCtx (s : State) (e : Nat) (f : List Stk → List Stk) : (s.modStk e f).curCtx = s.curCtx := rfl
@[simp] theorem State.modStk_stalled (s : State) (e : Nat) (f : List Stk → List Stk) : (s.modStk e f).stalled = s.stalled := rfl
@[simp] theorem State.modStk_opr (s : State) (e : Nat) (f : List Stk → List Stk) : (s.modStk e f).opr = s.opr := rfl

@[simp] theorem State.setMarks_cores (s : State) (l : Nat) (f c p : Bool) : (s.setMarks l f c p).cores = s.cores := rfl
@[simp] theorem State.setMarks_mem (s : State) (l : Nat) (f c p : Bool) : (s.setMarks l f c p).mem = s.mem := rfl
@[simp] theorem State.setMarks_owned (s : State) (l : Nat) (f c p : Bool) : (s.setMarks l f c p).owned = s.owned := rfl
@[simp] theorem State.setMarks_claims (s : State) (l : Nat) (f c p : Bool) : (s.setMarks l f c p).claims = s.claims := rfl
@[simp] theorem State.setMarks_accepted (s : State) (l : Nat) (f c p : Bool) : (s.setMarks l f c p).accepted = s.accepted := rfl
@[simp] theorem State.setMarks_net (s : State) (l : Nat) (f c p : Bool) : (s.setMarks l f c p).net = s.net := rfl
@[simp] theorem State.setMarks_waits (s : State) (l : Nat) (f c p : Bool) : (s.setMarks l f c p).waits = s.waits := rfl
@[simp] theorem State.setMarks_benches (s : State) (l : Nat) (f c p : Bool) : (s.setMarks l f c p).benches = s.benches := rfl
@[simp] theorem State.setMarks_copies (s : State) (l : Nat) (f c p : Bool) : (s.setMarks l f c p).copies = s.copies := rfl
@[simp] theorem State.setMarks_stks (s : State) (l : Nat) (f c p : Bool) : (s.setMarks l f c p).stks = s.stks := rfl
@[simp] theorem State.setMarks_vifs (s : State) (l : Nat) (f c p : Bool) : (s.setMarks l f c p).vifs = s.vifs := rfl
@[simp] theorem State.setMarks_dies (s : State) (l : Nat) (f c p : Bool) : (s.setMarks l f c p).dies = s.dies := rfl
@[simp] theorem State.setMarks_lock (s : State) (l : Nat) (f c p : Bool) : (s.setMarks l f c p).lock = s.lock := rfl
@[simp] theorem State.setMarks_freeze (s : State) (l : Nat) (f c p : Bool) : (s.setMarks l f c p).freeze = s.freeze := rfl
@[simp] theorem State.setMarks_pwrcap (s : State) (l : Nat) (f c p : Bool) : (s.setMarks l f c p).pwrcap = s.pwrcap := rfl
@[simp] theorem State.setMarks_pwrnow (s : State) (l : Nat) (f c p : Bool) : (s.setMarks l f c p).pwrnow = s.pwrnow := rfl
@[simp] theorem State.setMarks_groups (s : State) (l : Nat) (f c p : Bool) : (s.setMarks l f c p).groups = s.groups := rfl
@[simp] theorem State.setMarks_ports (s : State) (l : Nat) (f c p : Bool) : (s.setMarks l f c p).ports = s.ports := rfl
@[simp] theorem State.setMarks_sec (s : State) (l : Nat) (f c p : Bool) : (s.setMarks l f c p).sec = s.sec := rfl
@[simp] theorem State.setMarks_hubSeen (s : State) (l : Nat) (f c p : Bool) : (s.setMarks l f c p).hubSeen = s.hubSeen := rfl
@[simp] theorem State.setMarks_i3cSeen (s : State) (l : Nat) (f c p : Bool) : (s.setMarks l f c p).i3cSeen = s.i3cSeen := rfl
@[simp] theorem State.setMarks_dbgSeen (s : State) (l : Nat) (f c p : Bool) : (s.setMarks l f c p).dbgSeen = s.dbgSeen := rfl
@[simp] theorem State.setMarks_pcieSeen (s : State) (l : Nat) (f c p : Bool) : (s.setMarks l f c p).pcieSeen = s.pcieSeen := rfl
@[simp] theorem State.setMarks_msis (s : State) (l : Nat) (f c p : Bool) : (s.setMarks l f c p).msis = s.msis := rfl
@[simp] theorem State.setMarks_hubq (s : State) (l : Nat) (f c p : Bool) : (s.setMarks l f c p).hubq = s.hubq := rfl
@[simp] theorem State.setMarks_events (s : State) (l : Nat) (f c p : Bool) : (s.setMarks l f c p).events = s.events := rfl
@[simp] theorem State.setMarks_injDue (s : State) (l : Nat) (f c p : Bool) : (s.setMarks l f c p).injDue = s.injDue := rfl
@[simp] theorem State.setMarks_rowBits (s : State) (l : Nat) (f c p : Bool) : (s.setMarks l f c p).rowBits = s.rowBits := rfl
@[simp] theorem State.setMarks_mitigated (s : State) (l : Nat) (f c p : Bool) : (s.setMarks l f c p).mitigated = s.mitigated := rfl
@[simp] theorem State.setMarks_nextId (s : State) (l : Nat) (f c p : Bool) : (s.setMarks l f c p).nextId = s.nextId := rfl
@[simp] theorem State.setMarks_freeCount (s : State) (l : Nat) (f c p : Bool) : (s.setMarks l f c p).freeCount = s.freeCount := rfl
@[simp] theorem State.setMarks_agenda (s : State) (l : Nat) (f c p : Bool) : (s.setMarks l f c p).agenda = s.agenda := rfl
@[simp] theorem State.setMarks_single (s : State) (l : Nat) (f c p : Bool) : (s.setMarks l f c p).single = s.single := rfl
@[simp] theorem State.setMarks_turn (s : State) (l : Nat) (f c p : Bool) : (s.setMarks l f c p).turn = s.turn := rfl
@[simp] theorem State.setMarks_curCore (s : State) (l : Nat) (f c p : Bool) : (s.setMarks l f c p).curCore = s.curCore := rfl
@[simp] theorem State.setMarks_curCtx (s : State) (l : Nat) (f c p : Bool) : (s.setMarks l f c p).curCtx = s.curCtx := rfl
@[simp] theorem State.setMarks_stalled (s : State) (l : Nat) (f c p : Bool) : (s.setMarks l f c p).stalled = s.stalled := rfl
@[simp] theorem State.setMarks_opr (s : State) (l : Nat) (f c p : Bool) : (s.setMarks l f c p).opr = s.opr := rfl

/-! ## Reads of cores and contexts after writes -/

@[simp] theorem State.core_setCore_self (s : State) (c : Nat) (k : Core) : (s.setCore c k).core c = k := by
  simp [State.core, State.setCore]

theorem State.core_setCore_ne (s : State) {c d : Nat} (k : Core) (h : d ≠ c) : (s.setCore c k).core d = s.core d := by
  simp [State.core, State.setCore, Store.get_set_ne _ _ _ h]

@[simp] theorem State.core_modCore_self (s : State) (c : Nat) (f : Core → Core) : (s.modCore c f).core c = f (s.core c) := by
  simp [State.modCore]

theorem State.core_modCore_ne (s : State) {c d : Nat} (f : Core → Core) (h : d ≠ c) :
    (s.modCore c f).core d = s.core d := by
  simp [State.modCore, State.core_setCore_ne _ _ h]

@[simp] theorem Core.ctx_setCtx_self (k : Core) (x : Nat) (c : Ctx) : (k.setCtx x c).ctx x = c := by
  simp [Core.ctx, Core.setCtx]

theorem Core.ctx_setCtx_ne (k : Core) {x y : Nat} (c : Ctx) (h : y ≠ x) : (k.setCtx x c).ctx y = k.ctx y := by
  simp [Core.ctx, Core.setCtx, Store.get_set_ne _ _ _ h]

@[simp] theorem State.ctx_setCtx_self (s : State) (c x : Nat) (v : Ctx) : (s.setCtx c x v).ctx c x = v := by
  simp [State.ctx, State.setCtx]

@[simp] theorem State.ctx_modCtx_self (s : State) (c x : Nat) (f : Ctx → Ctx) :
    (s.modCtx c x f).ctx c x = f (s.ctx c x) := by
  simp [State.modCtx]

theorem State.core_setCtx_ne (s : State) {c d : Nat} (x : Nat) (v : Ctx) (h : d ≠ c) :
    (s.setCtx c x v).core d = s.core d := by
  simp [State.setCtx, State.core_modCore_ne _ _ h]

theorem State.ctx_setCtx_ne (s : State) {c x d y : Nat} (v : Ctx) (h : d ≠ c ∨ y ≠ x) :
    (s.setCtx c x v).ctx d y = s.ctx d y := by
  by_cases hd : d = c
  · subst hd
    have hy : y ≠ x := by rcases h with h | h <;> first | exact absurd rfl h | exact h
    simp [State.ctx, State.setCtx, Core.ctx_setCtx_ne _ _ hy]
  · simp [State.ctx, State.core_setCtx_ne _ _ _ hd]

theorem State.ctx_modCtx_ne (s : State) {c x d y : Nat} (f : Ctx → Ctx) (h : d ≠ c ∨ y ≠ x) :
    (s.modCtx c x f).ctx d y = s.ctx d y := s.ctx_setCtx_ne _ h

@[simp] theorem State.core_setCtx_self (s : State) (c x : Nat) (v : Ctx) :
    (s.setCtx c x v).core c = (s.core c).setCtx x v := by
  simp [State.setCtx]

@[simp] theorem State.core_modCtx_self (s : State) (c x : Nat) (f : Ctx → Ctx) :
    (s.modCtx c x f).core c = (s.core c).setCtx x (f (s.ctx c x)) := by
  simp [State.modCtx]

@[simp] theorem State.cx_modCx (s : State) (f : Ctx → Ctx) : (s.modCx f).cx = f s.cx := by
  simp [State.cx, State.modCx]

@[simp] theorem State.ck_modCx (s : State) (f : Ctx → Ctx) : (s.modCx f).ck = s.ck.setCtx s.curCtx (f s.cx) := by
  simp [State.ck, State.modCx, State.cx]

/-! ## Each part of a core is left alone by a write of a context -/

@[simp] theorem Core.setCtx_cr (k : Core) (x : Nat) (c : Ctx) : (k.setCtx x c).cr = k.cr := rfl
@[simp] theorem Core.setCtx_banks (k : Core) (x : Nat) (c : Ctx) : (k.setCtx x c).banks = k.banks := rfl
@[simp] theorem Core.setCtx_pending (k : Core) (x : Nat) (c : Ctx) : (k.setCtx x c).pending = k.pending := rfl
@[simp] theorem Core.setCtx_journal (k : Core) (x : Nat) (c : Ctx) : (k.setCtx x c).journal = k.journal := rfl
@[simp] theorem Core.setCtx_gather (k : Core) (x : Nat) (c : Ctx) : (k.setCtx x c).gather = k.gather := rfl
@[simp] theorem Core.setCtx_held (k : Core) (x : Nat) (c : Ctx) : (k.setCtx x c).held = k.held := rfl
@[simp] theorem Core.setCtx_handles (k : Core) (x : Nat) (c : Ctx) : (k.setCtx x c).handles = k.handles := rfl
@[simp] theorem Core.setCtx_counters (k : Core) (x : Nat) (c : Ctx) : (k.setCtx x c).counters = k.counters := rfl
@[simp] theorem Core.setCtx_deque (k : Core) (x : Nat) (c : Ctx) : (k.setCtx x c).deque = k.deque := rfl
@[simp] theorem Core.setCtx_slots (k : Core) (x : Nat) (c : Ctx) : (k.setCtx x c).slots = k.slots := rfl

/-! ## Reads of the other numbered parts after writes -/

@[simp] theorem State.vif_modVif_self (s : State) (v : Nat) (f : Vif → Vif) : (s.modVif v f).vif v = f (s.vif v) := by
  simp [State.modVif, State.setVif, State.vif]

theorem State.vif_modVif_ne (s : State) {v w : Nat} (f : Vif → Vif) (h : w ≠ v) : (s.modVif v f).vif w = s.vif w := by
  simp [State.modVif, State.setVif, State.vif, Store.get_set_ne _ _ _ h]

@[simp] theorem State.die_modDie_self (s : State) (d : Nat) (f : Die → Die) : (s.modDie d f).die d = f (s.die d) := by
  simp [State.modDie, State.die]

theorem State.die_modDie_ne (s : State) {d e : Nat} (f : Die → Die) (h : e ≠ d) : (s.modDie d f).die e = s.die e := by
  simp [State.modDie, State.die, Store.get_set_ne _ _ _ h]

@[simp] theorem State.bench_modBench_self (s : State) (b : Nat) (f : Bench → Bench) :
    (s.modBench b f).bench b = f (s.bench b) := by
  simp [State.modBench, State.bench]

theorem State.bench_modBench_ne (s : State) {b d : Nat} (f : Bench → Bench) (h : d ≠ b) :
    (s.modBench b f).bench d = s.bench d := by
  simp [State.modBench, State.bench, Store.get_set_ne _ _ _ h]

@[simp] theorem State.port_modPort_self (s : State) (q : Nat) (f : Port → Port) : (s.modPort q f).port q = f (s.port q) := by
  simp [State.modPort, State.port]

theorem State.port_modPort_ne (s : State) {q r : Nat} (f : Port → Port) (h : r ≠ q) : (s.modPort q f).port r = s.port r := by
  simp [State.modPort, State.port, Store.get_set_ne _ _ _ h]

@[simp] theorem State.group_modGroup_self (s : State) (g : Nat) (f : Group → Group) :
    (s.modGroup g f).group g = f (s.group g) := by
  simp [State.modGroup, State.group]

theorem State.group_modGroup_ne (s : State) {g h : Nat} (f : Group → Group) (e : h ≠ g) :
    (s.modGroup g f).group h = s.group h := by
  simp [State.modGroup, State.group, Store.get_set_ne _ _ _ e]

@[simp] theorem State.copyEng_modCopy_self (s : State) (e : Nat) (f : List Copy → List Copy) :
    (s.modCopy e f).copyEng e = f (s.copyEng e) := by
  simp [State.modCopy, State.copyEng]

theorem State.copyEng_modCopy_ne (s : State) {e d : Nat} (f : List Copy → List Copy) (h : d ≠ e) :
    (s.modCopy e f).copyEng d = s.copyEng d := by
  simp [State.modCopy, State.copyEng, Store.get_set_ne _ _ _ h]

@[simp] theorem State.stkEng_modStk_self (s : State) (e : Nat) (f : List Stk → List Stk) :
    (s.modStk e f).stkEng e = f (s.stkEng e) := by
  simp [State.modStk, State.stkEng]

theorem State.stkEng_modStk_ne (s : State) {e d : Nat} (f : List Stk → List Stk) (h : d ≠ e) :
    (s.modStk e f).stkEng d = s.stkEng d := by
  simp [State.modStk, State.stkEng, Store.get_set_ne _ _ _ h]

@[simp] theorem Core.bank_setBank_self (k : Core) (b : Nat) (v : Bank) : (k.setBank b v).bank b = v := by
  simp [Core.bank, Core.setBank]

theorem Core.bank_setBank_ne (k : Core) {b d : Nat} (v : Bank) (h : d ≠ b) : (k.setBank b v).bank d = k.bank d := by
  simp [Core.bank, Core.setBank, Store.get_set_ne _ _ _ h]

end Sys2Proof.Machine
end

