-- ==== Sys2Proof/Laws/Regs.lean ====
section
/-! SUPPORT. The laws of registers: reads after writes, the hard-wired registers, and what a write of a register leaves
alone. -/

namespace Sys2Proof.Machine

@[simp] theorem Ctx.read_g (c : Ctx) (r : Nat) : c.read (.g r) = .g (c.rg r) := rfl
@[simp] theorem Ctx.read_v (c : Ctx) (r : Nat) : c.read (.v r) = .v (c.rv r) := rfl
@[simp] theorem Ctx.read_p (c : Ctx) (r : Nat) : c.read (.p r) = .p (c.rp r) := rfl
@[simp] theorem Ctx.read_none (c : Ctx) : c.read .none = .none := rfl

/-- g0 reads as null (04 R73). -/
@[simp] theorem Ctx.rg_zero (c : Ctx) : c.rg 0 = GReg.null := rfl

/-- p0 reads as all ones (02 R44). -/
@[simp] theorem Ctx.rp_zero (c : Ctx) : c.rp 0 = BitVec.allOnes 256 := rfl

/-- A value that a register of that kind can take. -/
def RVal.fits (v : RVal) : Dest → Bool
  | .g _ => match v with | .g _ => true | _ => false
  | .v _ => match v with | .v _ => true | _ => false
  | .p _ => match v with | .p _ => true | _ => false
  | .none => false

/-- Writing a register: it reads as written, the hard-wired ones as they always do. -/
theorem Ctx.read_putDest_self (c : Ctx) (d : Dest) (v : RVal) (h : v.fits d = true) :
    (c.putDest d v).read d = d.holds v := by
  cases d <;> cases v <;> simp_all [RVal.fits, Ctx.putDest, Ctx.read, Dest.holds, Ctx.putG, Ctx.putV, Ctx.putP, Ctx.rg,
    Ctx.rv, Ctx.rp] <;> split <;> simp_all

/-- Writing a register leaves every other register alone. -/
theorem Ctx.read_putDest_ne (c : Ctx) {d e : Dest} (v : RVal) (h : e ≠ d) : (c.putDest d v).read e = c.read e := by
  cases d with
  | none => rfl
  | g r =>
    cases v <;> try rfl
    by_cases hr : r = 0
    · simp [Ctx.putDest, Ctx.putG, hr]
    · cases e <;> simp_all [Ctx.putDest, Ctx.read, Ctx.putG, Ctx.rg, Ctx.rv, Ctx.rp, Store.get_set_ne]
  | v r =>
    cases v <;> try rfl
    cases e <;> simp_all [Ctx.putDest, Ctx.read, Ctx.putV, Ctx.rg, Ctx.rv, Ctx.rp, Store.get_set_ne]
  | p r =>
    cases v <;> try rfl
    by_cases hr : r = 0
    · simp [Ctx.putDest, Ctx.putP, hr]
    · cases e <;> simp_all [Ctx.putDest, Ctx.read, Ctx.putP, Ctx.rg, Ctx.rv, Ctx.rp, Store.get_set_ne]

@[simp] theorem Ctx.read_supersede (c : Ctx) (d e : Dest) : (c.supersede d).read e = c.read e := by
  cases e <;> rfl

/-- What a register write may change of a context. -/
theorem Ctx.putDest_frame (c : Ctx) (d : Dest) (v : RVal) :
    { c.putDest d v with g := c.g, v := c.v, p := c.p, nullG := c.nullG, nullV := c.nullV } = c := by
  cases d <;> cases v <;> simp [Ctx.putDest, Ctx.putG, Ctx.putV, Ctx.putP] <;> split <;> simp

@[simp] theorem Ctx.putDest_cr (c : Ctx) (d : Dest) (v : RVal) : (c.putDest d v).cr = c.cr :=
  by have h := congrArg Ctx.cr (c.putDest_frame d v); exact h
@[simp] theorem Ctx.putDest_pcc (c : Ctx) (d : Dest) (v : RVal) : (c.putDest d v).pcc = c.pcc :=
  by have h := congrArg Ctx.pcc (c.putDest_frame d v); exact h
@[simp] theorem Ctx.putDest_outs (c : Ctx) (d : Dest) (v : RVal) : (c.putDest d v).outs = c.outs :=
  by have h := congrArg Ctx.outs (c.putDest_frame d v); exact h
@[simp] theorem Ctx.putDest_st (c : Ctx) (d : Dest) (v : RVal) : (c.putDest d v).st = c.st :=
  by have h := congrArg Ctx.st (c.putDest_frame d v); exact h

@[simp] theorem Ctx.supersede_cr (c : Ctx) (d : Dest) : (c.supersede d).cr = c.cr := rfl
@[simp] theorem Ctx.supersede_pcc (c : Ctx) (d : Dest) : (c.supersede d).pcc = c.pcc := rfl

/-- A write supersedes the outstanding results of its register and of no other (04 R82). -/
theorem Ctx.supersede_outs (c : Ctx) (d : Dest) :
    (c.supersede d).outs = c.outs.map (fun o => if o.dest = d then { o with sup := true } else o) := rfl

@[simp] theorem Core.touchEntry_ctxs (k : Core) (x : Nat) (d : Dest) : (k.touchEntry x d).ctxs = k.ctxs := by
  unfold Core.touchEntry; split <;> rfl

@[simp] theorem Core.touchEntry_ctx (k : Core) (x y : Nat) (d : Dest) : (k.touchEntry x d).ctx y = k.ctx y := by
  simp [Core.ctx]

theorem Core.touchEntry_frame (k : Core) (x : Nat) (d : Dest) :
    { k.touchEntry x d with entries := k.entries } = k := by
  unfold Core.touchEntry; split <;> rfl

/-- The context that `setReg` writes. -/
theorem State.ctx_setReg_self (s : State) (c x : Nat) (d : Dest) (v : RVal) :
    (s.setReg c x d v).ctx c x = ((s.ctx c x).supersede d).putDest d v := by
  simp [State.setReg, State.ctx]

/-- `setReg` leaves every other context alone. -/
theorem State.ctx_setReg_ne (s : State) {c x a y : Nat} (d : Dest) (v : RVal) (h : a ≠ c ∨ y ≠ x) :
    (s.setReg c x d v).ctx a y = s.ctx a y := by
  by_cases ha : a = c
  · subst ha
    have hy : y ≠ x := by rcases h with h | h <;> first | exact absurd rfl h | exact h
    simp [State.setReg, State.ctx, Core.ctx_setCtx_ne _ _ hy]
  · simp [State.setReg, State.ctx, State.core_modCore_ne _ _ ha]

/-- `setReg` leaves every other core alone. -/
theorem State.core_setReg_ne (s : State) {c a : Nat} (x : Nat) (d : Dest) (v : RVal) (h : a ≠ c) :
    (s.setReg c x d v).core a = s.core a := State.core_modCore_ne _ _ h

/-- What `setReg` may change of its core. -/
theorem State.core_setReg_frame (s : State) (c x : Nat) (d : Dest) (v : RVal) :
    { (s.setReg c x d v).core c with ctxs := (s.core c).ctxs, entries := (s.core c).entries } =
      s.core c := by
  simp only [State.setReg, State.core_modCore_self]
  have h := ((s.core c).setCtx x (((s.core c).ctx x).supersede d |>.putDest d v)).touchEntry_frame x d
  generalize ((s.core c).setCtx x _).touchEntry x d = k at h ⊢
  have h2 := congrArg (fun q : Core => { q with ctxs := (s.core c).ctxs }) h
  exact h2

/-- A register written through the executing context reads as written. -/
theorem State.read_setReg_self (s : State) (c x : Nat) (d : Dest) (v : RVal) (h : v.fits d = true) :
    ((s.setReg c x d v).ctx c x).read d = d.holds v := by
  rw [State.ctx_setReg_self, Ctx.read_putDest_self _ _ _ h]

theorem State.read_setReg_ne (s : State) (c x : Nat) {d e : Dest} (v : RVal) (h : e ≠ d) :
    ((s.setReg c x d v).ctx c x).read e = (s.ctx c x).read e := by
  rw [State.ctx_setReg_self, Ctx.read_putDest_ne _ _ h, Ctx.read_supersede]

/-- g0 is hard-wired: an instruction that writes it leaves it null (04 R73). -/
theorem State.g_setG_zero (s : State) (x : GReg) : (s.setG 0 x).g 0 = GReg.null := rfl

/-- A write of g[r] reads back. -/
theorem State.g_setG_self (s : State) {r : Nat} (x : GReg) (h : r ≠ 0) : (s.setG r x).g r = x := by
  have := s.read_setReg_self s.curCore s.curCtx (.g r) (.g x) rfl
  simpa [State.g, State.cx, State.setG, Dest.holds, h] using this

/-- A write of v[r] reads back. -/
theorem State.v_setV_self (s : State) (r : Nat) (x : VReg) : (s.setV r x).v r = x := by
  have := s.read_setReg_self s.curCore s.curCtx (.v r) (.v x) rfl
  simpa [State.v, State.cx, State.setV, Dest.holds] using this

/-- A write of p[r] reads back. -/
theorem State.p_setP_self (s : State) {r : Nat} (x : PredReg) (h : r ≠ 0) : (s.setP r x).p r = x := by
  have := s.read_setReg_self s.curCore s.curCtx (.p r) (.p x) rfl
  simpa [State.p, State.cx, State.setP, Dest.holds, h] using this

end Sys2Proof.Machine
end

