-- ==== Sys2Proof/Laws/Run.lean ====
section
/-! SUPPORT. The laws of running one instruction: the order gate of the forms that order nothing, retirement, and what
an instruction that writes registers alone comes to. -/

namespace Sys2Proof

open Machine

/-- A form whose instructions neither wait for earlier operations nor make later ones wait, whatever their prefixes
say: it is of class none, and no rule of 10 R215 to R218 names it. -/
def Form.unordered (f : Form) : Bool :=
  decide (f.cls = .none) && decide (f.page ≠ 7) && !f.acquires && !f.loadsF && !f.setsF && !f.isStart && !f.isEret &&
    !f.isSched && !f.isLdc

theorem Form.order_of_none {f : Form} (h : f.cls = .none) (o : Op) : f.order o = .plain := by
  unfold Form.order
  rw [h]
  unfold orderOf
  split <;> simp_all

theorem Form.waitsFor_unordered {f : Form} (h : f.unordered = true) (o : Op) : f.waitsFor o = 0 := by
  simp only [Form.unordered, Bool.and_eq_true, decide_eq_true_eq, Bool.not_eq_true'] at h
  simp [Form.waitsFor, Form.order_of_none h.1.1.1.1.1.1.1.1, h]

theorem Form.blocks_unordered {f : Form} (h : f.unordered = true) (o : Op) : f.blocks o = 0 := by
  simp only [Form.unordered, Bool.and_eq_true, decide_eq_true_eq, Bool.not_eq_true'] at h
  simp [Form.blocks, Form.order_of_none h.1.1.1.1.1.1.1.1, h]

theorem Form.isLdc_unordered {f : Form} (h : f.unordered = true) : f.isLdc = false := by
  simp only [Form.unordered, Bool.and_eq_true, decide_eq_true_eq, Bool.not_eq_true'] at h
  exact h.2

theorem Form.page_unordered {f : Form} (h : f.unordered = true) : f.page ≠ 7 := by
  simp only [Form.unordered, Bool.and_eq_true, decide_eq_true_eq, Bool.not_eq_true'] at h
  exact h.1.1.1.1.1.1.1.2

end Sys2Proof

namespace Sys2Proof.Machine

/-- An unordered form is never held by the order of operations. -/
theorem State.orderGate_unordered (s : State) {f : Form} (h : f.unordered = true) (o : Op) :
    s.orderGate f o = (s.opened, true) := by
  have hw := Form.waitsFor_unordered h o
  simp only [Form.unordered, Bool.and_eq_true, decide_eq_true_eq, Bool.not_eq_true'] at h
  have hm : f.sets = 0 := by simp [Form.sets, h.1.2, h.1.1.1.1.1.1.1.1, OrdClass.sets]
  simp only [State.orderGate, hw, hm, State.opened, State.modCx]
  simp [pendingOf]

/-- An unordered form makes no later operation wait. -/
theorem State.blocks_unordered (s : State) {f : Form} (h : f.unordered = true) (o : Op) : s.blocks f o = 0 := by
  simp [State.blocks, Form.blocks_unordered h, Form.isLdc_unordered h]

/-- The fallback warnings of an instruction depend on the g registers alone, not on the orders. -/
@[simp] theorem State.opened_warns (s : State) (f : Form) (o : Op) : s.opened.cx.warns f o = s.cx.warns f o := by
  simp only [State.opened, State.cx_modCx]
  rfl

/-! ## Issue and retirement -/

theorem Core.ctx_issued (k : Core) (x y : Nat) :
    (k.issued x).ctx y = { k.ctx y with yielding := (k.ctx y).yielding.filter (fun z => z != x) } := by
  simp only [Core.issued, Core.ctx]
  induction k.ctxs with
  | nil => rfl
  | cons p ps ih =>
    obtain ⟨j, c⟩ := p
    simp only [List.map_cons, Store.get_cons]
    split
    · rfl
    · exact ih

theorem Core.issued_frame (k : Core) (x : Nat) :
    { k.issued x with ctxs := k.ctxs, lastIssuer := k.lastIssuer, waiting := k.waiting } = k := rfl

/-- The executing context after a retirement (02 R49 to R51, 09 R184). -/
theorem State.ctx_retire (s : State) (f : Form) (o : Op) (was : Ctx) (pcc : Option GReg) :
    (s.retire f o was pcc).ctx s.curCore s.curCtx =
      { s.cx with
        cr := { (if was.cr.cm then s.cx.cr else s.cx.cr.addWarn was.pcc.word (was.warns f o)) with
          cyc := (if was.cr.cm then s.cx.cr else s.cx.cr.addWarn was.pcc.word (was.warns f o)).cyc + 1 },
        pcc := pcc.getD (s.cx.pcc.withAddr (was.pcc.word + BitVec.ofNat 64 (2 * o.words))),
        parked := o.m && s.cx.outs.any Outst.mark,
        yielding := s.cx.yielding.filter (fun z => z != s.curCtx) } := by
  simp [State.retire, State.ctx, Core.ctx_issued, State.cx]

theorem CtxRegs.addWarn_cyc (r : CtxRegs) (pc : Word) (w : BitVec 7) : (r.addWarn pc w).cyc = r.cyc := by
  unfold CtxRegs.addWarn; split <;> rfl

theorem CtxRegs.addWarn_budget (r : CtxRegs) (pc : Word) (w : BitVec 7) : (r.addWarn pc w).budget = r.budget := by
  unfold CtxRegs.addWarn; split <;> rfl

/-- A retirement leaves all but the executing context's own part of a core alone. -/
theorem State.keepsRest_retire (s : State) (f : Form) (o : Op) (was : Ctx) (pcc : Option GReg) :
    s.KeepsRest (s.retire f o was pcc) where
  machine := rfl
  bytes := fun _ => rfl
  otherCores := fun c h => State.core_modCore_ne _ _ h
  core := by simp [State.retire, Core.issued, Core.setCtx, State.ck]
  otherCtxs := fun x h => by
    simp [State.retire, State.ctx, Core.ctx_issued, Core.ctx_setCtx_ne _ _ h]
  own := by
    simp [State.own, State.ctx_retire]

/-- Nothing follows a retirement where no HFLT waits at a marker and BUDGET is not reached. -/
theorem State.afterRetire_calm (s : State) (o : Op)
    (hm : o.m = true → s.cx.hflts = [])
    (hb : s.curCtx = 0 ∨ s.cx.cr.budget = 0 ∨ s.cx.cr.cyc ≠ s.cx.cr.budget) : s.afterRetire o = s := by
  have h1 : (if o.m && ((s.core s.curCore).ctx s.curCtx).st == .live then s.raiseHflt else s) = s := by
    split
    · next h =>
      simp only [Bool.and_eq_true] at h
      have := hm h.1
      simp only [State.cx, State.ctx] at this
      simp [State.raiseHflt, State.popHflt, State.ctx, this]
    · rfl
  simp only [State.afterRetire, h1]
  have h2 : ¬ (s.curCtx ≠ 0 ∧ (s.ctx s.curCore s.curCtx).budgetOut = true ∧ (s.ctx s.curCore s.curCtx).st ≠ .free) := by
    rintro ⟨h0, hbud, -⟩
    simp only [State.cx] at hb
    simp only [Ctx.budgetOut, Bool.and_eq_true, bne_iff_ne, ne_eq, beq_iff_eq] at hbud
    tauto
  simp [h2]

/-! ## How what is left alone composes -/

theorem State.keepsRest_refl (s : State) : s.KeepsRest s := ⟨rfl, fun _ => rfl, fun _ _ => rfl, rfl, fun _ _ => rfl, rfl⟩

theorem State.KeepsRest.curCore {s t : State} (h : s.KeepsRest t) : t.curCore = s.curCore := by
  have := congrArg State.curCore h.machine; exact this

theorem State.KeepsRest.curCtx {s t : State} (h : s.KeepsRest t) : t.curCtx = s.curCtx := by
  have := congrArg State.curCtx h.machine; exact this

theorem State.KeepsRest.trans {s t u : State} (h : s.KeepsRest t) (k : t.KeepsRest u) : s.KeepsRest u := by
  have hc := h.curCore
  have hx := h.curCtx
  refine ⟨?_, fun a => (k.bytes a).trans (h.bytes a), fun c hne => ?_, ?_, fun x hne => ?_, ?_⟩
  · have := congrArg (fun q : State => { q with cores := s.cores, nextId := s.nextId }) k.machine
    exact this.trans h.machine
  · rw [k.otherCores c (hc ▸ hne), h.otherCores c hne]
  · have := congrArg (fun q : Core => { q with
      ctxs := s.ck.ctxs, lastIssuer := s.ck.lastIssuer, waiting := s.ck.waiting, entries := s.ck.entries }) k.core
    rw [hc] at this
    simp only [State.ck, hc] at this
    exact this.trans h.core
  · have := congrArg (fun q : Ctx => { q with yielding := (s.ctx s.curCore x).yielding }) (k.otherCtxs x (hx ▸ hne))
    simp only [hc] at this
    exact this.trans (h.otherCtxs x hne)
  · have := congrArg (fun q : Ctx => { q with
      g := s.cx.g, v := s.cx.v, p := s.cx.p, pcc := s.cx.pcc, nullG := s.cx.nullG, nullV := s.cx.nullV, cr := s.cx.cr,
      outs := s.cx.outs, orders := s.cx.orders, parked := s.cx.parked, yielding := s.cx.yielding }) k.own
    simp only [State.own, State.cx, hc, hx] at this
    exact this.trans h.own

theorem State.own_eq_cx {s t : State} (h : s.KeepsRest t) : s.own t = t.cx := by
  simp [State.own, State.cx, h.curCore, h.curCtx]

/-- What a change of the executing context's own part leaves alone. -/
theorem State.keepsRest_modCx (s : State) (f : Ctx → Ctx)
    (h : { f s.cx with
      g := s.cx.g, v := s.cx.v, p := s.cx.p, pcc := s.cx.pcc, nullG := s.cx.nullG, nullV := s.cx.nullV, cr := s.cx.cr,
      outs := s.cx.outs, orders := s.cx.orders, parked := s.cx.parked, yielding := s.cx.yielding } = s.cx) :
    s.KeepsRest (s.modCx f) where
  machine := rfl
  bytes := fun _ => rfl
  otherCores := fun c hne => State.core_setCtx_ne _ _ _ hne
  core := by simp [State.modCx, Core.setCtx, State.ck]
  otherCtxs := fun x hne => by
    rw [State.modCx, State.ctx_modCtx_ne _ _ (Or.inr hne)]
  own := by simpa [State.own, State.modCx, State.cx] using h

/-- What a write of a register of the executing context leaves alone. -/
theorem State.keepsRest_setReg (s : State) (d : Dest) (v : RVal) :
    s.KeepsRest (s.setReg s.curCore s.curCtx d v) where
  machine := rfl
  bytes := fun _ => rfl
  otherCores := fun c hne => State.core_setReg_ne _ _ _ _ hne
  core := by
    have h := s.core_setReg_frame s.curCore s.curCtx d v
    have h2 := congrArg (fun q : Core => { q with lastIssuer := s.ck.lastIssuer, waiting := s.ck.waiting }) h
    exact h2
  otherCtxs := fun x hne => by rw [State.ctx_setReg_ne _ _ _ (Or.inr hne)]
  own := by
    have h := (s.cx.supersede d).putDest_frame d v
    have h2 := congrArg (fun q : Ctx => { q with
      g := s.cx.g, v := s.cx.v, p := s.cx.p, pcc := s.cx.pcc, nullG := s.cx.nullG, nullV := s.cx.nullV, cr := s.cx.cr,
      outs := s.cx.outs, orders := s.cx.orders, parked := s.cx.parked, yielding := s.cx.yielding }) h
    rw [State.own, State.ctx_setReg_self]
    exact h2

/-- What a change of the executing context's outstanding results leaves alone. -/
theorem State.keepsRest_addOut (s : State) (o : Outst) : s.KeepsRest (s.addOut o) := s.keepsRest_modCx _ rfl

theorem State.keepsRest_opened (s : State) : s.KeepsRest s.opened := s.keepsRest_modCx _ rfl

/-- Drawing the number of the next operation. -/
theorem State.keepsRest_fresh (s : State) : s.KeepsRest s.fresh.2 where
  machine := rfl
  bytes := fun _ => rfl
  otherCores := fun _ _ => rfl
  core := rfl
  otherCtxs := fun _ _ => rfl
  own := rfl

theorem State.keepsRest_startOut (s : State) (d : Dest) (w : Wait) (sets : BitVec 4) (touch : List (Nat × Nat)) :
    s.KeepsRest (s.startOut d w sets touch) :=
  s.keepsRest_fresh.trans (State.keepsRest_addOut _ _)

/-- The executing context after a result has been started. -/
theorem State.cx_startOut (s : State) (d : Dest) (w : Wait) (sets : BitVec 4) (touch : List (Nat × Nat)) :
    (s.startOut d w sets touch).cx =
      { s.cx with outs := s.cx.outs ++ [⟨s.nextId, d, false, true, w, sets, touch, s.pc⟩] } :=
  State.cx_modCx s.fresh.2 _

/-- The room for results depends on the outstanding results alone. -/
theorem Ctx.roomFor_congr {c c' : Ctx} (h : c.outs = c'.outs) (d : Dest) : c.roomFor d = c'.roomFor d := by
  unfold Ctx.roomFor Ctx.isPending Ctx.pendingG Ctx.pendingV
  rw [h]

@[simp] theorem State.cx_opened_g (s : State) : s.opened.cx.g = s.cx.g := by simp [State.opened]
@[simp] theorem State.opened_read (s : State) (d : Dest) : s.opened.cx.read d = s.cx.read d := by
  cases d <;> simp [State.opened, Ctx.read, Ctx.rg, Ctx.rv, Ctx.rp]
@[simp] theorem State.opened_g (s : State) (r : Nat) : s.opened.g r = s.g r := by
  simp [State.g, State.opened, Ctx.rg]
@[simp] theorem State.opened_v (s : State) (r : Nat) : s.opened.v r = s.v r := by
  simp [State.v, State.opened, Ctx.rv]
@[simp] theorem State.opened_p (s : State) (r : Nat) : s.opened.p r = s.p r := by
  simp [State.p, State.opened, Ctx.rp]
@[simp] theorem State.opened_cr (s : State) : s.opened.cx.cr = s.cx.cr := by simp [State.opened]
@[simp] theorem State.opened_pcc (s : State) : s.opened.cx.pcc = s.cx.pcc := by simp [State.opened]
@[simp] theorem State.opened_pc (s : State) : s.opened.pc = s.pc := by simp [State.pc]
@[simp] theorem State.opened_outs (s : State) : s.opened.cx.outs = s.cx.outs := by simp [State.opened]
@[simp] theorem State.opened_hflts (s : State) : s.opened.cx.hflts = s.cx.hflts := by simp [State.opened]
@[simp] theorem State.opened_nextId (s : State) : s.opened.nextId = s.nextId := rfl
@[simp] theorem State.opened_curCore (s : State) : s.opened.curCore = s.curCore := rfl
@[simp] theorem State.opened_curCtx (s : State) : s.opened.curCtx = s.curCtx := rfl

/-! ## An instruction of an unordered form -/

/-- What `calm` says. -/
theorem State.calm_iff (s : State) (o : Op) :
    s.calm o = true ↔ (o.m = true → s.cx.hflts = []) ∧
      (s.curCtx = 0 ∨ s.cx.cr.budget = 0 ∨ s.cx.cr.cyc + 1 ≠ s.cx.cr.budget) := by
  simp only [State.calm, Bool.and_eq_true, Bool.or_eq_true, Bool.not_eq_true', List.isEmpty_iff, beq_iff_eq, bne_iff_ne]
  cases o.m <;> simp [or_assoc]

/-- The retirement of a state `b` that has touched no more of the machine than an instruction of an unordered form may:
the whole of what is observed of it. -/
theorem State.retire_spec (s b : State) (i : Instr) (f : Form) (o : Op) (pcc : Option GReg) (hi : i.form? = some f)
    (hb : s.KeepsRest b) (hcyc : b.cx.cr.cyc = s.cx.cr.cyc) (hbud : b.cx.cr.budget = s.cx.cr.budget)
    (hpcc : b.cx.pcc = s.cx.pcc) (hcalm : s.calm o = true) :
    let t := (b.retire f o s.opened.cx pcc).afterRetire o
    s.KeepsRest t ∧ (∀ d, (s.own t).read d = b.cx.read d) ∧ (s.own t).cr = s.retiredCr i o b.cx.cr ∧
      (s.own t).pcc = pcc.getD (s.nextPcc o) ∧ (s.own t).outs = b.cx.outs ∧ t.nextId = b.nextId := by
  have hr : s.KeepsRest (b.retire f o s.opened.cx pcc) := hb.trans (b.keepsRest_retire f o _ pcc)
  have hx := b.ctx_retire f o s.opened.cx pcc
  rw [hb.curCore, hb.curCtx] at hx
  have hown : (b.retire f o s.opened.cx pcc).cx = (b.retire f o s.opened.cx pcc).ctx s.curCore s.curCtx :=
    (State.own_eq_cx hr).symm
  have hhf : b.cx.hflts = s.cx.hflts := by
    have := congrArg Ctx.hflts hb.own
    rw [State.own_eq_cx hb] at this; exact this
  have hc := (s.calm_iff o).1 hcalm
  have hcyc' : ∀ r : CtxRegs, (if s.opened.cx.cr.cm then r else r.addWarn s.opened.cx.pcc.word (s.opened.cx.warns f o)).cyc = r.cyc := by
    intro r; split
    · rfl
    · exact CtxRegs.addWarn_cyc _ _ _
  have hbud' : ∀ r : CtxRegs,
      (if s.opened.cx.cr.cm then r else r.addWarn s.opened.cx.pcc.word (s.opened.cx.warns f o)).budget = r.budget := by
    intro r; split
    · rfl
    · exact CtxRegs.addWarn_budget _ _ _
  have hcalm2 : (b.retire f o s.opened.cx pcc).afterRetire o = b.retire f o s.opened.cx pcc := by
    apply State.afterRetire_calm
    · intro hm; rw [hown, hx]; simpa [hhf] using hc.1 hm
    · rw [hr.curCtx, hown, hx]
      simp only [hcyc', hbud', hcyc, hbud]
      exact hc.2
  rw [hcalm2]
  refine ⟨hr, fun d => ?_, ?_, ?_, ?_, rfl⟩
  · rw [State.own, hx]; cases d <;> rfl
  · rw [State.own, hx]
    simp [State.retiredCr, hi, State.pc]
  · rw [State.own, hx]
    cases pcc <;> simp [State.nextPcc, State.nextPc, State.pc, hpcc]
  · rw [State.own, hx]

/-- An instruction of an unordered form whose effect is to go on with a state `b`. -/
theorem wordF_next {i : Instr} {f : Form} {o : Op} {s b : State} {body : Form → State → Eff} (hi : i.form? = some f)
    (hf : f.unordered = true) (hbody : body f s.opened = .next b) :
    wordF i o s body = .next ((b.retire f o s.opened.cx none).afterRetire o) := by
  simp [wordF, hi, run, Form.page_unordered hf, State.orderGate_unordered s hf, hbody, State.conclude, State.orderAfter,
    State.blocks_unordered _ hf]

/-- An instruction of an unordered form whose effect is to go on with a state `b` at a PCC. -/
theorem wordF_jump {i : Instr} {f : Form} {o : Op} {s b : State} {pcc : GReg} {body : Form → State → Eff}
    (hi : i.form? = some f) (hf : f.unordered = true) (hbody : body f s.opened = .jump b pcc) :
    wordF i o s body = .next ((b.retire f o s.opened.cx (some pcc)).afterRetire o) := by
  simp [wordF, hi, run, Form.page_unordered hf, State.orderGate_unordered s hf, hbody, State.conclude, State.orderAfter,
    State.blocks_unordered _ hf]

/-- An instruction of an unordered form that writes one register of the executing context completes. -/
theorem wordF_setReg {i : Instr} {f : Form} {o : Op} {s : State} {d : Dest} {v : RVal} {body : Form → State → Eff}
    (hi : i.form? = some f) (hf : f.unordered = true) (hfit : v.fits d = true) (hcalm : s.calm o = true)
    (hbody : body f s.opened = .next (s.opened.setReg s.curCore s.curCtx d v))
    (he : exec i s = wordF i o s body) : s.Completes i o [(d, v)] := by
  have hb : s.KeepsRest (s.opened.setReg s.curCore s.curCtx d v) :=
    s.keepsRest_opened.trans (s.opened.keepsRest_setReg d v)
  have hcx : (s.opened.setReg s.curCore s.curCtx d v).cx = (s.opened.cx.supersede d).putDest d v :=
    s.opened.ctx_setReg_self s.curCore s.curCtx d v
  obtain ⟨h1, h2, h3, h4, -, -⟩ := s.retire_spec _ i f o none hi hb (by simp [hcx]) (by simp [hcx]) (by simp [hcx]) hcalm
  refine ⟨_, he.trans (wordF_next hi hf hbody), ?_, ⟨h1, ?_⟩, ?_, h4⟩
  · simp only [List.mem_singleton, forall_eq]
    rw [h2, hcx, Ctx.read_putDest_self _ _ _ hfit]
  · intro e he
    simp only [List.map_cons, List.map_nil, List.mem_singleton] at he
    rw [h2, hcx, Ctx.read_putDest_ne _ _ he, Ctx.read_supersede, State.opened_read]
  · rw [h3, hcx]; simp

/-- An instruction of an unordered form that changes nothing of its own completes. -/
theorem wordF_nothing {i : Instr} {f : Form} {o : Op} {s : State} {body : Form → State → Eff}
    (hi : i.form? = some f) (hf : f.unordered = true) (hcalm : s.calm o = true)
    (hbody : body f s.opened = .next s.opened)
    (he : exec i s = wordF i o s body) : s.Completes i o [] := by
  obtain ⟨h1, h2, h3, h4, -, -⟩ := s.retire_spec _ i f o none hi s.keepsRest_opened (by simp) (by simp) (by simp) hcalm
  refine ⟨_, he.trans (wordF_next hi hf hbody), by simp, ⟨h1, ?_⟩, ?_, h4⟩
  · intro e _; rw [h2, State.opened_read]
  · rw [h3]; simp

/-- An instruction of an unordered form that writes one register and raises IEEE flags completes. -/
theorem wordF_setRegF {i : Instr} {f : Form} {o : Op} {s : State} {d : Dest} {v : RVal} {fl : Flags}
    {body : Form → State → Eff}
    (hi : i.form? = some f) (hf : f.unordered = true) (hfit : v.fits d = true) (hcalm : s.calm o = true)
    (hbody : body f s.opened = .next ((s.opened.setReg s.curCore s.curCtx d v).raiseFlags fl))
    (he : exec i s = wordF i o s body) : s.CompletesF i o d v fl := by
  have hb : s.KeepsRest ((s.opened.setReg s.curCore s.curCtx d v).raiseFlags fl) :=
    (s.keepsRest_opened.trans (s.opened.keepsRest_setReg d v)).trans (State.keepsRest_modCx _ _ rfl)
  have hcx : ((s.opened.setReg s.curCore s.curCtx d v).raiseFlags fl).cx =
      { (s.opened.cx.supersede d).putDest d v with cr := s.cx.cr.addFlags fl } := by
    have h0 : (s.opened.setReg s.curCore s.curCtx d v).cx = (s.opened.cx.supersede d).putDest d v :=
      s.opened.ctx_setReg_self s.curCore s.curCtx d v
    simp [State.raiseFlags, h0]
  obtain ⟨h1, h2, h3, h4, -, -⟩ := s.retire_spec _ i f o none hi hb (by simp [hcx, CtxRegs.addFlags])
    (by simp [hcx, CtxRegs.addFlags]) (by simp [hcx]) hcalm
  have hread : ∀ e, ((s.opened.setReg s.curCore s.curCtx d v).raiseFlags fl).cx.read e =
      ((s.opened.cx.supersede d).putDest d v).read e := by
    intro e; rw [hcx]; cases e <;> rfl
  refine ⟨_, he.trans (wordF_next hi hf hbody), ?_, ⟨h1, ?_⟩, ?_, h4⟩
  · simp only [List.mem_singleton, forall_eq]
    rw [h2, hread, Ctx.read_putDest_self _ _ _ hfit]
  · intro e he
    simp only [List.map_cons, List.map_nil, List.mem_singleton] at he
    rw [h2, hread, Ctx.read_putDest_ne _ _ he, Ctx.read_supersede, State.opened_read]
  · rw [h3, hcx]

/-- An instruction of an unordered form that leaves an outstanding result whose value is known completes. -/
theorem wordF_later {i : Instr} {f : Form} {o : Op} {s : State} {d : Dest} {v : RVal} {fl : Flags}
    {body : Form → State → Eff}
    (hi : i.form? = some f) (hf : f.unordered = true) (hcalm : s.calm o = true) (hroom : s.cx.roomFor d = true)
    (hbody : body f s.opened = later s.opened d v fl)
    (he : exec i s = wordF i o s body) : s.Pends i o d v fl := by
  have hroom' : s.opened.cx.roomFor d = true := (Ctx.roomFor_congr s.opened_outs d).trans hroom
  have hbody' : body f s.opened = .next (s.opened.startOut d (.ready v fl) 0 []) := by
    rw [hbody]; simp [later, withRoom, hroom']
  have hb : s.KeepsRest (s.opened.startOut d (.ready v fl) 0 []) := s.keepsRest_opened.trans (State.keepsRest_startOut _ _ _ _ _)
  have hcx := s.opened.cx_startOut d (.ready v fl) 0 []
  obtain ⟨h1, h2, h3, h4, h5, h6⟩ := s.retire_spec _ i f o none hi hb (by rw [hcx, State.opened_cr])
    (by rw [hcx, State.opened_cr]) (by rw [hcx, State.opened_pcc]) hcalm
  refine ⟨_, he.trans (wordF_next hi hf hbody'), ⟨h1, ?_⟩, ?_, ?_, ?_, h4⟩
  · intro e _
    rw [h2, hcx, ← State.opened_read]
    cases e <;> rfl
  · rw [h5, hcx, State.opened_outs, State.opened_pc]; rfl
  · rw [h6]; rfl
  · rw [h3, hcx, State.opened_cr]

end Sys2Proof.Machine
end

