-- ==== Sys2Proof/Laws/Trap.lean ====
section
/-! SUPPORT. The laws of traps: what an instruction that raises a trap comes to (11 R222 to R224). -/

namespace Sys2Proof.Machine

/-- Nothing leaves a gather buffer that holds nothing. -/
theorem State.drainWhere_empty (s : State) (core : Nat) (p : Gather → Bool) (h : (s.core core).gather = []) :
    s.drainWhere core p = (s, true) := by
  simp [State.drainWhere, h, drainLines]

theorem State.drainCtx_empty (s : State) (core x : Nat) (h : (s.core core).gather = []) : s.drainCtx core x = (s, true) :=
  s.drainWhere_empty core _ h

/-- Where no store of the core is held, the order gate changes nothing but the orders that are discharged. -/
theorem State.orderGate_opened (s : State) (f : Form) (o : Op) (h : s.ck.gather = []) :
    (s.orderGate f o).1 = s.opened := by
  have hd : s.drainCtx s.curCore s.curCtx = (s, true) := s.drainCtx_empty _ _ h
  simp only [State.orderGate, hd, State.opened, State.modCx]
  split <;> rfl

@[simp] theorem State.opened_gather (s : State) : s.opened.ck.gather = s.ck.gather := by
  simp [State.opened]

/-- Every form's gate, where nothing is held and the order lets it issue. -/
theorem State.orderGate_mayIssue (s : State) {i : Instr} {f : Form} (o : Op) (hi : i.form? = some f)
    (hg : s.ck.gather = []) (h : s.mayIssue i o = true) : s.orderGate f o = (s.opened, true) := by
  have h1 := s.orderGate_opened f o hg
  simp only [State.mayIssue, hi] at h
  exact Prod.ext h1 h

/-- An unordered form may always issue. -/
theorem State.mayIssue_unordered (s : State) {i : Instr} {f : Form} (o : Op) (hi : i.form? = some f)
    (hf : f.unordered = true) : s.mayIssue i o = true := by
  simp [State.mayIssue, hi, State.orderGate_unordered s hf]

/-- A trap with no effect of its own on the die: a write to a FROZEN page reports one (08 R172). -/
theorem State.conclude_trap (s : State) (f : Form) (o : Op) (t : TrapReq) (hg : s.ck.gather = [])
    (h : ¬ (t.code = tCAPP ∧ t.info = 0x1000)) :
    s.conclude f o (.trap t) =
      (s.modCore s.curCore (fun k => k.issued s.curCtx)).raiseTrap s.curCore s.curCtx
        (s.trapHere o t.code t.addr t.info) := by
  simp only [State.conclude, s.drainCtx_empty _ _ hg, h, if_false, State.trapHere, State.pc]

/-! ## A trap of a helper -/

/-- A helper's trap: the helper is STOPPED and the trap is the last that is pending (04 Table 34, 11 R222). -/
theorem State.raiseTrap_helper (m : State) (core x : Nat) (t : Trap) (hx : x ≠ 0) (hp : t.code ≠ tPOIS)
    (hg : (m.core core).gather = []) :
    (m.raiseTrap core x t).ctx core x = { m.ctx core x with
        st := .stopped, yielding := (m.ctx core x).yielding.filter (fun y => y != x) } ∧
      ((m.raiseTrap core x t).core core).cr = (m.core core).cr ∧
      ((m.raiseTrap core x t).core core).pending = (m.core core).pending ++ [t] ∧
      (∀ c, c ≠ core → (m.raiseTrap core x t).core c = m.core c) ∧
      (∀ a, (m.raiseTrap core x t).byte a = m.byte a) := by
  simp only [State.raiseTrap, m.drainCtx_empty core x hg, hx, hp, if_false]
  refine ⟨?_, ?_, ?_, fun c hc => State.core_modCore_ne _ _ hc, fun a => rfl⟩
  · rw [State.ctx, State.core_modCore_self]
    have h := Core.ctx_issued ((m.core core).setCtx x { (m.core core).ctx x with st := .stopped }) x x
    rw [Core.ctx_setCtx_self] at h
    exact h
  · rw [State.core_modCore_self]; rfl
  · rw [State.core_modCore_self]; rfl

/-! ## A trap of the control context -/

theorem CoreRegs.enter_evec (r : CoreRegs) (t : Trap) (p : Option (Word × Word)) : (r.enter t p).evec = r.evec := by
  unfold CoreRegs.enter; split <;> rfl

/-- Trap entry where EVEC can be entered: the trap registers are written, and the control context goes on at EVEC, which
is unsealed (11 R223). -/
theorem State.takeTrap_evec (m : State) (core : Nat) (t : Trap) (hev : evecOk (m.core core).cr.evec = true) :
    m.takeTrap core t =
      (m.modCore core (fun k => { k with cr := k.cr.enter t (m.residualPc t.pc), waiting := false })).modCtx core 0
        (fun c => { c with pcc := (m.core core).cr.evec.withOtype 0, yielding := [] }) := by
  simp only [State.takeTrap, State.vector, State.core_modCore_self, CoreRegs.enter_evec, hev, if_true]

/-- A trap of the control context, where none is being handled and EVEC can be entered. -/
theorem State.raiseTrap_control (m : State) (core : Nat) (t : Trap) (hg : (m.core core).gather = [])
    (hp : t.code ≠ tPOIS) (hnd : ecHnd (m.core core).cr.ecause = false) (hev : evecOk (m.core core).cr.evec = true) :
    (m.raiseTrap core 0 t).ctx core 0 = { m.ctx core 0 with pcc := (m.core core).cr.evec.withOtype 0, yielding := [] } ∧
      ((m.raiseTrap core 0 t).core core).cr = (m.core core).cr.enter t (m.residualPc t.pc) ∧
      (∀ c, c ≠ core → (m.raiseTrap core 0 t).core c = m.core c) ∧
      (∀ a, (m.raiseTrap core 0 t).byte a = m.byte a) := by
  have h : m.raiseTrap core 0 t = m.takeTrap core t := by
    simp [State.raiseTrap, m.drainCtx_empty core 0 hg, State.ownTrap, hp, hnd]
  rw [h, State.takeTrap_evec m core t hev]
  refine ⟨?_, ?_, fun c hc => ?_, fun a => rfl⟩
  · rw [State.ctx_modCtx_self]
    congr 1 <;> rw [State.ctx, State.core_modCore_self] <;> rfl
  · rw [State.core_modCtx_self, State.core_modCore_self]; rfl
  · rw [State.modCtx, State.core_setCtx_ne _ _ _ hc, State.core_modCore_ne _ _ hc]

/-! ## An instruction that raises a trap -/

/-- The state in which the executing context has issued. -/
theorem State.issue_spec (s b : State) (hb : b = s.opened ∨ b = s) :
    let m := b.modCore s.curCore (fun k => k.issued s.curCtx)
    (m.core s.curCore).gather = s.ck.gather ∧ (m.core s.curCore).cr = s.ck.cr ∧
      (m.core s.curCore).pending = s.ck.pending ∧ m.residualPc = s.residualPc ∧ (∀ a, m.byte a = s.byte a) ∧
      (∀ c, c ≠ s.curCore → m.core c = s.core c) ∧
      (∀ d, (m.ctx s.curCore s.curCtx).read d = s.cx.read d) ∧ (m.ctx s.curCore s.curCtx).cr = s.cx.cr ∧
      (m.ctx s.curCore s.curCtx).pcc = s.cx.pcc := by
  intro m
  have hctx : m.ctx s.curCore s.curCtx = { b.ctx s.curCore s.curCtx with
      yielding := (b.ctx s.curCore s.curCtx).yielding.filter (fun z => z != s.curCtx) } := by
    simp [m, State.ctx, Core.ctx_issued]
  have hread : ∀ d, (b.ctx s.curCore s.curCtx).read d = s.cx.read d := by
    rcases hb with rfl | rfl
    · exact s.opened_read
    · exact fun _ => rfl
  have hcr : (b.ctx s.curCore s.curCtx).cr = s.cx.cr := by
    rcases hb with rfl | rfl
    · exact s.opened_cr
    · rfl
  have hpcc : (b.ctx s.curCore s.curCtx).pcc = s.cx.pcc := by
    rcases hb with rfl | rfl
    · exact s.opened_pcc
    · rfl
  have hk : (b.core s.curCore).gather = s.ck.gather ∧ (b.core s.curCore).cr = s.ck.cr ∧
      (b.core s.curCore).pending = s.ck.pending := by
    rcases hb with rfl | rfl
    · simp [State.opened, State.modCx, State.ck]
    · exact ⟨rfl, rfl, rfl⟩
  refine ⟨?_, ?_, ?_, ?_, ?_, fun c hc => ?_, fun d => ?_, ?_, ?_⟩
  · rw [State.core_modCore_self]; exact hk.1
  · rw [State.core_modCore_self]; exact hk.2.1
  · rw [State.core_modCore_self]; exact hk.2.2
  · rcases hb with rfl | rfl <;> rfl
  · rcases hb with rfl | rfl <;> exact fun _ => rfl
  · rw [State.core_modCore_ne _ _ hc]
    rcases hb with rfl | rfl
    · exact s.keepsRest_opened.otherCores c hc
    · rfl
  · rw [hctx, ← hread d]; cases d <;> rfl
  · rw [hctx]; exact hcr
  · rw [hctx]; exact hpcc

/-- What a trap at the executing context's own PC does, from a state `b` in which it issues. -/
theorem State.raises_spec (s b : State) (o : Op) (code : Nat) (addr info : Word) (hb : b = s.opened ∨ b = s)
    (hr : s.trapReady = true) (hp : code ≠ tPOIS) :
    let t := (b.modCore s.curCore (fun k => k.issued s.curCtx)).raiseTrap s.curCore s.curCtx (s.trapHere o code addr info)
    (∀ d, (s.own t).read d = s.cx.read d) ∧ (s.own t).cr = s.cx.cr ∧
    (∀ a, t.byte a = s.byte a) ∧ (∀ c, c ≠ s.curCore → t.core c = s.core c) ∧
    if s.curCtx = 0 then
      (t.core s.curCore).cr = s.ck.cr.enter (s.trapHere o code addr info) (s.residualPc s.pc) ∧
        (s.own t).pcc = s.ck.cr.evec.withOtype 0
    else
      (s.own t).st = .stopped ∧ (s.own t).pcc = s.cx.pcc ∧ (t.core s.curCore).cr = s.ck.cr ∧
        (t.core s.curCore).pending = s.ck.pending ++ [s.trapHere o code addr info] := by
  obtain ⟨hg, hcr, hpe, hres, hby, hco, hrd, hxcr, hpcc⟩ := s.issue_spec b hb
  generalize b.modCore s.curCore (fun k => k.issued s.curCtx) = m at *
  simp only [State.trapReady, Bool.and_eq_true, Bool.or_eq_true, List.isEmpty_iff, bne_iff_ne, ne_eq,
    Bool.not_eq_true'] at hr
  have hg' : (m.core s.curCore).gather = [] := hg.trans hr.1
  simp only [State.own]
  by_cases h0 : s.curCtx = 0
  · have hr2 := hr.2.resolve_left (fun h => h h0)
    rw [h0] at hrd hxcr hpcc ⊢
    obtain ⟨h1, h2, h3, h4⟩ := m.raiseTrap_control s.curCore (s.trapHere o code addr info) hg' hp
      (by rw [hcr]; exact hr2.1) (by rw [hcr]; exact hr2.2)
    simp only [if_true]
    refine ⟨fun d => ?_, ?_, fun a => (h4 a).trans (hby a), fun c hc => (h3 c hc).trans (hco c hc), ?_, ?_⟩
    · rw [h1, ← hrd d]; cases d <;> rfl
    · rw [h1]; exact hxcr
    · rw [h2, hcr, hres]; rfl
    · rw [h1, hcr]
  · obtain ⟨h1, h2, h3, h4, h5⟩ := m.raiseTrap_helper s.curCore s.curCtx (s.trapHere o code addr info) h0 hp hg'
    simp only [h0, if_false]
    refine ⟨fun d => ?_, ?_, fun a => (h5 a).trans (hby a), fun c hc => (h4 c hc).trans (hco c hc), ?_, ?_, ?_, ?_⟩
    · rw [h1, ← hrd d]; cases d <;> rfl
    · rw [h1]; exact hxcr
    · rw [h1]
    · rw [h1]; exact hpcc
    · rw [h2, hcr]
    · rw [h3, hpe]

/-- An instruction whose effect is a trap raises it. -/
theorem wordF_trap {i : Instr} {f : Form} {o : Op} {s : State} {t : TrapReq} {body : Form → State → Eff}
    (hi : i.form? = some f) (hpage : f.page ≠ 7 ∨ s.curCtx = 0) (hr : s.trapReady = true) (hm : s.mayIssue i o = true)
    (hp : t.code ≠ tPOIS) (hfz : ¬ (t.code = tCAPP ∧ t.info = 0x1000))
    (hbody : body f s.opened = .trap t) (he : exec i s = wordF i o s body) :
    s.Raises i o t.code t.addr t.info := by
  have hg : s.ck.gather = [] := by
    simp only [State.trapReady, Bool.and_eq_true, List.isEmpty_iff] at hr; exact hr.1
  have hpage' : ¬ (f.page = 7 ∧ s.curCtx ≠ 0) := by
    rintro ⟨h1, h2⟩; rcases hpage with h | h
    · exact h h1
    · exact h2 h
  refine ⟨_, he.trans ?_, s.raises_spec s.opened o t.code t.addr t.info (Or.inl rfl) hr hp⟩
  simp only [wordF, hi, run, hpage', if_false, s.orderGate_mayIssue o hi hg hm, hbody]
  rw [State.conclude_trap _ _ _ _ (by simpa using hg) hfz]
  simp [State.trapHere]

/-- A page 7 instruction in a helper raises ILL with reason 4 (11 R238). -/
theorem wordF_page7 {i : Instr} {f : Form} {o : Op} {s : State} {body : Form → State → Eff}
    (hi : i.form? = some f) (hpage : f.page = 7) (hx : s.curCtx ≠ 0) (hr : s.trapReady = true)
    (he : exec i s = wordF i o s body) : s.Raises i o tILL s.pc 4 := by
  refine ⟨_, he.trans ?_, s.raises_spec s o tILL s.pc 4 (Or.inr rfl) hr (by simp [tILL, tPOIS])⟩
  simp only [wordF, hi, run, hpage, hx, ne_eq, not_false_eq_true, and_self, if_true]
  have hg : s.ck.gather = [] := by
    simp only [State.trapReady, Bool.and_eq_true, List.isEmpty_iff] at hr; exact hr.1
  rw [State.conclude_trap _ _ _ _ hg (fun h => absurd h.1 (by simp [ill, tILL, tCAPP]))]
  rfl

end Sys2Proof.Machine
end

