-- ==== Sys2Proof/Laws/Effect.lean ====
section
/-! SUPPORT. The laws of an instruction of any form that issues at once: what it comes to, from the state that its own
effect left. -/

namespace Sys2Proof.Machine

/-- The order that an operation puts on later ones touches the executing context's orders alone. -/
theorem State.keepsRest_orderAfter (s : State) (b : BitVec 4) (first : Nat) : s.KeepsRest (s.orderAfter b first) := by
  unfold State.orderAfter
  simp only []
  split
  · exact s.keepsRest_refl
  · split
    · exact s.keepsRest_refl
    · exact s.keepsRest_modCx _ rfl

theorem State.orderAfter_ctx (s : State) (b : BitVec 4) (first : Nat) :
    ∃ os, (s.orderAfter b first).cx = { s.cx with orders := os } := by
  unfold State.orderAfter
  simp only []
  split
  · exact ⟨_, rfl⟩
  · split
    · exact ⟨_, rfl⟩
    · exact ⟨_, s.cx_modCx _⟩

@[simp] theorem State.orderAfter_nextId (s : State) (b : BitVec 4) (first : Nat) :
    (s.orderAfter b first).nextId = s.nextId := by
  unfold State.orderAfter
  simp only []
  split
  · rfl
  · split <;> rfl

/-- What is left of a state `b` when the instruction retires there, nothing following. -/
theorem State.retireAfter_spec (s b : State) (i : Instr) (f : Form) (o : Op) (w : BitVec 4) (pcc : Option GReg) (hi : i.form? = some f)
    (hcore : b.curCore = s.curCore) (hctx : b.curCtx = s.curCtx) (hcyc : b.cx.cr.cyc = s.cx.cr.cyc)
    (hbud : b.cx.cr.budget = s.cx.cr.budget) (hpcc : b.cx.pcc = s.cx.pcc) (hhf : b.cx.hflts = s.cx.hflts)
    (hcalm : s.calm o = true) :
    let t := ((b.orderAfter w s.nextId).retire f o s.opened.cx pcc).afterRetire o
    b.KeepsRest t ∧ (∀ d, (s.own t).read d = b.cx.read d) ∧ (s.own t).cr = s.retiredCr i o b.cx.cr ∧
      (s.own t).pcc = pcc.getD (s.nextPcc o) ∧ (s.own t).outs = b.cx.outs ∧ t.nextId = b.nextId := by
  obtain ⟨os, hos⟩ := b.orderAfter_ctx w s.nextId
  have hk := b.keepsRest_orderAfter w s.nextId
  have hr : b.KeepsRest ((b.orderAfter w s.nextId).retire f o s.opened.cx pcc) := hk.trans (State.keepsRest_retire _ f o _ pcc)
  have hx := (b.orderAfter w s.nextId).ctx_retire f o s.opened.cx pcc
  rw [hk.curCore, hk.curCtx, hos] at hx
  have hown : ((b.orderAfter w s.nextId).retire f o s.opened.cx pcc).cx =
      ((b.orderAfter w s.nextId).retire f o s.opened.cx pcc).ctx b.curCore b.curCtx := (State.own_eq_cx hr).symm
  have hc := (s.calm_iff o).1 hcalm
  have hcyc' : ∀ r : CtxRegs, (if s.opened.cx.cr.cm then r else r.addWarn s.opened.cx.pcc.word (s.opened.cx.warns f o)).cyc = r.cyc := by
    intro r; split
    · rfl
    · exact CtxRegs.addWarn_cyc _ _ _
  have hbud' : ∀ r : CtxRegs,
      (if s.opened.cx.cr.cm then r else r.addWarn s.opened.cx.pcc.word (s.opened.cx.warns f o)).budget = r.budget := by
    intro r; split
    · rfl
    · exact CtxRegs.addWarn_budget _ _ _
  have hcalm2 : ((b.orderAfter w s.nextId).retire f o s.opened.cx pcc).afterRetire o =
      (b.orderAfter w s.nextId).retire f o s.opened.cx pcc := by
    apply State.afterRetire_calm
    · intro hm; rw [hown, hx]; simpa [hhf] using hc.1 hm
    · rw [hr.curCtx, hctx, hown, hx]
      simp only [hcyc', hbud', hcyc, hbud]
      exact hc.2
  have hsown : s.own ((b.orderAfter w s.nextId).retire f o s.opened.cx pcc) =
      ((b.orderAfter w s.nextId).retire f o s.opened.cx pcc).ctx b.curCore b.curCtx := by
    rw [State.own, hcore, hctx]
  simp only []
  rw [hcalm2]
  refine ⟨hr, fun d => ?_, ?_, ?_, ?_, ?_⟩
  · rw [hsown, hx]; cases d <;> rfl
  · rw [hsown, hx]
    simp [State.retiredCr, hi, State.pc]
  · rw [hsown, hx]
    cases pcc <;> simp [State.nextPcc, State.nextPc, State.pc, hpcc]
  · rw [hsown, hx]
  · exact State.orderAfter_nextId b w s.nextId

/-- An instruction that issues at once and whose effect is to go on with a state `b`. -/
theorem wordF_effect {i : Instr} {f : Form} {o : Op} {s b : State} {body : Form → State → Eff} (hi : i.form? = some f)
    (hpage : f.page ≠ 7 ∨ s.curCtx = 0) (hg : s.ck.gather = []) (hm : s.mayIssue i o = true) (hcalm : s.calm o = true)
    (hcore : b.curCore = s.curCore) (hctx : b.curCtx = s.curCtx) (hcyc : b.cx.cr.cyc = s.cx.cr.cyc)
    (hbud : b.cx.cr.budget = s.cx.cr.budget) (hpcc : b.cx.pcc = s.cx.pcc) (hhf : b.cx.hflts = s.cx.hflts)
    (hbody : body f s.opened = .next b) (he : exec i s = wordF i o s body) :
    ∃ t, exec i s = .next t ∧ b.KeepsRest t ∧ (∀ d, (s.own t).read d = b.cx.read d) ∧
      (s.own t).cr = s.retiredCr i o b.cx.cr ∧ (s.own t).pcc = s.nextPcc o ∧ (s.own t).outs = b.cx.outs ∧
      t.nextId = b.nextId := by
  have hpage' : ¬ (f.page = 7 ∧ s.curCtx ≠ 0) := by
    rintro ⟨h1, h2⟩; rcases hpage with h | h
    · exact h h1
    · exact h2 h
  refine ⟨_, he.trans ?_, s.retireAfter_spec b i f o (s.opened.blocks f o) none hi hcore hctx hcyc hbud hpcc hhf hcalm⟩
  simp only [wordF, hi, run, hpage', if_false, s.orderGate_mayIssue o hi hg hm, hbody, State.conclude, State.opened_nextId]

/-- The same for an effect that also says where the context goes on. -/
theorem wordF_effectJump {i : Instr} {f : Form} {o : Op} {s b : State} {pcc : GReg} {body : Form → State → Eff}
    (hi : i.form? = some f)
    (hpage : f.page ≠ 7 ∨ s.curCtx = 0) (hg : s.ck.gather = []) (hm : s.mayIssue i o = true) (hcalm : s.calm o = true)
    (hcore : b.curCore = s.curCore) (hctx : b.curCtx = s.curCtx) (hcyc : b.cx.cr.cyc = s.cx.cr.cyc)
    (hbud : b.cx.cr.budget = s.cx.cr.budget) (hpcc : b.cx.pcc = s.cx.pcc) (hhf : b.cx.hflts = s.cx.hflts)
    (hbody : body f s.opened = .jump b pcc) (he : exec i s = wordF i o s body) :
    ∃ t, exec i s = .next t ∧ b.KeepsRest t ∧ (∀ d, (s.own t).read d = b.cx.read d) ∧
      (s.own t).cr = s.retiredCr i o b.cx.cr ∧ (s.own t).pcc = pcc ∧ (s.own t).outs = b.cx.outs ∧
      t.nextId = b.nextId := by
  have hpage' : ¬ (f.page = 7 ∧ s.curCtx ≠ 0) := by
    rintro ⟨h1, h2⟩; rcases hpage with h | h
    · exact h h1
    · exact h2 h
  refine ⟨_, he.trans ?_, s.retireAfter_spec b i f o (s.opened.blocks f o) (some pcc) hi hcore hctx hcyc hbud hpcc hhf hcalm⟩
  simp only [wordF, hi, run, hpage', if_false, s.orderGate_mayIssue o hi hg hm, hbody, State.conclude, State.opened_nextId]

/-- An instruction is held where its effect is to be held: the core has had its turn, and the next issue of the context
fetches it again. -/
theorem wordF_hold {i : Instr} {f : Form} {o : Op} {s b : State} {body : Form → State → Eff} (hi : i.form? = some f)
    (hpage : f.page ≠ 7 ∨ s.curCtx = 0) (hg : s.ck.gather = []) (hm : s.mayIssue i o = true)
    (hbody : body f s.opened = .hold b) : wordF i o s body = .next { b with stalled := true } := by
  have hpage' : ¬ (f.page = 7 ∧ s.curCtx ≠ 0) := by
    rintro ⟨h1, h2⟩; rcases hpage with h | h
    · exact h h1
    · exact h2 h
  simp only [wordF, hi, run, hpage', if_false, s.orderGate_mayIssue o hi hg hm, hbody, State.conclude]

end Sys2Proof.Machine
end

