-- ==== Sys2Proof/Machine/AsmText.lean ====
section
/-! DEFINITION. Assembly source: the parts of a line and expressions (00 R4, 03 R54, R56). The assembler, the linker and
the loader are texts and files in and texts and files out: no step of the machine reads them. -/

namespace Sys2Proof.Asm

/-! ## Words of a line -/

/-- A piece of a line: an identifier, an integer, a decimal number (its digits and the power of ten they are scaled by), a
quoted string, or an operator or mark. -/
inductive Tok where
  | id (s : String)
  | num (n : Nat)
  | dec (digits : Nat) (pow : Int)
  | str (s : String)
  | sym (s : String)
  deriving DecidableEq, Repr

/-- A letter, a digit, `_` or `.` (R54). -/
def identChar (c : Char) : Bool := c.isAlphanum || c = '_' || c = '.'

/-- The value of a digit. -/
def digitVal (c : Char) : Nat :=
  if c.isDigit then c.toNat - 48
  else if 'a' ≤ c ∧ c ≤ 'f' then c.toNat - 87
  else if 'A' ≤ c ∧ c ≤ 'F' then c.toNat - 55
  else 99

/-- Digits of a base, where `_` separates groups; none when another character stands among them or no digit does
(00 R4). -/
def digitsOf (base : Nat) (cs : List Char) : Option Nat :=
  let ds := cs.filter (fun c => c != '_')
  if ds.isEmpty || ds.any (fun c => base ≤ digitVal c) then none
  else some (ds.foldl (fun n c => n * base + digitVal c) 0)

/-- The exponent of a decimal number: a sign or none, and digits. -/
def expOf : List Char → Option Int
  | '-' :: r => (digitsOf 10 r).map (fun n => -(n : Int))
  | '+' :: r => (digitsOf 10 r).map (fun n => (n : Int))
  | r => (digitsOf 10 r).map (fun n => (n : Int))

/-- A decimal number with a point, an exponent or both; an integer without them. -/
def decTok (cs : List Char) : Option Tok :=
  let (m, x) := cs.span (fun c => c != 'e' && c != 'E')
  let (a, b) := m.span (fun c => c != '.')
  match x with
  | [] =>
    if b = [] then (digitsOf 10 a).map Tok.num
    else (digitsOf 10 (a ++ b.drop 1)).map (fun n => .dec n (-((b.drop 1).filter (fun c => c != '_')).length))
  | _ :: x =>
    match digitsOf 10 (a ++ b.drop 1), expOf x with
    | some n, some e => some (.dec n (e - ((b.drop 1).filter (fun c => c != '_')).length))
    | _, _ => none

/-- A number as it is written: 0x, 0b or decimal (00 R4), or decimal with a point or an exponent. -/
def numTok (cs : List Char) : Option Tok :=
  match cs with
  | '0' :: 'x' :: r => (digitsOf 16 r).map Tok.num
  | '0' :: 'b' :: r => (digitsOf 2 r).map Tok.num
  | _ => decTok cs

/-- The characters of a number, with a sign in its exponent. -/
def numSpan (cs : List Char) : List Char × List Char :=
  let (s, r) := cs.span identChar
  let e := s.getLast?
  match r with
  | c :: r' =>
    if (c = '-' ∨ c = '+') ∧ (e = some 'e' ∨ e = some 'E') ∧ s[1]? ≠ some 'x' then
      let (d, r'') := r'.span Char.isDigit
      (s ++ c :: d, r'')
    else (s, r)
  | [] => (s, r)

/-- The pieces of a line up to its comment (R54); none where a character or a number cannot stand. `n` bounds the
length. -/
def lexFrom : Nat → List Char → Option (List Tok)
  | 0, _ => some []
  | _ + 1, [] => some []
  | _ + 1, ';' :: _ => some []
  | _ + 1, '/' :: '/' :: _ => some []
  | n + 1, '"' :: cs =>
    match cs.span (fun c => c != '"') with
    | (s, _ :: r) => (lexFrom n r).map (fun ts => .str (String.ofList s) :: ts)
    | (_, []) => none
  | n + 1, '<' :: '<' :: cs => (lexFrom n cs).map (fun ts => .sym "<<" :: ts)
  | n + 1, '>' :: '>' :: cs => (lexFrom n cs).map (fun ts => .sym ">>" :: ts)
  | n + 1, c :: cs =>
    if c.isWhitespace then lexFrom n cs
    else if c.isDigit then
      let (s, r) := numSpan (c :: cs)
      match numTok s with
      | some t => (lexFrom n r).map (fun ts => t :: ts)
      | none => none
    else if identChar c then
      let (s, r) := (c :: cs).span identChar
      (lexFrom n r).map (fun ts => .id (String.ofList s) :: ts)
    else if "~-*/%&^|+()[],:=".toList.contains c then (lexFrom n cs).map (fun ts => .sym (String.singleton c) :: ts)
    else none

/-- The pieces of a line. -/
def lex (cs : List Char) : Option (List Tok) := lexFrom cs.length cs


/-- Splits pieces at commas that stand outside parentheses and brackets; `d` is the depth. -/
def splitCommas (d : Nat) (cur : List Tok) : List Tok → List (List Tok)
  | [] => [cur.reverse]
  | .sym "," :: r => if d = 0 then cur.reverse :: splitCommas 0 [] r else splitCommas d (.sym "," :: cur) r
  | .sym s :: r =>
    splitCommas (if s = "(" || s = "[" then d + 1 else if s = ")" || s = "]" then d - 1 else d) (.sym s :: cur) r
  | t :: r => splitCommas d (t :: cur) r

/-- The operands of a statement. -/
def operandsOf (ts : List Tok) : List (List Tok) := if ts.isEmpty then [] else splitCommas 0 [] ts

/-! ## Expressions -/

/-- The operators of Table 27 that stand in an expression. -/
inductive RelFn where
  | lo | hi | ls | tap
  deriving DecidableEq, Repr

/-- An expression (R56). -/
inductive Expr where
  | num (w : Word)
  | name (s : String)
  | un (op : String) (e : Expr)
  | bin (op : String) (a b : Expr)
  | fn (f : RelFn) (e : Expr)
  deriving DecidableEq, Repr

/-- The binary operators of a level, the lowest of Table 236 first. -/
def binLevel : Nat → List String
  | 0 => ["+", "-"]
  | 1 => ["|"]
  | 2 => ["^"]
  | 3 => ["&"]
  | 4 => ["<<", ">>"]
  | 5 => ["*", "/", "%"]
  | _ => []

/-- The operator that a name stands for when a parenthesis follows it. -/
def relFn : String → Option RelFn
  | "lo" => some .lo
  | "hi" => some .hi
  | "ls" => some .ls
  | "tap" => some .tap
  | _ => none

mutual

/-- Operators of the levels from `lvl` up, which associate from left to right (R56). `n` bounds the depth. -/
def parseLevel : Nat → Nat → List Tok → Option (Expr × List Tok)
  | 0, _, _ => none
  | n + 1, lvl, ts =>
    if 6 ≤ lvl then parseUnary n ts
    else
      match parseLevel n (lvl + 1) ts with
      | some (a, r) => parseRest n lvl a r
      | none => none

/-- The operators of one level that follow its first operand. -/
def parseRest : Nat → Nat → Expr → List Tok → Option (Expr × List Tok)
  | 0, _, _, _ => none
  | n + 1, lvl, a, ts =>
    match ts with
    | .sym s :: r =>
      if (binLevel lvl).contains s then
        match parseLevel n (lvl + 1) r with
        | some (b, r') => parseRest n lvl (.bin s a b) r'
        | none => none
      else some (a, ts)
    | _ => some (a, ts)

/-- A unary operator, a parenthesis, a number, a name or an operator of Table 27. A literal of 2^64 or more is an error.
DESIGN CHOICE (log 59). -/
def parseUnary : Nat → List Tok → Option (Expr × List Tok)
  | 0, _ => none
  | n + 1, ts =>
    match ts with
    | .sym "-" :: r => (parseUnary n r).map (fun p => (.un "-" p.1, p.2))
    | .sym "~" :: r => (parseUnary n r).map (fun p => (.un "~" p.1, p.2))
    | .num x :: r => if x < 2 ^ 64 then some (.num (BitVec.ofNat 64 x), r) else none
    | .sym "(" :: r =>
      match parseLevel n 0 r with
      | some (e, .sym ")" :: r') => some (e, r')
      | _ => none
    | .id s :: .sym "(" :: r =>
      match relFn s, parseLevel n 0 r with
      | some f, some (e, .sym ")" :: r') => some (.fn f e, r')
      | _, _ => none
    | .id s :: r => some (.name s, r)
    | _ => none

end

/-- An expression that takes all of the pieces. -/
def parseExpr (ts : List Tok) : Option Expr :=
  match parseLevel (9 * (ts.length + 1)) 0 ts with
  | some (e, []) => some e
  | _ => none

/-- The value of an expression: constant, or one symbol with an addend, under an operator of Table 27 or none (R56). -/
inductive Val where
  | const (w : Word)
  | rel (f : Option RelFn) (sym : String) (add : Word)
  deriving DecidableEq, Repr

/-- A binary operator on constants: 64-bit two's complement, with `/` and `%` toward zero and `>>` arithmetic (R56). -/
def binConst (op : String) (a b : Word) : Option Word :=
  match op with
  | "+" => some (a + b)
  | "-" => some (a - b)
  | "*" => some (a * b)
  | "/" => if b = 0 then none else some (a.sdiv b)
  | "%" => if b = 0 then none else some (a.srem b)
  | "<<" => if b.toNat < 64 then some (a <<< b.toNat) else none
  | ">>" => if b.toNat < 64 then some (a.sshiftRight b.toNat) else none
  | "&" => some (a &&& b)
  | "^" => some (a ^^^ b)
  | "|" => some (a ||| b)
  | _ => none

/-- A binary operator on values: of a symbol with an addend there is only plus and minus a constant (R56). -/
def binVal (op : String) (a b : Val) : Option Val :=
  match a, b with
  | .const x, .const y => (binConst op x y).map Val.const
  | .rel none s x, .const y =>
    if op = "+" then some (.rel none s (x + y)) else if op = "-" then some (.rel none s (x - y)) else none
  | .const x, .rel none s y => if op = "+" then some (.rel none s (x + y)) else none
  | _, _ => none

/-- The value of an expression, where `look` gives what names stand for; none is an assembly error (R56). -/
def Expr.eval (look : String → Val) : Expr → Option Val
  | .num w => some (.const w)
  | .name s => some (look s)
  | .un op e =>
    match e.eval look with
    | some (.const w) => some (.const (if op = "-" then -w else ~~~w))
    | _ => none
  | .bin op a b =>
    match a.eval look, b.eval look with
    | some x, some y => binVal op x y
    | _, _ => none
  | .fn f e =>
    match e.eval look with
    | some (.rel none s w) => some (.rel (some f) s w)
    | _ => none

/-- The value of the pieces of an operand. -/
def valueOf (look : String → Val) (ts : List Tok) : Option Val := (parseExpr ts).bind (Expr.eval look)

/-- The value of an operand that must be constant. -/
def constOf (look : String → Val) (ts : List Tok) : Option Word :=
  match valueOf look ts with
  | some (.const w) => some w
  | _ => none

end Sys2Proof.Asm
end

