-- ==== Sys2Proof/Machine/AsmForms.lean ====
section
/-! DEFINITION. The assembler: mnemonics, operands and the words of one instruction (03 R57 to R60, R62, 02 R59). -/

namespace Sys2Proof.Asm

open Sys2Proof.Machine

/-! ## Mnemonics (02 Tables 20a to 20c) -/

/-- The mnemonics of page 0. -/
def mnemonics0 : List (String × Instr) :=
  [("add", .add opNop), ("sub", .sub opNop), ("and", .and opNop), ("or", .or opNop), ("xor", .xor opNop),
   ("andn", .andn opNop), ("shl", .shl opNop), ("shr", .shr opNop), ("sar", .sar opNop), ("rol", .rol opNop),
   ("slt", .slt opNop), ("sltu", .sltu opNop), ("seq", .seq opNop), ("sne", .sne opNop), ("mul", .mul opNop),
   ("mulh", .mulh opNop), ("mov", .mov opNop), ("neg", .neg opNop), ("ldi", .ldi opNop), ("addi", .addi opNop),
   ("bz", .bz opNop), ("bnz", .bnz opNop), ("br", .br opNop), ("call", .call opNop), ("jmp", .jmp opNop),
   ("calli", .calli opNop), ("ld", .ld opNop), ("st", .st opNop), ("ldc", .ldc opNop), ("stc", .stc opNop),
   ("slti", .slti opNop), ("andi", .andi opNop), ("ldhi", .ldhi opNop), ("cset", .cset opNop),
   ("cinc", .cinc opNop), ("cbnd", .cbnd opNop), ("cperm", .cperm opNop), ("cget", .cget opNop),
   ("ctag", .ctag opNop), ("mfc", .mfc opNop), ("mtc", .mtc opNop), ("svc", .svc opNop), ("nop", .nop),
   ("done", .doneUnit), ("brk", .brk), ("ret", .ret), ("sched", .sched), ("yield", .yield)]

/-- The mnemonics of page 1. -/
def mnemonics1 : List (String × Instr) :=
  [("div", .div opNop), ("divu", .divu opNop), ("rem", .rem opNop), ("remu", .remu opNop), ("min", .min opNop),
   ("max", .max opNop), ("minu", .minu opNop), ("maxu", .maxu opNop), ("clz", .clz opNop), ("ctz", .ctz opNop),
   ("popc", .popc opNop), ("rev", .rev opNop), ("sx", .sx opNop), ("zx", .zx opNop), ("bfx", .bfx opNop),
   ("bfi", .bfi opNop), ("csel", .csel opNop), ("cselz", .cselz opNop), ("ld.fe", .ldFe opNop),
   ("ld.fec", .ldFec opNop), ("st.fs", .stFs opNop), ("st.fw", .stFw opNop), ("st.n4", .stN4 opNop),
   ("ldf", .ldf opNop), ("fadd", .fadd opNop), ("fsub", .fsub opNop), ("fmul", .fmul opNop), ("fdiv", .fdiv opNop),
   ("fmin", .fmin opNop), ("fmax", .fmax opNop), ("fminp", .fminp opNop), ("fmaxp", .fmaxp opNop),
   ("fsqrt", .fsqrt opNop), ("fabs", .fabs opNop), ("fma", .fma opNop), ("fnma", .fnma opNop), ("flt", .flt opNop),
   ("fle", .fle opNop), ("feq", .feq opNop), ("fun", .funOrd opNop), ("cvtif", .cvtif opNop),
   ("cvtfi", .cvtfi opNop), ("cvtff", .cvtff opNop), ("fclass", .fclass opNop), ("blz", .blz opNop),
   ("bgez", .bgez opNop)]

/-- The mnemonics of page 2. -/
def mnemonics2 : List (String × Instr) :=
  [("vadd", .vadd opNop), ("vsub", .vsub opNop), ("vaddsat", .vaddsat opNop), ("vsubsat", .vsubsat opNop),
   ("vmul", .vmul opNop), ("vmulh", .vmulh opNop), ("vmin", .vmin opNop), ("vmax", .vmax opNop),
   ("vand", .vand opNop), ("vor", .vor opNop), ("vxor", .vxor opNop), ("vandn", .vandn opNop),
   ("vshl", .vshl opNop), ("vshr", .vshr opNop), ("vabs", .vabs opNop), ("vneg", .vneg opNop),
   ("vceq", .vceq opNop), ("vcne", .vcne opNop), ("vclt", .vclt opNop), ("vcle", .vcle opNop),
   ("vsel", .vsel opNop), ("vmov", .vmov opNop), ("vbcast", .vbcast opNop), ("vidx", .vidx opNop),
   ("vmac", .vmac opNop), ("vdot4", .vdot4 opNop), ("vpopc", .vpopc opNop), ("vclz", .vclz opNop),
   ("pand", .pand opNop), ("por", .por opNop), ("pxor", .pxor opNop), ("pnot", .pnot opNop), ("pcnt", .pcnt opNop),
   ("pfirst", .pfirst opNop), ("vext", .vext opNop), ("vins", .vins opNop), ("vrsum", .vrsum opNop),
   ("vrmax", .vrmax opNop), ("vrmin", .vrmin opNop), ("vrand", .vrand opNop), ("vcvtw", .vcvtw opNop),
   ("vcvtn", .vcvtn opNop)]

/-- The mnemonics of page 3. -/
def mnemonics3 : List (String × Instr) :=
  [("vfadd", .vfadd opNop), ("vfsub", .vfsub opNop), ("vfmul", .vfmul opNop), ("vfdiv", .vfdiv opNop),
   ("vfma", .vfma opNop), ("vfnma", .vfnma opNop), ("vfmin", .vfmin opNop), ("vfmax", .vfmax opNop),
   ("vfminp", .vfminp opNop), ("vfmaxp", .vfmaxp opNop), ("vfsqrt", .vfsqrt opNop), ("vfrsqrt", .vfrsqrt opNop),
   ("vfexp2", .vfexp2 opNop), ("vflog2", .vflog2 opNop), ("vfrecip", .vfrecip opNop), ("vftanh", .vftanh opNop),
   ("vfclass", .vfclass opNop), ("vfabs", .vfabs opNop), ("vfneg", .vfneg opNop), ("vscale", .vscale opNop),
   ("vfsig", .vfsig opNop), ("vfgelu", .vfgelu opNop), ("vfceq", .vfceq opNop), ("vfclt", .vfclt opNop),
   ("vfcle", .vfcle opNop), ("vfcun", .vfcun opNop), ("vcvt", .vcvt opNop), ("vcvti", .vcvti opNop),
   ("vcvtf", .vcvtf opNop), ("vquant", .vquant opNop), ("vdequant", .vdequant opNop), ("vfrsum", .vfrsum opNop),
   ("vfrmax", .vfrmax opNop), ("vfrnd", .vfrnd opNop)]

/-- The mnemonics of page 4. -/
def mnemonics4 : List (String × Instr) :=
  [("vld", .vld opNop), ("vst", .vst opNop), ("vlds", .vlds opNop), ("vsts", .vsts opNop), ("vldx", .vldx opNop),
   ("vstx", .vstx opNop), ("vld.fe", .vldFe opNop), ("vst.fs", .vstFs opNop), ("vldp", .vldp opNop),
   ("vstp", .vstp opNop), ("vperm", .vperm opNop), ("vperm2", .vperm2 opNop), ("vsld", .vsld opNop),
   ("vsrd", .vsrd opNop), ("vzip", .vzip opNop), ("vunzip", .vunzip opNop), ("vcomp", .vcomp opNop),
   ("vexp", .vexp opNop), ("gget", .gget opNop), ("gput", .gput opNop), ("gsum", .gsum opNop),
   ("gmax", .gmax opNop), ("gbcast", .gbcast opNop), ("vlut", .vlut opNop), ("vlutb", .vlutb opNop),
   ("gsync", .gsync)]

/-- The mnemonics of page 5. -/
def mnemonics5 : List (String × Instr) :=
  [("hire", .hire opNop), ("hire.r", .hireR opNop), ("hwait", .hwait opNop), ("hpoll", .hpoll opNop),
   ("copy", .copy opNop), ("cwait", .cwait opNop), ("cpoll", .cpoll opNop), ("swait", .swait opNop),
   ("spoll", .spoll opNop), ("efence", .efence opNop), ("ecnt", .ecnt opNop), ("cancel", .cancel opNop),
   ("hstat", .hstat opNop), ("copy.r", .copyR opNop), ("satt", .satt opNop), ("sblk", .sblk opNop),
   ("tapsel", .tapsel opNop), ("tapst", .tapst)]

/-- The mnemonics of page 6. -/
def mnemonics6 : List (String × Instr) :=
  [("amoadd", .amoadd opNop), ("amoswp", .amoswp opNop), ("amoand", .amoand opNop), ("amoor", .amoor opNop),
   ("amomin", .amomin opNop), ("amomax", .amomax opNop), ("cas", .cas opNop), ("casp", .casp opNop),
   ("send", .send opNop), ("recv", .recv opNop), ("recvp", .recvp opNop), ("callat", .callat opNop),
   ("retto", .retto opNop), ("dqpush", .dqpush opNop), ("dqpop", .dqpop opNop), ("dqsteal", .dqsteal opNop),
   ("dqlen", .dqlen opNop), ("start", .start opNop), ("join", .join opNop), ("bar", .bar opNop),
   ("barq", .barq opNop), ("waitb", .waitb opNop), ("setb", .setb opNop), ("lcnt", .lcnt opNop),
   ("lcancel", .lcancel opNop), ("fence", .fence), ("sendr", .sendr)]

/-- The mnemonics of page 7. -/
def mnemonics7 : List (String × Instr) :=
  [("mfcs", .mfcs opNop), ("mtcs", .mtcs opNop), ("tlbi", .tlbi opNop), ("bankcfg", .bankcfg opNop),
   ("bankq", .bankq opNop), ("probew", .probew opNop), ("prober", .prober opNop), ("pjr", .pjr opNop),
   ("pjclr", .pjclr opNop), ("cseal", .cseal opNop), ("cunseal", .cunseal opNop), ("lease", .lease opNop),
   ("leaseq", .leaseq opNop), ("eret", .eret), ("wfi", .wfi), ("rcflush", .rcflush), ("l1inv", .l1inv),
   ("l1wb", .l1wb), ("tlbia", .tlbia)]
/-- Every mnemonic with its instruction. -/
def mnemonics : List (String × Instr) :=
  mnemonics0 ++ mnemonics1 ++ mnemonics2 ++ mnemonics3 ++ mnemonics4 ++ mnemonics5 ++ mnemonics6 ++ mnemonics7

/-- The form that a name stands for. -/
def formNamed (s : String) : Option Form := (mnemonics.find? (fun p => p.1 == s)).bind (fun p => p.2.form?)

/-- The parts of a name between its dots. -/
def dotParts (cur : List Char) : List Char → List String
  | [] => [String.ofList cur.reverse]
  | '.' :: r => String.ofList cur.reverse :: dotParts [] r
  | c :: r => dotParts (c :: cur) r

/-- The form of a mnemonic, which two parts or one part may name, and its suffixes. -/
def splitMnemonic (s : String) : Option (String × Form × List String) :=
  match dotParts [] s.toList with
  | a :: b :: r =>
    match formNamed (a ++ "." ++ b) with
    | some f => some (a ++ "." ++ b, f, r)
    | none => (formNamed a).map (fun f => (a, f, b :: r))
  | [a] => (formNamed a).map (fun f => (a, f, []))
  | [] => none

/-! ## Suffixes (03 Table 26) -/

/-- The field that a suffix sets, and its value. -/
inductive Suffix where
  | w (n : Nat) | et (n : Nat) | order (n : Nat) | scope (n : Nat) | fe (s : String) | z | sh (n : Nat) | st | sw
  deriving DecidableEq, Repr

/-- The position of Table 26. -/
def Suffix.pos : Suffix → Nat
  | .w _ => 1
  | .et _ => 1
  | .order _ => 2
  | .scope _ => 3
  | .fe _ => 4
  | .z => 5
  | .sh _ => 5
  | .st => 6
  | .sw => 7

/-- Which field: two suffixes of one instruction set different fields. -/
def Suffix.field : Suffix → Nat
  | .w _ => 0
  | .et _ => 1
  | .order _ => 2
  | .scope _ => 3
  | .fe _ => 4
  | .z => 5
  | .sh _ => 6
  | .st => 7
  | .sw => 8

/-- The types of page 2 and of pages 3 and 4, in the order of their codes (02 Table 18). -/
def types2 : List String := ["i8", "i16", "i32", "i64", "n8", "n16", "n32", "n64"]
def types3 : List String := ["bf16", "f16", "f32", "f64", "e4m3", "e5m2", "e2m1", "ts8"]

/-- The place of a name in a list. -/
def codeIn (xs : List String) (s : String) : Option Nat :=
  let i := xs.findIdx (fun x => x == s)
  if i < xs.length then some i else none

/-- A float form of page 1, on which the names of the formats are width suffixes (Table 26). -/
def isFloat1 (f : Form) : Bool := decide (f.page = 1) && decide (12 ≤ f.op) && decide (f.op ≤ 21)

/-- The suffixes that set an order, a scope and a shape. -/
def orders : List String := ["", "acq", "rel", "ar", "sc", "rlx", "eng"]
def scopes : List String := ["bn", "cl", "pk", "sy"]
def shapes : List String := ["", "half", "qtr", "gang"]

/-- A suffix on a form (Table 26). -/
def suffixOf (f : Form) (s : String) : Option Suffix :=
  let et := if f.page = 2 then codeIn types2 s else if f.page = 3 ∨ f.page = 4 then codeIn types3 s else none
  match et with
  | some n => some (.et n)
  | none =>
    match codeIn ["d", "w", "h", "b"] s, codeIn ["f64", "f32", "f16", "bf16"] s, codeIn orders s, codeIn scopes s,
      codeIn shapes s with
    | some n, _, _, _, _ => some (.w n)
    | _, some n, _, _, _ => if isFloat1 f then some (.w n) else none
    | _, _, some n, _, _ => if n = 0 then none else some (.order n)
    | _, _, _, some n, _ => some (.scope n)
    | _, _, _, _, some n => if n = 0 then none else some (.sh n)
    | _, _, _, _, _ =>
      if s = "fe" ∨ s = "fec" ∨ s = "fs" ∨ s = "fw" then some (.fe s)
      else if s = "z" then some .z
      else if s = "st" then some .st
      else if s = "sw" then some .sw
      else none

/-- Whether suffixes stand in the order of Table 26, each field at most once (R58). -/
def suffixesOk : List Suffix → Bool
  | [] => true
  | s :: r => r.all (fun t => decide (s.pos ≤ t.pos) && s.field != t.field) && suffixesOk r

/-- The fields that suffixes set. -/
structure Mods where
  w : Nat
  et : Option Nat
  order : Nat
  scope : Nat
  z : Bool
  sh : Nat
  st : Bool
  sw : Bool
  deriving DecidableEq, Repr

/-- One suffix. -/
def Mods.put (m : Mods) : Suffix → Mods
  | .w n => { m with w := n }
  | .et n => { m with et := some n }
  | .order n => { m with order := n }
  | .scope n => { m with scope := n }
  | .fe _ => m
  | .z => { m with z := true }
  | .sh n => { m with sh := n }
  | .st => { m with st := true }
  | .sw => { m with sw := true }

/-- No suffix; a gang form has the gang shape (R60). -/
def Mods.plain (f : Form) : Mods := ⟨0, none, 0, 2, false, if f.isVector && f.isGang then 3 else 0, false, false⟩

/-- The suffixes of a list, each known. -/
def suffixes (f : Form) : List String → Option (List Suffix)
  | [] => some []
  | s :: r =>
    match suffixOf f s, suffixes f r with
    | some x, some xs => some (x :: xs)
    | _, _ => none

/-- A mnemonic: its form, where a full/empty qualifier may select another (R58), and its modifiers. -/
def mnemonic (s : String) : Option (Form × Mods × List Suffix) :=
  match splitMnemonic s with
  | none => none
  | some (name, f, parts) =>
    match suffixes f parts with
    | none => none
    | some xs =>
      if !suffixesOk xs then none
      else
        let f' := match xs.findSome? (fun x => match x with | .fe q => some q | _ => none) with
          | some q => formNamed (name ++ "." ++ q)
          | none => some f
        f'.map (fun f' => (f', xs.foldl Mods.put (Mods.plain f'), xs))

/-! ## Operands (03 Table 25) -/

/-- An operand: a register of a file, a memory operand with the pieces of its offset and whether they are subtracted,
or other pieces. -/
inductive Operand where
  | reg (file : RegUse) (n : Nat)
  | mem (a : Nat) (neg : Bool) (off : List Tok)
  | other (ts : List Tok)
  deriving DecidableEq, Repr

/-- The number of a register name after its letter. -/
def regNum (limit : Nat) : List Char → Option Nat
  | [c] => if c.isDigit ∧ digitVal c < limit then some (digitVal c) else none
  | [c, d] =>
    if c.isDigit ∧ d.isDigit ∧ c ≠ '0' ∧ 10 * digitVal c + digitVal d < limit then some (10 * digitVal c + digitVal d)
    else none
  | _ => none

/-- A register name (Table 25). -/
def regName (s : String) : Option (RegUse × Nat) :=
  if s = "sp" then some (.g, 14)
  else if s = "lk" then some (.g, 15)
  else
    match s.toList with
    | 'g' :: r => (regNum 32 r).map (fun n => (.g, n))
    | 'v' :: r => (regNum 32 r).map (fun n => (.v, n))
    | 'p' :: r => (regNum 8 r).map (fun n => (.p, n))
    | _ => none

/-- An operand from its pieces. -/
def operand (ts : List Tok) : Option Operand :=
  match ts with
  | [.id s] =>
    match regName s with
    | some (f, n) => some (.reg f n)
    | none => some (.other ts)
  | .sym "[" :: .id s :: r =>
    match regName s, r.reverse with
    | some (.g, n), .sym "]" :: off =>
      match off.reverse with
      | [] => some (.mem n false [])
      | .sym "+" :: e => if e = [] then none else some (.mem n false e)
      | .sym "-" :: e => if e = [] then none else some (.mem n true e)
      | _ => none
    | _, _ => none
  | [] => none
  | _ => some (.other ts)

/-- What a form takes, in the order of R57. A `k` slot holds a constant of a width that is put at a bit of k. -/
inductive Slot where
  | d | a | b (need : Bool) | mem | imm | target | minor | k (sh w : Nat) | len | type (names : List String) | pred
  deriving DecidableEq, Repr

/-- A memory form: its PIMM chain is a byte offset (02 Table 16). -/
def isMem (f : Form) : Bool := decide (f.fmt = .f2) && decide (f.kMax = 3)

/-- The branches of format FI (06 Table 64). -/
def isFiBranch (f : Form) : Bool :=
  (decide (f.page = 0) && (decide (f.op = 10) || decide (f.op = 11))) ||
    (decide (f.page = 1) && (decide (f.op = 22) || decide (f.op = 23)))

/-- The forms whose immediate is unsigned: `mfc`, `mtc` and `svc` (06 R135, R136). -/
def isUnsigned (f : Form) : Bool := decide (f.page = 0) && (decide (f.op = 23) || decide (f.op = 24) || decide (f.op = 27))

/-- Page, OP and X of a form. -/
def isForm (f : Form) (page op x : Nat) : Bool := decide (f.page = page) && decide (f.op = op) && decide (f.sel = some x)

/-- The forms that are written with three operands only: `csel`, `cselz`, `callat`, `copy.r` and the three-source vector
forms (06 R125, 07 R140, 09 R197, 13 Table 134). -/
def needsB (f : Form) : Bool :=
  isForm f 1 8 0 || isForm f 1 8 1 || isForm f 2 10 0 || isForm f 2 12 0 || isForm f 2 12 1 || isForm f 3 2 0 ||
    isForm f 3 2 1 || isForm f 4 4 1 || isForm f 5 2 1 || isForm f 6 7 0

/-- The forms with a B field that are not two-source: D is no source of them by which B could be left out. -/
def notTwoSource (f : Form) : Bool :=
  needsB f || isMem f || isForm f 1 17 0 || isForm f 1 17 1 || isForm f 5 4 1 || isForm f 6 11 1 || isForm f 3 12 0 ||
    isForm f 3 12 1

/-- The page 6 atomics but `cas` and `casp`, which take their operand from g[D] without PREG (08 R180). -/
def isAmo (f : Form) : Bool := decide (f.page = 6) && decide (f.op ≤ 2)

/-- The fields of k of a form (06 R124, R128, R133, 07 R147, R149, R151, R153, R155, R157, R158, 09 Table 94, 11 Table 124,
19 Table 185, 23 Table 220). -/
def kSlots (f : Form) : List Slot :=
  if f.fmt ≠ .f2 ∨ f.kMax = 0 ∨ f.kMax = 3 then []
  else if f.page = 1 ∧ f.op = 7 then [.k 0 6, .len]
  else if f.page = 3 ∧ f.op = 10 ∧ f.sel = some 0 then [.type types3, .k 3 24]
  else if f.page = 3 ∧ (f.op = 10 ∨ f.op = 11) then [.type types2, .k 3 24]
  else if f.page = 3 ∧ f.op = 12 then [.type (types3.take 4), .k 3 24]
  else if f.page = 5 ∧ f.op = 7 then [.k 0 2, .k 2 1]
  else if f.page = 4 ∧ f.op = 8 then [.k 0 2]
  else [.k 0 27]

/-- What a form takes (R57). -/
def slots (f : Form) : List Slot :=
  (if f.dUse = .none ∨ f.fmt = .fb ∨ f.fmt = .fz then [] else [.d]) ++
  (if f.fmt ≠ .f2 ∨ f.aUse = .none then [] else if isMem f then [.mem] else [.a]) ++
  (if f.fmt ≠ .f2 ∨ f.bUse = .none then [] else [.b (needsB f)]) ++
  (match f.fmt with
    | .fi => [if isFiBranch f then .target else .imm]
    | .fb => [.target]
    | .fz => if f.page = 6 ∧ f.op = 4 then [.minor] else []
    | .f2 => []) ++
  kSlots f ++ (if f.usesPr then [.pred] else [])

/-- What the operands of an instruction gave. -/
structure Args where
  d : Option (RegUse × Nat)
  a : Option (RegUse × Nat)
  b : Option (RegUse × Nat)
  pred : Nat
  k : Nat
  imm : Option Val
  deriving DecidableEq, Repr

/-- No operand. -/
def Args.none : Args := ⟨.none, .none, .none, 0, 0, .none⟩

/-- The gang reaches, whose registers may be of either file (07 R157). -/
def isReach (f : Form) : Bool := decide (f.page = 4) && decide (f.op = 8)

/-- A register of the file that a field names; a gang reach takes g or v. -/
def fileOk (f : Form) (want have_ : RegUse) : Bool :=
  want == have_ || (isReach f && (have_ == .g || have_ == .v))

/-- The value negated where the offset is subtracted; of a symbol there is no negative (R56). -/
def Val.negIf (neg : Bool) (v : Val) : Option Val :=
  if !neg then some v
  else match v with
    | .const w => some (.const (-w))
    | .rel _ _ _ => Option.none

/-- One operand in a slot, when it fits there. -/
def fill (f : Form) (look : String → Val) (x : Args) (s : Slot) (o : Operand) : Option Args :=
  match s, o with
  | .d, .reg file n => if fileOk f f.dUse file then some { x with d := some (file, n) } else Option.none
  | .a, .reg file n => if fileOk f f.aUse file then some { x with a := some (file, n) } else Option.none
  | .b _, .reg file n => if f.bUse == file then some { x with b := some (file, n) } else Option.none
  | .pred, .reg .p n => some { x with pred := n }
  | .mem, .mem n neg off =>
    if off = [] then some { x with a := some (.g, n), imm := some (.const 0) }
    else ((valueOf look off).bind (Val.negIf neg)).map (fun v => { x with a := some (.g, n), imm := some v })
  | .imm, .other ts => (valueOf look ts).map (fun v => { x with imm := some v })
  | .target, .other ts => (valueOf look ts).map (fun v => { x with imm := some v })
  | .minor, .other ts => (constOf look ts).map (fun w => { x with imm := some (.const w) })
  | .type names, .other [.id t] => (codeIn names t).map (fun n => { x with k := x.k + n })
  | .k sh n, .other ts =>
    match constOf look ts with
    | some w => if w.toNat < 2 ^ n then some { x with k := x.k + w.toNat * 2 ^ sh } else Option.none
    | Option.none => Option.none
  | .len, .other ts =>
    match constOf look ts with
    | some w => if 1 ≤ w.toNat ∧ w.toNat ≤ 64 then some { x with k := x.k + (w.toNat - 1) * 2 ^ 6 } else Option.none
    | Option.none => Option.none
  | _, _ => Option.none

/-- Whether a slot may be left empty: a second source, a field of k and the predicate (R57, 02 R37). -/
def Slot.optional : Slot → Bool
  | .b need => !need
  | .k _ _ => true
  | .len => true
  | .type _ => true
  | .pred => true
  | _ => false

/-- Whether a slot that an operand does not fit may be passed over: a field of k may not when the operand is an expression. -/
def Slot.passes (s : Slot) (o : Operand) : Bool :=
  match s, o with
  | .k _ _, .other _ => false
  | _, _ => s.optional

/-- The operands in the slots of a form, in order. -/
def fillAll (f : Form) (look : String → Val) : Args → List Slot → List Operand → Option Args
  | x, [], [] => some x
  | _, [], _ :: _ => Option.none
  | x, s :: ss, [] => if s.optional then fillAll f look x ss [] else Option.none
  | x, s :: ss, o :: os =>
    match fill f look x s o with
    | some y => fillAll f look y ss os
    | Option.none => if s.passes o then fillAll f look x ss (o :: os) else Option.none

/-! ## The words of an instruction -/

/-- Where an instruction's immediate goes. -/
inductive ImmUse where
  | none | fi | fb | mem | k | minor
  deriving DecidableEq, Repr

/-- An instruction read from its source: its form and fields but for the immediate, the immediate and where it goes, and the
explicit prefix words before it (R62). -/
structure Enc where
  form : Form
  op : Op
  use : ImmUse
  val : Val
  explicit : Option (List HWord)
  deriving DecidableEq, Repr

/-- Whether the instruction is a branch, whose target the immediate names. -/
def Enc.branch (e : Enc) : Bool := decide (e.use = .fb) || isFiBranch e.form

/-- The immediate bits of the base word (02 Table 16). -/
def ImmUse.low : ImmUse → Nat
  | .fi => 5
  | .fb => 9
  | _ => 0

/-- Whether a number is held by `width` bits, signed or not. -/
def fitsIn (unsigned : Bool) (width : Nat) (v : Int) : Bool :=
  if unsigned then decide (0 ≤ v ∧ v < 2 ^ width)
  else if width = 0 then decide (v = 0) else decide (-(2 ^ (width - 1)) ≤ v ∧ v < 2 ^ (width - 1))

/-- Whether the immediate of an instruction is unsigned: fields of k, and the forms that say so. -/
def Enc.unsigned (e : Enc) : Bool := decide (e.use = .k) || (decide (e.use = .fi) && isUnsigned e.form)

/-- Whether a number fits an instruction with `n` PIMMs. -/
def Enc.fits (e : Enc) (n : Nat) (v : Int) : Bool :=
  match e.use with
  | .none => n == 0
  | .minor => n == 0 && fitsIn true 9 v
  | u => fitsIn e.unsigned (u.low + 9 * n) v

/-- The fewest PIMMs that hold a constant immediate (R60). -/
def Enc.fewest (e : Enc) (v : Int) : Option Nat := (List.range 4).find? (fun n => e.fits n v)

/-- The chunks of a chain of `n` PIMMs, the lowest first (02 R41). -/
def chunks : Nat → Nat → List (BitVec 9)
  | 0, _ => []
  | n + 1, k => BitVec.ofNat 9 k :: chunks n (k / 512)

/-- The operand fields with the immediate in them. -/
def Enc.opWith (e : Enc) (n : Nat) (v : Int) : Op :=
  match e.use with
  | .none => e.op
  | .minor => { e.op with opnd := BitVec.ofInt 9 v }
  | u =>
    let x := (v % 2 ^ (u.low + 9 * n)).toNat
    { e.op with opnd := e.op.opnd ||| BitVec.ofNat 9 (x % 2 ^ u.low), pimm := chunks n (x / 2 ^ u.low) }

/-- Whether a chain of prefix words is one that R39 of 02 allows before some base word. -/
def chainLegal (ws : List HWord) : Bool :=
  match decode ws with
  | .error .badChain => false
  | _ => true

/-- The words of an instruction with `n` PIMMs and the immediate `v`. Refused is what would raise ILL under R39 of 02 and, but
with explicit prefixes, what would meet a case of 02 Table 22 (R59, R62). -/
def Enc.words (e : Enc) (n : Nat) (v : Int) : Option (List HWord) :=
  if !e.fits n v then Option.none
  else
    let o := e.opWith n v
    match e.explicit with
    | some ps =>
      let ws := ps ++ [mkWord o.m o.t e.form.op o.opnd]
      if n = 0 ∧ chainLegal ws then some ws else Option.none
    | Option.none => if o.chainOk && warnBits e.form o == 0 then some (encodeForm e.form o) else Option.none

/-- PPAG of an instruction: on a page other than 0, or with a scope or an order (R60). -/
def ppagFor (f : Form) (m : Mods) : Option PPag :=
  if f.page = 0 ∧ m.scope = 2 ∧ m.order = 0 then .none else some ⟨BitVec.ofNat 2 m.scope, BitVec.ofNat 3 m.order⟩

/-- PVEC of an instruction: where a field differs from the defaults of 02 R44 (R60). A type that is not written is the
default, or zero on a form that has no use for one. -/
def pvecFor (f : Form) (m : Mods) (pred : Nat) : Option PVec :=
  if (m.et = .none ∨ m.et = some 2) ∧ pred = 0 ∧ !m.z ∧ m.sh = 0 then .none
  else some ⟨BitVec.ofNat 3 (m.et.getD (if f.usesEt then 2 else 0)), BitVec.ofNat 3 pred, m.z, BitVec.ofNat 2 m.sh⟩

/-- The register number of an operand, 0 for none. -/
def numOf (r : Option (RegUse × Nat)) : Nat := match r with | some (_, n) => n | .none => 0

/-- A, B and whether PREG is there (R57, R60): a two-source form with two operands is destructive also where it takes
PREG, and an atomic then takes its operand from g[D] (02 R37, 08 R180). -/
def sourcesFor (f : Form) (m : Mods) (x : Args) : Nat × Nat × Bool :=
  let (d, a) := (numOf x.d, numOf x.a)
  match x.b with
  | some (_, b) => (a, b, true)
  | .none =>
    let need := m.w ≠ 0 ∨ 15 < d ∨ 15 < a
    if !need then (a, 0, false)
    else if f.fmt = .f2 ∧ f.bUse ≠ .none ∧ !notTwoSource f then (d, a, true)
    else if isAmo f then (a, d, true)
    else (a, 0, true)

/-- The operand bits of the base word but for an immediate (02 Table 14). -/
def baseBits (f : Form) (d a : Nat) : BitVec 9 :=
  match f.fmt with
  | .f2 => BitVec.ofNat 9 (d % 16 * 32 + a % 16 * 2 + f.sel.getD 0)
  | .fi => BitVec.ofNat 9 (d % 16 * 32)
  | .fb => 0
  | .fz => BitVec.ofNat 9 (f.sel.getD 0)

/-- Where the immediate of a form goes. -/
def useOf (f : Form) : ImmUse :=
  match f.fmt with
  | .fi => .fi
  | .fb => .fb
  | .fz => if f.page = 6 ∧ f.op = 4 then .minor else .none
  | .f2 => if f.kMax = 0 then .none else if f.kMax = 3 then .mem else .k

/-- An instruction from its form, modifiers and operands. -/
def encOf (f : Form) (m : Mods) (static : Bool) (x : Args) : Enc :=
  let (a, b, preg) := sourcesFor f m x
  let d := numOf x.d
  let k := x.k + (match x.d with | some (.v, _) => if isReach f then 4 else 0 | _ => 0)
  let op : Op :=
    { m := m.sw, t := m.st || (static && !f.side), opnd := baseBits f d a, ppag := ppagFor f m,
      preg := if preg then some ⟨BitVec.ofNat 4 b, decide (16 ≤ d), decide (16 ≤ a), decide (16 ≤ b), BitVec.ofNat 2 m.w⟩
        else .none,
      pvec := pvecFor f m x.pred, pimm := [], rsv := false }
  ⟨f, op, useOf f, (match useOf f with | .k => .const (BitVec.ofNat 64 k) | _ => x.imm.getD (.const 0)), .none⟩

/-- Whether both registers of a gang reach are of one file (07 R157). -/
def reachOk (f : Form) (x : Args) : Bool := !isReach f || x.d.map Prod.fst == x.a.map Prod.fst

/-- The slots that the base word alone holds (R62). -/
def Slot.inBase : Slot → Bool
  | .d => true
  | .a => true
  | .mem => true
  | .imm => true
  | .target => true
  | .minor => true
  | _ => false

/-- The page that explicit prefixes name (R62). -/
def explicitPage (ps : List HWord) : Nat :=
  match ps.find? (fun w => wordOp w == 30) with
  | some w => pageOf (Sys2Proof.payload w)
  | .none => 0

/-- An instruction statement: the mnemonic, the operands, whether `.static` holds, and the explicit prefixes before it.
None is an assembly error (R57 to R59, R62). -/
def instruction (look : String → Val) (static : Bool) (explicit : List HWord) (mn : String) (ops : List (List Tok)) :
    Option Enc :=
  match mnemonic mn, ops.mapM operand with
  | some (f, m, xs), some os =>
    if explicit = [] then
      match fillAll f look Args.none (slots f) os with
      | some x => if reachOk f x && !(m.st && f.side) then some (encOf f m static x) else .none
      | .none => .none
    else if !xs.all (fun s => s == .st || s == .sw) || f.page != explicitPage explicit then .none
    else
      match fillAll f look Args.none ((slots f).filter Slot.inBase) os with
      | some x =>
        let e := encOf f m static x
        if numOf x.d ≤ 15 ∧ numOf x.a ≤ 15 then
          some { e with use := if e.use = .k then .none else e.use, val := x.imm.getD (.const 0), explicit := some explicit }
        else .none
      | .none => .none
  | _, _ => .none

end Sys2Proof.Asm
end

