-- ==== Sys2Proof/Machine/Sothes.lean ====
section
/-! DEFINITION. The Sothes object format: its records, and files as bytes (03 R68 to R70). -/

namespace Sys2Proof.Asm

/-! ## Records -/

/-- The section types of 03 Table 30. -/
def tyCode : Nat := 1
def tyRo : Nat := 2
def tyData : Nat := 3
def tyZero : Nat := 4
def tyLs : Nat := 5
def tyKdesc : Nat := 6
def tySymtab : Nat := 7
def tyReloc : Nat := 8
def tyLines : Nat := 9
def tyStrings : Nat := 10

/-- The section flags of 03 Table 30. -/
def flX : Nat := 1
def flW : Nat := 2
def flFrozen : Nat := 4
def flScan : Nat := 8
def flTagged : Nat := 16

/-- A section of code or data: types CODE to LSDATA. `align` is a log2; a ZERO section has a size and no bytes. -/
structure Section where
  name : String
  type : Nat
  flags : Nat
  addr : Nat
  align : Nat
  bank : Nat
  size : Nat
  data : List Byte
  deriving DecidableEq, Repr

/-- A symbol: `sect` is a section, from 1, 0 for undefined, or 0xFFFF_FFFF for a constant. -/
structure Symbol where
  name : String
  sect : Nat
  value : Word
  size : Word
  bind : Nat
  kind : Nat
  deriving DecidableEq, Repr

/-- SECT of a constant. -/
def sectConst : Nat := 0xFFFFFFFF

/-- A relocation of section `target`. -/
structure Reloc where
  target : Nat
  ofs : Nat
  sym : Nat
  type : Nat
  perm : Nat
  addend : Word
  deriving DecidableEq, Repr

/-- A line of the line map of section `target`. -/
structure LineRec where
  target : Nat
  ofs : Nat
  file : String
  line : Nat
  deriving DecidableEq, Repr

/-- A kernel record. -/
structure KernelRec where
  name : Nat
  entry : Nat
  unifSize : Nat
  nargs : Nat
  kflags : Nat
  budget : Word
  bankRole : Nat
  chanMask : Nat
  ntap : Nat
  digest : List Byte
  chanCfg : Nat
  deriving DecidableEq, Repr

/-- An object (kind 1) or an image (kind 2). Section i of the file, from 1, is `sections[i - 1]`. -/
structure Sothes where
  kind : Nat
  sections : List Section
  symbols : List Symbol
  relocs : List Reloc
  lines : List LineRec
  kernels : List KernelRec
  deriving DecidableEq, Repr

/-- A section by its number. -/
def Sothes.sect? (o : Sothes) (i : Nat) : Option Section := if i = 0 then none else o.sections[i - 1]?

/-! ## Bytes -/

/-- The low `n` bytes of a number, the lowest first (00 R6). -/
def leBytes : Nat → Nat → List Byte
  | 0, _ => []
  | n + 1, v => BitVec.ofNat 8 v :: leBytes n (v / 256)

/-- The number of bytes, the lowest first. -/
def leNum : List Byte → Nat
  | [] => 0
  | b :: r => b.toNat + 256 * leNum r

/-- Zero bytes. -/
def zeros (n : Nat) : List Byte := List.replicate n 0

/-- A string and its end. -/
def strBytes (s : String) : List Byte := s.toList.map (fun c => BitVec.ofNat 8 c.toNat) ++ [0]

/-- The string table: an empty string at 0, then each string once. -/
def strTable (ss : List String) : List (String × Nat) × List Byte :=
  ss.foldl (fun (t, bs) s => if t.any (fun p => p.1 == s) then (t, bs) else (t ++ [(s, bs.length)], bs ++ strBytes s))
    ([("", 0)], [0])

/-- The offset of a string. -/
def strOfs (t : List (String × Nat)) (s : String) : Nat := ((t.find? (fun p => p.1 == s)).map Prod.snd).getD 0

/-- A header of 48 bytes (Table 30). -/
def secHeader (name type flags addr ofs size link align ent bank : Nat) : List Byte :=
  leBytes 4 name ++ leBytes 2 type ++ leBytes 2 flags ++ leBytes 8 addr ++ leBytes 8 ofs ++ leBytes 8 size ++
    leBytes 4 link ++ leBytes 4 align ++ leBytes 4 ent ++ leBytes 4 bank

/-- A symbol record (Table 31). -/
def Symbol.bytes (t : List (String × Nat)) (s : Symbol) : List Byte :=
  leBytes 4 (strOfs t s.name) ++ leBytes 4 s.sect ++ leBytes 8 s.value.toNat ++ leBytes 8 s.size.toNat ++
    leBytes 1 s.bind ++ leBytes 1 s.kind ++ zeros 6

/-- A relocation record (Table 31). -/
def Reloc.bytes (r : Reloc) : List Byte :=
  leBytes 8 r.ofs ++ leBytes 4 r.sym ++ leBytes 2 r.type ++ leBytes 2 r.perm ++ leBytes 8 r.addend.toNat

/-- A line record (Table 31). -/
def LineRec.bytes (t : List (String × Nat)) (l : LineRec) : List Byte :=
  leBytes 8 l.ofs ++ leBytes 4 (strOfs t l.file) ++ leBytes 4 l.line

/-- A kernel record (Table 31). -/
def KernelRec.bytes (k : KernelRec) : List Byte :=
  leBytes 4 k.name ++ leBytes 4 k.entry ++ leBytes 4 k.unifSize ++ leBytes 2 k.nargs ++ leBytes 2 k.kflags ++
    leBytes 8 k.budget.toNat ++ leBytes 2 k.bankRole ++ leBytes 2 k.chanMask ++ leBytes 4 k.ntap ++ k.digest ++
    leBytes 8 k.chanCfg ++ zeros 56

/-- A table section as the writer lays it: name, type, LINK, ENTSIZE and bytes. -/
structure Table where
  name : String
  type : Nat
  link : Nat
  ent : Nat
  data : List Byte
  deriving DecidableEq, Repr

/-- The table sections of a file but STRINGS, which follows them as section `strsec`. -/
def Sothes.tables (o : Sothes) (t : List (String × Nat)) (strsec : Nat) : List Table :=
  (if o.kernels.isEmpty then [] else [⟨".kdesc", tyKdesc, 0, 128, o.kernels.flatMap KernelRec.bytes⟩]) ++
  [⟨".symtab", tySymtab, strsec, 32, o.symbols.flatMap (Symbol.bytes t)⟩] ++
  ((List.range (o.sections.length + 1)).filterMap (fun i =>
    let rs := o.relocs.filter (fun r => r.target == i)
    if rs.isEmpty then none else some ⟨".reloc", tyReloc, i, 24, rs.flatMap Reloc.bytes⟩)) ++
  ((List.range (o.sections.length + 1)).filterMap (fun i =>
    let ls := o.lines.filter (fun l => l.target == i)
    if ls.isEmpty then none else some ⟨".lines", tyLines, i, 16, ls.flatMap (LineRec.bytes t)⟩))

/-- The file of an object or image (R68 to R70): the header, the contents of the sections and the section table. -/
def Sothes.file (o : Sothes) : List Byte :=
  let names := o.sections.map Section.name ++ [".kdesc", ".symtab", ".reloc", ".lines", ".strings"] ++
    o.symbols.map Symbol.name ++ o.lines.map LineRec.file
  let (t, strs) := strTable names
  let strsec := o.sections.length + 1 + (o.tables t 0).length
  let ts := o.tables t strsec ++ [⟨".strings", tyStrings, 0, 0, strs⟩]
  let scan := o.sections.all (fun s => s.type != tyCode || s.flags / flScan % 2 == 1)
  let start := 64
  let body := o.sections.map Section.data ++ ts.map Table.data
  let heads := (o.sections.foldl (fun (p, hs) s =>
      (p + s.data.length,
        hs ++ [secHeader (strOfs t s.name) s.type s.flags s.addr (if s.type = tyZero then 0 else p) s.size 0 s.align 0 s.bank]))
    (start, [])).2
  let tstart := start + (o.sections.map (fun s => s.data.length)).sum
  let theads := (ts.foldl (fun (p, hs) s =>
      (p + s.data.length, hs ++ [secHeader (strOfs t s.name) s.type 0 0 p s.data.length s.link 0 s.ent 0]))
    (tstart, [])).2
  leBytes 4 0x48544F53 ++ leBytes 2 1 ++ leBytes 2 o.kind ++ leBytes 8 (start + body.flatten.length) ++
    leBytes 4 (o.sections.length + ts.length + 1) ++ leBytes 4 strsec ++ leBytes 4 (if scan then 1 else 0) ++ zeros 36 ++
    body.flatten ++ zeros 48 ++ heads.flatten ++ theads.flatten

/-! ## Reading a file -/

/-- A number of `n` bytes at an offset; none past the end. -/
def numAt (bs : List Byte) (ofs n : Nat) : Option Nat :=
  if ofs + n ≤ bs.length then some (leNum ((bs.drop ofs).take n)) else none

/-- Bytes at an offset; none past the end. -/
def bytesAt (bs : List Byte) (ofs n : Nat) : Option (List Byte) :=
  if ofs + n ≤ bs.length then some ((bs.drop ofs).take n) else none

/-- A string at an offset of a string table. -/
def strAt (strs : List Byte) (ofs : Nat) : String :=
  String.ofList (((strs.drop ofs).takeWhile (fun b => b != 0)).map (fun b => Char.ofNat b.toNat))

/-- A section header with its contents. -/
structure RawSec where
  name : Nat
  type : Nat
  flags : Nat
  addr : Nat
  size : Nat
  link : Nat
  align : Nat
  ent : Nat
  bank : Nat
  data : List Byte
  deriving DecidableEq, Repr

/-- The header at an offset; refused where the type is none of Table 30, a flag is reserved, an object gives an address, a
ZERO section a file offset, or the contents lie past the end. -/
def rawSec (bs : List Byte) (kind p : Nat) : Option RawSec := do
  let name ← numAt bs p 4
  let type ← numAt bs (p + 4) 2
  let flags ← numAt bs (p + 6) 2
  let addr ← numAt bs (p + 8) 8
  let ofs ← numAt bs (p + 16) 8
  let size ← numAt bs (p + 24) 8
  let link ← numAt bs (p + 32) 4
  let align ← numAt bs (p + 36) 4
  let ent ← numAt bs (p + 40) 4
  let bank ← numAt bs (p + 44) 4
  let data ← if type = tyZero then (if ofs = 0 then some [] else none) else bytesAt bs ofs size
  if 1 ≤ type ∧ type ≤ 10 ∧ flags < 32 ∧ (kind = 1 → addr = 0) ∧ (type = tyCode → align = 16) ∧ (if type = tyLs then 2 ≤ bank ∧ bank ≤ 7 else bank = 0) then
    some ⟨name, type, flags, addr, size, link, align, ent, bank, data⟩
  else none

/-- Records of `n` bytes. -/
def records (n : Nat) : Nat → List Byte → List (List Byte)
  | 0, _ => []
  | k + 1, bs => if bs.isEmpty then [] else bs.take n :: records n k (bs.drop n)

/-- A field of a record. -/
def field (bs : List Byte) (ofs n : Nat) : Nat := leNum ((bs.drop ofs).take n)

/-- The records of a table section; refused where ENTSIZE or the size is wrong. -/
def RawSec.records (s : RawSec) (n : Nat) : Option (List (List Byte)) :=
  if s.ent = n ∧ s.size % n = 0 then some (Asm.records n (s.size / n) s.data) else none

/-- The number that section `i` of a file has among the CODE to LSDATA sections; KDESC stands after the last of them. None
for another table section. -/
def sectNumber (secs : List RawSec) (i : Nat) : Option Nat :=
  if i = 0 ∨ i = sectConst then some i
  else
    match secs[i - 1]? with
    | some s =>
      if s.type ≤ tyLs then some ((secs.take i).filter (fun x => decide (x.type ≤ tyLs))).length
      else if s.type = tyKdesc then some ((secs.filter (fun x => decide (x.type ≤ tyLs))).length + 1)
      else none
    | none => none

/-- The records of the table sections of a type, each with the section that LINK names. -/
def tableRecords (secs : List RawSec) (type n : Nat) (linked : Bool) : Option (List (Nat × List Byte)) :=
  let one : RawSec → Option (List (Nat × List Byte)) := fun s =>
    match s.records n, (if linked then sectNumber secs s.link else some 0) with
    | some rs, some l => some (rs.map (fun r => (l, r)))
    | _, _ => none
  ((secs.filter (fun s => s.type == type)).mapM one).map List.flatten

/-- Reads a Sothes file (R68 to R70), whose sections may stand in any order. None refuses it. -/
def readSothes (bs : List Byte) : Option Sothes := do
  let magic ← numAt bs 0 4
  let version ← numAt bs 4 2
  let kind ← numAt bs 6 2
  let shoff ← numAt bs 8 8
  let shnum ← numAt bs 16 4
  let strsec ← numAt bs 20 4
  let flags ← numAt bs 24 4
  let rest ← numAt bs 28 36
  let null ← numAt bs shoff 48
  if magic ≠ 0x48544F53 ∨ version ≠ 1 ∨ (kind ≠ 1 ∧ kind ≠ 2) ∨ 1 < flags ∨ rest ≠ 0 ∨ shnum = 0 ∨ null ≠ 0 ∨ strsec = 0
    ∨ bs.length < shnum then none
  else
    let secs ← (List.range (shnum - 1)).mapM (fun i => rawSec bs kind (shoff + 48 * (i + 1)))
    let strs ← (secs[strsec - 1]?).bind (fun s => if s.type = tyStrings then some s.data else none)
    let syms ← tableRecords secs tySymtab 32 false
    let rels ← tableRecords secs tyReloc 24 true
    let lins ← tableRecords secs tyLines 16 true
    let kers ← tableRecords secs tyKdesc 128 false
    let symbols ← syms.mapM (fun p => (sectNumber secs (field p.2 4 4)).map (fun n =>
      (⟨strAt strs (field p.2 0 4), n, BitVec.ofNat 64 (field p.2 8 8), BitVec.ofNat 64 (field p.2 16 8), field p.2 24 1,
        field p.2 25 1⟩ : Symbol)))
    some {
      kind := kind
      sections := (secs.filter (fun s => decide (s.type ≤ tyLs))).map (fun s =>
        ⟨strAt strs s.name, s.type, s.flags, s.addr, s.align, s.bank, s.size, s.data⟩)
      symbols := symbols
      relocs := rels.map (fun p => ⟨p.1, field p.2 0 8, field p.2 8 4, field p.2 12 2, field p.2 14 2,
        BitVec.ofNat 64 (field p.2 16 8)⟩)
      lines := lins.map (fun p => ⟨p.1, field p.2 0 8, strAt strs (field p.2 8 4), field p.2 12 4⟩)
      kernels := kers.map (fun p => ⟨field p.2 0 4, field p.2 4 4, field p.2 8 4, field p.2 12 2, field p.2 14 2,
        BitVec.ofNat 64 (field p.2 16 8), field p.2 24 2, field p.2 26 2, field p.2 28 4, (p.2.drop 32).take 32,
        field p.2 64 8⟩) }

end Sys2Proof.Asm
end

