-- ==== Sys2Proof/Machine/AsmSource.lean ====
section
/-! DEFINITION. The assembler: statements and directives of a source (03 R54, R55, R61 to R66). -/

namespace Sys2Proof.Asm

open Sys2Proof.Machine

/-! ## What a source has given so far -/

/-- What stands in a CODE section, in order: labels, an instruction with its source position and the labels between its
explicit prefixes, a raw word, and `.align`. -/
inductive Item where
  | label (s : String)
  | instr (e : Enc) (inner : List (String × Nat)) (file : String) (line : Nat)
  | raw (w : HWord)
  | align (n : Nat)
  deriving DecidableEq, Repr

/-- A place in data that a symbol fills: its offset, the bytes there, and the value. -/
structure DataFix where
  ofs : Nat
  bytes : Nat
  val : Val
  perm : Nat
  type : Nat
  deriving DecidableEq, Repr

/-- A section of the source: `items` for CODE, the last first; else its size, bytes, labels and places to fill. -/
structure Sect where
  name : String
  type : Nat
  flags : Nat
  bank : Nat
  align : Nat
  items : List Item
  size : Nat
  data : List Byte
  labels : List (String × Nat)
  fixes : List DataFix
  deriving DecidableEq, Repr

/-- A kernel of the source. `depth` is the nesting of the file that opened it. -/
structure Kern where
  name : String
  args : Nat
  uniform : Nat
  used : Nat
  banks : List (Nat × Nat)
  fields : List (String × Nat × Nat)
  chans : List (String × Nat × Nat)
  taps : List String
  budget : Option Word
  static : Bool
  depth : Nat
  deriving DecidableEq, Repr

/-- A line of source, or the end of what a macro, a `.rept` or an `.include` put in. -/
inductive Src where
  | line (file : String) (n : Nat) (cs : List Char)
  | popMacro
  | popFile
  deriving DecidableEq, Repr

/-- A macro: its parameters and body. -/
structure Macro where
  name : String
  params : List String
  body : List Src
  deriving DecidableEq, Repr

/-- The assembler between two statements. -/
structure Source where
  sects : List Sect
  cur : Nat
  sets : List (String × Val)
  globals : List String
  externs : List String
  kern : Option Kern
  kerns : List Kern
  static : Bool
  file : Option String
  line : Option Nat
  prefixes : List HWord
  inner : List (String × Nat)
  macros : List Macro
  macroDepth : Nat
  fileDepth : Nat
  deriving DecidableEq, Repr

/-- The flags that a type of section begins with: X for CODE, W for DATA, ZERO and LSDATA. -/
def typeFlags (ty : Nat) : Nat := if ty = tyCode then flX else if ty = tyRo then 0 else flW

/-- An empty section; CODE ALIGN is 16 (R69). -/
def Sect.new (name : String) (ty flags bank : Nat) : Sect :=
  ⟨name, ty, flags, bank, if ty = tyCode then 16 else 0, [], 0, [], [], []⟩

/-- The start of a source: in `.text`. -/
def Source.new : Source :=
  ⟨[Sect.new ".text" tyCode flX 0], 0, [], [], [], none, [], false, none, none, [], [], [], 0, 0⟩

/-- The current section. -/
def Source.sect (a : Source) : Sect := a.sects.getD a.cur (Sect.new ".text" tyCode flX 0)

/-- The current section changed. -/
def Source.setSect (a : Source) (s : Sect) : Source := { a with sects := a.sects.set a.cur s }

/-- Switches to a section, which is created where it does not exist; none where it exists with another type. Flags
written for a section that exists are not looked at. DESIGN CHOICE (log 59). -/
def Source.switch (a : Source) (name : String) (ty flags bank : Nat) : Option Source :=
  let i := a.sects.findIdx (fun s => s.name == name)
  match a.sects[i]? with
  | some s => if s.type = ty ∧ s.bank = bank then some { a with cur := i } else none
  | none => some { a with sects := a.sects ++ [Sect.new name ty flags bank], cur := a.sects.length }

/-- What a name stands for in an expression: a name of the open kernel, a `.set` name, else a symbol (R56, R65). -/
def Source.look (a : Source) (s : String) : Val :=
  match a.kern.bind (fun k => ((k.fields.map (fun x => (x.1, x.2.1))) ++ (k.chans.map (fun x => (x.1, x.2.1)))).find?
      (fun p => p.1 == s)) with
  | some p => .const (BitVec.ofNat 64 p.2)
  | none => ((a.sets.find? (fun p => p.1 == s)).map Prod.snd).getD (.rel none s 0)

/-- A label (R55): between explicit prefixes it names a later word of their instruction. -/
def Source.label (a : Source) (s : String) : Source :=
  if a.prefixes ≠ [] then { a with inner := a.inner ++ [(s, a.prefixes.length)] }
  else
    let c := a.sect
    a.setSect (if c.type = tyCode then { c with items := .label s :: c.items } else { c with labels := c.labels ++ [(s, c.size)] })

/-- An instruction statement in a CODE section. -/
def Source.instr (a : Source) (file : String) (line : Nat) (mn : String) (ops : List (List Tok)) : Option Source :=
  let c := a.sect
  if c.type ≠ tyCode then none
  else
    match instruction a.look a.static a.prefixes mn ops with
    | some e =>
      let it := Item.instr e a.inner (a.file.getD file) (a.line.getD line)
      some { a.setSect { c with items := it :: c.items } with
        prefixes := [], inner := [], kern := a.kern.map (fun k => { k with static := k.static || e.op.t }) }
    | none => none

/-- An explicit prefix (R62). -/
def Source.explicit (a : Source) (op : Nat) (ops : List (List Tok)) : Option Source :=
  match ops with
  | [e] =>
    match constOf a.look e with
    | some w =>
      if w.toNat < 512 ∧ a.sect.type = tyCode then
        some { a with prefixes := a.prefixes ++ [mkWord false false op (BitVec.ofNat 9 w.toNat)] }
      else none
    | none => none
  | _ => none

/-- The OP of the explicit prefixes. -/
def explicitOp : String → Option Nat
  | "pimm" => some 28
  | "preg" => some 29
  | "ppag" => some 30
  | "pvec" => some 31
  | _ => none

/-! ## Data -/

/-- Bytes added to the current section; a ZERO section takes zeros only. -/
def Source.emit (a : Source) (bs : List Byte) : Option Source :=
  let c := a.sect
  if c.type = tyCode then none
  else if c.type = tyZero then
    if bs.all (fun b => b == 0) then some (a.setSect { c with size := c.size + bs.length }) else none
  else some (a.setSect { c with size := c.size + bs.length, data := c.data ++ bs })

/-- Bytes that a symbol fills. -/
def Source.emitFix (a : Source) (n : Nat) (v : Val) (perm type : Nat) : Option Source :=
  let c := a.sect
  if c.type = tyZero then none
  else (a.emit (zeros n)).map (fun b =>
    b.setSect { b.sect with fixes := b.sect.fixes ++ [⟨c.size, n, v, perm, type⟩] })

/-- Whether a constant fits `n` bytes, signed or unsigned. -/
def fitsBytes (n : Nat) (w : Word) : Bool :=
  decide (w.toNat < 2 ^ (8 * n)) || (decide (-(2 ^ (8 * n - 1)) ≤ w.toInt) && decide (w.toInt < 0))

/-- The relocation type of a symbol in data (Table 27): 8 bytes, 4 bytes, or 2 bytes with `tap`. -/
def dataReloc (n : Nat) (f : Option RelFn) : Option Nat :=
  match n, f with
  | 8, none => some 0x01
  | 4, none => some 0x02
  | 2, some .tap => some 0x0C
  | _, _ => none

/-- `.b8` to `.b64`. -/
def Source.ints (a : Source) (n : Nat) : List (List Tok) → Option Source
  | [] => some a
  | e :: r =>
    match valueOf a.look e with
    | some (.const w) =>
      if fitsBytes n w then (a.emit (leBytes n (w.toNat % 2 ^ (8 * n)))).bind (fun b => b.ints n r) else none
    | some (.rel f s w) =>
      (dataReloc n f).bind (fun ty => (a.emitFix n (.rel f s w) 0 ty).bind (fun b => b.ints n r))
    | none => none

/-- The value of a decimal literal: digits times a power of ten, with what lies below its last bit as one bit more. -/
def decimalVal (neg : Bool) (digits : Nat) (pow : Int) : FV :=
  let places := (-pow).toNat
  let k := 128 + 4 * places
  let n := digits * 10 ^ pow.toNat * 2 ^ k
  .fin neg (2 * (n / 10 ^ places) + (if n % 10 ^ places = 0 then 0 else 1)) (-(k + 1 : Nat))

/-- A decimal literal. -/
def decimal : List Tok → Option FV
  | [.num n] => some (decimalVal false n 0)
  | [.dec d p] => some (decimalVal false d p)
  | [.sym "-", .num n] => some (decimalVal true n 0)
  | [.sym "-", .dec d p] => some (decimalVal true d p)
  | _ => none

/-- `.f16` to `.f64` and `.bf16`. -/
def Source.floats (a : Source) (f : FFmt) : List (List Tok) → Option Source
  | [] => some a
  | e :: r =>
    match decimal e with
    | some v => (a.emit (leBytes (f.width / 8) (f.encode .rne v).1)).bind (fun b => b.floats f r)
    | none => none

/-- `.align` (R55, Table 28). ALIGN of a CODE section stays 16 (R69). -/
def Source.align (a : Source) (n : Nat) : Option Source :=
  if n = 0 ∨ n ≠ 2 ^ n.log2 then none
  else
    let c := a.sect
    if c.type = tyCode then some (a.setSect { c with items := .align n :: c.items })
    else (a.setSect { c with align := max c.align n.log2 }).emit (zeros ((n - c.size % n) % n))

/-- The permission letters of a string (04 Table 41): two letters where two stand for one permission. -/
def permsOf : List Char → Option Nat
  | [] => some 0
  | 'L' :: 'C' :: r => (permsOf r).map (pLC ||| ·)
  | 'S' :: 'C' :: r => (permsOf r).map (pSC ||| ·)
  | c :: r =>
    let p := match c with
      | 'L' => pL | 'S' => pS | 'X' => pX | 'A' => pA | 'M' => pM | 'E' => pE | 'F' => pF | 'P' => pP | 'Y' => pY
      | 'K' => pK | _ => 0
    if p = 0 then none else (permsOf r).map (p ||| ·)

/-- `.cap` and `.sentry` (R64, Table 27). -/
def Source.granule (a : Source) (e : List Tok) (perm type : Nat) : Option Source :=
  let c := a.sect
  if c.type = tyZero ∨ c.type = tyLs ∨ c.type = tyCode ∨ c.size % 16 ≠ 0 then none
  else
    match valueOf a.look e with
    | some (.rel none s w) =>
      if type = 0x04 ∧ w ≠ 0 then none
      else
        let b := a.setSect { c with align := max c.align 4, flags := c.flags ||| flTagged }
        b.emitFix 16 (.rel none s w) perm type
    | _ => none

/-! ## Sections, symbols and kernels -/

/-- The names of the section types and flags (Table 30). -/
def typeNamed : String → Option Nat
  | "CODE" => some tyCode
  | "RODATA" => some tyRo
  | "DATA" => some tyData
  | "ZERO" => some tyZero
  | _ => none

/-- The flags of a list of names between `|` marks (Table 30). -/
def flagsNamed : List Tok → Option Nat
  | [] => some 0
  | .sym "|" :: r => flagsNamed r
  | .id s :: r =>
    let f := match s with
      | "X" => flX | "W" => flW | "FROZEN" => flFrozen | "SCAN" => flScan | "TAGGED" => flTagged | _ => 0
    if f = 0 then none else (flagsNamed r).map (f ||| ·)
  | _ => none

/-- Whether flags may stand on a type: FROZEN on RODATA and DATA, SCAN on CODE (Table 28). -/
def flagsOk (ty flags : Nat) : Bool :=
  (flags / flFrozen % 2 == 0 || ty == tyRo || ty == tyData) && (flags / flScan % 2 == 0 || ty == tyCode)

/-- A name operand. -/
def nameOf : List Tok → Option String
  | [.id s] => some s
  | _ => none

/-- Names defined by more operands. -/
def namesOf (ops : List (List Tok)) : Option (List String) := if ops = [] then none else ops.mapM nameOf

/-- A `name=e` operand. -/
def keyed (a : Source) (key : String) : List Tok → Option Nat
  | .id k :: .sym "=" :: e => if k = key then (constOf a.look e).map BitVec.toNat else none
  | _ => none

/-- The roles of `.bank`, by their codes in BANKROLE (Table 31). -/
def roleNamed : String → Option Nat
  | "way" => some 0
  | "pad" => some 1
  | "fifo" => some 2
  | _ => none

/-- A directive of a kernel (R65, Table 28). A second `.bank` or `.channel` of one number, or a second `.budget`, is an
error. DESIGN CHOICE (log 59). -/
def kernelDirective (a : Source) (k : Kern) (name : String) (ops : List (List Tok)) : Option Source :=
  match name, ops with
  | ".uniform", [n, e] =>
    match nameOf n, constOf a.look e with
    | some s, some w =>
      let sz := w.toNat
      let ofs := (k.used + sz - 1) / sz * sz
      if (sz = 1 ∨ sz = 2 ∨ sz = 4 ∨ sz = 8 ∨ sz = 16) ∧ ofs + sz ≤ k.uniform then
        some { a with kern := some { k with used := ofs + sz, fields := k.fields ++ [(s, ofs, sz)] } }
      else none
    | _, _ => none
  | ".bank", [n, r] =>
    match constOf a.look n, (nameOf r).bind roleNamed with
    | some b, some role =>
      if b.toNat < 8 ∧ k.banks.all (fun p => p.1 != b.toNat) then
        some { a with kern := some { k with banks := k.banks ++ [(b.toNat, role)] } }
      else none
    | _, _ => none
  | ".channel", n :: c :: p :: r =>
    match nameOf n, constOf a.look c, keyed a "pri" p with
    | some s, some ch, some q =>
      let drop := r == [[.id "drop"]]
      if ch.toNat < 16 ∧ q < 8 ∧ (drop ∨ r = []) ∧ k.chans.all (fun x => x.2.1 != ch.toNat) then
        some { a with kern := some { k with chans := k.chans ++ [(s, ch.toNat, q + if drop then 8 else 0)] } }
      else none
    | _, _, _ => none
  | ".tap", [n] => (nameOf n).map (fun s => { a with kern := some { k with taps := k.taps ++ [s] } })
  | ".budget", [e] =>
    match constOf a.look e, k.budget with
    | some w, none => some { a with kern := some { k with budget := some w } }
    | _, _ => none
  | ".endk", [] => if k.depth = a.fileDepth then some { a with kern := none, kerns := a.kerns ++ [k] } else none
  | _, _ => none

/-- The formats of the float directives. -/
def floatDirective : String → Option FFmt
  | ".f16" => some .f16
  | ".bf16" => some .bf16
  | ".f32" => some .f32
  | ".f64" => some .f64
  | _ => none

/-- The bytes of the integer directives. -/
def intDirective : String → Option Nat
  | ".b8" => some 1
  | ".b16" => some 2
  | ".b32" => some 4
  | ".b64" => some 8
  | _ => none

/-- The directives that stand inside a kernel. -/
def kernelOnly : List String := [".uniform", ".bank", ".channel", ".tap", ".budget", ".endk"]

/-- A directive but those of `run` (Table 28). None is an assembly error, as a second `.set` of a name is.
DESIGN CHOICE (log 59). -/
def directive (a : Source) (name : String) (ops : List (List Tok)) : Option Source :=
  match intDirective name, floatDirective name with
  | some n, _ => if ops = [] then none else a.ints n ops
  | none, some f => if ops = [] then none else a.floats f ops
  | none, none =>
    if kernelOnly.contains name then a.kern.bind (fun k => kernelDirective a k name ops)
    else
      match name, ops with
      | ".text", [] => a.switch ".text" tyCode flX 0
      | ".ro", [] => a.switch ".ro" tyRo 0 0
      | ".data", [] => a.switch ".data" tyData flW 0
      | ".bss", [] => a.switch ".bss" tyZero flW 0
      | ".lsdata", [e] =>
        match constOf a.look e with
        | some w =>
          if 2 ≤ w.toNat ∧ w.toNat ≤ 7 then a.switch (".lsdata" ++ toString w.toNat) tyLs flW w.toNat else none
        | none => none
      | ".section", n :: t :: r =>
        match nameOf n, (nameOf t).bind typeNamed, r with
        | some s, some ty, [] => a.switch s ty (typeFlags ty) 0
        | some s, some ty, [f] =>
          match flagsNamed f with
          | some fl => if flagsOk ty fl then a.switch s ty (fl ||| typeFlags ty) 0 else none
          | none => none
        | _, _, _ => none
      | ".frozen", [] =>
        let c := a.sect
        if c.type = tyRo ∨ c.type = tyData then some (a.setSect { c with flags := c.flags ||| flFrozen }) else none
      | ".scan", [] =>
        let c := a.sect
        if c.type = tyCode then some (a.setSect { c with flags := c.flags ||| flScan }) else none
      | ".align", [e] => (constOf a.look e).bind (fun w => a.align w.toNat)
      | ".cap", [e, p] =>
        let ps := match p with
          | [.id s] => permsOf s.toList
          | [.str s] => permsOf s.toList
          | _ => none
        ps.bind (fun m => a.granule e m 0x03)
      | ".sentry", [e] => a.granule e 0 0x04
      | ".space", n :: r =>
        match constOf a.look n, (match r with | [] => some 0 | [e] => constOf a.look e | _ => none) with
        | some w, some v =>
          if w.toNat < 2 ^ 32 ∧ fitsBytes 1 v then a.emit (List.replicate w.toNat (v.setWidth 8)) else none
        | _, _ => none
      | ".w16", [e] =>
        match constOf a.look e with
        | some w =>
          if !fitsBytes 2 w then none
          else
            let c := a.sect
            if c.type = tyCode then some (a.setSect { c with items := .raw (w.setWidth 16) :: c.items })
            else a.emit (leBytes 2 (w.toNat % 2 ^ 16))
        | none => none
      | ".set", [n, e] =>
        match nameOf n, valueOf a.look e with
        | some s, some v =>
          if a.sets.any (fun p => p.1 == s) then none else some { a with sets := a.sets ++ [(s, v)] }
        | _, _ => none
      | ".global", _ => (namesOf ops).map (fun ns => { a with globals := a.globals ++ ns })
      | ".extern", _ => (namesOf ops).map (fun ns => { a with externs := a.externs ++ ns })
      | ".kernel", [n, x, u] =>
        match nameOf n, keyed a "args" x, keyed a "uniform" u, a.kern with
        | some s, some nargs, some unif, none =>
          if nargs ≤ 4 ∧ unif ≤ 4096 ∧ unif % 16 = 0 then
            some { a with kern := some ⟨s, nargs, unif, 0, [], [], [], [], none, false, a.fileDepth⟩ }
          else none
        | _, _, _, _ => none
      | ".static", [] => some { a with static := true }
      | ".varying", [] => some { a with static := false }
      | ".file", [[.str s]] => some { a with file := some s }
      | ".line", [e] => (constOf a.look e).map (fun w => { a with line := some w.toNat })
      | _, _ => none

/-! ## Lines, macros, repetition and conditions -/

/-- The labels of a line and what follows them. -/
def stmtOf : Nat → List Char → List String × List Char
  | 0, cs => ([], cs)
  | n + 1, cs =>
    let cs := cs.dropWhile Char.isWhitespace
    let (s, r) := cs.span identChar
    match s, r.dropWhile Char.isWhitespace with
    | c :: _, ':' :: r' =>
      if c.isDigit then ([], cs) else let (ls, x) := stmtOf n r'; (String.ofList s :: ls, x)
    | _, _ => ([], cs)

/-- The first word of a statement and what follows it. -/
def headOf (cs : List Char) : String × List Char := let (s, r) := cs.span identChar; (String.ofList s, r)

/-- The first word of a line's statement, after its labels (R54). -/
def keyword (cs : List Char) : String := (headOf (stmtOf cs.length cs).2).1

/-- A line's labels alone. -/
def labelPart (cs : List Char) : List Char := cs.take (cs.length - (stmtOf cs.length cs).2.length)

/-- A line up to its comment; `q` holds inside a quoted string. -/
def noComment (q : Bool) : List Char → List Char
  | [] => []
  | '"' :: r => '"' :: noComment (!q) r
  | ';' :: r => if q then ';' :: noComment q r else []
  | '/' :: '/' :: r => if q then '/' :: '/' :: noComment q r else []
  | c :: r => c :: noComment q r

/-- Characters without the blanks at their ends. -/
def trim (cs : List Char) : List Char :=
  ((cs.dropWhile Char.isWhitespace).reverse.dropWhile Char.isWhitespace).reverse

/-- The arguments of a macro as they are written, between commas outside parentheses, brackets and strings. -/
def splitArgs (q : Bool) (d : Nat) (cur : List Char) : List Char → List (List Char)
  | [] => [trim cur.reverse]
  | c :: r =>
    if c = '"' then splitArgs (!q) d (c :: cur) r
    else if q then splitArgs q d (c :: cur) r
    else if c = ',' ∧ d = 0 then trim cur.reverse :: splitArgs q d [] r
    else splitArgs q (if c = '(' ∨ c = '[' then d + 1 else if c = ')' ∨ c = ']' then d - 1 else d) (c :: cur) r

/-- The arguments after a macro's name. -/
def macroArgs (cs : List Char) : List (List Char) :=
  let t := trim (noComment false cs)
  if t.isEmpty then [] else splitArgs false 0 [] t

/-- Text with `%p` as the argument of parameter p: the whole identifier that follows the mark, or its part before the
first dot, is the parameter. -/
def subst (env : List (String × List Char)) : Nat → List Char → List Char
  | 0, cs => cs
  | _ + 1, [] => []
  | n + 1, '%' :: r =>
    let (s, rest) := r.span identChar
    let (s', rest') := r.span (fun c => identChar c && c != '.')
    match env.find? (fun p => p.1 == String.ofList s), env.find? (fun p => p.1 == String.ofList s') with
    | some p, _ => p.2 ++ subst env n rest
    | none, some p => p.2 ++ subst env n rest'
    | none, none => '%' :: subst env n r
  | n + 1, c :: r => c :: subst env n r

/-- A line of a macro's body with its arguments in it. -/
def Src.subst (env : List (String × List Char)) : Src → Src
  | .line f n cs => .line f n (Asm.subst env cs.length cs)
  | x => x

/-- The lines up to the closing directive of a depth, and those after it, with the labels of the closing line before
them; none where it is missing. -/
def gather (op cl : String) : Nat → List Src → Option (List Src × List Src)
  | d, .line f n cs :: r =>
    let k := keyword cs
    if k = cl then
      if d = 0 then some ([], .line f n (labelPart cs) :: r)
      else (gather op cl (d - 1) r).map (fun p => (.line f n cs :: p.1, p.2))
    else (gather op cl (if k = op then d + 1 else d) r).map (fun p => (.line f n cs :: p.1, p.2))
  | _, _ => none

/-- The lines before and after the `.else` of a condition's body; its own labels stand in both. -/
def splitElse : Nat → List Src → List Src × List Src
  | _, [] => ([], [])
  | d, x :: r =>
    let cs := match x with | .line _ _ cs => cs | _ => []
    let k := keyword cs
    if k = ".else" ∧ d = 0 then
      let l := match x with | .line f n cs => [Src.line f n (labelPart cs)] | _ => []
      (l, l ++ r)
    else
      let p := splitElse (if k = ".if" then d + 1 else if k = ".endif" then d - 1 else d) r
      (x :: p.1, p.2)

/-- The lines of a file. -/
def linesOf (file : String) (n : Nat) (cur : List Char) : List Char → List Src
  | [] => [.line file n cur.reverse]
  | c :: r => if c = '\n' then .line file n cur.reverse :: linesOf file (n + 1) [] r else linesOf file n (c :: cur) r

/-- Every directive of Table 28. -/
def directives : List String :=
  [".section", ".text", ".ro", ".data", ".bss", ".lsdata", ".frozen", ".scan", ".align", ".b8", ".b16", ".b32", ".b64",
   ".f16", ".bf16", ".f32", ".f64", ".cap", ".sentry", ".space", ".w16", ".set", ".global", ".extern", ".kernel", ".endk",
   ".uniform", ".bank", ".channel", ".tap", ".budget", ".static", ".varying", ".macro", ".endm", ".rept", ".endr", ".if",
   ".else", ".endif", ".include", ".file", ".line"]

/-- Whether a name may be a macro's (R64). -/
def macroNameOk (s : String) : Bool :=
  (mnemonic s).isNone && !directives.contains s && (explicitOp s).isNone && s.toList.head? != some '.' && s != ""

/-- An identifier: a first character that is no digit, and others of R54. -/
def isIdent (cs : List Char) : Bool :=
  cs.all identChar && (match cs with | c :: _ => !c.isDigit | [] => false)

/-- The assembler over lines. `files` holds the files that `.include` may name; `n` bounds the lines that are read, so that a
source repeated without end is an error, as is a macro name that is defined twice. DESIGN CHOICE (log 59). -/
def run (files : List (String × String)) : Nat → Source → List Src → Option Source
  | 0, _, _ => none
  | _ + 1, a, [] => some a
  | n + 1, a, .popMacro :: r => run files n { a with macroDepth := a.macroDepth - 1 } r
  | n + 1, a, .popFile :: r =>
    if a.kern.any (fun k => k.depth = a.fileDepth) then none else run files n { a with fileDepth := a.fileDepth - 1 } r
  | n + 1, a, .line f ln cs :: r =>
    let (ls, st) := stmtOf cs.length cs
    let a := ls.foldl Source.label a
    let (name, rest) := headOf st
    match lex rest with
    | none => none
    | some ts =>
      if name = "" then if ts = [] then run files n a r else none
      else if !isIdent name.toList then none
      else
        match a.macros.find? (fun m => m.name == name), explicitOp name with
        | some m, _ => if a.prefixes ≠ [] then none else
          let args := macroArgs rest
          if args.length = m.params.length ∧ a.macroDepth < 16 then
            run files n { a with macroDepth := a.macroDepth + 1 } (m.body.map (Src.subst (m.params.zip args)) ++ .popMacro :: r)
          else none
        | none, some op =>
          match a.explicit op (operandsOf ts) with
          | some a => run files n a r
          | none => none
        | none, none =>
          match name, ts with
          | ".macro", .id m :: ps => if a.prefixes ≠ [] then none else
            match gather ".macro" ".endm" 0 r, (match ps with | [] => some [] | .sym "," :: q => namesOf (operandsOf q) | _ => none) with
            | some (body, r'), some params =>
              if macroNameOk m ∧ a.macros.all (fun x => x.name != m) then
                run files n { a with macros := a.macros ++ [⟨m, params, body⟩] } r'
              else none
            | _, _ => none
          | ".rept", ts => if a.prefixes ≠ [] then none else
            match gather ".rept" ".endr" 0 r, constOf a.look ts with
            | some (body, r'), some w =>
              if w.toNat ≤ n ∧ a.macroDepth < 16 then
                run files n { a with macroDepth := a.macroDepth + 1 } ((List.replicate w.toNat body).flatten ++ .popMacro :: r')
              else none
            | _, _ => none
          | ".if", ts => if a.prefixes ≠ [] then none else
            match gather ".if" ".endif" 0 r, constOf a.look ts with
            | some (body, r'), some w =>
              let p := splitElse 0 body
              run files n a ((if w ≠ 0 then p.1 else p.2) ++ r')
            | _, _ => none
          | ".include", [.str path] => if a.prefixes ≠ [] then none else
            match files.find? (fun p => p.1 == path) with
            | some p =>
              if a.fileDepth < 8 then
                run files n { a with fileDepth := a.fileDepth + 1 } (linesOf path 1 [] p.2.toList ++ .popFile :: r)
              else none
            | none => none
          | name, ts =>
            match (if name.toList.head? = some '.' then (if a.prefixes = [] then directive a name (operandsOf ts) else none)
                else a.instr f ln name (operandsOf ts)) with
            | some a => run files n a r
            | none => none

end Sys2Proof.Asm
end

