-- ==== Sys2Proof/Machine/Assemble.lean ====
section
/-! DEFINITION. The assembler: layout, relocations and the object of a source (03 R55, R60, R61, R65, R66, R68 to R70). -/

namespace Sys2Proof.Asm

open Sys2Proof.Machine

/-! ## Values and relocation types -/

/-- A value with names that `.set` gave after their use in it. `n` bounds the chain of such names. -/
def resolve (sets : List (String × Val)) : Nat → Val → Option Val
  | 0, _ => none
  | _ + 1, .const w => some (.const w)
  | n + 1, .rel f s w =>
    match (sets.find? (fun p => p.1 == s)).map Prod.snd with
    | none => some (.rel f s w)
    | some (.const c) => if f = none then some (.const (c + w)) else none
    | some (.rel none s' w') => resolve sets n (.rel f s' (w' + w))
    | some (.rel (some g) s' w') => if f = none ∧ w = 0 then resolve sets n (.rel (some g) s' w') else none

/-- The type that a symbol in an instruction selects, and its chain of PIMMs (R66, Table 27). -/
def relocOf (e : Enc) (f : Option RelFn) : Option (Nat × Nat) :=
  if e.explicit ≠ none then none
  else
    match f, e.use with
    | none, .fb => some (0x06, 2)
    | none, .fi => if e.branch then some (0x07, 2) else some (0x05, 3)
    | none, .mem => some (0x08, 2)
    | some .lo, .fi => if e.branch then none else some (0x09, 3)
    | some .hi, .fi => if e.branch then none else some (0x0A, 3)
    | some .ls, .fi => if e.branch then none else some (0x0B, 2)
    | some .ls, .mem => some (0x0B, 2)
    | _, _ => none

/-- The number that a constant immediate is. -/
def Enc.num (e : Enc) (w : Word) : Int := if e.unsigned then (w.toNat : Int) else w.toInt

/-- Whether an instruction is a branch to a label of its own section (R61). -/
def Enc.isLocal (e : Enc) (labels : List String) : Bool :=
  e.branch && (match e.val with | .rel none s _ => labels.contains s | _ => false)

/-- The PIMMs that an instruction begins the layout with (R60, R61). -/
def Enc.start (e : Enc) (labels : List String) : Option Nat :=
  match e.val with
  | .const w => if e.explicit ≠ none then some 0 else e.fewest (e.num w)
  | .rel f _ _ => if e.isLocal labels then some 0 else (relocOf e f).map Prod.snd

/-- The words of an instruction with `n` PIMMs. -/
def Enc.len (e : Enc) (n : Nat) : Nat :=
  match e.explicit with
  | some ps => ps.length + 1
  | none => n + 1 + (if e.op.ppag.isSome then 1 else 0) + (if e.op.preg.isSome then 1 else 0) +
      (if e.op.pvec.isSome then 1 else 0)

/-! ## Layout (R55, R61) -/

/-- 64 KiB. -/
def page64 : Nat := 0x10000

/-- Where an instruction of some bytes begins: on the next 64 KiB boundary where it would cross it. -/
def instrAt (ofs bytes : Nat) : Nat := if page64 < ofs % page64 + bytes then (ofs / page64 + 1) * page64 else ofs

/-- The offsets of items with their widths, and the labels; `pend` are the labels that name the next word. -/
def place (ofs : Nat) (pend : List String) : List (Item × Nat) → List Nat × List (String × Nat)
  | [] => ([], pend.map (fun s => (s, ofs)))
  | (.label s, _) :: r =>
    let (ps, ls) := place ofs (s :: pend) r
    (ofs :: ps, ls)
  | (.instr e inner _ _, n) :: r =>
    let p := instrAt ofs (2 * e.len n)
    let (ps, ls) := place (p + 2 * e.len n) [] r
    (p :: ps, pend.map (fun s => (s, p)) ++ inner.map (fun x => (x.1, p + 2 * x.2)) ++ ls)
  | (.raw _, _) :: r =>
    let (ps, ls) := place (ofs + 2) [] r
    (ofs :: ps, pend.map (fun s => (s, ofs)) ++ ls)
  | (.align k, _) :: r =>
    let q := (k - ofs % k) % k
    let (ps, ls) := place (ofs + q) (if q = 0 then pend else []) r
    (ofs :: ps, (if q = 0 then [] else pend.map (fun s => (s, ofs))) ++ ls)

/-- The word offset from a branch at `p` to its label; none where the byte difference is odd. -/
def branchOfs (labels : List (String × Nat)) (p : Nat) : Val → Option Int
  | .rel none s w =>
    match labels.find? (fun l => l.1 == s) with
    | some l =>
      let d : Int := (l.2 : Int) + w.toInt - (p : Int)
      if d % 2 = 0 then some (d / 2) else none
    | none => none
  | _ => none

/-- The widths after one pass: a branch to a label of the section whose offset does not fit takes one PIMM more. -/
def widen (labels : List (String × Nat)) : List (Item × Nat) → List Nat → Option (List Nat)
  | (it, n) :: r, p :: ps =>
    let n' := match it with
      | .instr e _ _ _ =>
        if e.isLocal (labels.map Prod.fst) then
          match branchOfs labels p e.val with
          | some v => if e.fits n v then some n else if n < 3 ∧ e.explicit = none then some (n + 1) else none
          | none => none
        else some n
      | _ => some n
    match n', widen labels r ps with
    | some n', some ns => some (n' :: ns)
    | _, _ => none
  | _, _ => some []

/-- Layout repeated until no branch changes (R61). -/
def layout : Nat → List (Item × Nat) → Option (List (Item × Nat))
  | 0, _ => none
  | fuel + 1, xs =>
    let (ps, labels) := place 0 [] xs
    match widen labels xs ps with
    | some ns =>
      let ys := (xs.map Prod.fst).zip ns
      if ys = xs then some xs else layout fuel ys
    | none => none

/-! ## The contents of sections -/

/-- The nop word. -/
def nopWord : HWord := 0x3400

/-- The bytes of words. -/
def wordBytes (ws : List HWord) : List Byte := ws.flatMap (fun w => leBytes 2 w.toNat)

/-- A relocation that names its symbol. -/
structure NamedReloc where
  ofs : Nat
  sym : String
  fn : Option RelFn
  type : Nat
  perm : Nat
  addend : Word
  deriving DecidableEq, Repr

/-- The contents of a section, its labels, relocations and lines. -/
structure Content where
  data : List Byte
  size : Nat
  labels : List (String × Nat)
  relocs : List NamedReloc
  lines : List (Nat × String × Nat)
  deriving DecidableEq, Repr

/-- The words of one item at `p`, from the offset `ofs`, and its relocation. -/
def itemWords (labels : List (String × Nat)) (ofs p n : Nat) : Item → Option (List HWord × Option NamedReloc)
  | .label _ => some ([], none)
  | .raw w => some ([w], none)
  | .align k => some (List.replicate ((k - ofs % k) % k / 2) nopWord, none)
  | .instr e _ _ _ =>
    let pad := List.replicate ((p - ofs) / 2) nopWord
    match e.val with
    | .const w => (e.words n (e.num w)).map (fun ws => (pad ++ ws, none))
    | .rel f s w =>
      if e.isLocal (labels.map Prod.fst) then
        (branchOfs labels p e.val).bind (fun v => (e.words n v).map (fun ws => (pad ++ ws, none)))
      else
        match relocOf e f with
        | some (ty, chain) => (e.words chain 0).map (fun ws => (pad ++ ws, some ⟨p, s, f, ty, 0, w⟩))
        | none => none

/-- The contents of CODE items that have their widths and places. -/
def codeContent (labels : List (String × Nat)) (ofs : Nat) : List (Item × Nat) → List Nat → Option Content
  | (it, n) :: r, p :: ps =>
    match itemWords labels ofs p n it with
    | some (ws, rel) =>
      (codeContent labels (ofs + 2 * ws.length) r ps).map (fun c =>
        { c with data := wordBytes ws ++ c.data, size := 2 * ws.length + c.size, relocs := rel.toList ++ c.relocs,
                 lines := (match it with | .instr _ _ f l => [(p, f, l)] | _ => []) ++ c.lines })
    | none => none
  | _, _ => some ⟨[], 0, labels, [], []⟩

/-- An item with names resolved. -/
def Item.resolve (sets : List (String × Val)) : Item → Option Item
  | .instr e i f l => (Asm.resolve sets (sets.length + 1) e.val).map (fun v => .instr { e with val := v } i f l)
  | it => some it

/-- Labels of items. -/
def itemLabels (its : List Item) : List String :=
  its.flatMap (fun it => match it with | .label s => [s] | .instr _ inner _ _ => inner.map Prod.fst | _ => [])

/-- The contents of a CODE section. -/
def codeSect (sets : List (String × Val)) (its : List Item) : Option Content := do
  let its ← its.mapM (Item.resolve sets)
  let names := itemLabels its
  let xs ← its.mapM (fun it => match it with
    | .instr e _ _ _ => (e.start names).map (fun n => (it, n))
    | _ => some (it, 0))
  let ys ← layout (3 * xs.length + 1) xs
  let (ps, labels) := place 0 [] ys
  codeContent labels 0 ys ps

/-- Bytes with others in their place. -/
def patch (bs : List Byte) (ofs : Nat) (new : List Byte) : List Byte := bs.take ofs ++ new ++ bs.drop (ofs + new.length)

/-- The places to fill of a data section: constants at once, and the relocations. -/
def dataFixes (sets : List (String × Val)) : List DataFix → List Byte → Option (List Byte × List NamedReloc)
  | [], bs => some (bs, [])
  | x :: r, bs =>
    match Asm.resolve sets (sets.length + 1) x.val with
    | some (.const w) =>
      if x.type < 3 ∧ fitsBytes x.bytes w then dataFixes sets r (patch bs x.ofs (leBytes x.bytes (w.toNat % 2 ^ (8 * x.bytes))))
      else none
    | some (.rel f s w) =>
      if dataReloc x.bytes f = some x.type ∨ (x.bytes = 16 ∧ f = none) then
        (dataFixes sets r bs).map (fun p => (p.1, ⟨x.ofs, s, f, x.type, x.perm, w⟩ :: p.2))
      else none
    | none => none

/-- The contents of a section. -/
def Sect.content (sets : List (String × Val)) (s : Sect) : Option Content :=
  if s.type = tyCode then codeSect sets s.items.reverse
  else (dataFixes sets s.fixes s.data).map (fun p => ⟨p.1, s.size, s.labels, p.2, []⟩)

/-! ## The object -/

/-- Whether names are all different. -/
def noRepeat : List String → Bool
  | [] => true
  | s :: r => !r.contains s && noRepeat r

/-- The size of a label: to the next label of the section or its end. -/
def labelSize (c : Content) (ofs : Nat) : Nat :=
  c.labels.foldl (fun e l => if ofs < l.2 ∧ l.2 < e then l.2 else e) c.size - ofs

/-- BANKROLE of a kernel: banks without a `.bank` take their reset role (R65, Table 31). -/
def Kern.bankRole (k : Kern) : Nat :=
  (List.range 8).foldl (fun x b =>
    let role := ((k.banks.find? (fun p => p.1 == b)).map Prod.snd).getD (if b < 2 then 0 else 1)
    x + role * 4 ^ b) 0

/-- CHANMASK and CHANCFG of a kernel (Table 31). -/
def Kern.chanMask (k : Kern) : Nat := k.chans.foldl (fun x c => x + 2 ^ c.2.1) 0
def Kern.chanCfg (k : Kern) : Nat := k.chans.foldl (fun x c => x + c.2.2 * 16 ^ c.2.1) 0

/-- The symbols of labels. -/
def labelSymbols (globals : List String) (i : Nat) (s : Sect) (c : Content) : List Symbol :=
  c.labels.map (fun l => ⟨l.1, i, BitVec.ofNat 64 l.2, BitVec.ofNat 64 (labelSize c l.2),
    if globals.contains l.1 then 1 else 0, if s.type = tyCode then 1 else 2⟩)

/-- The symbol of a `.set` name: a constant, or a place some way from a label of the source. -/
def setSymbol (sets : List (String × Val)) (globals : List String) (labels : List Symbol) (p : String × Val) :
    Option (List Symbol) :=
  let bind := if globals.contains p.1 then 1 else 0
  match Asm.resolve sets (sets.length + 1) p.2 with
  | some (.const w) => some [⟨p.1, sectConst, w, 0, bind, 0⟩]
  | some (.rel none s w) =>
    match labels.find? (fun l => l.name == s) with
    | some l => some [⟨p.1, l.sect, l.value + w, if w = 0 then l.size else 0, bind, l.kind⟩]
    | none => if bind = 1 then none else some []
  | some (.rel (some _) _ _) => if bind = 1 then none else some []
  | none => none

/-- The symbols of a kernel's names: its fields, channels and probe selections. -/
def Kern.symbols (k : Kern) : List Symbol :=
  k.fields.map (fun x => ⟨x.1, sectConst, BitVec.ofNat 64 x.2.1, BitVec.ofNat 64 x.2.2, 0, 4⟩) ++
  k.chans.map (fun x => ⟨x.1, sectConst, BitVec.ofNat 64 x.2.1, 0, 0, 5⟩) ++
  (k.taps.zipIdx).map (fun x => ⟨x.1, sectConst, BitVec.ofNat 64 x.2, 0, 0, 6⟩)

/-- The symbol that a relocation names: a probe selection under `tap`, else a place or an external symbol. -/
def symIndex (syms : List Symbol) (f : Option RelFn) (s : String) : Option Nat :=
  let i := syms.findIdx (fun x => x.name == s && (if f = some .tap then x.kind == 6 else decide (x.kind ≤ 2)))
  if i < syms.length then some i else none

/-- A relocation with its symbol's index; a sentry of a symbol of the source names code. -/
def NamedReloc.index (syms : List Symbol) (target : Nat) (r : NamedReloc) : Option Reloc :=
  (symIndex syms r.fn r.sym).bind (fun i =>
    let s := syms[i]?
    if r.type = 0x04 ∧ s.any (fun s => s.sect != 0 && s.kind != 1) then none
    else some ⟨target, r.ofs, i, r.type, r.perm, r.addend⟩)

/-- The kernel record of an object; the entry is the CODE label of the kernel's name (R65). -/
def Kern.record (syms : List Symbol) (k : Kern) : Option KernelRec :=
  let e := syms.findIdx (fun s => s.name == k.name && s.kind == 1 && s.sect != sectConst)
  let n := syms.findIdx (fun s => s.name == k.name && s.kind == 3)
  if e < syms.length then
    some ⟨n, e, k.uniform, k.args, if k.static then 1 else 0, k.budget.getD 0, k.bankRole, k.chanMask, k.taps.length,
      zeros 32, k.chanCfg⟩
  else none

/-- The object of a source that was read to its end. None is an assembly error. -/
def Source.object (a : Source) : Option Sothes := do
  if a.prefixes ≠ [] ∨ a.kern ≠ none then none
  else
    let sects := a.sects.filter (fun s => s.type != tyCode || s.items != [])
    let cs ← sects.mapM (Sect.content a.sets)
    let pairs := sects.zip cs
    let labels := (pairs.zipIdx).flatMap (fun p => labelSymbols a.globals (p.2 + 1) p.1.1 p.1.2)
    let setSyms ← a.sets.mapM (setSymbol a.sets a.globals labels)
    let kdesc := sects.length + 1
    let kernSyms := (a.kerns.zipIdx).map (fun p => ⟨p.1.name, kdesc, BitVec.ofNat 64 (128 * p.2), 128, 0, 3⟩)
    let syms := labels ++ setSyms.flatten ++ kernSyms ++ a.kerns.flatMap Kern.symbols ++
      a.externs.map (fun s => ⟨s, 0, 0, 0, 1, 0⟩)
    let names := labels.map Symbol.name ++ a.sets.map Prod.fst ++ a.externs ++ a.kerns.flatMap Kern.taps
    if !noRepeat names || !noRepeat (a.kerns.map Kern.name) ||
        !a.kerns.all (fun k => noRepeat (k.fields.map Prod.fst ++ k.chans.map Prod.fst)) ||
        !a.globals.all (fun s => (labels ++ setSyms.flatten).any (fun x => x.name == s)) then none
    else
      let relocs ← (pairs.zipIdx).mapM (fun p => p.1.2.relocs.mapM (NamedReloc.index syms (p.2 + 1)))
      let kerns ← a.kerns.mapM (Kern.record syms)
      some ⟨1, pairs.map (fun p => ⟨p.1.name, p.1.type, p.1.flags, 0, p.1.align, p.1.bank, p.2.size, p.2.data⟩), syms,
        relocs.flatten,
        (pairs.zipIdx).flatMap (fun p => p.1.2.lines.map (fun l => ⟨p.2 + 1, l.1, l.2.1, l.2.2⟩)), kerns⟩

/-- Assembles a source: its object, or none for an assembly error. `fuel` bounds the lines that are read, with macros,
repetitions and included files. -/
def assemble (fuel : Nat) (files : List (String × String)) (path text : String) : Option Sothes :=
  (run files fuel Source.new (linesOf path 1 [] text.toList)).bind Source.object

end Sys2Proof.Asm
end

