-- ==== Sys2Proof/Machine/Link.lean ====
section
/-! DEFINITION. The linker, which joins objects into an image, and the loader's values (03 R65 to R70). -/

namespace Sys2Proof.Asm

open Sys2Proof.Machine

/-- Why a link or a load is refused. Both are texts and files in and out, and none of these is a stop of the machine. -/
inductive LinkError where
  /-- An input is no object, or a load's input no image. -/
  | kind
  /-- An LSDATA section of a bank that a kernel of its object gives another role than pad (R65). -/
  | role (bank : Nat)
  /-- LSDATA of more than 16 KiB for a bank (R69). -/
  | bankFull (bank : Nat)
  /-- A global symbol of two objects (R70). -/
  | duplicate (name : String)
  /-- An external symbol that is defined nowhere (R70). -/
  | undefined (name : String)
  /-- A symbol that has no value of the kind that the relocation takes, or a record that names nothing. -/
  | badSymbol (target ofs : Nat)
  /-- A value that does not fit, an odd branch, or a chain of the wrong length (R67). -/
  | doesNotFit (target ofs : Nat)
  /-- A record for the loader outside a data section (R68). -/
  | notData (target ofs : Nat)
  /-- A `.tap` name that the loader has no entry for. -/
  | unbound (name : String)
  deriving DecidableEq, Repr

/-! ## Splitting a value over a chain (R67) -/

/-- The words of an instruction: prefix words up to a base word. `n` bounds them. -/
def instrWords : Nat → List Byte → Option (List HWord)
  | 0, _ => none
  | n + 1, a :: b :: r =>
    let w : HWord := b ++ a
    if isPrefix w then (instrWords n r).map (fun ws => w :: ws) else some [w]
  | _, _ => none

/-- The number of PIMMs among words. -/
def pimmCount (ws : List HWord) : Nat := (ws.filter (fun w => wordOp w == 28)).length

/-- A word with a payload of 9 bits in it. -/
def withPayload (w : HWord) (x : Nat) : HWord := w.extractLsb' 9 7 ++ BitVec.ofNat 9 x

/-- The value in a chain: each PIMM met takes the next 9 bits above the `low` bits, which the base word takes. -/
def splitValue (low v : Nat) : Nat → List HWord → List HWord
  | _, [] => []
  | k, w :: r =>
    if wordOp w = 28 then withPayload w (v / 2 ^ (low + 9 * k) % 512) :: splitValue low v (k + 1) r
    else if isPrefix w then w :: splitValue low v k r
    else withPayload w (w.toNat % 512 / 2 ^ low * 2 ^ low + v % 2 ^ low) :: splitValue low v k r

/-- The bits of the immediate in the base word of a type: FI 5, FB 9, none for a chain (Table 27). -/
def relocLow (type : Nat) (ws : List HWord) : Nat :=
  if type = 0x06 then 9
  else if type = 0x08 then 0
  else if type = 0x0B then
    match decode ws with
    | .ok ((i, _), _) => match i.form? with
      | some f => if f.fmt = .fi then 5 else 0
      | none => 0
    | .error _ => 0
  else 5

/-- The words with a value in them; none where it does not fit (R67). -/
def putValue (type : Nat) (v : Int) (ws : List HWord) : Option (List HWord) :=
  let n := pimmCount ws
  let low := relocLow type ws
  let width := low + 9 * n
  let exact := decide (type = 0x09) || decide (type = 0x0A)
  let fits := if exact then decide (n = 3) else decide (-(2 ^ (width - 1)) ≤ v ∧ v < 2 ^ (width - 1) ∧ 0 < width)
  if fits then some (splitValue low (v % 2 ^ width).toNat 0 ws) else none

/-! ## Placing sections -/

/-- The next multiple of 2^align. -/
def alignUp (a align : Nat) : Nat := (a + 2 ^ align - 1) / 2 ^ align * 2 ^ align

/-- Sections with their addresses: LSDATA in its bank, the others one after another from `a`, CODE at 64 KiB (R69) and
no data in its pages (02 R52). -/
def placeSections (a : Nat) (banks : List Nat) : List Section → List Section
  | [] => []
  | s :: r =>
    if s.type = tyLs then
      let p := alignUp (banks.getD s.bank 0) s.align
      { s with addr := p } :: placeSections a (banks.set s.bank (p + s.size)) r
    else
      let p := alignUp a (if s.type = tyCode then max 16 s.align else s.align)
      { s with addr := p } :: placeSections (if s.type = tyCode then alignUp (p + s.size) 16 else p + s.size) banks r

/-- The first bank whose LSDATA is larger than 16 KiB (R69). -/
def fullBank (ss : List Section) : Option Nat :=
  (List.range 8).find? (fun b => ss.any (fun s => s.type == tyLs && s.bank == b && decide (0x4000 < s.addr + s.size)))

/-- The first LSDATA bank of an object that a kernel of it gives another role (R65). -/
def wrongRole (o : Sothes) : Option Nat :=
  (o.sections.find? (fun s => s.type == tyLs && o.kernels.any (fun k => k.bankRole / 4 ^ s.bank % 4 != 1))).map Section.bank

/-! ## Joining objects -/

/-- Objects joined with their numbers counted on: sections, symbols, relocations, lines and kernels. The kernel symbols of
an object stand in the section after its last, and go to the section after the image's last. -/
def joinFrom (secs syms kers total : Nat) : List Sothes → Sothes
  | [] => ⟨2, [], [], [], [], []⟩
  | o :: r =>
    let x := joinFrom (secs + o.sections.length) (syms + o.symbols.length) (kers + o.kernels.length) total r
    let sym (s : Symbol) : Symbol :=
      if s.kind = 3 then { s with sect := total + 1, value := s.value + BitVec.ofNat 64 (128 * kers) }
      else if s.sect = 0 ∨ s.sect = sectConst then s else { s with sect := s.sect + secs }
    ⟨2, o.sections ++ x.sections, o.symbols.map sym ++ x.symbols,
      o.relocs.map (fun q => { q with target := q.target + secs, sym := q.sym + syms }) ++ x.relocs,
      o.lines.map (fun l => { l with target := l.target + secs }) ++ x.lines,
      o.kernels.map (fun k => { k with name := k.name + syms, entry := k.entry + syms }) ++ x.kernels⟩

/-- The objects joined. -/
def join (os : List Sothes) : Sothes := joinFrom 0 0 0 (os.map (fun o => o.sections.length)).sum os

/-- Whether a symbol is a definition that other objects see. -/
def Symbol.exported (s : Symbol) : Bool := s.bind == 1 && s.sect != 0

/-- The first exported name that two symbols have. -/
def duplicateName : List Symbol → Option String
  | [] => none
  | s :: r => if s.exported && r.any (fun t => t.exported && t.name == s.name) then some s.name else duplicateName r

/-- The definition of symbol `i`: itself, or for an external symbol the exported one of its name. -/
def definition (syms : List Symbol) (i : Nat) : Option Nat :=
  match syms[i]? with
  | some s =>
    if s.sect ≠ 0 then some i
    else
      let j := syms.findIdx (fun t => t.exported && t.name == s.name)
      if j < syms.length then some j else none
  | none => none

/-- The address of a symbol: a constant is its value, and what stands in a bank or the tables has none. -/
def symAddr (o : Sothes) (s : Symbol) : Option Word :=
  if s.sect = sectConst then some s.value
  else match o.sect? s.sect with
    | some x => if x.type = tyLs then none else some (BitVec.ofNat 64 x.addr + s.value)
    | none => none

/-- The offset of an LSDATA symbol in the banks: (bank << 14) + its offset in the bank (Table 27). -/
def symBank (o : Sothes) (s : Symbol) : Option Word :=
  match o.sect? s.sect with
  | some x => if x.type = tyLs then some (BitVec.ofNat 64 (x.bank * 2 ^ 14 + x.addr) + s.value) else none
  | none => none

/-! ## Applying relocations -/

/-- Bytes with others in their place. -/
def patchBytes (bs : List Byte) (ofs : Nat) (new : List Byte) : List Byte :=
  bs.take ofs ++ new ++ bs.drop (ofs + new.length)

/-- The bytes of words. -/
def bytesOfWords (ws : List HWord) : List Byte := ws.flatMap (fun w => leBytes 2 w.toNat)

/-- The value of a relocation of an instruction, where `sa` is S + A and `p` is P (Table 27). -/
def instrValue (type : Nat) (sa p : Word) : Option Int :=
  if type = 0x05 ∨ type = 0x08 ∨ type = 0x0B then some sa.toInt
  else if type = 0x06 ∨ type = 0x07 then
    let d := (sa - p).toInt
    if d % 2 = 0 then some (d / 2) else none
  else if type = 0x09 then some (sa.toNat % 2 ^ 32 : Nat)
  else if type = 0x0A then some (sa.toNat / 2 ^ 32 : Nat)
  else none

/-- The bytes of a section with one relocation of the linker's applied. -/
def applyTo (r : Reloc) (s : Section) (sa : Word) : Except LinkError (List Byte) :=
  let p := BitVec.ofNat 64 (s.addr + r.ofs)
  let bad : Except LinkError (List Byte) := .error (.doesNotFit r.target r.ofs)
  if r.type = 0x01 then .ok (patchBytes s.data r.ofs (leBytes 8 sa.toNat))
  else if r.type = 0x02 then
    let d := (sa - p).toInt
    if -(2 ^ 31) ≤ d ∧ d < 2 ^ 31 then .ok (patchBytes s.data r.ofs (leBytes 4 (d % 2 ^ 32).toNat)) else bad
  else
    match instrValue r.type sa p, instrWords 8 (s.data.drop r.ofs) with
    | some v, some ws =>
      match putValue r.type v ws with
      | some ws' => .ok (patchBytes s.data r.ofs (bytesOfWords ws'))
      | none => bad
    | _, _ => bad

/-- Whether a type is left to the loader (Table 27). -/
def forLoader (type : Nat) : Bool := type == 0x03 || type == 0x04 || type == 0x0C

/-- One relocation: applied, or checked and left to the loader with its symbol's definition. -/
def applyOne (o : Sothes) (r : Reloc) : Except LinkError Sothes :=
  match definition o.symbols r.sym, o.sect? r.target with
  | some i, some s =>
    match o.symbols[i]? with
    | none => .error (.badSymbol r.target r.ofs)
    | some sym =>
      if forLoader r.type then
        if s.type = tyRo ∨ s.type = tyData ∨ s.type = tyLs then .ok { o with relocs := o.relocs ++ [{ r with sym := i }] }
        else .error (.notData r.target r.ofs)
      else
        match (if r.type = 0x0B then symBank o sym else symAddr o sym) with
        | some a =>
          match applyTo r s (a + r.addend) with
          | .ok bs => .ok { o with sections := o.sections.set (r.target - 1) { s with data := bs } }
          | .error e => .error e
        | none => .error (.badSymbol r.target r.ofs)
  | none, some _ => .error (.undefined ((o.symbols[r.sym]?).map Symbol.name |>.getD ""))
  | _, none => .error (.badSymbol r.target r.ofs)

/-- Relocations in order. -/
def applyAll : List Reloc → Sothes → Except LinkError Sothes
  | [], o => .ok o
  | r :: rs, o =>
    match applyOne o r with
    | .ok o' => applyAll rs o'
    | .error e => .error e

/-- The digest of a kernel: SHAKE256 over its CODE section (Table 31). -/
def digestOf (o : Sothes) (k : KernelRec) : KernelRec :=
  match (o.symbols[k.entry]?).bind (fun s => o.sect? s.sect) with
  | some s => { k with digest := shake256 s.data }
  | none => k

/-- Links objects into an image that begins at `base` (R65 to R70). -/
def link (base : Nat) (os : List Sothes) : Except LinkError Sothes :=
  if os.any (fun o => o.kind != 1) then .error .kind
  else
    match os.findSome? wrongRole with
    | some b => .error (.role b)
    | none =>
      let x := join os
      let secs := placeSections base (List.replicate 8 0) x.sections
      match fullBank secs, duplicateName x.symbols,
        x.symbols.zipIdx.find? (fun p => (definition x.symbols p.2).isNone) with
      | some b, _, _ => .error (.bankFull b)
      | none, some s, _ => .error (.duplicate s)
      | none, none, some p => .error (.undefined p.1.name)
      | none, none, none =>
        match applyAll x.relocs { x with sections := secs, relocs := [] } with
        | .ok y => .ok { y with kernels := y.kernels.map (digestOf y) }
        | .error e => .error e

/-! ## Loading -/

/-- What the loader places: bytes of memory, granules of memory, and bytes of the banks (bank, offset, byte). -/
structure Loaded where
  bytes : List (Nat × Byte)
  caps : List (Nat × GReg)
  banks : List (Nat × Nat × Byte)
  deriving DecidableEq, Repr

/-- The bytes of a section at its addresses; a ZERO section's are zeros. -/
def Section.cells (s : Section) : List (Nat × Byte) :=
  let bs := if s.type = tyZero then zeros s.size else s.data
  bs.zipIdx.map (fun p => (s.addr + p.2, p.1))

/-- The capability of a CAP record: address S + A, bounds [S, S + size) and the record's permissions (Table 27). -/
def capOf (o : Sothes) (r : Reloc) (s : Symbol) : Option GReg :=
  (symAddr o s).map (fun a =>
    let c := makeCap r.perm 0 a.toNat s.size.toNat a
    if c.representable (a + r.addend).toNat then c.withAddr (a + r.addend) else (c.withAddr (a + r.addend)).withTag false)

/-- The sentry of a SENTRY record: type 1, permission X and address S; its bounds are those of the code's section. -/
def sentryOf (o : Sothes) (s : Symbol) : Option GReg :=
  match symAddr o s, o.sect? s.sect with
  | some a, some x => if x.type = tyCode then some (makeCap pX 1 x.addr x.size a) else none
  | _, _ => none

/-- One record of an image on what the loader places. `taps` gives the probe-table entries bound to `.tap` names. -/
def loadOne (o : Sothes) (taps : List (String × Nat)) (x : Loaded) (r : Reloc) : Except LinkError Loaded :=
  match o.symbols[r.sym]?, o.sect? r.target with
  | some s, some t =>
    if t.type ≠ tyRo ∧ t.type ≠ tyData ∧ t.type ≠ tyLs then .error (.notData r.target r.ofs)
    else if r.type = 0x0C then
      match taps.find? (fun p => p.1 == s.name) with
      | some p =>
        if p.2 < 2 ^ 16 then
          let cells := (leBytes 2 p.2).zipIdx.map (fun b => (t.addr + r.ofs + b.2, b.1))
          if t.type = tyLs then .ok { x with banks := x.banks ++ cells.map (fun c => (t.bank, c.1, c.2)) }
          else .ok { x with bytes := x.bytes ++ cells }
        else .error (.doesNotFit r.target r.ofs)
      | none => .error (.unbound s.name)
    else
      match (if r.type = 0x03 then capOf o r s else if r.type = 0x04 then sentryOf o s else none) with
      | some c =>
        if (t.addr + r.ofs) % 16 = 0 ∧ t.type ≠ tyLs then .ok { x with caps := x.caps ++ [(t.addr + r.ofs, c)] }
        else .error (.badSymbol r.target r.ofs)
      | none => .error (.badSymbol r.target r.ofs)
  | _, _ => .error (.badSymbol r.target r.ofs)

/-- The records in order. -/
def loadAll (o : Sothes) (taps : List (String × Nat)) : List Reloc → Loaded → Except LinkError Loaded
  | [], x => .ok x
  | r :: rs, x =>
    match loadOne o taps x r with
    | .ok y => loadAll o taps rs y
    | .error e => .error e

/-- What the loader places of an image, in order: a later byte of an address stands over an earlier one (R66, R68). -/
def load (taps : List (String × Nat)) (o : Sothes) : Except LinkError Loaded :=
  if o.kind ≠ 2 then .error .kind
  else
    loadAll o taps o.relocs
      ⟨(o.sections.filter (fun s => s.type != tyLs)).flatMap Section.cells, [],
        (o.sections.filter (fun s => s.type == tyLs)).flatMap (fun s => s.cells.map (fun c => (s.bank, c.1, c.2)))⟩

end Sys2Proof.Asm
end

