-- ==== Sys2Proof/Laws/Link.lean ====
section
/-! SUPPORT. What the linker and the layout do: no word is put in or taken out, and an instruction never crosses 64 KiB. -/

namespace Sys2Proof.Asm

/-- The linker never inserts or removes words (03 R67). -/
theorem splitValue_length (low v k : Nat) (ws : List HWord) : (splitValue low v k ws).length = ws.length := by
  induction ws generalizing k with
  | nil => rfl
  | cons w r ih => simp only [splitValue]; split <;> [skip; split] <;> simp [ih]

/-- A value that is put in leaves the number of words (03 R67). -/
theorem putValue_length {type : Nat} {v : Int} {ws ws' : List HWord} (h : putValue type v ws = some ws') :
    ws'.length = ws.length := by
  unfold putValue at h
  simp only [Option.ite_none_right_eq_some, Option.some.injEq] at h
  rw [← h.2]
  exact splitValue_length ..

/-- A word keeps its OP, M and T when it takes a payload (03 R67). -/
theorem withPayload_high (w : HWord) (x : Nat) : (withPayload w x).extractLsb' 9 7 = w.extractLsb' 9 7 := by
  unfold withPayload
  rw [BitVec.extractLsb'_append_eq_of_le (by omega)]
  simp

/-- Where the layout puts an instruction: not before the offset, and not across a 64 KiB boundary (03 R61). -/
theorem instrAt_fits (ofs bytes : Nat) (h : bytes ≤ page64) :
    ofs ≤ instrAt ofs bytes ∧ instrAt ofs bytes % page64 + bytes ≤ page64 := by
  unfold instrAt
  split
  · have := Nat.div_add_mod ofs page64
    have : ofs % page64 < page64 := Nat.mod_lt _ (by decide)
    refine ⟨?_, by simp [h]⟩
    rw [Nat.add_mul, Nat.mul_comm]
    omega
  · exact ⟨le_rfl, by omega⟩

end Sys2Proof.Asm
end

