-- ==== Sys2Proof/Laws/Mem.lean ====
section
/-! SUPPORT. The laws of memory: its canonical form is kept by every operation on it, and a byte that was written reads
back. -/

namespace Sys2Proof.Machine

/-! ## The canonical form -/

theorem State.canonical_iff (s : State) : s.canonical = true ↔ Memory.wf s.mem = true ∧ Store.wf 0 s.gran = true := by
  simp [State.canonical]

/-- The canonical form is that of memory and its marks alone. -/
theorem State.canonical_congr {s t : State} (hm : t.mem = s.mem) (hg : t.gran = s.gran) : t.canonical = s.canonical := by
  simp [State.canonical, hm, hg]

/-- Reset memory lists nothing, which is canonical. -/
theorem State.canonical_reset : State.reset.canonical = true := rfl

theorem Store.wfFrom_filter {β : Type} [DecidableEq β] (d : β) (p : Nat × β → Bool) (m : Store β) (a : Nat)
    (h : Store.wfFrom d a m = true) : Store.wfFrom d a (m.filter p) = true := by
  induction m generalizing a with
  | nil => rfl
  | cons q m ih =>
    obtain ⟨k, v⟩ := q
    simp only [Store.wfFrom, Bool.and_eq_true, decide_eq_true_eq] at h
    obtain ⟨⟨hk, hv⟩, hm⟩ := h
    rw [List.filter_cons]
    split
    · simp only [Store.wfFrom, Bool.and_eq_true, decide_eq_true_eq]
      exact ⟨⟨hk, hv⟩, ih _ hm⟩
    · exact ih _ (Store.wfFrom_mono d m (by omega) hm)

theorem Store.wf_filter {β : Type} [DecidableEq β] (d : β) (p : Nat × β → Bool) (m : Store β)
    (h : Store.wf d m = true) : Store.wf d (m.filter p) = true := Store.wfFrom_filter d p m 0 h

theorem Store.wf_foldl_set {β : Type} [DecidableEq β] (d : β) (f : Nat → Nat) (xs : Store β) (m : Store β)
    (h : Store.wf d m = true) : Store.wf d (xs.foldl (fun m p => Store.set d m (f p.1) p.2) m) = true := by
  induction xs generalizing m with
  | nil => exact h
  | cons x xs ih => exact ih _ (Store.wf_set d m _ _ h)

theorem Memory.wf_writeMem (m : List Host.Cell) (loc : Nat) (bs : List Byte) (h : Memory.wf m = true) :
    Memory.wf (writeMem m loc bs) = true := by
  induction bs generalizing m loc with
  | nil => exact h
  | cons b bs ih => exact ih _ _ (Store.wf_set unwritten m loc b h)

theorem fixAcc_canonical (s : State) (lo n : Nat) (es : List (Nat × Word)) (h : s.canonical = true) :
    (fixAcc s lo n es).canonical = true := by
  induction es with
  | nil => exact h
  | cons e es ih =>
    unfold fixAcc
    simp only
    have hm := (State.canonical_iff _).1 ih
    split
    · split <;> exact (State.canonical_iff _).2 ⟨Memory.wf_writeMem _ _ _ hm.1, hm.2⟩
    · exact ih

theorem State.canonical_write (s : State) (loc : Nat) (bs : List Byte) (h : s.canonical = true) :
    (s.write loc bs).canonical = true := by
  have hm := (State.canonical_iff _).1 h
  exact fixAcc_canonical _ _ _ _ ((State.canonical_iff _).2 ⟨Memory.wf_writeMem _ _ _ hm.1, hm.2⟩)

theorem State.canonical_setMarks (s : State) (loc : Nat) (f c p : Bool) (h : s.canonical = true) :
    (s.setMarks loc f c p).canonical = true := by
  have hm := (State.canonical_iff _).1 h
  exact (State.canonical_iff _).2 ⟨hm.1, Store.wf_set 0 s.gran _ _ hm.2⟩

theorem State.canonical_setF (s : State) (loc : Nat) (f : Bool) (h : s.canonical = true) :
    (s.setF loc f).canonical = true := s.canonical_setMarks loc _ _ _ h

theorem State.canonical_setC (s : State) (loc : Nat) (c : Bool) (h : s.canonical = true) :
    (s.setC loc c).canonical = true := s.canonical_setMarks loc _ _ _ h

theorem State.canonical_setPoison (s : State) (loc : Nat) (p : Bool) (h : s.canonical = true) :
    (s.setPoison loc p).canonical = true := s.canonical_setMarks loc _ _ _ h

/-- A fold keeps what each of its steps keeps. -/
theorem foldl_keeps {α σ : Type} (P : σ → Prop) (f : σ → α → σ) (xs : List α) (s : σ) (h : P s)
    (hf : ∀ s x, P s → P (f s x)) : P (xs.foldl f s) := by
  induction xs generalizing s with
  | nil => exact h
  | cons x xs ih => exact ih _ (hf s x h)

theorem State.canonical_store (s : State) (loc : Nat) (bs : List Byte) (f : Bool) (h : s.canonical = true) :
    (s.store loc bs f).canonical = true :=
  State.canonical_write _ _ _ (foldl_keeps (fun s => s.canonical = true) _ _ s h
    (fun s _ hs => s.canonical_setMarks _ _ _ _ hs))

theorem State.canonical_storeGranule (s : State) (loc : Nat) (v : GReg) (h : s.canonical = true) :
    (s.storeGranule loc v).canonical = true := State.canonical_write _ _ _ (s.canonical_setMarks _ _ _ _ h)

theorem State.canonical_landBytes (s : State) (loc : Nat) (bs : List Byte) (c p : Bool) (h : s.canonical = true) :
    (s.landBytes loc bs c p).canonical = true :=
  State.canonical_write _ _ _ (foldl_keeps (fun s => s.canonical = true) _ _ s h
    (fun s _ hs => s.canonical_setMarks _ _ _ _ hs))

theorem State.canonical_writeEach (s : State) (xs : List (Nat × Byte)) (h : s.canonical = true) :
    (s.writeEach xs).canonical = true := by
  induction xs generalizing s with
  | nil => exact h
  | cons x xs ih => exact ih _ (s.canonical_write _ _ h)

theorem State.canonical_landGranule (s : State) (g : Nat) (xs : List Landing) (h : s.canonical = true) :
    (s.landGranule g xs).canonical = true := State.canonical_writeEach _ _ (s.canonical_setMarks _ _ _ _ h)

theorem State.canonical_storeGranules (s : State) (loc : Nat) (tags : Bool) (gs : List GReg) (h : s.canonical = true) :
    (s.storeGranules loc tags gs).canonical = true := by
  induction gs generalizing s loc with
  | nil => exact h
  | cons g gs ih => exact ih _ _ (s.canonical_storeGranule _ _ h)

theorem State.canonical_zeroBank (s : State) (core b : Nat) (h : s.canonical = true) :
    (s.zeroBank core b).canonical = true := by
  have hm := (State.canonical_iff _).1 h
  exact (State.canonical_iff _).2 ⟨Store.wf_filter _ _ _ hm.1, Store.wf_filter _ _ _ hm.2⟩

theorem State.canonical_putStore (s : State) (c b : Nat) (x : Store Byte × Store (BitVec 3)) (h : s.canonical = true) :
    (s.putStore c b x).canonical = true := by
  have hm := (State.canonical_iff _).1 h
  exact (State.canonical_iff _).2
    ⟨Store.wf_foldl_set unwritten (fun k => k - lsLoc b 0 + lsLoc c 0) x.1 _ (Store.wf_filter _ _ _ hm.1),
      Store.wf_foldl_set 0 (fun k => k - lsLoc b 0 / 16 + lsLoc c 0 / 16) x.2 _ (Store.wf_filter _ _ _ hm.2)⟩

/-! ## Reads after writes -/

/-- A byte outside those written reads as before. -/
theorem get_writeMem_out (m : List Host.Cell) (loc a : Nat) (bs : List Byte) (h : a < loc ∨ loc + bs.length ≤ a) :
    Store.get unwritten (writeMem m loc bs) a = Store.get unwritten m a := by
  induction bs generalizing m loc with
  | nil => rfl
  | cons b bs ih =>
    simp only [List.length_cons] at h
    rw [writeMem, ih _ _ (by omega), Store.get_set_ne _ _ _ (by omega)]

/-- A byte that was written reads back. -/
theorem get_writeMem_in (m : List Host.Cell) (loc k : Nat) (bs : List Byte) (h : k < bs.length) :
    some (Store.get unwritten (writeMem m loc bs) (loc + k)) = bs[k]? := by
  induction bs generalizing m loc k with
  | nil => simp at h
  | cons b bs ih =>
    rw [writeMem]
    cases k with
    | zero => rw [get_writeMem_out _ _ _ _ (by omega), Nat.add_zero, Store.get_set_self]; rfl
    | succ k =>
      simp only [List.length_cons] at h
      have := ih (Store.set unwritten m loc b) (loc + 1) k (by omega)
      rw [show loc + (k + 1) = loc + 1 + k by omega, this]
      simp

/-- Marks are written to their granule alone. -/
theorem State.marks_setMarks (s : State) (loc a : Nat) (f c p : Bool) :
    (s.setMarks loc f c p).marks a =
      if a / 16 = loc / 16 then BitVec.ofBool p ++ BitVec.ofBool c ++ BitVec.ofBool f else s.marks a := by
  unfold State.marks State.setMarks
  split
  · rename_i h; rw [h]; exact Store.get_set_self _ _ _ _
  · rename_i h; exact Store.get_set_ne _ _ _ h

theorem State.byte_setMarks (s : State) (loc a : Nat) (f c p : Bool) : (s.setMarks loc f c p).byte a = s.byte a := rfl

end Sys2Proof.Machine
end

