-- ==== Sys2Proof/Laws/PerInstr.lean ====
section
/-! SUPPORT. What is shown of each instruction by itself: its page and opcode, with the X bit, the minor code or the bit of k
that its form has, decode to it and to no other. -/

namespace Sys2Proof.Laws.Encoding

/-- The bit of k that the decoder looks at for an operand (02 R41). -/
def kBit (o : Op) : Bool := ({ Chain.start with pimm := o.pimm } : Chain).k0

/-- The decoder's tables give the instruction back from the page, the opcode and the operand bits of its form, whatever
the rest of its operand is. -/
def Statement (i : Instr) : Prop :=
  ∀ (o : Op) (f : Form), i.form? = some f → (i.op?.getD o).selOk f = true → i.kOk (i.op?.getD o) = true →
    f.page < 8 ∧ f.op < 28 ∧ ∃ c, formOf f.page f.op (i.op?.getD o).opnd (kBit (i.op?.getD o)) = some c ∧ c (i.op?.getD o) = i

/-- A step without words has nothing to show. -/
theorem no_word {i : Instr} (h : i.form? = none) : Statement i := by
  intro o f hf
  rw [h] at hf
  exact absurd hf (by simp)

/-- The lowest bit of the operand bits is the X bit of a form that has one. -/
theorem lsb_of_mod {w : BitVec 9} {x : Nat} (h : (w.toNat % 2 == x) = true) : w.getLsbD 0 = (x == 1) := by
  have h' : w.toNat % 2 = x := by simpa using h
  subst h'
  rcases Nat.mod_two_eq_zero_or_one w.toNat with h0 | h0 <;> simp [BitVec.getLsbD, Nat.testBit, Nat.and_comm 1, h0]

/-- An instruction whose form has an X bit. -/
theorem of_x {i : Instr} {f : Form} {x : Nat} (c : Op → Instr) (hf : i.form? = some f) (hx : f.sel = some x) (hz : f.fmt ≠ .fz)
    (hp : f.page < 8) (ho : f.op < 28) (hc : ∀ o, c (i.op?.getD o) = i)
    (h : ∀ w k, w.getLsbD 0 = (x == 1) → formOf f.page f.op w k = some c) : Statement i := by
  intro o f' hf' hs _
  obtain rfl : f = f' := Option.some.inj (hf.symm.trans hf')
  refine ⟨hp, ho, c, h _ _ (lsb_of_mod ?_), hc o⟩
  unfold Op.selOk at hs
  rw [hx] at hs
  split at hs
  · simp_all
  · simp_all
  · simp_all

/-- An instruction whose form has neither an X bit nor a minor code. -/
theorem of_any {i : Instr} {f : Form} (c : Op → Instr) (hf : i.form? = some f) (hp : f.page < 8) (ho : f.op < 28)
    (hc : ∀ o, c (i.op?.getD o) = i) (h : ∀ w k, formOf f.page f.op w k = some c) : Statement i := by
  intro o f' hf' _ _
  obtain rfl : f = f' := Option.some.inj (hf.symm.trans hf')
  exact ⟨hp, ho, c, h _ _, hc o⟩

/-- An instruction named by a minor code. -/
theorem of_minor {i : Instr} {f : Form} {x : Nat} (c : Op → Instr) (hf : i.form? = some f) (hx : f.sel = some x)
    (hz : f.fmt = .fz) (hp : f.page < 8) (ho : f.op < 28) (hc : ∀ o, c (i.op?.getD o) = i)
    (h : ∀ w k, w.toNat = x → formOf f.page f.op w k = some c) : Statement i := by
  intro o f' hf' hs _
  obtain rfl : f = f' := Option.some.inj (hf.symm.trans hf')
  refine ⟨hp, ho, c, h _ _ ?_, hc o⟩
  unfold Op.selOk at hs
  rw [hx, hz] at hs
  simpa using hs

theorem add (o : Op) : Statement (Instr.add o) := 
  of_x .add rfl rfl (by decide) (by decide) (by decide) (fun _ => rfl) (fun w k h => by delta formOf formPage0; rw [h]; rfl)

theorem sub (o : Op) : Statement (Instr.sub o) := 
  of_x .sub rfl rfl (by decide) (by decide) (by decide) (fun _ => rfl) (fun w k h => by delta formOf formPage0; rw [h]; rfl)

theorem and (o : Op) : Statement (Instr.and o) := 
  of_x .and rfl rfl (by decide) (by decide) (by decide) (fun _ => rfl) (fun w k h => by delta formOf formPage0; rw [h]; rfl)

theorem or (o : Op) : Statement (Instr.or o) := 
  of_x .or rfl rfl (by decide) (by decide) (by decide) (fun _ => rfl) (fun w k h => by delta formOf formPage0; rw [h]; rfl)

theorem xor (o : Op) : Statement (Instr.xor o) := 
  of_x .xor rfl rfl (by decide) (by decide) (by decide) (fun _ => rfl) (fun w k h => by delta formOf formPage0; rw [h]; rfl)

theorem andn (o : Op) : Statement (Instr.andn o) := 
  of_x .andn rfl rfl (by decide) (by decide) (by decide) (fun _ => rfl) (fun w k h => by delta formOf formPage0; rw [h]; rfl)

theorem shl (o : Op) : Statement (Instr.shl o) := 
  of_x .shl rfl rfl (by decide) (by decide) (by decide) (fun _ => rfl) (fun w k h => by delta formOf formPage0; rw [h]; rfl)

theorem shr (o : Op) : Statement (Instr.shr o) := 
  of_x .shr rfl rfl (by decide) (by decide) (by decide) (fun _ => rfl) (fun w k h => by delta formOf formPage0; rw [h]; rfl)

theorem sar (o : Op) : Statement (Instr.sar o) := 
  of_x .sar rfl rfl (by decide) (by decide) (by decide) (fun _ => rfl) (fun w k h => by delta formOf formPage0; rw [h]; rfl)

theorem rol (o : Op) : Statement (Instr.rol o) := 
  of_x .rol rfl rfl (by decide) (by decide) (by decide) (fun _ => rfl) (fun w k h => by delta formOf formPage0; rw [h]; rfl)

theorem slt (o : Op) : Statement (Instr.slt o) := 
  of_x .slt rfl rfl (by decide) (by decide) (by decide) (fun _ => rfl) (fun w k h => by delta formOf formPage0; rw [h]; rfl)

theorem sltu (o : Op) : Statement (Instr.sltu o) := 
  of_x .sltu rfl rfl (by decide) (by decide) (by decide) (fun _ => rfl) (fun w k h => by delta formOf formPage0; rw [h]; rfl)

theorem seq (o : Op) : Statement (Instr.seq o) := 
  of_x .seq rfl rfl (by decide) (by decide) (by decide) (fun _ => rfl) (fun w k h => by delta formOf formPage0; rw [h]; rfl)

theorem sne (o : Op) : Statement (Instr.sne o) := 
  of_x .sne rfl rfl (by decide) (by decide) (by decide) (fun _ => rfl) (fun w k h => by delta formOf formPage0; rw [h]; rfl)

theorem mul (o : Op) : Statement (Instr.mul o) := 
  of_x .mul rfl rfl (by decide) (by decide) (by decide) (fun _ => rfl) (fun w k h => by delta formOf formPage0; rw [h]; rfl)

theorem mulh (o : Op) : Statement (Instr.mulh o) := 
  of_x .mulh rfl rfl (by decide) (by decide) (by decide) (fun _ => rfl) (fun w k h => by delta formOf formPage0; rw [h]; rfl)

theorem mov (o : Op) : Statement (Instr.mov o) := 
  of_x .mov rfl rfl (by decide) (by decide) (by decide) (fun _ => rfl) (fun w k h => by delta formOf formPage0; rw [h]; rfl)

theorem neg (o : Op) : Statement (Instr.neg o) := 
  of_x .neg rfl rfl (by decide) (by decide) (by decide) (fun _ => rfl) (fun w k h => by delta formOf formPage0; rw [h]; rfl)

theorem ldi (o : Op) : Statement (Instr.ldi o) := 
  of_any .ldi rfl (by decide) (by decide) (fun _ => rfl) (fun _ _ => rfl)

theorem addi (o : Op) : Statement (Instr.addi o) := 
  of_any .addi rfl (by decide) (by decide) (fun _ => rfl) (fun _ _ => rfl)

theorem bz (o : Op) : Statement (Instr.bz o) := 
  of_any .bz rfl (by decide) (by decide) (fun _ => rfl) (fun _ _ => rfl)

theorem bnz (o : Op) : Statement (Instr.bnz o) := 
  of_any .bnz rfl (by decide) (by decide) (fun _ => rfl) (fun _ _ => rfl)

theorem br (o : Op) : Statement (Instr.br o) := 
  of_any .br rfl (by decide) (by decide) (fun _ => rfl) (fun _ _ => rfl)

theorem call (o : Op) : Statement (Instr.call o) := 
  of_any .call rfl (by decide) (by decide) (fun _ => rfl) (fun _ _ => rfl)

theorem jmp (o : Op) : Statement (Instr.jmp o) := 
  of_x .jmp rfl rfl (by decide) (by decide) (by decide) (fun _ => rfl) (fun w k h => by delta formOf formPage0; rw [h]; rfl)

theorem calli (o : Op) : Statement (Instr.calli o) := 
  of_x .calli rfl rfl (by decide) (by decide) (by decide) (fun _ => rfl) (fun w k h => by delta formOf formPage0; rw [h]; rfl)

theorem ld (o : Op) : Statement (Instr.ld o) := 
  of_x .ld rfl rfl (by decide) (by decide) (by decide) (fun _ => rfl) (fun w k h => by delta formOf formPage0; rw [h]; rfl)

theorem st (o : Op) : Statement (Instr.st o) := 
  of_x .st rfl rfl (by decide) (by decide) (by decide) (fun _ => rfl) (fun w k h => by delta formOf formPage0; rw [h]; rfl)

theorem ldc (o : Op) : Statement (Instr.ldc o) := 
  of_x .ldc rfl rfl (by decide) (by decide) (by decide) (fun _ => rfl) (fun w k h => by delta formOf formPage0; rw [h]; rfl)

theorem stc (o : Op) : Statement (Instr.stc o) := 
  of_x .stc rfl rfl (by decide) (by decide) (by decide) (fun _ => rfl) (fun w k h => by delta formOf formPage0; rw [h]; rfl)

theorem slti (o : Op) : Statement (Instr.slti o) := 
  of_any .slti rfl (by decide) (by decide) (fun _ => rfl) (fun _ _ => rfl)

theorem andi (o : Op) : Statement (Instr.andi o) := 
  of_any .andi rfl (by decide) (by decide) (fun _ => rfl) (fun _ _ => rfl)

theorem ldhi (o : Op) : Statement (Instr.ldhi o) := 
  of_any .ldhi rfl (by decide) (by decide) (fun _ => rfl) (fun _ _ => rfl)

theorem cset (o : Op) : Statement (Instr.cset o) := 
  of_x .cset rfl rfl (by decide) (by decide) (by decide) (fun _ => rfl) (fun w k h => by delta formOf formPage0; rw [h]; rfl)

theorem cinc (o : Op) : Statement (Instr.cinc o) := 
  of_x .cinc rfl rfl (by decide) (by decide) (by decide) (fun _ => rfl) (fun w k h => by delta formOf formPage0; rw [h]; rfl)

theorem cbnd (o : Op) : Statement (Instr.cbnd o) := 
  of_x .cbnd rfl rfl (by decide) (by decide) (by decide) (fun _ => rfl) (fun w k h => by delta formOf formPage0; rw [h]; rfl)

theorem cperm (o : Op) : Statement (Instr.cperm o) := 
  of_x .cperm rfl rfl (by decide) (by decide) (by decide) (fun _ => rfl) (fun w k h => by delta formOf formPage0; rw [h]; rfl)

theorem cget (o : Op) : Statement (Instr.cget o) := 
  of_x .cget rfl rfl (by decide) (by decide) (by decide) (fun _ => rfl) (fun w k h => by delta formOf formPage0; rw [h]; rfl)

theorem ctag (o : Op) : Statement (Instr.ctag o) := 
  of_x .ctag rfl rfl (by decide) (by decide) (by decide) (fun _ => rfl) (fun w k h => by delta formOf formPage0; rw [h]; rfl)

theorem mfc (o : Op) : Statement (Instr.mfc o) := 
  of_any .mfc rfl (by decide) (by decide) (fun _ => rfl) (fun _ _ => rfl)

theorem mtc (o : Op) : Statement (Instr.mtc o) := 
  of_any .mtc rfl (by decide) (by decide) (fun _ => rfl) (fun _ _ => rfl)

theorem svc (o : Op) : Statement (Instr.svc o) := 
  of_any .svc rfl (by decide) (by decide) (fun _ => rfl) (fun _ _ => rfl)

theorem div (o : Op) : Statement (Instr.div o) := 
  of_x .div rfl rfl (by decide) (by decide) (by decide) (fun _ => rfl) (fun w k h => by delta formOf formPage1; rw [h]; rfl)

theorem divu (o : Op) : Statement (Instr.divu o) := 
  of_x .divu rfl rfl (by decide) (by decide) (by decide) (fun _ => rfl) (fun w k h => by delta formOf formPage1; rw [h]; rfl)

theorem rem (o : Op) : Statement (Instr.rem o) := 
  of_x .rem rfl rfl (by decide) (by decide) (by decide) (fun _ => rfl) (fun w k h => by delta formOf formPage1; rw [h]; rfl)

theorem remu (o : Op) : Statement (Instr.remu o) := 
  of_x .remu rfl rfl (by decide) (by decide) (by decide) (fun _ => rfl) (fun w k h => by delta formOf formPage1; rw [h]; rfl)

theorem min (o : Op) : Statement (Instr.min o) := 
  of_x .min rfl rfl (by decide) (by decide) (by decide) (fun _ => rfl) (fun w k h => by delta formOf formPage1; rw [h]; rfl)

theorem max (o : Op) : Statement (Instr.max o) := 
  of_x .max rfl rfl (by decide) (by decide) (by decide) (fun _ => rfl) (fun w k h => by delta formOf formPage1; rw [h]; rfl)

theorem minu (o : Op) : Statement (Instr.minu o) := 
  of_x .minu rfl rfl (by decide) (by decide) (by decide) (fun _ => rfl) (fun w k h => by delta formOf formPage1; rw [h]; rfl)

theorem maxu (o : Op) : Statement (Instr.maxu o) := 
  of_x .maxu rfl rfl (by decide) (by decide) (by decide) (fun _ => rfl) (fun w k h => by delta formOf formPage1; rw [h]; rfl)

theorem clz (o : Op) : Statement (Instr.clz o) := 
  of_x .clz rfl rfl (by decide) (by decide) (by decide) (fun _ => rfl) (fun w k h => by delta formOf formPage1; rw [h]; rfl)

theorem ctz (o : Op) : Statement (Instr.ctz o) := 
  of_x .ctz rfl rfl (by decide) (by decide) (by decide) (fun _ => rfl) (fun w k h => by delta formOf formPage1; rw [h]; rfl)

theorem popc (o : Op) : Statement (Instr.popc o) := 
  of_x .popc rfl rfl (by decide) (by decide) (by decide) (fun _ => rfl) (fun w k h => by delta formOf formPage1; rw [h]; rfl)

theorem rev (o : Op) : Statement (Instr.rev o) := 
  of_x .rev rfl rfl (by decide) (by decide) (by decide) (fun _ => rfl) (fun w k h => by delta formOf formPage1; rw [h]; rfl)

theorem sx (o : Op) : Statement (Instr.sx o) := 
  of_x .sx rfl rfl (by decide) (by decide) (by decide) (fun _ => rfl) (fun w k h => by delta formOf formPage1; rw [h]; rfl)

theorem zx (o : Op) : Statement (Instr.zx o) := 
  of_x .zx rfl rfl (by decide) (by decide) (by decide) (fun _ => rfl) (fun w k h => by delta formOf formPage1; rw [h]; rfl)

theorem bfx (o : Op) : Statement (Instr.bfx o) := 
  of_x .bfx rfl rfl (by decide) (by decide) (by decide) (fun _ => rfl) (fun w k h => by delta formOf formPage1; rw [h]; rfl)

theorem bfi (o : Op) : Statement (Instr.bfi o) := 
  of_x .bfi rfl rfl (by decide) (by decide) (by decide) (fun _ => rfl) (fun w k h => by delta formOf formPage1; rw [h]; rfl)

theorem csel (o : Op) : Statement (Instr.csel o) := 
  of_x .csel rfl rfl (by decide) (by decide) (by decide) (fun _ => rfl) (fun w k h => by delta formOf formPage1; rw [h]; rfl)

theorem cselz (o : Op) : Statement (Instr.cselz o) := 
  of_x .cselz rfl rfl (by decide) (by decide) (by decide) (fun _ => rfl) (fun w k h => by delta formOf formPage1; rw [h]; rfl)

theorem ldFe (o : Op) : Statement (Instr.ldFe o) := 
  of_x .ldFe rfl rfl (by decide) (by decide) (by decide) (fun _ => rfl) (fun w k h => by delta formOf formPage1; rw [h]; rfl)

theorem ldFec (o : Op) : Statement (Instr.ldFec o) := 
  of_x .ldFec rfl rfl (by decide) (by decide) (by decide) (fun _ => rfl) (fun w k h => by delta formOf formPage1; rw [h]; rfl)

theorem stFs (o : Op) : Statement (Instr.stFs o) := 
  of_x .stFs rfl rfl (by decide) (by decide) (by decide) (fun _ => rfl) (fun w k h => by delta formOf formPage1; rw [h]; rfl)

theorem stFw (o : Op) : Statement (Instr.stFw o) := 
  of_x .stFw rfl rfl (by decide) (by decide) (by decide) (fun _ => rfl) (fun w k h => by delta formOf formPage1; rw [h]; rfl)

theorem stN4 (o : Op) : Statement (Instr.stN4 o) := 
  of_x .stN4 rfl rfl (by decide) (by decide) (by decide) (fun _ => rfl) (fun w k h => by delta formOf formPage1; rw [h]; rfl)

theorem ldf (o : Op) : Statement (Instr.ldf o) := 
  of_x .ldf rfl rfl (by decide) (by decide) (by decide) (fun _ => rfl) (fun w k h => by delta formOf formPage1; rw [h]; rfl)

theorem fadd (o : Op) : Statement (Instr.fadd o) := 
  of_x .fadd rfl rfl (by decide) (by decide) (by decide) (fun _ => rfl) (fun w k h => by delta formOf formPage1; rw [h]; rfl)

theorem fsub (o : Op) : Statement (Instr.fsub o) := 
  of_x .fsub rfl rfl (by decide) (by decide) (by decide) (fun _ => rfl) (fun w k h => by delta formOf formPage1; rw [h]; rfl)

theorem fmul (o : Op) : Statement (Instr.fmul o) := 
  of_x .fmul rfl rfl (by decide) (by decide) (by decide) (fun _ => rfl) (fun w k h => by delta formOf formPage1; rw [h]; rfl)

theorem fdiv (o : Op) : Statement (Instr.fdiv o) := 
  of_x .fdiv rfl rfl (by decide) (by decide) (by decide) (fun _ => rfl) (fun w k h => by delta formOf formPage1; rw [h]; rfl)

theorem fmin (o : Op) : Statement (Instr.fmin o) := 
  of_x .fmin rfl rfl (by decide) (by decide) (by decide) (fun _ => rfl) (fun w k h => by delta formOf formPage1; rw [h]; rfl)

theorem fmax (o : Op) : Statement (Instr.fmax o) := 
  of_x .fmax rfl rfl (by decide) (by decide) (by decide) (fun _ => rfl) (fun w k h => by delta formOf formPage1; rw [h]; rfl)

theorem fminp (o : Op) : Statement (Instr.fminp o) := 
  of_x .fminp rfl rfl (by decide) (by decide) (by decide) (fun _ => rfl) (fun w k h => by delta formOf formPage1; rw [h]; rfl)

theorem fmaxp (o : Op) : Statement (Instr.fmaxp o) := 
  of_x .fmaxp rfl rfl (by decide) (by decide) (by decide) (fun _ => rfl) (fun w k h => by delta formOf formPage1; rw [h]; rfl)

theorem fsqrt (o : Op) : Statement (Instr.fsqrt o) := 
  of_x .fsqrt rfl rfl (by decide) (by decide) (by decide) (fun _ => rfl) (fun w k h => by delta formOf formPage1; rw [h]; rfl)

theorem fabs (o : Op) : Statement (Instr.fabs o) := 
  of_x .fabs rfl rfl (by decide) (by decide) (by decide) (fun _ => rfl) (fun w k h => by delta formOf formPage1; rw [h]; rfl)

theorem fma (o : Op) : Statement (Instr.fma o) := 
  of_x .fma rfl rfl (by decide) (by decide) (by decide) (fun _ => rfl) (fun w k h => by delta formOf formPage1; rw [h]; rfl)

theorem fnma (o : Op) : Statement (Instr.fnma o) := 
  of_x .fnma rfl rfl (by decide) (by decide) (by decide) (fun _ => rfl) (fun w k h => by delta formOf formPage1; rw [h]; rfl)

theorem flt (o : Op) : Statement (Instr.flt o) := 
  of_x .flt rfl rfl (by decide) (by decide) (by decide) (fun _ => rfl) (fun w k h => by delta formOf formPage1; rw [h]; rfl)

theorem fle (o : Op) : Statement (Instr.fle o) := 
  of_x .fle rfl rfl (by decide) (by decide) (by decide) (fun _ => rfl) (fun w k h => by delta formOf formPage1; rw [h]; rfl)

theorem feq (o : Op) : Statement (Instr.feq o) := 
  of_x .feq rfl rfl (by decide) (by decide) (by decide) (fun _ => rfl) (fun w k h => by delta formOf formPage1; rw [h]; rfl)

theorem funOrd (o : Op) : Statement (Instr.funOrd o) := 
  of_x .funOrd rfl rfl (by decide) (by decide) (by decide) (fun _ => rfl) (fun w k h => by delta formOf formPage1; rw [h]; rfl)

theorem cvtif (o : Op) : Statement (Instr.cvtif o) := 
  of_x .cvtif rfl rfl (by decide) (by decide) (by decide) (fun _ => rfl) (fun w k h => by delta formOf formPage1; rw [h]; rfl)

theorem cvtfi (o : Op) : Statement (Instr.cvtfi o) := 
  of_x .cvtfi rfl rfl (by decide) (by decide) (by decide) (fun _ => rfl) (fun w k h => by delta formOf formPage1; rw [h]; rfl)

theorem cvtff (o : Op) : Statement (Instr.cvtff o) := 
  of_x .cvtff rfl rfl (by decide) (by decide) (by decide) (fun _ => rfl) (fun w k h => by delta formOf formPage1; rw [h]; rfl)

theorem fclass (o : Op) : Statement (Instr.fclass o) := 
  of_x .fclass rfl rfl (by decide) (by decide) (by decide) (fun _ => rfl) (fun w k h => by delta formOf formPage1; rw [h]; rfl)

theorem blz (o : Op) : Statement (Instr.blz o) := 
  of_any .blz rfl (by decide) (by decide) (fun _ => rfl) (fun _ _ => rfl)

theorem bgez (o : Op) : Statement (Instr.bgez o) := 
  of_any .bgez rfl (by decide) (by decide) (fun _ => rfl) (fun _ _ => rfl)

theorem vadd (o : Op) : Statement (Instr.vadd o) := 
  of_x .vadd rfl rfl (by decide) (by decide) (by decide) (fun _ => rfl) (fun w k h => by delta formOf formPage2; rw [h]; rfl)

theorem vsub (o : Op) : Statement (Instr.vsub o) := 
  of_x .vsub rfl rfl (by decide) (by decide) (by decide) (fun _ => rfl) (fun w k h => by delta formOf formPage2; rw [h]; rfl)

theorem vaddsat (o : Op) : Statement (Instr.vaddsat o) := 
  of_x .vaddsat rfl rfl (by decide) (by decide) (by decide) (fun _ => rfl) (fun w k h => by delta formOf formPage2; rw [h]; rfl)

theorem vsubsat (o : Op) : Statement (Instr.vsubsat o) := 
  of_x .vsubsat rfl rfl (by decide) (by decide) (by decide) (fun _ => rfl) (fun w k h => by delta formOf formPage2; rw [h]; rfl)

theorem vmul (o : Op) : Statement (Instr.vmul o) := 
  of_x .vmul rfl rfl (by decide) (by decide) (by decide) (fun _ => rfl) (fun w k h => by delta formOf formPage2; rw [h]; rfl)

theorem vmulh (o : Op) : Statement (Instr.vmulh o) := 
  of_x .vmulh rfl rfl (by decide) (by decide) (by decide) (fun _ => rfl) (fun w k h => by delta formOf formPage2; rw [h]; rfl)

theorem vmin (o : Op) : Statement (Instr.vmin o) := 
  of_x .vmin rfl rfl (by decide) (by decide) (by decide) (fun _ => rfl) (fun w k h => by delta formOf formPage2; rw [h]; rfl)

theorem vmax (o : Op) : Statement (Instr.vmax o) := 
  of_x .vmax rfl rfl (by decide) (by decide) (by decide) (fun _ => rfl) (fun w k h => by delta formOf formPage2; rw [h]; rfl)

theorem vand (o : Op) : Statement (Instr.vand o) := 
  of_x .vand rfl rfl (by decide) (by decide) (by decide) (fun _ => rfl) (fun w k h => by delta formOf formPage2; rw [h]; rfl)

theorem vor (o : Op) : Statement (Instr.vor o) := 
  of_x .vor rfl rfl (by decide) (by decide) (by decide) (fun _ => rfl) (fun w k h => by delta formOf formPage2; rw [h]; rfl)

theorem vxor (o : Op) : Statement (Instr.vxor o) := 
  of_x .vxor rfl rfl (by decide) (by decide) (by decide) (fun _ => rfl) (fun w k h => by delta formOf formPage2; rw [h]; rfl)

theorem vandn (o : Op) : Statement (Instr.vandn o) := 
  of_x .vandn rfl rfl (by decide) (by decide) (by decide) (fun _ => rfl) (fun w k h => by delta formOf formPage2; rw [h]; rfl)

theorem vshl (o : Op) : Statement (Instr.vshl o) := 
  of_x .vshl rfl rfl (by decide) (by decide) (by decide) (fun _ => rfl) (fun w k h => by delta formOf formPage2; rw [h]; rfl)

theorem vshr (o : Op) : Statement (Instr.vshr o) := 
  of_x .vshr rfl rfl (by decide) (by decide) (by decide) (fun _ => rfl) (fun w k h => by delta formOf formPage2; rw [h]; rfl)

theorem vabs (o : Op) : Statement (Instr.vabs o) := 
  of_x .vabs rfl rfl (by decide) (by decide) (by decide) (fun _ => rfl) (fun w k h => by delta formOf formPage2; rw [h]; rfl)

theorem vneg (o : Op) : Statement (Instr.vneg o) := 
  of_x .vneg rfl rfl (by decide) (by decide) (by decide) (fun _ => rfl) (fun w k h => by delta formOf formPage2; rw [h]; rfl)

theorem vceq (o : Op) : Statement (Instr.vceq o) := 
  of_x .vceq rfl rfl (by decide) (by decide) (by decide) (fun _ => rfl) (fun w k h => by delta formOf formPage2; rw [h]; rfl)

theorem vcne (o : Op) : Statement (Instr.vcne o) := 
  of_x .vcne rfl rfl (by decide) (by decide) (by decide) (fun _ => rfl) (fun w k h => by delta formOf formPage2; rw [h]; rfl)

theorem vclt (o : Op) : Statement (Instr.vclt o) := 
  of_x .vclt rfl rfl (by decide) (by decide) (by decide) (fun _ => rfl) (fun w k h => by delta formOf formPage2; rw [h]; rfl)

theorem vcle (o : Op) : Statement (Instr.vcle o) := 
  of_x .vcle rfl rfl (by decide) (by decide) (by decide) (fun _ => rfl) (fun w k h => by delta formOf formPage2; rw [h]; rfl)

theorem vsel (o : Op) : Statement (Instr.vsel o) := 
  of_x .vsel rfl rfl (by decide) (by decide) (by decide) (fun _ => rfl) (fun w k h => by delta formOf formPage2; rw [h]; rfl)

theorem vmov (o : Op) : Statement (Instr.vmov o) := 
  of_x .vmov rfl rfl (by decide) (by decide) (by decide) (fun _ => rfl) (fun w k h => by delta formOf formPage2; rw [h]; rfl)

theorem vbcast (o : Op) : Statement (Instr.vbcast o) := 
  of_x .vbcast rfl rfl (by decide) (by decide) (by decide) (fun _ => rfl) (fun w k h => by delta formOf formPage2; rw [h]; rfl)

theorem vidx (o : Op) : Statement (Instr.vidx o) := 
  of_x .vidx rfl rfl (by decide) (by decide) (by decide) (fun _ => rfl) (fun w k h => by delta formOf formPage2; rw [h]; rfl)

theorem vmac (o : Op) : Statement (Instr.vmac o) := 
  of_x .vmac rfl rfl (by decide) (by decide) (by decide) (fun _ => rfl) (fun w k h => by delta formOf formPage2; rw [h]; rfl)

theorem vdot4 (o : Op) : Statement (Instr.vdot4 o) := 
  of_x .vdot4 rfl rfl (by decide) (by decide) (by decide) (fun _ => rfl) (fun w k h => by delta formOf formPage2; rw [h]; rfl)

theorem vpopc (o : Op) : Statement (Instr.vpopc o) := 
  of_x .vpopc rfl rfl (by decide) (by decide) (by decide) (fun _ => rfl) (fun w k h => by delta formOf formPage2; rw [h]; rfl)

theorem vclz (o : Op) : Statement (Instr.vclz o) := 
  of_x .vclz rfl rfl (by decide) (by decide) (by decide) (fun _ => rfl) (fun w k h => by delta formOf formPage2; rw [h]; rfl)

theorem pand (o : Op) : Statement (Instr.pand o) := 
  of_x .pand rfl rfl (by decide) (by decide) (by decide) (fun _ => rfl) (fun w k h => by delta formOf formPage2; rw [h]; rfl)

theorem por (o : Op) : Statement (Instr.por o) := 
  of_x .por rfl rfl (by decide) (by decide) (by decide) (fun _ => rfl) (fun w k h => by delta formOf formPage2; rw [h]; rfl)

theorem pxor (o : Op) : Statement (Instr.pxor o) := 
  of_x .pxor rfl rfl (by decide) (by decide) (by decide) (fun _ => rfl) (fun w k h => by delta formOf formPage2; rw [h]; rfl)

theorem pnot (o : Op) : Statement (Instr.pnot o) := 
  of_x .pnot rfl rfl (by decide) (by decide) (by decide) (fun _ => rfl) (fun w k h => by delta formOf formPage2; rw [h]; rfl)

theorem pcnt (o : Op) : Statement (Instr.pcnt o) := 
  of_x .pcnt rfl rfl (by decide) (by decide) (by decide) (fun _ => rfl) (fun w k h => by delta formOf formPage2; rw [h]; rfl)

theorem pfirst (o : Op) : Statement (Instr.pfirst o) := 
  of_x .pfirst rfl rfl (by decide) (by decide) (by decide) (fun _ => rfl) (fun w k h => by delta formOf formPage2; rw [h]; rfl)

theorem vext (o : Op) : Statement (Instr.vext o) := 
  of_x .vext rfl rfl (by decide) (by decide) (by decide) (fun _ => rfl) (fun w k h => by delta formOf formPage2; rw [h]; rfl)

theorem vins (o : Op) : Statement (Instr.vins o) := 
  of_x .vins rfl rfl (by decide) (by decide) (by decide) (fun _ => rfl) (fun w k h => by delta formOf formPage2; rw [h]; rfl)

theorem vrsum (o : Op) : Statement (Instr.vrsum o) := 
  of_x .vrsum rfl rfl (by decide) (by decide) (by decide) (fun _ => rfl) (fun w k h => by delta formOf formPage2; rw [h]; rfl)

theorem vrmax (o : Op) : Statement (Instr.vrmax o) := 
  of_x .vrmax rfl rfl (by decide) (by decide) (by decide) (fun _ => rfl) (fun w k h => by delta formOf formPage2; rw [h]; rfl)

theorem vrmin (o : Op) : Statement (Instr.vrmin o) := 
  of_x .vrmin rfl rfl (by decide) (by decide) (by decide) (fun _ => rfl) (fun w k h => by delta formOf formPage2; rw [h]; rfl)

theorem vrand (o : Op) : Statement (Instr.vrand o) := 
  of_x .vrand rfl rfl (by decide) (by decide) (by decide) (fun _ => rfl) (fun w k h => by delta formOf formPage2; rw [h]; rfl)

theorem vcvtw (o : Op) : Statement (Instr.vcvtw o) := 
  of_x .vcvtw rfl rfl (by decide) (by decide) (by decide) (fun _ => rfl) (fun w k h => by delta formOf formPage2; rw [h]; rfl)

theorem vcvtn (o : Op) : Statement (Instr.vcvtn o) := 
  of_x .vcvtn rfl rfl (by decide) (by decide) (by decide) (fun _ => rfl) (fun w k h => by delta formOf formPage2; rw [h]; rfl)

theorem vfadd (o : Op) : Statement (Instr.vfadd o) := 
  of_x .vfadd rfl rfl (by decide) (by decide) (by decide) (fun _ => rfl) (fun w k h => by delta formOf formPage3; rw [h]; rfl)

theorem vfsub (o : Op) : Statement (Instr.vfsub o) := 
  of_x .vfsub rfl rfl (by decide) (by decide) (by decide) (fun _ => rfl) (fun w k h => by delta formOf formPage3; rw [h]; rfl)

theorem vfmul (o : Op) : Statement (Instr.vfmul o) := 
  of_x .vfmul rfl rfl (by decide) (by decide) (by decide) (fun _ => rfl) (fun w k h => by delta formOf formPage3; rw [h]; rfl)

theorem vfdiv (o : Op) : Statement (Instr.vfdiv o) := 
  of_x .vfdiv rfl rfl (by decide) (by decide) (by decide) (fun _ => rfl) (fun w k h => by delta formOf formPage3; rw [h]; rfl)

theorem vfma (o : Op) : Statement (Instr.vfma o) := 
  of_x .vfma rfl rfl (by decide) (by decide) (by decide) (fun _ => rfl) (fun w k h => by delta formOf formPage3; rw [h]; rfl)

theorem vfnma (o : Op) : Statement (Instr.vfnma o) := 
  of_x .vfnma rfl rfl (by decide) (by decide) (by decide) (fun _ => rfl) (fun w k h => by delta formOf formPage3; rw [h]; rfl)

theorem vfmin (o : Op) : Statement (Instr.vfmin o) := 
  of_x .vfmin rfl rfl (by decide) (by decide) (by decide) (fun _ => rfl) (fun w k h => by delta formOf formPage3; rw [h]; rfl)

theorem vfmax (o : Op) : Statement (Instr.vfmax o) := 
  of_x .vfmax rfl rfl (by decide) (by decide) (by decide) (fun _ => rfl) (fun w k h => by delta formOf formPage3; rw [h]; rfl)

theorem vfminp (o : Op) : Statement (Instr.vfminp o) := 
  of_x .vfminp rfl rfl (by decide) (by decide) (by decide) (fun _ => rfl) (fun w k h => by delta formOf formPage3; rw [h]; rfl)

theorem vfmaxp (o : Op) : Statement (Instr.vfmaxp o) := 
  of_x .vfmaxp rfl rfl (by decide) (by decide) (by decide) (fun _ => rfl) (fun w k h => by delta formOf formPage3; rw [h]; rfl)

theorem vfsqrt (o : Op) : Statement (Instr.vfsqrt o) := 
  of_x .vfsqrt rfl rfl (by decide) (by decide) (by decide) (fun _ => rfl) (fun w k h => by delta formOf formPage3; rw [h]; rfl)

theorem vfrsqrt (o : Op) : Statement (Instr.vfrsqrt o) := 
  of_x .vfrsqrt rfl rfl (by decide) (by decide) (by decide) (fun _ => rfl) (fun w k h => by delta formOf formPage3; rw [h]; rfl)

theorem vfexp2 (o : Op) : Statement (Instr.vfexp2 o) := 
  of_x .vfexp2 rfl rfl (by decide) (by decide) (by decide) (fun _ => rfl) (fun w k h => by delta formOf formPage3; rw [h]; rfl)

theorem vflog2 (o : Op) : Statement (Instr.vflog2 o) := 
  of_x .vflog2 rfl rfl (by decide) (by decide) (by decide) (fun _ => rfl) (fun w k h => by delta formOf formPage3; rw [h]; rfl)

theorem vfrecip (o : Op) : Statement (Instr.vfrecip o) := 
  of_x .vfrecip rfl rfl (by decide) (by decide) (by decide) (fun _ => rfl) (fun w k h => by delta formOf formPage3; rw [h]; rfl)

theorem vftanh (o : Op) : Statement (Instr.vftanh o) := 
  of_x .vftanh rfl rfl (by decide) (by decide) (by decide) (fun _ => rfl) (fun w k h => by delta formOf formPage3; rw [h]; rfl)

theorem vfclass (o : Op) : Statement (Instr.vfclass o) := 
  of_x .vfclass rfl rfl (by decide) (by decide) (by decide) (fun _ => rfl) (fun w k h => by delta formOf formPage3; rw [h]; rfl)

theorem vfabs (o : Op) : Statement (Instr.vfabs o) := 
  of_x .vfabs rfl rfl (by decide) (by decide) (by decide) (fun _ => rfl) (fun w k h => by delta formOf formPage3; rw [h]; rfl)

theorem vfneg (o : Op) : Statement (Instr.vfneg o) := 
  of_x .vfneg rfl rfl (by decide) (by decide) (by decide) (fun _ => rfl) (fun w k h => by delta formOf formPage3; rw [h]; rfl)

theorem vscale (o : Op) : Statement (Instr.vscale o) := 
  of_x .vscale rfl rfl (by decide) (by decide) (by decide) (fun _ => rfl) (fun w k h => by delta formOf formPage3; rw [h]; rfl)

theorem vfsig (o : Op) : Statement (Instr.vfsig o) := 
  of_x .vfsig rfl rfl (by decide) (by decide) (by decide) (fun _ => rfl) (fun w k h => by delta formOf formPage3; rw [h]; rfl)

theorem vfgelu (o : Op) : Statement (Instr.vfgelu o) := 
  of_x .vfgelu rfl rfl (by decide) (by decide) (by decide) (fun _ => rfl) (fun w k h => by delta formOf formPage3; rw [h]; rfl)

theorem vfceq (o : Op) : Statement (Instr.vfceq o) := 
  of_x .vfceq rfl rfl (by decide) (by decide) (by decide) (fun _ => rfl) (fun w k h => by delta formOf formPage3; rw [h]; rfl)

theorem vfclt (o : Op) : Statement (Instr.vfclt o) := 
  of_x .vfclt rfl rfl (by decide) (by decide) (by decide) (fun _ => rfl) (fun w k h => by delta formOf formPage3; rw [h]; rfl)

theorem vfcle (o : Op) : Statement (Instr.vfcle o) := 
  of_x .vfcle rfl rfl (by decide) (by decide) (by decide) (fun _ => rfl) (fun w k h => by delta formOf formPage3; rw [h]; rfl)

theorem vfcun (o : Op) : Statement (Instr.vfcun o) := 
  of_x .vfcun rfl rfl (by decide) (by decide) (by decide) (fun _ => rfl) (fun w k h => by delta formOf formPage3; rw [h]; rfl)

theorem vcvt (o : Op) : Statement (Instr.vcvt o) := 
  of_x .vcvt rfl rfl (by decide) (by decide) (by decide) (fun _ => rfl) (fun w k h => by delta formOf formPage3; rw [h]; rfl)

theorem vcvti (o : Op) : Statement (Instr.vcvti o) := 
  of_x .vcvti rfl rfl (by decide) (by decide) (by decide) (fun _ => rfl) (fun w k h => by delta formOf formPage3; rw [h]; rfl)

theorem vcvtf (o : Op) : Statement (Instr.vcvtf o) := 
  of_x .vcvtf rfl rfl (by decide) (by decide) (by decide) (fun _ => rfl) (fun w k h => by delta formOf formPage3; rw [h]; rfl)

theorem vquant (o : Op) : Statement (Instr.vquant o) := 
  of_x .vquant rfl rfl (by decide) (by decide) (by decide) (fun _ => rfl) (fun w k h => by delta formOf formPage3; rw [h]; rfl)

theorem vdequant (o : Op) : Statement (Instr.vdequant o) := 
  of_x .vdequant rfl rfl (by decide) (by decide) (by decide) (fun _ => rfl) (fun w k h => by delta formOf formPage3; rw [h]; rfl)

theorem vfrsum (o : Op) : Statement (Instr.vfrsum o) := 
  of_x .vfrsum rfl rfl (by decide) (by decide) (by decide) (fun _ => rfl) (fun w k h => by delta formOf formPage3; rw [h]; rfl)

theorem vfrmax (o : Op) : Statement (Instr.vfrmax o) := 
  of_x .vfrmax rfl rfl (by decide) (by decide) (by decide) (fun _ => rfl) (fun w k h => by delta formOf formPage3; rw [h]; rfl)

theorem vfrnd (o : Op) : Statement (Instr.vfrnd o) := 
  of_x .vfrnd rfl rfl (by decide) (by decide) (by decide) (fun _ => rfl) (fun w k h => by delta formOf formPage3; rw [h]; rfl)

theorem vld (o : Op) : Statement (Instr.vld o) := 
  of_x .vld rfl rfl (by decide) (by decide) (by decide) (fun _ => rfl) (fun w k h => by delta formOf formPage4; rw [h]; rfl)

theorem vst (o : Op) : Statement (Instr.vst o) := 
  of_x .vst rfl rfl (by decide) (by decide) (by decide) (fun _ => rfl) (fun w k h => by delta formOf formPage4; rw [h]; rfl)

theorem vlds (o : Op) : Statement (Instr.vlds o) := 
  of_x .vlds rfl rfl (by decide) (by decide) (by decide) (fun _ => rfl) (fun w k h => by delta formOf formPage4; rw [h]; rfl)

theorem vsts (o : Op) : Statement (Instr.vsts o) := 
  of_x .vsts rfl rfl (by decide) (by decide) (by decide) (fun _ => rfl) (fun w k h => by delta formOf formPage4; rw [h]; rfl)

theorem vldx (o : Op) : Statement (Instr.vldx o) := 
  of_x .vldx rfl rfl (by decide) (by decide) (by decide) (fun _ => rfl) (fun w k h => by delta formOf formPage4; rw [h]; rfl)

theorem vstx (o : Op) : Statement (Instr.vstx o) := 
  of_x .vstx rfl rfl (by decide) (by decide) (by decide) (fun _ => rfl) (fun w k h => by delta formOf formPage4; rw [h]; rfl)

theorem vldFe (o : Op) : Statement (Instr.vldFe o) := 
  of_x .vldFe rfl rfl (by decide) (by decide) (by decide) (fun _ => rfl) (fun w k h => by delta formOf formPage4; rw [h]; rfl)

theorem vstFs (o : Op) : Statement (Instr.vstFs o) := 
  of_x .vstFs rfl rfl (by decide) (by decide) (by decide) (fun _ => rfl) (fun w k h => by delta formOf formPage4; rw [h]; rfl)

theorem vldp (o : Op) : Statement (Instr.vldp o) := 
  of_x .vldp rfl rfl (by decide) (by decide) (by decide) (fun _ => rfl) (fun w k h => by delta formOf formPage4; rw [h]; rfl)

theorem vstp (o : Op) : Statement (Instr.vstp o) := 
  of_x .vstp rfl rfl (by decide) (by decide) (by decide) (fun _ => rfl) (fun w k h => by delta formOf formPage4; rw [h]; rfl)

theorem vperm (o : Op) : Statement (Instr.vperm o) := 
  of_x .vperm rfl rfl (by decide) (by decide) (by decide) (fun _ => rfl) (fun w k h => by delta formOf formPage4; rw [h]; rfl)

theorem vperm2 (o : Op) : Statement (Instr.vperm2 o) := 
  of_x .vperm2 rfl rfl (by decide) (by decide) (by decide) (fun _ => rfl) (fun w k h => by delta formOf formPage4; rw [h]; rfl)

theorem vsld (o : Op) : Statement (Instr.vsld o) := 
  of_x .vsld rfl rfl (by decide) (by decide) (by decide) (fun _ => rfl) (fun w k h => by delta formOf formPage4; rw [h]; rfl)

theorem vsrd (o : Op) : Statement (Instr.vsrd o) := 
  of_x .vsrd rfl rfl (by decide) (by decide) (by decide) (fun _ => rfl) (fun w k h => by delta formOf formPage4; rw [h]; rfl)

theorem vzip (o : Op) : Statement (Instr.vzip o) := 
  of_x .vzip rfl rfl (by decide) (by decide) (by decide) (fun _ => rfl) (fun w k h => by delta formOf formPage4; rw [h]; rfl)

theorem vunzip (o : Op) : Statement (Instr.vunzip o) := 
  of_x .vunzip rfl rfl (by decide) (by decide) (by decide) (fun _ => rfl) (fun w k h => by delta formOf formPage4; rw [h]; rfl)

theorem vcomp (o : Op) : Statement (Instr.vcomp o) := 
  of_x .vcomp rfl rfl (by decide) (by decide) (by decide) (fun _ => rfl) (fun w k h => by delta formOf formPage4; rw [h]; rfl)

theorem vexp (o : Op) : Statement (Instr.vexp o) := 
  of_x .vexp rfl rfl (by decide) (by decide) (by decide) (fun _ => rfl) (fun w k h => by delta formOf formPage4; rw [h]; rfl)

theorem gget (o : Op) : Statement (Instr.gget o) := 
  of_x .gget rfl rfl (by decide) (by decide) (by decide) (fun _ => rfl) (fun w k h => by delta formOf formPage4; rw [h]; rfl)

theorem gput (o : Op) : Statement (Instr.gput o) := 
  of_x .gput rfl rfl (by decide) (by decide) (by decide) (fun _ => rfl) (fun w k h => by delta formOf formPage4; rw [h]; rfl)

theorem gsum (o : Op) : Statement (Instr.gsum o) := 
  of_x .gsum rfl rfl (by decide) (by decide) (by decide) (fun _ => rfl) (fun w k h => by delta formOf formPage4; rw [h]; rfl)

theorem gmax (o : Op) : Statement (Instr.gmax o) := 
  of_x .gmax rfl rfl (by decide) (by decide) (by decide) (fun _ => rfl) (fun w k h => by delta formOf formPage4; rw [h]; rfl)

theorem gbcast (o : Op) : Statement (Instr.gbcast o) := 
  of_x .gbcast rfl rfl (by decide) (by decide) (by decide) (fun _ => rfl) (fun w k h => by delta formOf formPage4; rw [h]; rfl)

theorem vlut (o : Op) : Statement (Instr.vlut o) := 
  of_x .vlut rfl rfl (by decide) (by decide) (by decide) (fun _ => rfl) (fun w k h => by delta formOf formPage4; rw [h]; rfl)

theorem vlutb (o : Op) : Statement (Instr.vlutb o) := 
  of_x .vlutb rfl rfl (by decide) (by decide) (by decide) (fun _ => rfl) (fun w k h => by delta formOf formPage4; rw [h]; rfl)

theorem hire (o : Op) : Statement (Instr.hire o) := 
  of_x .hire rfl rfl (by decide) (by decide) (by decide) (fun _ => rfl) (fun w k h => by delta formOf formPage5; rw [h]; rfl)

theorem hireR (o : Op) : Statement (Instr.hireR o) := 
  of_x .hireR rfl rfl (by decide) (by decide) (by decide) (fun _ => rfl) (fun w k h => by delta formOf formPage5; rw [h]; rfl)

theorem hwait (o : Op) : Statement (Instr.hwait o) := 
  of_x .hwait rfl rfl (by decide) (by decide) (by decide) (fun _ => rfl) (fun w k h => by delta formOf formPage5; rw [h]; rfl)

theorem hpoll (o : Op) : Statement (Instr.hpoll o) := 
  of_x .hpoll rfl rfl (by decide) (by decide) (by decide) (fun _ => rfl) (fun w k h => by delta formOf formPage5; rw [h]; rfl)

theorem copy (o : Op) : Statement (Instr.copy o) := 
  of_x .copy rfl rfl (by decide) (by decide) (by decide) (fun _ => rfl) (fun w k h => by delta formOf formPage5; rw [h]; rfl)

theorem cwait (o : Op) : Statement (Instr.cwait o) := 
  of_x .cwait rfl rfl (by decide) (by decide) (by decide) (fun _ => rfl) (fun w k h => by delta formOf formPage5; rw [h]; rfl)

theorem cpoll (o : Op) : Statement (Instr.cpoll o) := 
  of_x .cpoll rfl rfl (by decide) (by decide) (by decide) (fun _ => rfl) (fun w k h => by delta formOf formPage5; rw [h]; rfl)

theorem swait (o : Op) : Statement (Instr.swait o) := 
  of_x .swait rfl rfl (by decide) (by decide) (by decide) (fun _ => rfl) (fun w k h => by delta formOf formPage5; rw [h]; rfl)

theorem spoll (o : Op) : Statement (Instr.spoll o) := 
  of_x .spoll rfl rfl (by decide) (by decide) (by decide) (fun _ => rfl) (fun w k h => by delta formOf formPage5; rw [h]; rfl)

theorem efence (o : Op) : Statement (Instr.efence o) := 
  of_x .efence rfl rfl (by decide) (by decide) (by decide) (fun _ => rfl) (fun w k h => by delta formOf formPage5; rw [h]; rfl)

theorem ecnt (o : Op) : Statement (Instr.ecnt o) := 
  of_x .ecnt rfl rfl (by decide) (by decide) (by decide) (fun _ => rfl) (fun w k h => by delta formOf formPage5; rw [h]; rfl)

theorem cancel (o : Op) : Statement (Instr.cancel o) := 
  of_x .cancel rfl rfl (by decide) (by decide) (by decide) (fun _ => rfl) (fun w k h => by delta formOf formPage5; rw [h]; rfl)

theorem hstat (o : Op) : Statement (Instr.hstat o) := 
  of_x .hstat rfl rfl (by decide) (by decide) (by decide) (fun _ => rfl) (fun w k h => by delta formOf formPage5; rw [h]; rfl)

theorem copyR (o : Op) : Statement (Instr.copyR o) := 
  of_x .copyR rfl rfl (by decide) (by decide) (by decide) (fun _ => rfl) (fun w k h => by delta formOf formPage5; rw [h]; rfl)

/-- The two forms of `satt` share page 5, OP 4, X 0, and differ in bit 0 of k (23 R356). -/
theorem kBit_of_head {o : Op} {b : Nat} (h : ((o.pimm.headD 0).toNat % 2 == b) = true) : kBit o = (b == 1) := by
  unfold kBit Chain.k0
  cases hp : o.pimm with
  | nil => rw [hp] at h; simp at h; subst h; rfl
  | cons p ps => rw [hp] at h; exact lsb_of_mod h

/-- An instruction whose form has an X bit and is told from another by bit 0 of k. -/
theorem of_k {i : Instr} {f : Form} {x b : Nat} (c : Op → Instr) (hf : i.form? = some f) (hx : f.sel = some x) (hz : f.fmt ≠ .fz)
    (hp : f.page < 8) (ho : f.op < 28) (hc : ∀ o, c (i.op?.getD o) = i)
    (hk : ∀ o, i.kOk o = ((o.pimm.headD 0).toNat % 2 == b))
    (h : ∀ w k, w.getLsbD 0 = (x == 1) → k = (b == 1) → formOf f.page f.op w k = some c) : Statement i := by
  intro o f' hf' hs hkk
  obtain rfl : f = f' := Option.some.inj (hf.symm.trans hf')
  rw [hk] at hkk
  refine ⟨hp, ho, c, h _ _ (lsb_of_mod ?_) (kBit_of_head hkk), hc o⟩
  unfold Op.selOk at hs
  rw [hx] at hs
  split at hs
  · simp_all
  · simp_all
  · simp_all

theorem satt (o : Op) : Statement (Instr.satt o) :=
  of_k .satt rfl rfl (by decide) (by decide) (by decide) (fun _ => rfl) (fun _ => rfl)
    (fun w k h hk => by delta formOf formPage5; rw [h, hk]; rfl)

theorem sblk (o : Op) : Statement (Instr.sblk o) := 
  of_x .sblk rfl rfl (by decide) (by decide) (by decide) (fun _ => rfl) (fun w k h => by delta formOf formPage5; rw [h]; rfl)

theorem tapsel (o : Op) : Statement (Instr.tapsel o) := 
  of_x .tapsel rfl rfl (by decide) (by decide) (by decide) (fun _ => rfl) (fun w k h => by delta formOf formPage5; rw [h]; rfl)

theorem amoadd (o : Op) : Statement (Instr.amoadd o) := 
  of_x .amoadd rfl rfl (by decide) (by decide) (by decide) (fun _ => rfl) (fun w k h => by delta formOf formPage6; rw [h]; rfl)

theorem amoswp (o : Op) : Statement (Instr.amoswp o) := 
  of_x .amoswp rfl rfl (by decide) (by decide) (by decide) (fun _ => rfl) (fun w k h => by delta formOf formPage6; rw [h]; rfl)

theorem amoand (o : Op) : Statement (Instr.amoand o) := 
  of_x .amoand rfl rfl (by decide) (by decide) (by decide) (fun _ => rfl) (fun w k h => by delta formOf formPage6; rw [h]; rfl)

theorem amoor (o : Op) : Statement (Instr.amoor o) := 
  of_x .amoor rfl rfl (by decide) (by decide) (by decide) (fun _ => rfl) (fun w k h => by delta formOf formPage6; rw [h]; rfl)

theorem amomin (o : Op) : Statement (Instr.amomin o) := 
  of_x .amomin rfl rfl (by decide) (by decide) (by decide) (fun _ => rfl) (fun w k h => by delta formOf formPage6; rw [h]; rfl)

theorem amomax (o : Op) : Statement (Instr.amomax o) := 
  of_x .amomax rfl rfl (by decide) (by decide) (by decide) (fun _ => rfl) (fun w k h => by delta formOf formPage6; rw [h]; rfl)

theorem cas (o : Op) : Statement (Instr.cas o) := 
  of_x .cas rfl rfl (by decide) (by decide) (by decide) (fun _ => rfl) (fun w k h => by delta formOf formPage6; rw [h]; rfl)

theorem casp (o : Op) : Statement (Instr.casp o) := 
  of_x .casp rfl rfl (by decide) (by decide) (by decide) (fun _ => rfl) (fun w k h => by delta formOf formPage6; rw [h]; rfl)

theorem send (o : Op) : Statement (Instr.send o) := 
  of_x .send rfl rfl (by decide) (by decide) (by decide) (fun _ => rfl) (fun w k h => by delta formOf formPage6; rw [h]; rfl)

theorem recv (o : Op) : Statement (Instr.recv o) := 
  of_x .recv rfl rfl (by decide) (by decide) (by decide) (fun _ => rfl) (fun w k h => by delta formOf formPage6; rw [h]; rfl)

theorem recvp (o : Op) : Statement (Instr.recvp o) := 
  of_x .recvp rfl rfl (by decide) (by decide) (by decide) (fun _ => rfl) (fun w k h => by delta formOf formPage6; rw [h]; rfl)

theorem callat (o : Op) : Statement (Instr.callat o) := 
  of_x .callat rfl rfl (by decide) (by decide) (by decide) (fun _ => rfl) (fun w k h => by delta formOf formPage6; rw [h]; rfl)

theorem retto (o : Op) : Statement (Instr.retto o) := 
  of_x .retto rfl rfl (by decide) (by decide) (by decide) (fun _ => rfl) (fun w k h => by delta formOf formPage6; rw [h]; rfl)

theorem dqpush (o : Op) : Statement (Instr.dqpush o) := 
  of_x .dqpush rfl rfl (by decide) (by decide) (by decide) (fun _ => rfl) (fun w k h => by delta formOf formPage6; rw [h]; rfl)

theorem dqpop (o : Op) : Statement (Instr.dqpop o) := 
  of_x .dqpop rfl rfl (by decide) (by decide) (by decide) (fun _ => rfl) (fun w k h => by delta formOf formPage6; rw [h]; rfl)

theorem dqsteal (o : Op) : Statement (Instr.dqsteal o) := 
  of_x .dqsteal rfl rfl (by decide) (by decide) (by decide) (fun _ => rfl) (fun w k h => by delta formOf formPage6; rw [h]; rfl)

theorem dqlen (o : Op) : Statement (Instr.dqlen o) := 
  of_x .dqlen rfl rfl (by decide) (by decide) (by decide) (fun _ => rfl) (fun w k h => by delta formOf formPage6; rw [h]; rfl)

theorem start (o : Op) : Statement (Instr.start o) := 
  of_x .start rfl rfl (by decide) (by decide) (by decide) (fun _ => rfl) (fun w k h => by delta formOf formPage6; rw [h]; rfl)

theorem join (o : Op) : Statement (Instr.join o) := 
  of_x .join rfl rfl (by decide) (by decide) (by decide) (fun _ => rfl) (fun w k h => by delta formOf formPage6; rw [h]; rfl)

theorem bar (o : Op) : Statement (Instr.bar o) := 
  of_x .bar rfl rfl (by decide) (by decide) (by decide) (fun _ => rfl) (fun w k h => by delta formOf formPage6; rw [h]; rfl)

theorem barq (o : Op) : Statement (Instr.barq o) := 
  of_x .barq rfl rfl (by decide) (by decide) (by decide) (fun _ => rfl) (fun w k h => by delta formOf formPage6; rw [h]; rfl)

theorem waitb (o : Op) : Statement (Instr.waitb o) := 
  of_x .waitb rfl rfl (by decide) (by decide) (by decide) (fun _ => rfl) (fun w k h => by delta formOf formPage6; rw [h]; rfl)

theorem setb (o : Op) : Statement (Instr.setb o) := 
  of_x .setb rfl rfl (by decide) (by decide) (by decide) (fun _ => rfl) (fun w k h => by delta formOf formPage6; rw [h]; rfl)

theorem lcnt (o : Op) : Statement (Instr.lcnt o) := 
  of_x .lcnt rfl rfl (by decide) (by decide) (by decide) (fun _ => rfl) (fun w k h => by delta formOf formPage6; rw [h]; rfl)

theorem lcancel (o : Op) : Statement (Instr.lcancel o) := 
  of_x .lcancel rfl rfl (by decide) (by decide) (by decide) (fun _ => rfl) (fun w k h => by delta formOf formPage6; rw [h]; rfl)

theorem mfcs (o : Op) : Statement (Instr.mfcs o) := 
  of_x .mfcs rfl rfl (by decide) (by decide) (by decide) (fun _ => rfl) (fun w k h => by delta formOf formPage7; rw [h]; rfl)

theorem mtcs (o : Op) : Statement (Instr.mtcs o) := 
  of_x .mtcs rfl rfl (by decide) (by decide) (by decide) (fun _ => rfl) (fun w k h => by delta formOf formPage7; rw [h]; rfl)

theorem tlbi (o : Op) : Statement (Instr.tlbi o) := 
  of_x .tlbi rfl rfl (by decide) (by decide) (by decide) (fun _ => rfl) (fun w k h => by delta formOf formPage7; rw [h]; rfl)

theorem bankcfg (o : Op) : Statement (Instr.bankcfg o) := 
  of_x .bankcfg rfl rfl (by decide) (by decide) (by decide) (fun _ => rfl) (fun w k h => by delta formOf formPage7; rw [h]; rfl)

theorem bankq (o : Op) : Statement (Instr.bankq o) := 
  of_x .bankq rfl rfl (by decide) (by decide) (by decide) (fun _ => rfl) (fun w k h => by delta formOf formPage7; rw [h]; rfl)

theorem probew (o : Op) : Statement (Instr.probew o) := 
  of_x .probew rfl rfl (by decide) (by decide) (by decide) (fun _ => rfl) (fun w k h => by delta formOf formPage7; rw [h]; rfl)

theorem prober (o : Op) : Statement (Instr.prober o) := 
  of_x .prober rfl rfl (by decide) (by decide) (by decide) (fun _ => rfl) (fun w k h => by delta formOf formPage7; rw [h]; rfl)

theorem pjr (o : Op) : Statement (Instr.pjr o) := 
  of_x .pjr rfl rfl (by decide) (by decide) (by decide) (fun _ => rfl) (fun w k h => by delta formOf formPage7; rw [h]; rfl)

theorem pjclr (o : Op) : Statement (Instr.pjclr o) := 
  of_x .pjclr rfl rfl (by decide) (by decide) (by decide) (fun _ => rfl) (fun w k h => by delta formOf formPage7; rw [h]; rfl)

theorem cseal (o : Op) : Statement (Instr.cseal o) := 
  of_x .cseal rfl rfl (by decide) (by decide) (by decide) (fun _ => rfl) (fun w k h => by delta formOf formPage7; rw [h]; rfl)

theorem cunseal (o : Op) : Statement (Instr.cunseal o) := 
  of_x .cunseal rfl rfl (by decide) (by decide) (by decide) (fun _ => rfl) (fun w k h => by delta formOf formPage7; rw [h]; rfl)

theorem lease (o : Op) : Statement (Instr.lease o) := 
  of_x .lease rfl rfl (by decide) (by decide) (by decide) (fun _ => rfl) (fun w k h => by delta formOf formPage7; rw [h]; rfl)

theorem leaseq (o : Op) : Statement (Instr.leaseq o) := 
  of_x .leaseq rfl rfl (by decide) (by decide) (by decide) (fun _ => rfl) (fun w k h => by delta formOf formPage7; rw [h]; rfl)

theorem nop : Statement .nop := 
  of_minor (fun _ => .nop) rfl rfl rfl (by decide) (by decide) (fun _ => rfl) (fun w k h => by delta formOf formPage0; rw [h]; rfl)

theorem doneUnit : Statement .doneUnit := 
  of_minor (fun _ => .doneUnit) rfl rfl rfl (by decide) (by decide) (fun _ => rfl) (fun w k h => by delta formOf formPage0; rw [h]; rfl)

theorem brk : Statement .brk := 
  of_minor (fun _ => .brk) rfl rfl rfl (by decide) (by decide) (fun _ => rfl) (fun w k h => by delta formOf formPage0; rw [h]; rfl)

theorem ret : Statement .ret := 
  of_minor (fun _ => .ret) rfl rfl rfl (by decide) (by decide) (fun _ => rfl) (fun w k h => by delta formOf formPage0; rw [h]; rfl)

theorem sched : Statement .sched := 
  of_minor (fun _ => .sched) rfl rfl rfl (by decide) (by decide) (fun _ => rfl) (fun w k h => by delta formOf formPage0; rw [h]; rfl)

theorem yield : Statement .yield := 
  of_minor (fun _ => .yield) rfl rfl rfl (by decide) (by decide) (fun _ => rfl) (fun w k h => by delta formOf formPage0; rw [h]; rfl)

theorem gsync : Statement .gsync := 
  of_x (fun _ => .gsync) rfl rfl (by decide) (by decide) (by decide) (fun _ => rfl) (fun w k h => by delta formOf formPage4; rw [h]; rfl)

theorem sattHandle : Statement .sattHandle :=
  of_k (fun _ => .sattHandle) rfl rfl (by decide) (by decide) (by decide) (fun _ => rfl) (fun _ => rfl)
    (fun w k h hk => by delta formOf formPage5; rw [h, hk]; rfl)

theorem tapst : Statement .tapst := 
  of_x (fun _ => .tapst) rfl rfl (by decide) (by decide) (by decide) (fun _ => rfl) (fun w k h => by delta formOf formPage5; rw [h]; rfl)

theorem fence : Statement .fence := 
  of_any (fun _ => .fence) rfl (by decide) (by decide) (fun _ => rfl) (fun _ _ => rfl)

theorem sendr : Statement .sendr := 
  of_x (fun _ => .sendr) rfl rfl (by decide) (by decide) (by decide) (fun _ => rfl) (fun w k h => by delta formOf formPage6; rw [h]; rfl)

theorem eret : Statement .eret := 
  of_minor (fun _ => .eret) rfl rfl rfl (by decide) (by decide) (fun _ => rfl) (fun w k h => by delta formOf formPage7; rw [h]; rfl)

theorem wfi : Statement .wfi := 
  of_minor (fun _ => .wfi) rfl rfl rfl (by decide) (by decide) (fun _ => rfl) (fun w k h => by delta formOf formPage7; rw [h]; rfl)

theorem rcflush : Statement .rcflush := 
  of_minor (fun _ => .rcflush) rfl rfl rfl (by decide) (by decide) (fun _ => rfl) (fun w k h => by delta formOf formPage7; rw [h]; rfl)

theorem l1inv : Statement .l1inv := 
  of_minor (fun _ => .l1inv) rfl rfl rfl (by decide) (by decide) (fun _ => rfl) (fun w k h => by delta formOf formPage7; rw [h]; rfl)

theorem l1wb : Statement .l1wb := 
  of_minor (fun _ => .l1wb) rfl rfl rfl (by decide) (by decide) (fun _ => rfl) (fun w k h => by delta formOf formPage7; rw [h]; rfl)

theorem tlbia : Statement .tlbia := 
  of_x (fun _ => .tlbia) rfl rfl (by decide) (by decide) (by decide) (fun _ => rfl) (fun w k h => by delta formOf formPage7; rw [h]; rfl)

theorem pendingResultArrival (core : Nat) (ctx : Nat) (idx : Nat) : Statement (Instr.pendingResultArrival core ctx idx) := no_word rfl

theorem refusalResponse (pid : Nat) : Statement (Instr.refusalResponse pid) := no_word rfl

theorem remoteAccessAtHome (pid : Nat) : Statement (Instr.remoteAccessAtHome pid) := no_word rfl

theorem postedStoreAck (pid : Nat) : Statement (Instr.postedStoreAck pid) := no_word rfl

theorem postedStoreRefused (pid : Nat) : Statement (Instr.postedStoreRefused pid) := no_word rfl

theorem gatherLineTimeout (core : Nat) (idx : Nat) : Statement (Instr.gatherLineTimeout core idx) := no_word rfl

theorem fullEmptyRetry (pid : Nat) : Statement (Instr.fullEmptyRetry pid) := no_word rfl

theorem pageScan (core : Nat) (ctx : Nat) : Statement (Instr.pageScan core ctx) := no_word rfl

theorem messageArrival (pid : Nat) : Statement (Instr.messageArrival pid) := no_word rfl

theorem messageNack (pid : Nat) : Statement (Instr.messageNack pid) := no_word rfl

theorem messageRetry (pid : Nat) : Statement (Instr.messageRetry pid) := no_word rfl

theorem dequeRecordArrival (pid : Nat) : Statement (Instr.dequeRecordArrival pid) := no_word rfl

theorem stealExchange (core : Nat) : Statement (Instr.stealExchange core) := no_word rfl

theorem stealRequest (core : Nat) (ctx : Nat) (idx : Nat) : Statement (Instr.stealRequest core ctx idx) := no_word rfl

theorem replyArrival (pid : Nat) : Statement (Instr.replyArrival pid) := no_word rfl

theorem partitionBarrierForward (grp : Nat) (arrivals : Nat) (n : Nat) (max : BitVec 64) (fin : Bool) : Statement (Instr.partitionBarrierForward grp arrivals n max fin) := no_word rfl

theorem quietReport (vif : Nat) (pen : Nat) : Statement (Instr.quietReport vif pen) := no_word rfl

theorem budg (core : Nat) (ctx : Nat) : Statement (Instr.budg core ctx) := no_word rfl

theorem sharingTurnEnd (grp : Nat) : Statement (Instr.sharingTurnEnd grp) := no_word rfl

theorem sharingTurnSwitch (grp : Nat) : Statement (Instr.sharingTurnSwitch grp) := no_word rfl

theorem trapEntry (core : Nat) : Statement (Instr.trapEntry core) := no_word rfl

theorem ucna (loc : Nat) : Statement (Instr.ucna loc) := no_word rfl

theorem engineReset (kind : Nat) (n : Nat) (testOk : Bool) : Statement (Instr.engineReset kind n testOk) := no_word rfl

theorem purgeComplete (core : Nat) (ctx : Nat) (idx : Nat) : Statement (Instr.purgeComplete core ctx idx) := no_word rfl

theorem injectorAct (target : Nat) (granule : Nat) : Statement (Instr.injectorAct target granule) := no_word rfl

theorem freezeRequest : Statement .freezeRequest := no_word rfl

theorem debuggerRead (core : Nat) (ctx : Nat) (item : Nat) : Statement (Instr.debuggerRead core ctx item) := no_word rfl

theorem debuggerWrite (core : Nat) (ctx : Nat) (item : Nat) (val : BitVec 2048) (tag : Bool) : Statement (Instr.debuggerWrite core ctx item val tag) := no_word rfl

theorem debuggerMemoryRead (loc : Nat) : Statement (Instr.debuggerMemoryRead loc) := no_word rfl

theorem registerEntryDrowsy (core : Nat) (ctx : Nat) (item : Nat) : Statement (Instr.registerEntryDrowsy core ctx item) := no_word rfl

theorem ctxbaseWrite (core : Nat) (val : BitVec 64) : Statement (Instr.ctxbaseWrite core val) := no_word rfl

theorem copyAccept (eng : Nat) : Statement (Instr.copyAccept eng) := no_word rfl

theorem copyElement (eng : Nat) (cmd : Nat) : Statement (Instr.copyElement eng cmd) := no_word rfl

theorem copyComplete (eng : Nat) (cmd : Nat) : Statement (Instr.copyComplete eng cmd) := no_word rfl

theorem collectiveRoundComplete (vif : Nat) (grp : Nat) (remote : List RemoteMember) : Statement (Instr.collectiveRoundComplete vif grp remote) := no_word rfl

theorem engineCancelArrival (pid : Nat) : Statement (Instr.engineCancelArrival pid) := no_word rfl

theorem hireAccept (bench : Nat) (cmd : Nat) : Statement (Instr.hireAccept bench cmd) := no_word rfl

theorem slabBoundary (bench : Nat) : Statement (Instr.slabBoundary bench) := no_word rfl

theorem slabDone (bench : Nat) (mismatch : Bool) : Statement (Instr.slabDone bench mismatch) := no_word rfl

theorem hireLanding (bench : Nat) : Statement (Instr.hireLanding bench) := no_word rfl

theorem hireResumeArrival (pid : Nat) : Statement (Instr.hireResumeArrival pid) := no_word rfl

theorem arbcfg (bench : Nat) (val : BitVec 64) : Statement (Instr.arbcfg bench val) := no_word rfl

theorem stackCommandAccept (stack : Nat) : Statement (Instr.stackCommandAccept stack) := no_word rfl

theorem stackCommandStart (stack : Nat) : Statement (Instr.stackCommandStart stack) := no_word rfl

theorem stackCommandComplete (stack : Nat) : Statement (Instr.stackCommandComplete stack) := no_word rfl

theorem sblkWrite (stack : Nat) : Statement (Instr.sblkWrite stack) := no_word rfl

theorem activationAlert (row : Nat) (sequencer : Bool) : Statement (Instr.activationAlert row sequencer) := no_word rfl

theorem streamNop (vif : Nat) : Statement (Instr.streamNop vif) := no_word rfl

theorem indirect (vif : Nat) : Statement (Instr.indirect vif) := no_word rfl

theorem returnBuf (vif : Nat) : Statement (Instr.returnBuf vif) := no_word rfl

theorem launch (vif : Nat) : Statement (Instr.launch vif) := no_word rfl

theorem graphUpload (vif : Nat) : Statement (Instr.graphUpload vif) := no_word rfl

theorem graphTrigger (vif : Nat) : Statement (Instr.graphTrigger vif) := no_word rfl

theorem waitLevel (vif : Nat) : Statement (Instr.waitLevel vif) := no_word rfl

theorem signal (vif : Nat) : Statement (Instr.signal vif) := no_word rfl

theorem streamCancel (vif : Nat) : Statement (Instr.streamCancel vif) := no_word rfl

theorem penDefine (vif : Nat) : Statement (Instr.penDefine vif) := no_word rfl

theorem penReset (vif : Nat) : Statement (Instr.penReset vif) := no_word rfl

theorem mapClusters (vif : Nat) : Statement (Instr.mapClusters vif) := no_word rfl

theorem specEntryDrop (die : Nat) (idx : Nat) : Statement (Instr.specEntryDrop die idx) := no_word rfl

theorem trigger (vif : Nat) (val : BitVec 64) : Statement (Instr.trigger vif val) := no_word rfl

theorem triggerRun (vif : Nat) (gid : Nat) : Statement (Instr.triggerRun vif gid) := no_word rfl

theorem rstatWrite (vif : Nat) (val : BitVec 64) : Statement (Instr.rstatWrite vif val) := no_word rfl

theorem rheadWrite (vif : Nat) (val : BitVec 64) : Statement (Instr.rheadWrite vif val) := no_word rfl

theorem rtailWrite (vif : Nat) (val : BitVec 64) : Statement (Instr.rtailWrite vif val) := no_word rfl

theorem eqdropWrite (vif : Nat) (val : BitVec 64) : Statement (Instr.eqdropWrite vif val) := no_word rfl

theorem lvlWrite (vif : Nat) (n : Nat) (val : BitVec 64) : Statement (Instr.lvlWrite vif n val) := no_word rfl

theorem pctrlWrite (vif : Nat) (val : BitVec 64) : Statement (Instr.pctrlWrite vif val) := no_word rfl

theorem levelComplete (vif : Nat) (slot : Nat) : Statement (Instr.levelComplete vif slot) := no_word rfl

theorem packageReset (failStage : Nat) : Statement (Instr.packageReset failStage) := no_word rfl

theorem bootgo (die : Nat) (val : BitVec 64) : Statement (Instr.bootgo die val) := no_word rfl

theorem lock (val : BitVec 64) : Statement (Instr.lock val) := no_word rfl

theorem freeze (val : BitVec 64) : Statement (Instr.freeze val) := no_word rfl

theorem errdropWrite (die : Nat) (val : BitVec 64) : Statement (Instr.errdropWrite die val) := no_word rfl

theorem injctl (die : Nat) (val : BitVec 64) : Statement (Instr.injctl die val) := no_word rfl

theorem pctlReset (port : Nat) : Statement (Instr.pctlReset port) := no_word rfl

theorem pctlEnable (port : Nat) (en : Bool) : Statement (Instr.pctlEnable port en) := no_word rfl

theorem groupWrite (grp : Nat) (val : BitVec 64) : Statement (Instr.groupWrite grp val) := no_word rfl

theorem deviceRegisterWrite (addr : Nat) (val : BitVec 64) : Statement (Instr.deviceRegisterWrite addr val) := no_word rfl

theorem i3cRead (addr : Nat) : Statement (Instr.i3cRead addr) := no_word rfl

theorem i3cWrite (addr : Nat) (val : BitVec 64) : Statement (Instr.i3cWrite addr val) := no_word rfl

theorem attestationRequest (nonce : BitVec 256) : Statement (Instr.attestationRequest nonce) := no_word rfl

theorem pcieDmaWrite (port : Nat) (addr : Nat) (pa : Option Nat) (data : List (BitVec 8)) : Statement (Instr.pcieDmaWrite port addr pa data) := no_word rfl

theorem pcieDmaRead (port : Nat) (addr : Nat) (pa : Option Nat) (size : Nat) : Statement (Instr.pcieDmaRead port addr pa size) := no_word rfl

theorem msi (port : Nat) (data : BitVec 64) : Statement (Instr.msi port data) := no_word rfl

theorem kslFlitReceive (port : Nat) (flit : BitVec 512) : Statement (Instr.kslFlitReceive port flit) := no_word rfl

theorem kslNackReceive (port : Nat) (seq : BitVec 16) : Statement (Instr.kslNackReceive port seq) := no_word rfl

theorem kslPartnerLost (port : Nat) : Statement (Instr.kslPartnerLost port) := no_word rfl

theorem powerThrottle (watts : BitVec 12) : Statement (Instr.powerThrottle watts) := no_word rfl

theorem thermalStop (die : Nat) : Statement (Instr.thermalStop die) := no_word rfl

theorem hubStackAccess (addr : Nat) (wr : Bool) (data : List (BitVec 8)) (size : Nat) (frozen : Bool) : Statement (Instr.hubStackAccess addr wr data size frozen) := no_word rfl

theorem dieFailure (die : Nat) : Statement (Instr.dieFailure die) := no_word rfl

theorem routeFault (core : Nat) : Statement (Instr.routeFault core) := no_word rfl

theorem portTrainingComplete (port : Nat) (lanes : BitVec 4) : Statement (Instr.portTrainingComplete port lanes) := no_word rfl

theorem yieldExpiry (core : Nat) (ctx : Nat) : Statement (Instr.yieldExpiry core ctx) := no_word rfl

theorem debuggerSingleStep (core : Nat) (ctx : Nat) : Statement (Instr.debuggerSingleStep core ctx) := no_word rfl

end Sys2Proof.Laws.Encoding
end

