-- ==== Sys2Proof/Machine/Shipped.lean ====
section
/-! DEFINITION. The trap handling of the micro-kernel image that is shipped with the package (11 R377, R247, 09 R207, 16 R293,
21 R347). The image is a program: the machine's steps do not use these functions, which say what the image makes of a trap that
its control context has taken. -/

namespace Sys2Proof.Machine

/-- What the image does with a trap. -/
inductive Handling where
  /-- `eret` with ACT 00. -/
  | resume
  /-- EPC is written, then `eret` with ACT 00 (R247). -/
  | resumeAt (a : Word)
  /-- `eret` with ACT 01: the unit ends. -/
  | cancel
  /-- EPC moves past the instruction, then `eret`. -/
  | skip
  /-- BUDGET rises by the unit's first budget, then `eret` with ACT 00 (R207). -/
  | extend
  /-- The journal entry is freed; then the unit is cancelled, or the control context goes on. -/
  | freeEntry (i : Nat) (cancel : Bool)
  /-- V is set in the page-table entry at `e`, the hire is resumed, then `eret` with ACT 00 (R293). -/
  | mapPage (e : Nat)
  /-- The hire is cancelled, then `eret` with ACT 00. -/
  | cancelHire
  /-- The image sees no such trap: it is not raised, or the pen has been reset. -/
  | absent
  deriving DecidableEq, Repr

/-- BUDGET with which the image starts a record whose budget is `b` (R207). -/
def shippedBudget (b : Nat) : Nat := if b = 0 then 2 ^ 32 - 1 else b

/-- Where the level-4 entry of an address lies, below the table at `t` on level `lvl` (08 R171). -/
def level4From (s : State) (va : Nat) : Nat → Nat → Nat → Option Nat
  | 0, t, lvl => some (t + 8 * vaIndex va lvl)
  | n + 1, t, lvl =>
    let e := s.word (t + 8 * vaIndex va lvl)
    if leafV e && !leafR e && !leafW e && !leafX e then
      level4From s va n ((e.extractLsb' 8 32).toNat * 256 / 2 ^ tableBits (lvl + 1) * 2 ^ tableBits (lvl + 1)) (lvl + 1)
    else none

/-- The level-4 entry of an address that the image may make valid: V = 0, R = W = 1, X = 0, FRZ = 0 and a PPN (R293). -/
def State.lazyEntry (s : State) (root : Word) (va : Nat) : Option Nat :=
  (level4From s va 3 ((root.extractLsb' 11 29).toNat * 2048) 1).filter (fun a =>
    let e := s.word a
    !leafV e && leafR e && leafW e && !leafX e && !leafFrz e && leafPpn e != 0)

/-- Whether a helper's g31 holds a sentry that lies in the bounds of its PCC (R247). -/
def Ctx.sentry31 (c : Ctx) : Bool :=
  let g := c.rg 31
  g.tag && g.otype == 1 && decide (c.pcc.bounds.1 ≤ g.addr ∧ (g.addr : Int) < c.pcc.bounds.2)

/-- What the image does with the trap that a core's control context holds: Table 237. `preempt` says that a pre-emption request
is pending on the core (R207). An HFLT whose master has ended, which R287 leaves to the control context, finds no STOPPED helper. -/
def State.handling (s : State) (core : Nat) (preempt : Bool) : Handling :=
  let r := (s.core core).cr
  let code := ecCode r.ecause
  let x := ecCtx r.ecause
  let c := s.ctx core x
  let entry := r.einfo.toNat % 32
  if x = 0 then
    if [tCAPT, tCAPB, tCAPP, tALN, tILL, tPGF, tBRK].contains code then .skip
    else if [tCHK, tCHAN].contains code then .resume
    else if code = tPOST then .freeEntry entry false
    else if code = tHFLT then .cancelHire
    else .absent
  else
    if [tCAPT, tCAPB, tCAPP, tALN].contains code then (if c.sentry31 then .resumeAt (c.rg 31).word else .cancel)
    else if [tILL, tPGF, tPOIS, tCHAN, tSVC, tBRK].contains code then .cancel
    else if [tCHK, tTAP, tPARK].contains code then .resume
    else if code = tBUDG then (if preempt then .cancel else .extend)
    else if code = tHFLT then
      if c.st ≠ .stopped then .cancelHire else
      (match s.lazyEntry (s.rootOf core 1) r.eadr.toNat with
       | some e => .mapPage e
       | none => .cancelHire)
    else if code = tPOST then .freeEntry entry true
    else .absent

/-- The image's `eret` with an action. -/
def State.shippedEret (s : State) (core act : Nat) : State :=
  let s1 := { s with curCore := core, curCtx := 0 }.modCore core (fun k =>
    { k with cr := { k.cr with ecause := (k.cr.ecause &&& ~~~0x3000000#64) ||| BitVec.ofNat 64 (act * 2 ^ 24) } })
  match s1.eretEff with
  | .next t => t
  | .jump t p => t.modCtx core 0 (fun c => { c with pcc := p })
  | _ => s1

/-- The image writes EPC; ERPC.RV is 0 after it, so that `eret` goes there (R226, R247). -/
def State.writeEpc (s : State) (core : Nat) (a : Word) : State :=
  s.modCore core (fun k => { k with cr := { k.cr with epc := a, erpc := 0 } })

/-- The image's `hire.r` or `cancel` of the hire that an HFLT names. Its `eret` follows the array's answer, as it follows every earlier
operation of the control context (R226). -/
def State.shippedHire (s : State) (core : Nat) (resume : Bool) : State :=
  let r := (s.core core).cr
  let x := ecCtx r.ecause
  let h := r.einfo.toNat % 64
  let s := { s with curCore := core, curCtx := 0 }
  match (s.core core).named clsArray x h true with
  | none => s
  | some v =>
    let s1 := s.startOut .none .away (setM ||| setE) []
    let s2 := s1.sendPkt (if resume then .resume (s.arrHeader 0x301 0 x h) v.cmd core 0 s.nextId
      else .cancel (s.cancelHeader clsArray x h) clsArray v.cmd core 0 s.nextId)
    match (if resume then execHireResumeArrival s1.nextId s2 else execEngineCancelArrival s1.nextId s2) with
    | .next t => t
    | _ => s2

/-- The state after the image has handled the trap that a core's control context holds (R377). -/
def State.handled (s : State) (core : Nat) (preempt : Bool) : State :=
  let r := (s.core core).cr
  let x := ecCtx r.ecause
  match s.handling core preempt with
  | .resume => s.shippedEret core 0
  | .resumeAt a => (s.writeEpc core a).shippedEret core 0
  | .cancel => s.shippedEret core 1
  | .skip => (s.writeEpc core (r.epc + BitVec.ofNat 64 (2 * ecIlen r.ecause))).shippedEret core 0
  | .extend =>
    (s.modCtx core x (fun c => { c with cr := { c.cr with
      budget := BitVec.ofNat 64 (min (2 ^ 64 - 1)
        (c.cr.budget.toNat + shippedBudget (c.task.extractLsb' 96 32).toNat)) } })).shippedEret core 0
  | .freeEntry i cancel => (s.modCore core (fun k => k.freeEntry i)).shippedEret core (if cancel then 1 else 0)
  | .mapPage e => ((s.store e (toLE (s.word e ||| 1).toNat 8) false).shippedHire core true).shippedEret core 0
  | .cancelHire => (s.shippedHire core false).shippedEret core 0
  | .absent => s

end Sys2Proof.Machine
end

