-- ==== Sys2Proof/Tests/Slice0.lean ====
section
/-! SUPPORT. Small tests: words written out from the spec's encodings, ill-formed terms that the checks refuse, single steps
with results taken from the spec's own examples and tables, and states that meet the hypotheses of the statements. -/

namespace Sys2Proof.Tests

set_option Elab.async false

open Sys2Proof.Machine

/-! ## States and operands -/

/-- An operand with operand bits alone. -/
def opOf (x : BitVec 9) : Op := ⟨false, false, x, none, none, none, [], false⟩

/-- F2 operand bits (02 Table 14). -/
def f2 (d a x : Nat) : Op := opOf (BitVec.ofNat 9 (32 * d + 2 * a + x))

/-- FI operand bits (02 Table 14). -/
def fi (d i : Nat) : Op := opOf (BitVec.ofNat 9 (32 * d + i % 32))

/-- An F2 operand with PREG: D, A, B and W (02 Table 15). -/
def f3 (d a b w x : Nat) : Op :=
  { f2 (d % 16) (a % 16) x with
    preg := some ⟨BitVec.ofNat 4 b, decide (16 ≤ d), decide (16 ≤ a), decide (16 ≤ b), BitVec.ofNat 2 w⟩ }

/-- The same operand with PIMMs. -/
def withK (o : Op) (ks : List Nat) : Op := { o with pimm := ks.map (BitVec.ofNat 9) }

/-- A plain g register value. -/
def num (x : Nat) : GReg := GReg.ofWord (BitVec.ofNat 64 x)

/-- A LIVE context with g registers. -/
def live (g : Store GReg) : Ctx := { Ctx.init with st := .live, g := g, pcc := rootPcc 0x100000#64 }

/-- Core 0 released, with a context that executes. -/
def stateAt (x : Nat) (c : Ctx) : State :=
  { State.reset with
    cores := [(0, { Core.dflt with held := false, ctxs := if x = 0 then [(0, c)] else [(0, Ctx.control 0), (x, c)] })]
    curCtx := x }

/-- The same with other supervisor registers. -/
def withCr (s : State) (r : CoreRegs) : State := s.modCore 0 (fun k => { k with cr := r })

/-- EVEC as the tests have it: the root over user memory with X (04 Table 43). -/
def evecCap : GReg := rootPcc 0x200000#64

/-- The control context of core 0 with EVEC written. -/
def control (g : Store GReg) : State := withCr (stateAt 0 (live g)) { CoreRegs.init with evec := evecCap }

/-- Helper 3 of core 0. -/
def helper (g : Store GReg) : State := stateAt 3 (live g)

/-- The self-window address of bank 2, which is in PAD role at reset (01 Table 8, 08 R160). -/
def selfAddr (off : Nat) : Word := BitVec.ofNat 64 (0xFFFFFFFFFFFE0000 + 0x8000 + off)

/-- A capability over the self window with its address in bank 2. -/
def selfCap (off : Nat) : GReg := selfWindowCap.withAddr (selfAddr off)


/-- Whether an answer is a given value. -/
def answers {ε α : Type} [DecidableEq α] (r : Except ε α) (x : α) : Bool :=
  match r with
  | .ok y => decide (y = x)
  | .error _ => false

theorem of_answers {ε α : Type} [DecidableEq α] {r : Except ε α} {x : α} (h : answers r x = true) : r = .ok x := by
  cases r with
  | ok y => simpa [answers] using h
  | error e => simp [answers] at h

/-- The state of a step that goes on. -/
def after (r : Host.Outcome State Fault Refusal) : State :=
  match r with
  | .next t => t
  | _ => State.reset
/-! ## Ill-formed terms -/

theorem wf_refuses_four_pimms : (Instr.ldi (withK (fi 1 0) [0, 0, 0, 0])).wellFormed opNop = false := by decide

theorem wf_refuses_five_prefixes : (Instr.csel { withK (f3 1 2 3 0 0) [0, 0, 0] with ppag := some ⟨2, 0⟩ }).wellFormed opNop = false := by
  decide

theorem wf_refuses_ignored_bit_without_prefix : (Instr.add { f2 1 2 0 with rsv := true }).wellFormed opNop = false := by decide

theorem wf_refuses_page_without_ppag : (Instr.div (f2 1 2 0)).wellFormed opNop = false := by decide

theorem wf_refuses_wrong_x : (Instr.add (f2 1 2 1)).wellFormed opNop = false := by decide

theorem wf_refuses_wrong_minor : Instr.ret.wellFormed (opOf 4) = false := by decide

theorem wf_refuses_wrong_k : (Instr.satt { withK (f2 1 2 0) [1] with ppag := some ⟨2, 0⟩ }).wellFormed opNop = false := by decide

theorem wf_refuses_event : (Instr.lock 1).wellFormed opNop = false := by decide

theorem wf_accepts_add : (Instr.add (f2 5 6 0)).wellFormed opNop = true := by decide

/-! ## Words from the spec's encodings -/

/-- Whether words decode to an instruction, with its operand, and nothing is left. -/
def decodesTo (ws : List HWord) (i : Instr) (o : Op) : Bool :=
  match decode ws with
  | .ok ((j, p), []) => decide (j = i ∧ p = o)
  | _ => false

/-- The operand of a page, with package scope and plain order. -/
def paged (o : Op) : Op := { o with ppag := some ⟨2, 0⟩ }

-- 11 Table 119: `st g4, [g8+8]` has the words 0x3808 0x1E91.
theorem decode_st : decodesTo [0x3808, 0x1E91] (.st (withK (f2 4 8 1) [8])) (withK (f2 4 8 1) [8]) = true := by decide

-- 06 Table 64: br is 0x1800, bz 0x1400; an FB offset of all ones is -1.
theorem decode_br : decodesTo [0x19FF] (.br (opOf 0x1FF)) (opOf 0x1FF) = true := by decide

theorem br_offset : (opOf 0x1FF).fbImm = -1 := by decide

-- 06 Table 59: divu is page 1, OP 0, X 1; PPAG of page 1 is 0x3C30.
theorem decode_divu : decodesTo [0x3C30, 0x0043] (.divu (paged (f2 2 1 1))) (paged (f2 2 1 1)) = true := by decide

-- 06 R125: csel is page 1 with base word 0x1000; PREG 0x3A60 names g3 as B.
theorem decode_csel : decodesTo [0x3A60, 0x3C30, 0x1024] (.csel (paged (f3 1 2 3 0 0))) (paged (f3 1 2 3 0 0)) = true := by
  decide

-- 11 Table 124: eret is page 7, OP 0, minor 0, and needs the PPAG word 0x3CF0.
theorem decode_eret : decodesTo [0x3CF0, 0x0000] .eret (paged (opOf 0)) = true := by decide

theorem decode_rcflush : decodesTo [0x3CF0, 0x0002] .rcflush (paged (opOf 2)) = true := by decide

-- 02 R47: OP 27 of page 7 is reserved; 02 R40: a page above 7 is illegal.
theorem decode_reserved : decode [0x3CF0, 0x3600] = .error .reservedOp := by rfl

theorem decode_page_eight : decode [0x3D10, 0x0000] = .error .pageAbove7 := by rfl

-- 02 R39: a fourth PIMM, a second PREG, and a fifth prefix word.
theorem decode_four_pimms : decode [0x3800, 0x3800, 0x3800, 0x3800, 0] = .error .badChain := by rfl

theorem decode_two_pregs : decode [0x3A00, 0x3A00, 0] = .error .badChain := by rfl

theorem decode_five_prefixes : decode [0x3800, 0x3800, 0x3A00, 0x3C10, 0x3E80, 0] = .error .badChain := by rfl


/-! ## Words of the other pages -/

-- 02 Table 20, 07 R144: vadd is page 2, OP 0, X 0; PPAG of page 2 is 0x3C50.
theorem decode_vadd : decodesTo [0x3C50, 0x0000] (.vadd (paged (f2 0 0 0))) (paged (f2 0 0 0)) = true := by decide

-- 07 Table 74: `vfadd.bf16.z v2, v3, p5`: page 3, PVEC 0x3E2C (type 000, predicate 5, zeroing).
theorem decode_vfadd : (decode [0x3C70, 0x3E2C, 0x0046]).toOption.map (fun r => (r.1.2.et, r.1.2.pr, r.1.2.z, r.1.2.rd, r.1.2.ra)) =
    some (0, 5, true, 2, 3) := by rfl

-- 08: vld is page 4, OP 0, X 0; vperm is page 4 with base word 0x0800.
theorem decode_vld : decodesTo [0x3C90, 0x0000] (.vld (paged (f2 0 0 0))) (paged (f2 0 0 0)) = true := by decide

theorem decode_vperm : decodesTo [0x3C90, 0x0800] (.vperm (paged (f2 0 0 0))) (paged (f2 0 0 0)) = true := by decide

-- 08: `ld.fec.sw g12, [g9+0]`: page 1 with system scope... order .sw
theorem decode_ldFec : decodesTo [0x3C30, 0x9393] (.ldFec { paged (f2 12 9 1) with m := true }) { paged (f2 12 9 1) with m := true } = true := by
  decide

-- 15: `hire g5, g6`, 13: `copy g5, g6`, 15: `hwait.sw g7, g5` on page 5.
theorem decode_hire : decodesTo [0x3CB0, 0x00AC] (.hire (paged (f2 5 6 0))) (paged (f2 5 6 0)) = true := by decide

theorem decode_copy : decodesTo [0x3CB0, 0x04AC] (.copy (paged (f2 5 6 0))) (paged (f2 5 6 0)) = true := by decide

theorem decode_hwait : decodesTo [0x3CB0, 0x82EA] (.hwait { paged (f2 7 5 0) with m := true }) { paged (f2 7 5 0) with m := true } = true := by
  decide

-- 09: `callat g9, g10, g11` has B in PREG; `retto g1, g4` and `fence 0x084` on page 6.
theorem decode_callat : decodesTo [0x3CD0, 0x3B60, 0x0F34] (.callat (paged (f3 9 10 11 0 0))) (paged (f3 9 10 11 0 0)) = true := by
  decide

theorem decode_retto : decodesTo [0x3CD0, 0x0E29] (.retto (paged (f2 1 4 1))) (paged (f2 1 4 1)) = true := by decide

theorem decode_fence : decodesTo [0x3CD0, 0x0884] .fence (paged (opOf 0x84)) = true := by decide

-- 09: `bar.sw g16, g16, 0`: PREG with D4 and A4.
theorem decode_bar : decodesTo [0x3CD0, 0x3A18, 0x9600] (.bar { paged (f3 16 16 0 0 0) with m := true })
    { paged (f3 16 16 0 0 0) with m := true } = true := by decide

-- 09: `recvp g9, g19`: PREG with A4 and PIMM 1.
theorem decode_recvp : decodesTo [0x3CD0, 0x3A08, 0x3801, 0x0D27] (.recvp (withK (paged (f3 9 19 0 0 1)) [1]))
    (withK (paged (f3 9 19 0 0 1)) [1]) = true := by decide

/-! ## Single steps of the scalar forms -/

/-- The address bits of g[r] of the executing context after one instruction. -/
def gAfter (i : Instr) (s : State) (r : Nat) : Nat := (((after (exec i s)).ctx s.curCore s.curCtx).rg r).addr

/-- The value of the last outstanding result of the executing context after one instruction, if it is ready. -/
def outAfter (i : Instr) (s : State) : Option RVal :=
  match ((after (exec i s)).ctx s.curCore s.curCtx).outs.getLast? with
  | some o => match o.wait with
    | .ready v _ => some v
    | _ => none
  | none => none

/-- The pending traps of the core, as code, EADR and EINFO. -/
def trapsAfter (i : Instr) (s : State) : List (Nat × Word × Word) :=
  ((after (exec i s)).core s.curCore).pending.map (fun t => (t.code, t.addr, t.info))

-- 06 R117: at W = 01 the sum wraps at 32 bits and is zero-extended.
theorem test_add_wraps : gAfter (.add (f3 5 6 7 1 0)) (helper [(6, num 0xFFFFFFFF), (7, num 3)]) 5 = 2 := by decide +kernel

-- 04 R73: g0 stays null.
theorem test_add_g0 : gAfter (.add (f2 0 6 0)) (helper [(6, num 5)]) 0 = 0 := by decide +kernel

-- 06 R120, Table 58: the shift count is taken modulo the width.
theorem test_shl_modulo : gAfter (.shl (f3 5 6 7 1 0)) (helper [(6, num 1), (7, num 33)]) 5 = 2 := by decide +kernel

theorem test_sar_sign : gAfter (.sar (f3 5 6 7 3 0)) (helper [(6, num 0x80), (7, num 4)]) 5 = 0xF8 := by decide +kernel

theorem test_sub_order : gAfter (.sub (f2 5 6 0)) (helper [(5, num 9), (6, num 4)]) 5 = 5 := by decide +kernel

theorem test_mulh_signed : gAfter (.mulh (f3 5 6 7 3 0)) (helper [(6, num 0xFF), (7, num 2)]) 5 = 0xFF := by decide +kernel

-- 06 R122, Table 59: x / 0 is all ones, x rem 0 is x, and the least number over −1 is itself.
theorem test_div_zero : outAfter (.div (f3 5 6 7 1 0)) (helper [(6, num 7), (7, num 0)]) =
    some (.g (GReg.ofWord 0xFFFFFFFF)) := by decide +kernel

theorem test_div_least : outAfter (.div (f3 5 6 7 3 0)) (helper [(6, num 0x80), (7, num 0xFF)]) =
    some (.g (GReg.ofWord 0x80)) := by decide +kernel

theorem test_rem_sign : outAfter (.rem (f3 5 6 7 3 0)) (helper [(6, num 0xF9), (7, num 2)]) =
    some (.g (GReg.ofWord 0xFF)) := by decide +kernel

-- 06 R121: FI immediates are signed, five bits without PIMM.
theorem test_ldi_negative : gAfter (.ldi (fi 4 31)) (helper []) 4 = 2 ^ 64 - 1 := by decide +kernel

theorem test_addi_negative : gAfter (.addi (fi 4 31)) (helper [(4, num 0)]) 4 = 2 ^ 64 - 1 := by decide +kernel

-- 06 R124: K2 gives the position and the width less one.
theorem test_bfx : gAfter (.bfx (withK (f2 5 6 0) [196])) (helper [(6, num 0xABCD)]) 5 = 0xC := by decide +kernel

theorem test_csel_false : gAfter (.csel (f3 5 6 7 0 0)) (helper [(5, num 1), (6, num 2), (7, num 0)]) 5 = 1 := by decide +kernel

-- 05: 1.5 + 1.5 = 3.0 and 1.0 × −0.0 = −0.0 in fp32 (06 R126).
theorem test_fadd : gAfter (.fadd (f3 5 6 7 1 0)) (helper [(6, num 0x3FC00000), (7, num 0x3FC00000)]) 5 = 0x40400000 := by
  decide +kernel

theorem test_fmul_negzero : gAfter (.fmul (f3 5 6 7 1 0)) (helper [(6, num 0x3F800000), (7, num 0x80000000)]) 5 =
    0x80000000 := by decide +kernel

-- 06 R129: a taken branch moves by twice the offset from its own address.
theorem test_br_back : ((after (exec (.br (opOf 0x1FF)) (helper []))).ctx 0 3).pcc.addr = 0x100000 - 2 := by decide +kernel

theorem test_bnz_untaken : ((after (exec (.bnz (fi 4 5)) (helper []))).ctx 0 3).pcc.addr = 0x100002 := by decide +kernel

-- 06 R131: call links with object type 1.
theorem test_call_link : (((after (exec (.call (opOf 4)) (helper []))).ctx 0 3).rg 15).otype = 1 ∧
    (((after (exec (.call (opOf 4)) (helper []))).ctx 0 3).rg 15).addr = 0x100002 := by decide +kernel

-- 06 R130: a jump through an untagged register raises CAPT.
theorem test_jmp_untagged : (trapsAfter (.jmp (f2 0 4 0)) (helper [(4, num 0x100)])).map Prod.fst = [tCAPT] := by decide +kernel

-- 04 R88: cbnd of 0x1000 bytes at an aligned address is exact.
theorem test_cbnd_exact : (((after (exec (.cbnd (f2 5 6 1))
      (helper [(5, (rootCap permsNoX 27 0 0x100000 0).withAddr 0x4000), (6, num 0x1000)]))).ctx 0 3).rg 5).bounds =
    (0x4000, 0x5000) := by decide +kernel

-- 04 R89: a moved address outside the representable range clears the tag.
theorem test_cset_far : (((after (exec (.cset (f2 5 6 0)) (helper [(5, selfCap 0), (6, num 0)]))).ctx 0 3).rg 5).tag = false := by
  decide +kernel

theorem test_mtc_warn : ((after (exec (.mtc (fi 4 3)) ((helper [(4, num 5)]).modCtx 0 3 (fun c => { c with cr := { c.cr with warn := 7 } })))).ctx 0 3).cr.warn = 2 := by
  decide +kernel

theorem test_svc : trapsAfter (.svc (fi 4 7)) (helper []) = [(tSVC, 0, 0x400000007)] := by decide +kernel

theorem test_mfcs_helper : trapsAfter (.mfcs (withK (f2 4 5 0) [0])) (helper []) = [(tILL, 0x100000, 4)] := by decide +kernel

/-! ## States that meet the hypotheses of the statements: the scalar forms -/

/-- A helper with one outstanding division for g9. -/
def oneOut : State := (helper []).modCtx 0 3 (fun c => { c with
  outs := [⟨1, .g 9, false, true, .ready (putVal 5#64) 0, 0, [], 0⟩] })

theorem witness_IntegerTwoSourceResults : (helper [(6, num 1)]).calm (f3 5 6 7 1 0) = true := by decide +kernel

theorem witness_IntegerOneSourceResults : (control [(6, num 1)]).calm (f2 5 6 0) = true ∧
    (let s := helper [(6, selfWindowCap.withOtype 15)]
     s.trapReady = true ∧ (f2 5 6 0).w = 0 ∧ uncopied (s.g 6) = true) := by decide +kernel

theorem witness_ImmediateAndFieldResults : (helper []).calm { fi 5 31 with m := true } = true ∧
    (let s := helper [(6, selfWindowCap.withOtype 15), (7, num 1)]
     s.trapReady = true ∧ uncopied (s.g 6) = true ∧ (s.g 7).word ≠ 0 ∧ (s.g 8).word = 0) := by decide +kernel

-- Both clauses, at the limit of eight outstanding results (04 R81).
theorem witness_DivisionPendsItsResult :
    let full (n : Nat) : State := (helper []).modCtx 0 3 (fun c => { c with
      outs := (List.range n).map (fun i => ⟨i + 1, .g (8 + i), false, false, .away, 0, [], 0⟩) })
    (full 7).calm (f2 5 6 0) = true ∧ (full 7).cx.roomFor (.g 5) = true ∧ (full 8).cx.roomFor (.g 5) = false := by
  decide +kernel

theorem witness_FloatScalarResults : (helper []).calm (f3 5 6 7 1 0) = true := by decide +kernel

theorem witness_FloatConversionsAndSlowForms :
    (helper []).calm (withK (f2 5 6 0) [5]) = true ∧ (helper []).cx.roomFor (.g 5) = true := by decide +kernel

/-- A helper at `pc` whose PCC reaches the bytes from `b` to `b + n`. -/
def helperAt (b n pc : Nat) (g : Store GReg) : State :=
  stateAt 3 { live g with pcc := (makeCap (pX ||| pL) 0 b n (BitVec.ofNat 64 b)).withAddr (BitVec.ofNat 64 pc) }

-- A target that is the last word that PCC reaches, and the one behind it; one below the base.
theorem witness_DirectBranches :
    let s := helperAt 0x1000 0x100 0x10F0 [(4, num 1)]
    s.cx.pcc.bounds = (0x1000, 0x1100) ∧ s.calm (opOf 7) = true ∧ s.trapReady = true ∧
      (s.pc.toNat : Int) + 2 * (opOf 7).fbImm + 2 = s.cx.pcc.bounds.2 ∧
      s.cx.pcc.bounds.2 < (s.pc.toNat : Int) + 2 * (opOf 8).fbImm + 2 ∧
      (s.pc.toNat : Int) + 2 * (opOf 0x180).fbImm < s.cx.pcc.bounds.1 := by decide +kernel

-- The last even address of the target, object type 1.
theorem witness_JumpsUnsealIntoPcc :
    let c := ((makeCap (pX ||| pL) 1 0x1000 0x100 0x1000#64).withAddr 0x10FE)
    let s := { helper [(6, c), (15, c)] with opr := f2 0 6 0 }
    s.calm s.opr = true ∧ ∀ r ∈ [6, 15], (s.g r).tag = true ∧ (s.g r).broken = false ∧ (s.g r).otype = 1 ∧
      (s.g r).perms &&& pX ≠ 0 ∧ (s.g r).bounds.1 ≤ ((s.g r).addr : Int) ∧
      ((s.g r).addr : Int) + 2 ≤ (s.g r).bounds.2 ∧ (s.g r).addr % 2 = 0 := by decide +kernel

-- No tag, object type 2, no X, the first address past the last one, and an odd address.
theorem witness_JumpsUnsealIntoPcc_traps :
    let c := makeCap (pX ||| pL) 0 0x1000 0x100 0x1000#64
    let far := c.withAddr 0x10FF
    let odd := c.withAddr 0x1001
    (∀ x ∈ [c.withTag false, c.withOtype 2, makeCap pL 0 0x1000 0x100 0x1000#64, far, odd], (helper [(6, x), (15, x)]).trapReady = true) ∧
    (c.withOtype 2).tag = true ∧ (c.withOtype 2).otype = 2 ∧ (makeCap pL 0 0x1000 0x100 0x1000#64).perms &&& pX = 0 ∧
    (far.tag = true ∧ far.broken = false ∧ far.otype = 0 ∧ far.perms &&& pX ≠ 0 ∧ far.bounds.2 = (far.addr : Int) + 1) ∧
    odd.bounds.1 ≤ (odd.addr : Int) ∧ (odd.addr : Int) + 2 ≤ odd.bounds.2 ∧ odd.addr % 2 = 1 := by decide +kernel

theorem witness_CapabilityDerivationResults : (helper [(6, selfCap 0)]).calm (f2 5 6 0) = true := by decide +kernel

-- A result with a tag, narrower than its source.
theorem witness_DerivationNeverWidens :
    (((selfCap 0).bound 16).tag = true ∧ ((selfCap 0).bound 16).bounds ≠ (selfCap 0).bounds) ∧ 0xFFF < 4096 := by
  decide +kernel

-- Registers 0 and 14 of any context, 32 and 42 of a control context; 15 and 31 of none, 43, and 32 of a helper.
theorem witness_ControlRegisterAccess :
    (helper []).calm (fi 4 14) = true ∧ (fi 4 14).fiRaw = 14 ∧ (control []).calm (withK (fi 4 0) [1]) = true ∧
      (withK (fi 4 0) [1]).fiRaw = 32 ∧ (withK (fi 4 10) [1]).fiRaw = 42 ∧
      (let s := control [(4, num 9)]
       let h := s.setCtx 0 10 (live [])
       s.calm (withK (fi 4 10) [1]) = true ∧ s.curCtx = 0 ∧ s.ck.anyHelper = false ∧
         (s.ck.ctx 0).heldRegs.filter (s.ck.evicted 0) = [] ∧ h.calm (withK (fi 4 10) [1]) = true ∧
         h.ck.anyHelper = true) := by decide +kernel

-- A write of EVEC, and of ECAUSE without its reserved bits (11 Table 116).
theorem test_mtc_ecause : ((after (exec (.mtc (withK (fi 4 1) [1])) (control [(4, GReg.ofWord (BitVec.allOnes 64))]))).core 0).cr.ecause =
    0x3F8F0FF#64 := by decide +kernel

theorem witness_IllegalControlRegisterRaisesIll :
    (helper []).trapReady = true ∧ (fi 4 15).fiRaw = 15 ∧ (control []).trapReady = true ∧
      (withK (fi 4 11) [1]).fiRaw = 43 := by decide +kernel

theorem witness_SupervisorCallAndBreakTrap :
    (helper []).trapReady = true ∧ (helper []).curCtx ≠ 0 ∧ (control []).trapReady = true ∧ (control []).curCtx = 0 ∧
      opNop = (control []).opr := by decide +kernel

theorem witness_NopAndYieldChangeNothing : (helper []).calm (helper []).opr = true ∧ (helper []).curCtx ≠ 0 := by decide +kernel

/-! ## States that meet the hypotheses: memory -/

/-- The value of an answer, if it has one. -/
def got {ε α : Type} (r : Except ε α) (d : α) : α :=
  match r with
  | .ok x => x
  | .error _ => d

/-- The core's partition: interface 0 with cluster 0 and one pen over it. -/
def inPart (s : State) : State :=
  { s with vifs := [(0, { Vif.init with pctrl := 1, cmap := [(0, 0)], troot := BitVec.ofNat 64 placeRoot, pens := [⟨0, 0, 16, 12, 5, 7, []⟩] })] }

/-- The same with the page at 0x40000 of stack memory mapped, readable and writable, at 0x20000. -/
def mapped (s0 : State) : State :=
  let s := inPart s0
  let s := s.putEntry (placeRoot + 8 * vaIndex 0x40000 1) (BitVec.ofNat 64 (placeRoot + 0x1001))
  let s := s.putEntry (placeRoot + 0x1000 + 8 * vaIndex 0x40000 2) (BitVec.ofNat 64 (placeRoot + 0x2001))
  let s := s.putEntry (placeRoot + 0x2000 + 8 * vaIndex 0x40000 3) (BitVec.ofNat 64 (placeRoot + 0x3001))
  let s := s.putEntry (placeRoot + 0x3000 + 8 * vaIndex 0x40000 4) (BitVec.ofNat 64 (placePage + 0x67))
  s.modDie 0 (fun d => { d with kroot := BitVec.ofNat 64 placeRoot })

/-- A capability over all of user memory but X. -/
def memCap (a : Nat) : GReg := (rootCap permsNoX 27 0 0x100000 0).withAddr (BitVec.ofNat 64 a)

/-- A helper with a local-store granule whose F is 1. -/
def fullAt (g : Store GReg) : State := (helper g).setF (lsLoc 0 0x8010) true

/-- What finding a location of the own local store comes to: nothing changes. -/
theorem reaches_self {s s1 : State} {c : GReg} {va : Word} {n al perms kind loc : Nat} {types : List Nat}
    (h1 : answers (checkCap c va n perms types) () = true)
    (h2 : answers (s.opened.locate s.curCore s.curCtx va n al kind) (s1, loc, false) = true) :
    s.Reaches c va n al perms types kind s1 loc := ⟨of_answers h1, of_answers h2⟩

-- A load of the last eight bytes of a bank, a granule, and full/empty and mask loads that find what they need.
theorem witness_LoadsReturnMemory :
    let s := fullAt [(6, selfCap 0x10), (5, num 0)]
    let e := helper [(6, selfCap 0x3FF8)]
    (e.cx.roomFor (.g 5) = true ∧ e.ready (.ld (f2 5 6 0)) (f2 5 6 0) = true ∧
      e.Reaches (e.g 6) (e.memAddr (f2 5 6 0)) 8 3 pL [0] kLoad e.opened (lsLoc 0 0xBFF8) ∧
      e.opened.readPoison (lsLoc 0 0xBFF8) 8 = none) ∧
    (s.ready (.ldc (f2 5 6 0)) (f2 5 6 0) = true ∧ (s.g 6).otype = 0 ∧
      s.Reaches (s.g 6) (s.memAddr (f2 5 6 0)) 16 4 pL [0, 3] kLoad s.opened (lsLoc 0 0x8010) ∧
      s.opened.readPoison (lsLoc 0 0x8010) 16 = none) ∧
    (s.ready (.ldf (f2 5 6 0)) (f2 5 6 0) = true ∧
      s.Reaches (s.g 6) (s.memAddr (f2 5 6 0)) 1 0 pF [0] kLoad s.opened (lsLoc 0 0x8010)) ∧
    (s.ready (.ldFe (f2 5 6 0)) (f2 5 6 0) = true ∧
      s.Reaches (s.g 6) (s.memAddr (f2 5 6 0)) 8 3 (pL ||| pF) (feTypes (s.memAddr (f2 5 6 0))) kLoad s.opened (lsLoc 0 0x8010) ∧
      s.opened.fBit (lsLoc 0 0x8010) = true) ∧
    (s.ready (.waitb (f2 5 6 0)) (f2 5 6 0) = true ∧
      s.opened.word (lsLoc 0 0x8010) &&& (s.g 5).word = (s.g 5).word) := by
  refine ⟨⟨by decide +kernel, by decide +kernel, reaches_self ?_ ?_, by decide +kernel⟩,
    ⟨by decide +kernel, by decide +kernel, reaches_self ?_ ?_, by decide +kernel⟩,
    ⟨by decide +kernel, reaches_self ?_ ?_⟩, ⟨by decide +kernel, reaches_self ?_ ?_, by decide +kernel⟩,
    ⟨by decide +kernel, by decide +kernel⟩⟩ <;> decide +kernel

theorem witness_FullEmptyLoadTakesOrWaits :
    let s := fullAt [(6, selfCap 0x10)]
    let e := helper [(6, selfCap 0x10)]
    s.cx.roomFor (.g 5) = true ∧ s.ready (.ldFec (f2 5 6 0)) (f2 5 6 0) = true ∧
      s.Reaches (s.g 6) (s.memAddr (f2 5 6 0)) 8 3 (pL ||| pF) (feTypes (s.memAddr (f2 5 6 0))) kLoad s.opened (lsLoc 0 0x8010) ∧
      s.opened.fBit (lsLoc 0 0x8010) = true ∧ s.opened.readPoison (lsLoc 0 0x8010) 8 = none ∧
      e.ready (.ldFec (f2 5 6 0)) (f2 5 6 0) = true ∧
      e.Reaches (e.g 6) (e.memAddr (f2 5 6 0)) 8 3 (pL ||| pF) (feTypes (e.memAddr (f2 5 6 0))) kLoad e.opened (lsLoc 0 0x8010) ∧
      e.opened.fBit (lsLoc 0 0x8010) = false := by
  refine ⟨by decide +kernel, by decide +kernel, reaches_self ?_ ?_, by decide +kernel, by decide +kernel,
    by decide +kernel, reaches_self ?_ ?_, by decide +kernel⟩ <;> decide +kernel

/-- Helper 3 with a capability to its last reply slot, whose granule is full or empty. -/
def atSlot (full : Bool) : State :=
  let a : Word := BitVec.ofNat 64 (0xFFFFFFFFFFFE0000 + slotOff 63)
  let s := (helper [(6, makeCap (pL ||| pLC ||| pF) 3 a.toNat 16 a)]).modCore 0 (fun k => { k with slots := [(63, ⟨.busy, 3, 0⟩)] })
  if full then s.setF (lsLoc 0 (slotOff 63)) true else s

theorem reaches_slot (full : Bool) :
    (atSlot full).Reaches ((atSlot full).g 6) ((atSlot full).memAddr (f2 5 6 0)) 16 4 (pL ||| pLC) [0, 3] kLoad (atSlot full).opened
      (lsLoc 0 (slotOff 63)) ∧
    (atSlot full).Reaches ((atSlot full).g 6) ((atSlot full).memAddr (f2 5 6 0)) 8 3 (pL ||| pF)
      (feTypes ((atSlot full).memAddr (f2 5 6 0))) kLoad (atSlot full).opened (lsLoc 0 (slotOff 63)) := by
  cases full <;> (refine ⟨reaches_self ?_ ?_, reaches_self ?_ ?_⟩ <;> decide +kernel)

theorem witness_FullEmptyLoadTakesOrWaits_slot :
    (∀ full ∈ [true, false], (atSlot full).cx.roomFor (.g 5) = true ∧ (atSlot full).ready (.ldc (f2 5 6 0)) (f2 5 6 0) = true ∧
      (atSlot full).ready (.ldFec (f2 5 6 0)) (f2 5 6 0) = true ∧ ((atSlot full).g 6).otype = 3 ∧
      (atSlot full).opened.fBit (lsLoc 0 (slotOff 63)) = full ∧
      (atSlot full).opened.readPoison (lsLoc 0 (slotOff 63)) 16 = none) ∧
    lsLoc 0 (slotOff 63) / 16 * 16 = lsLoc (atSlot true).curCore (slotOff 63) := by decide +kernel

-- `ldc` of a full reply slot frees it in the same step (09 R198).
theorem test_ldc_frees : (Store.get ReplySlot.init ((after (exec (.ldc (f2 5 6 0)) (atSlot true))).core 0).slots 63).st = .free := by
  decide +kernel

-- The stores that are performed at once, and a plain store to stack memory that is held.
theorem witness_ScalarStores :
    let s := helper [(6, selfCap 0x3FF0), (5, selfCap 0)]
    let o := f2 5 6 0
    let m := mapped (helper [(6, memCap 0x4FFF8), (5, num 7)])
    let m1 := (got (m.opened.locate 0 3 0x4FFF8 8 3 kStore) (m, 0, false)).1
    let loc := lsLoc 0 0xBFF0
    (∀ i ∈ [Instr.st o, .stFs o, .stFw o, .stN4 o, .setb o, .stc o], s.ready i o = true) ∧
    s.Reaches (s.g 6) (s.memAddr o) 8 3 (pS ||| pF) [0] kStore s.opened loc ∧
    s.Reaches (s.g 6) (s.memAddr o) 16 4 (pS ||| pSC) [0] kStore s.opened loc ∧
    s.Reaches (s.g 6) ((s.g 6).word + BitVec.ofInt 64 (o.off / 2)) 1 0 pS [0] kStore s.opened loc ∧
    (isStack loc = false ∧ loc % 16 = 0 ∧ s.opened.fBit loc = false ∧ s.opened.partPoison loc 8 = none ∧
      s.opened.noLeaf loc 16 = true) ∧
    m.ready (.st o) o = true ∧ m.Reaches (m.g 6) (m.memAddr o) 8 3 pS [0] kStore m1 0x2FFF8 ∧
    isStack 0x2FFF8 = true ∧ o.orderRaw = 0 ∧ m1.partPoison 0x2FFF8 8 = none := by
  refine ⟨by decide +kernel, reaches_self ?_ ?_, reaches_self ?_ ?_, reaches_self ?_ ?_, by decide +kernel, by decide +kernel,
    reaches_self ?_ ?_, by decide +kernel, by decide +kernel, by decide +kernel⟩ <;> decide +kernel

theorem witness_AtomicsUpdateAtHome :
    let s := helper [(6, selfCap 0x3FF0), (5, num 1), (7, selfCap 0)]
    let o := f3 5 6 7 0 0
    let loc := lsLoc 0 0xBFF0
    s.cx.roomFor (.g 5) = true ∧
    (∀ i ∈ [Instr.amoadd o, .amoswp o, .amoand o, .amoor o, .amomin o, .amomax o, .cas o, .casp o], s.ready i o = true) ∧
    s.Reaches (s.g 6) (s.memAddr o) 8 3 pA [0] kAtomic s.opened loc ∧
    s.Reaches (s.g 6) (s.memAddr o) 16 4 (pA ||| pSC) [0] kAtomic s.opened loc ∧ (s.g 7).tag = true ∧
    s.opened.readPoison loc 16 = none := by
  refine ⟨by decide +kernel, by decide +kernel, reaches_self ?_ ?_, reaches_self ?_ ?_, by decide +kernel, by decide +kernel⟩ <;>
    decide +kernel

-- Bytes that end where an accepted leaf entry begins.
theorem witness_StoreOfBytesSpecified :
    { State.reset with accepted := [(0x108, 0x2010B)] }.noLeaf 0x100 8 = true ∧ State.reset.canonical = true := by decide +kernel

-- One capability for each check that stops the access, and both ends of the bounds.
theorem witness_AccessChecksTrapInOrder :
    let o := f2 5 6 0
    let at' (c : GReg) : State := helper [(6, c)]
    let c := makeCap (pL ||| pA) 0 0x1000 0x100 0x1000
    (at' c).trapReady = true ∧ (at' c).cx.roomFor (.g 5) = true ∧
    (∀ i ∈ [Instr.ld o, .ldc o, .ldf o, .ldFe o, .ldFec o, .st o, .stc o, .stN4 o, .stFs o, .stFw o, .amoadd o, .amoswp o, .amoand o,
      .amoor o, .amomin o, .amomax o, .cas o, .casp o, .setb o, .waitb o], (at' c).mayIssue i o = true) ∧
    ((at' (c.withAddr 0x10FF)).g 6).word + BitVec.ofInt 64 (o.off / 2) = 0x10FF ∧
    (c.withTag false).tag = false ∧ (c.tag = true ∧ c.otype = 0 ∧ c.expo ≤ 43) ∧ pS &&& (c.perms ^^^ 0xFFF) ≠ 0 ∧
    pL &&& (c.perms ^^^ 0xFFF) = 0 ∧ c.bounds = (0x1000, 0x1100) ∧
    ((at' (c.withAddr 0x10F8)).memAddr o).toNat + 8 = 0x1100 ∧ ((at' (c.withAddr 0x10F9)).memAddr o).toNat + 8 = 0x1101 ∧
    ((at' (c.withAddr 0x10F4)).memAddr o).toNat % 8 ≠ 0 := by decide +kernel

/-! ## States that meet the hypotheses: the system forms -/

theorem witness_PageSevenInHelperRaisesIll : (helper []).curCtx ≠ 0 ∧ (helper []).trapReady = true := by decide +kernel

/-- A control context that handles a trap of code `code` of context `c` with ACT `act`; helper 3 is STOPPED. -/
def handling (code c act : Nat) (hnd : Bool) : State :=
  let s := stateAt 0 (live [])
  let s := s.modCore 0 (fun k => k.setCtx 3 { Ctx.init with st := .stopped, pcc := rootPcc 0x3000#64 })
  let r := { CoreRegs.init with
    evec := evecCap, epc := 0x2000#64, erpc := 0x2401#64,
    ecause := BitVec.ofNat 64 (code + 4096 * c + 0x80000 + (if hnd then 0x800000 else 0) + act * 2 ^ 24) }
  let t := withCr s r
  { t with opr := paged (opOf 0) }

-- 11 Table 237: the shipped image skips its own `brk`, cancels a helper's, and lets a helper's TAP go on.
theorem test_shipped_skip : let t := (handling tBRK 0 0 true).handled 0 false
    (t.ctx 0 0).pcc.word = 0x2002 ∧ ecHnd (t.core 0).cr.ecause = false := by decide +kernel

theorem test_shipped_cancel : (((handling tBRK 3 0 true).handled 0 false).ctx 0 3).st = .free ∧
    (((handling tTAP 3 1 true).handled 0 false).ctx 0 3).st = .live := by decide +kernel

theorem witness_EretReturnsFromTheTrap :
    (let s := handling tBRK 0 0 false
     s.curCtx = 0 ∧ s.ready .eret s.opr = true ∧ s.ck.cr.ecause.getLsbD 23 = false ∧ evecOk s.ck.cr.evec = true) ∧
    (let s := handling tSVC 0 0 true
     s.ready .eret s.opr = true ∧ s.ck.cr.ecause.getLsbD 23 = true ∧
       ((s.ck.cr.erpc &&& ~~~1#64) + BitVec.ofNat 64 (2 * (s.ck.cr.ecause.toNat / 2 ^ 19 % 8))).getLsbD 0 = false) ∧
    ∀ act ∈ [0, 1, 2, 3],
      let s := handling tSVC 3 act true
      s.ready .eret s.opr = true ∧ s.ck.cr.ecause.toNat / 2 ^ 12 % 16 = 3 ∧ s.ck.cr.ecause.toNat / 2 ^ 24 % 4 = act ∧
        (s.ctx 0 3).st = .stopped := by decide +kernel

-- `eret` of an `svc` returns past it; of a BRK to EPC; of a FREE code it ends the unit (11 R226, Table 116).
theorem test_eret_svc : ((after (exec .eret (handling tSVC 3 0 true))).ctx 0 3).pcc.addr = 0x2402 := by decide +kernel

theorem test_eret_free : ((after (exec .eret (handling tSVC 3 1 true))).ctx 0 3).st = .free := by decide +kernel

/-- A page 7 operand with K. -/
def sysOp (d a k : Nat) : Op := { withK (f2 d a 0) (if k < 512 then [k] else [k / 512, k % 512]) with ppag := some ⟨2, 0⟩ }

theorem witness_SystemAccessToContexts :
    let s := handling tBRK 0 0 false
    let w := control [(5, num 3), (4, memCap 0)]
    s.curCtx = 0 ∧ (∀ k ∈ [0, 14, 64, 95, 96], s.ready (.mfcs (sysOp 4 5 k)) (sysOp 4 5 k) = true ∧ (sysOp 4 5 k).k1 % 128 = k) ∧
    s.ck.cr.ctxbase = 0 ∧ (w.g 5).addr % 16 = 3 ∧
    (let t := w.modCore 0 (fun k => k.setCtx 3 { Ctx.init with st := .stopped })
     (∀ k ∈ [2, 9, 11, 64, 96], t.ready (.mtcs (sysOp 4 5 k)) (sysOp 4 5 k) = true) ∧ (t.ctx 0 3).st = .stopped ∧
       (rootPcc 0#64).tag = true ∧ (rootPcc 0#64).broken = false ∧ (rootPcc 0#64).perms &&& pX ≠ 0) := by decide +kernel

/-- Core 0 with context blocks at 0x100000; helper 3, STOPPED, holds 9 in g31, which has an entry or is evicted. -/
def withBlocks (entry : Bool) : State :=
  ((withCr (control [(5, num 3), (4, memCap 0)]) { CoreRegs.init with evec := evecCap, ctxbase := 0x100000 }).setCtx 0 3
    { live [(31, num 9)] with st := .stopped, nullG := 1#32 <<< 31 }).modCore 0
    (fun k => { k with entries := if entry then [⟨3, .g 31, .live, true⟩] else [] })

theorem witness_SystemAccessToContexts_blocks :
    ∀ e ∈ [true, false],
      let s := withBlocks e
      let slot := (s.ck.cr.ctxbase.toNat + 3 * 16384 + 16 * 31) % 2 ^ 40
      s.curCtx = 0 ∧ (s.g 5).addr % 16 = 3 ∧ (sysOp 4 5 95).k1 % 128 = 95 ∧ s.ready (.mfcs (sysOp 4 5 95)) (sysOp 4 5 95) = true ∧
      s.ready (.mtcs (sysOp 4 5 95)) (sysOp 4 5 95) = true ∧ s.ck.cr.ctxbase ≠ 0 ∧ (s.ctx 0 3).holds (.g 31) = true ∧
      (s.ctx 0 3).isPending (.g 31) = false ∧ (s.ck.entry 3 (.g 31)).isSome = e ∧ slot % 16 = 0 ∧ s.noLeaf slot 16 = true ∧
      (s.ctx 0 3).st = .stopped ∧ s.owned = [] := by decide +kernel

-- `mtcs` leaves the value in the slot of the block (04 R84, Table 36).
theorem test_mtcs_block : (after (exec (.mtcs (sysOp 4 5 95)) (withBlocks true))).granule (0x100000 + 3 * 16384 + 16 * 31) = memCap 0 := by
  decide +kernel

theorem witness_BankRolesAndQueries :
    let o := sysOp 4 5 0
    let s (b r : Nat) : State := control [(5, num (b + 16 * r))]
    (∀ p ∈ [(7, 1), (7, 2), (0, 3), (0, 0), (6, 1), (1, 1)], (s p.1 p.2).ready (.bankcfg o) o = true ∧
      (s p.1 p.2).cx.roomFor (.g 4) = true) ∧
    ((s 0 0).ck.bank 0).role = Role.ofCode 0 ∧ ((s 6 1).ck.bank 6).role = Role.ofCode 1 ∧ ((s 1 1).ck.bank 1).role = .way ∧
    (s 1 1).ck.fifoBanks = [] ∧ (s 0 0).ready (.bankq o) o = true ∧ o.k1.testBit 4 = false := by decide +kernel

-- A bank that leaves role WAY reads as zero and answers 0.
theorem test_bankcfg_way : (((after (exec (.bankcfg (sysOp 4 5 0)) (control [(5, num 0x11)]))).core 0).bank 1).role = .pad := by
  decide +kernel

theorem witness_ProbesAndJournal :
    let o := sysOp 4 5 0
    let s := inPart (control [(4, num 2), (5, selfCap 0)])
    let j := control [(4, selfCap 0), (5, num 31)]
    s.curCtx = 0 ∧ s.ready (.probew o) o = true ∧ s.vifOf 0 = some 0 ∧
    s.opened.blockAt (s.g 5) 96 4 (pL ||| pY) kLoad = some (s.opened, [(lsLoc 0 0x8000, 96)]) ∧
    s.opened.poisonSegs [(lsLoc 0 0x8000, 96)] = none ∧
    answers (Probe.checks (s.opened.readSegs [(lsLoc 0 0x8000, 96)] true) s.pc) () = true ∧
    s.ready (.prober o) o = true ∧
    s.opened.blockAt (s.g 5) 96 4 (pS ||| pY) kStore = some (s.opened, [(lsLoc 0 0x8000, 96)]) ∧
    j.ready (.pjr o) o = true ∧ j.opened.blockAt (j.g 4) 32 5 (pS ||| pY) kStore = some (j.opened, [(lsLoc 0 0x8000, 32)]) ∧
    (let r := j.modCore 0 (fun k => { k with journal := [(31, { Journal.init with st := 2 })] })
     r.ready (.pjclr o) o = true ∧ (r.ck.jent 31).st = 2) ∧
    j.ready (.pjclr o) o = true ∧ (j.ck.jent 31).st ≠ 2 := by decide +kernel

-- The object types at the ends of the ranges, and a channel's first address.
theorem witness_SealAndUnseal :
    let o := sysOp 4 5 0
    let s (n : Nat) (d : GReg) : State := control [(4, d), (5, memCap n)]
    (∀ n ∈ [1, 14], (s n (selfCap 0)).ready (.cseal o) o = true ∧ ((s n (selfCap 0)).g 5).addr = n) ∧
    (memCap 1).tag = true ∧ (memCap 1).otype = 0 ∧ (memCap 1).expo ≤ 43 ∧ (memCap 1).perms &&& pY ≠ 0 ∧
    isChannelAddr 0xFFFF800000000000 = true ∧ isChannelAddr 0xFFFF800000000080 = false ∧
    (∀ n ∈ [2, 14], (s n ((selfCap 0).withOtype n)).ready (.cunseal o) o = true ∧ ((selfCap 0).withOtype n).otype = n) := by
  decide +kernel

theorem witness_LeasesWaitsAndInvalidations :
    let o := sysOp 4 5 0
    let s := inPart (control [(4, num 0), (5, num 0x10000)])
    s.curCtx = 0 ∧ s.cx.roomFor (.g 4) = true ∧ s.ready (.lease o) o = true ∧ (s.g 5).word.getLsbD 0 = false ∧
    s.purging (fun c => (s.leaseCores 0).contains c) = false ∧ 0 ∈ s.leaseCores 0 ∧
    s.ready (.leaseq o) o = true ∧ s.namedCore (s.g 5).word = some 0 ∧
    (∀ i ∈ [Instr.wfi, .l1inv, .l1wb, .rcflush, .tlbia], s.ready i s.opr = true) ∧ s.trapDue 0 = false ∧
    s.ck.cr.ctxbase = 0 ∧ s.ready (.tlbi o) o = true ∧ o.k1 % 4 = 0 ∧ s.opr.k1 % 4 = 0 := by decide +kernel

/-! ## Vectors, vector memory and the gang -/

/-- An operand with PVEC: element type, predicate, zeroing and shape (02 Table 15). -/
def vop (o : Op) (et pr : Nat) (z : Bool) (sh : Nat) : Op :=
  { o with pvec := some ⟨BitVec.ofNat 3 et, BitVec.ofNat 3 pr, z, BitVec.ofNat 2 sh⟩ }

/-- A helper with vector registers, predicates and g registers. -/
def vecHelper (v : Store VReg) (p : Store PredReg) (g : Store GReg) : State := stateAt 3 { live g with v := v, p := p }

/-- Element `i` of `e` bits of v[r] of the executing context after one instruction. -/
def vAfter (i : Instr) (s : State) (r e n : Nat) : Nat :=
  (laneOf (((after (exec i s)).ctx s.curCore s.curCtx).rv r) e n).toNat

-- 07 R144: bytes wrap in `vadd` and saturate in `vaddsat`, at 127 as signed and 255 as unsigned elements.
theorem test_vadd_wraps : vAfter (.vadd (vop (f2 2 3 0) 0 0 false 2)) (vecHelper [(2, 0x7F), (3, 1)] [] []) 2 8 0 = 0x80 := by
  decide +kernel

theorem test_vaddsat_signed : vAfter (.vaddsat (vop (f2 2 3 0) 0 0 false 2)) (vecHelper [(2, 0x7F), (3, 1)] [] []) 2 8 0 = 0x7F := by
  decide +kernel

theorem test_vaddsat_unsigned : vAfter (.vaddsat (vop (f2 2 3 0) 4 0 false 2)) (vecHelper [(2, 0xFF), (3, 1)] [] []) 2 8 0 = 0xFF := by
  decide +kernel

-- 07 R142: an inactive element stays, or is zeroed; p1 has element 1 alone active.
theorem test_vadd_inactive : vAfter (.vadd (vop (f2 2 3 0) 2 1 false 2)) (vecHelper [(2, 5), (3, 1)] [(1, 0x10)] []) 2 32 0 = 5 := by
  decide +kernel

theorem test_vadd_zeroing : vAfter (.vadd (vop (f2 2 3 0) 2 1 true 2)) (vecHelper [(2, 5), (3, 1)] [(1, 0x10)] []) 2 32 0 = 0 := by
  decide +kernel

-- 07 R145: a compare sets the bits of every byte of a true element.
theorem test_vceq : ((after (exec (.vceq (vop (f2 2 3 0) 2 0 false 2)) (vecHelper [(2, 5), (3, 5)] [] []))).ctx 0 3).rp 2 =
    BitVec.ofNat 256 (2 ^ 64 - 1) := by decide +kernel

-- 07 R147: the sum of the sixteen words of a quarter shape.
theorem test_vrsum : gAfter (.vrsum (vop (f2 4 3 1) 2 0 false 2)) (vecHelper [(3, BitVec.ofNat 2048 (3 + 2 ^ 32 * 4))] [] []) 4 = 7 := by
  decide +kernel

-- 07 R149: 200 as a signed byte narrows to 127.
theorem test_vcvtn_clamps : vAfter (.vcvtn (vop (withK (f2 2 3 0) [0]) 0 0 false 2)) (vecHelper [(3, 200)] [] []) 2 8 0 = 127 := by
  decide +kernel

-- 05: 1.0 + 2.0 = 3.0 in bf16 lanes.
theorem test_vfadd_bf16 : vAfter (.vfadd (vop (f2 2 3 0) 0 0 false 2)) (vecHelper [(2, 0x3F80), (3, 0x4000)] [] []) 2 16 0 = 0x4040 := by
  decide +kernel

theorem witness_IntegerLanesTwoSource : (vecHelper [] [(1, 0x10)] []).calm (vop (f2 2 3 0) 7 1 true 2) = true := by decide +kernel

theorem witness_IntegerLanesOtherForms : (vecHelper [] [] []).calm (vop (f3 2 3 4 0 0) 0 0 false 1) = true := by decide +kernel

theorem witness_PredicateResults : (vecHelper [] [] []).calm (vop (f2 0 3 0) 0 0 false 0) = true := by decide +kernel

-- The last element that a register has, and the one behind it.
theorem witness_ElementMovesAndReductions :
    let o (k : Nat) : Op := vop (withK (f2 2 3 0) [k]) 3 0 false 0
    (vecHelper [] [] []).calm (o 31) = true ∧ (o 31).k1 % 256 < 2048 / (o 31).elemBits ∧
      2048 / (o 32).elemBits ≤ (o 32).k1 % 256 := by decide +kernel

theorem witness_IntegerLaneConversions : (vecHelper [] [] []).calm (vop (withK (f2 2 3 0) [1]) 3 0 false 2) = true := by decide +kernel

theorem witness_FloatLaneResults : (vecHelper [] [(7, 1)] []).calm (vop (withK (f3 2 3 4 0 0) [2]) 5 7 true 2) = true := by decide +kernel

theorem witness_FloatComparesAndReductions : (vecHelper [] [] []).calm (vop (f2 2 3 0) 1 0 false 2) = true := by decide +kernel

theorem witness_SlowFloatLanesPend :
    (vecHelper [] [] []).calm (vop (f2 2 3 0) 2 0 false 0) = true ∧ (vecHelper [] [] []).cx.roomFor (.v 2) = true := by decide +kernel

theorem witness_FloatLaneConversions : (vecHelper [] [] []).calm (vop (withK (f3 2 3 4 0 0) [127]) 3 0 false 0) = true := by
  decide +kernel

theorem witness_PermuteResults : (vecHelper [] [] []).calm (vop (withK (f3 2 3 4 0 0) [1, 511]) 6 0 false 2) = true := by decide +kernel

-- Words 0 and 3 of a quarter shape, at addresses that the form gives: a load and a store of each form, and the p forms.
theorem witness_VectorMemoryMoves :
    let o := vop (paged (f3 2 6 7 0 0)) 2 1 false 2
    let s := (vecHelper [(7, BitVec.ofNat 2048 (3 * 2 ^ 96))] [(1, 0x1001)] [(6, selfCap 0), (7, num 8)]).setF (lsLoc 0 0x8000) true
    (∀ p ∈ vecLoads o, s.ready p.1 o = true ∧
      let es := (got (State.vmAll (s.g 6) 32 (pL ||| pF) kLoad none (s.vmElems o 32 (p.2.2.2 s 32)) s.opened) (s, [], true)).2.1
      answers (State.vmAll (s.g 6) 32 (if p.2.2.1 then pL ||| pF else pL) kLoad none (s.vmElems o 32 (p.2.2.2 s 32)) s.opened)
        (s.opened, es, false) = true ∧ es.length = 2 ∧
      ∀ x ∈ es, s.opened.poison x.loc = false ∧ (p.2.2.1 = true → s.opened.fBit x.loc = true)) ∧
    s.cx.roomFor (.v 2) = true ∧ (s.memAddr o).toNat % 16 = 0 ∧
    (∀ p ∈ vecStores o, s.ready p.1 o = true ∧
      let es := (got (State.vmAll (s.g 6) 32 (pS ||| pF) kStore none (s.vmElems o 32 (p.2.2.2 s 32)) s.opened) (s, [], true)).2.1
      answers (State.vmAll (s.g 6) 32 (if p.2.2.1 then pS ||| pF else pS) kStore none (s.vmElems o 32 (p.2.2.2 s 32)) s.opened)
        (s.opened, es, false) = true ∧ es.length = 2 ∧
      ∀ x ∈ es, s.opened.poison x.loc = false ∧ s.opened.noLeaf x.loc x.size = true) ∧
    s.ready (.vldp o) o = true ∧ s.ready (.vstp o) o = true ∧
    s.Reaches (s.g 6) (s.memAddr o) 32 5 pL [0] kLoad s.opened (lsLoc 0 0x8000) ∧
    s.Reaches (s.g 6) (s.memAddr o) 32 5 pS [0] kStore s.opened (lsLoc 0 0x8000) ∧
    s.opened.readPoison (lsLoc 0 0x8000) 32 = none ∧ s.opened.noLeaf (lsLoc 0 0x8000) 32 = true := by
  refine ⟨by decide +kernel, by decide +kernel, by decide +kernel, by decide +kernel, by decide +kernel, by decide +kernel,
    reaches_self ?_ ?_, reaches_self ?_ ?_, by decide +kernel, by decide +kernel⟩ <;> decide +kernel

/-- Helper 3 of the troupe of core 0, with the members of `here` waiting in a `gsync`, or FREE. -/
def troupe (wait : Bool) : State :=
  let s := helper [(6, selfCap 0)]
  if wait then [1, 96, 97].foldl (fun s c => s.setCtx c 3 { live [] with
    gang := [⟨.sync, 0, false, 0, 0, 0, 0, 5⟩], outs := [⟨5, .none, false, false, .gang, 0, [], 0⟩] }) s
  else s.setCtx 1 3 (live [])

-- A round whose last member arrives, and one whose member in slot 1 is still to come; a reach to each kind of register.
theorem witness_GangReachesAndCollectives :
    let o (k : Nat) : Op := vop (withK (f2 2 6 0) [k]) 2 0 false 3
    let s := troupe true
    let w := troupe false
    (∀ x ∈ s.cx.outs, x.id ≠ s.nextId) ∧ (∀ k ∈ [1, 7], s.calm (o k) = true ∧
      s.cx.roomFor (if gangFileV (o k) then .v 2 else .g 2) = true) ∧ s.cx.pendingV < 4 ∧ s.cx.pendingG < 8 ∧
    (s.calm s.opr = true ∧ s.cx.gang = [] ∧ s.cx.gangSkip = 0 ∧ s.cx.st ≠ .free) ∧
    (∀ i ∈ [1, 2, 3], (s.ctx (troupeCore 0 i) 3).brought.isSome = true) ∧
    (troupeCore 0 1 ≠ 0 ∧ (w.ctx (troupeCore 0 1) 3).st ≠ .free ∧ (w.ctx (troupeCore 0 1) 3).gang = [] ∧
      (w.ctx (troupeCore 0 1) 3).gangSkip = 0) := by decide +kernel

-- A member may bring a second collective while the first is open (07 R158); one that closes a round writes every destination (R159).
theorem test_gang_second :
    let w := (troupe false).modCtx 0 3 (fun c => { c with gang := [⟨.sync, 0, false, 0, 0, 0, 0, 5⟩] })
    w.calm w.opr = true ∧ (((after (exec .gsync w)).ctx 0 3).gang.map Gang.out) = [5, w.nextId] := by decide +kernel

theorem test_gang_writes :
    let s := [1, 96, 97].foldl (fun s c => s.setCtx c 3 { live [] with
      gang := [⟨.bcast 0, 2, false, BitVec.allOnes 256, 0, 0, 7, 5⟩], outs := [⟨5, .v 7, false, false, .gang, 0, [], 0⟩] })
      ((troupe false).modCtx 0 3 (fun c => { c with v := [(6, 9)] }))
    ((after (exec (.gbcast (vop (withK (f2 2 6 0) [0]) 2 0 false 3)) s)).ctx 97 3).rv 7 = 9 := by decide +kernel

/-! ## Messages, calls and tasks -/

/-- A sentry entry, and a record for it. -/
def entryCap : GReg := makeCap (pX ||| pL) 1 0x1000 0x100 0x1000
def record : Rec := ⟨⟨BitVec.ofNat 128 (2 ^ 64 * 5), false⟩, entryCap, [num 1, num 2, num 3, num 4]⟩

/-- A channel of core 1 of logical cluster 0, and one of core 0. -/
def chanCap (idx ch : Nat) : GReg :=
  (makeCap pM 0 0xFFFF800000000000 0x40000 0xFFFF800000000000).withAddr (BitVec.ofNat 64 (0xFFFF800000000000 + idx * 2 ^ 17 + ch)) |>.withOtype 2

/-- A state with a record in its local store, at offset 0 of bank 2. -/
def withRec (s : State) : State := s.storeGranules (lsLoc s.curCore 0x8000) true record.granules

-- A body without tags and one whose entry lacks K, a task record, and registers that may and may not be sent.
theorem witness_SendsCallsAndReplies_sends :
    let o (k : Nat) : Op := withK (paged (f2 8 6 0)) [k]
    let e := inPart (helper [(6, selfCap 0), (8, chanCap 1 5), (4, memCap 0)])
    let s := withRec e
    let sr (x : GReg) : State := { inPart (helper [(8, chanCap 1 5), (4, memCap 0), (7, x)]) with opr := withK (paged (f2 8 0 0)) [0] }
    let g (n : Nat) : Segs := [(lsLoc 0 0x8000, n)]
    (s.sendSlots 0 < 8 ∧ (∀ k ∈ [7, 11], s.ready (.send (o k)) (o k) = true) ∧ e.ready (.send (o 7)) (o 7) = true ∧
      answers (checkCap (s.g 8) (s.g 8).word 0 pM [2]) () = true ∧ (s.windowCore 0 (s.g 8).word).isSome = true ∧
      (o 7).k1.testBit 3 = false ∧ s.trapReady = true) ∧
    (∀ u ∈ [s, e], u.opened.blockAt (u.g 6) 224 5 pL kLoad = some (u.opened, g 224)) ∧
    (bodyBad false (e.g 6).word (e.opened.readSegs (g 224) true) = none ∧
      (bodyBad false (s.g 6).word (s.opened.readSegs (g 224) true)).map TrapReq.code = some tCAPP) ∧
    (s.opened.blockAt (s.g 6) 96 5 pL kLoad = some (s.opened, g 96) ∧ (o 11).k1.testBit 3 = true ∧ (o 11).k1 % 8 = 3 ∧
      s.opened.poisonSegs (g 96) = none ∧ answers (checkRec (recOf (s.opened.readSegs (g 96) true)) false) () = true ∧
      bodyBad true (s.g 6).word ((s.opened.readSegs (g 96) true).modify 0 (fun h => withIds h s.task)) = none ∧
      s.opened.countRoom (lidOf s.task) = true) ∧
    ((∀ x ∈ [memCap 0, (memCap 0).withOtype 15, entryCap], (sr x).ready .sendr (sr x).opr = true ∧ (sr x).trapReady = true) ∧
      (∀ x ∈ [memCap 0, GReg.null], x.tag = true → x.otype ≠ 15 ∧ x.perms &&& pK ≠ 0) ∧
      ((memCap 0).withOtype 15).tag = true ∧ ((memCap 0).withOtype 15).otype = 15 ∧ entryCap.tag = true ∧ entryCap.otype ≠ 15 ∧
      entryCap.perms &&& pK = 0) := by
  refine ⟨?_, ?_, ?_, ?_, ?_⟩ <;> decide +kernel

/-- A FIFO bank 3 with messages. -/
def withFifo (items : List Item) (s : State) : State :=
  s.modCore 0 (fun k => k.setBank 3 { Bank.init with role := .fifo, items := items,
                                                     used := (items.map Item.size).sum, tail := (items.map Item.size).sum })

/-- An empty message for a channel, and a task message with the record. -/
def message : Msg := ⟨0, [num 1, num 2], false, []⟩
def taskMsg : Msg := ⟨(0x102#256) <<< 112, record.granules, false, []⟩

theorem witness_ReceivesTakeTheHead :
    let o := withK (paged (f2 5 6 0)) [15]
    let s (items : List Item) : State := withFifo items (helper [(6, selfCap 0x3F00)])
    (∀ items ∈ [[Item.msg message], []],
      (∀ x ∈ (s items).cx.outs, x.id ≠ (s items).nextId) ∧ (s items).ck.chanBank 15 = some 3 ∧ (s items).ck.firstRecv 3 = none ∧
      (s items).opened.blockAt ((s items).g 6) 256 5 pS kStore = some ((s items).opened, [(lsLoc 0 0xBF00, 256)]) ∧
      (s items).ready (.recv o) o = true ∧ (s items).ready (.recvp o) o = true ∧ (s items).cx.roomFor (.g 5) = true) ∧
    ((s [.msg message]).ck.bank 3).items = [.msg message] ∧ message.void = false ∧
    (s [.msg message]).opened.headPoison 0 3 message = none ∧ ((s []).ck.bank 3).items = [] := by decide +kernel

theorem witness_SendsCallsAndReplies_calls :
    let o := paged (f3 9 10 11 0 0)
    let s := inPart (helper [(10, entryCap), (11, num 0x10000), (12, num 1)])
    let slot := makeCap (pL ||| pLC ||| pF ||| pS) 3 (s.windowAddr 0 (slotOff 63)).toNat 16 (s.windowAddr 0 (slotOff 63))
    let r := inPart (helper [(9, slot), (10, selfCap 0)])
    s.sendSlots 0 < 8 ∧ s.opened.countRoom (lidOf s.task) = true ∧ s.ready (.callat o) o = true ∧
    s.namedCore (s.g 11).word = some 0 ∧ s.namedCore (s.g 12).word = some 1 ∧
    answers (checkRec ⟨.null, s.g 10, [s.g 4, s.g 5, s.g 6, s.g 7]⟩ true) () = true ∧
    (List.range 64).find? (fun j => (Store.get ReplySlot.init s.ck.slots j).st == .free) = some 0 ∧
    s.noLeaf (lsLoc 0 (slotOff 0)) 16 = true ∧
    r.ready (.retto o) o = true ∧ (slot.tag = true ∧ slot.broken = false ∧ slot.otype = 3 ∧ slot.perms &&& pS ≠ 0) ∧
    isSlotAddr slot.word = true ∧ slot.bounds.1 ≤ (slot.word.toNat : Int) ∧
    ((slot.word.toNat + 16 : Nat) : Int) ≤ slot.bounds.2 ∧ (r.windowCore 0 slot.word).isSome = true ∧
    ((selfCap 0).tag = true ∧ (selfCap 0).perms &&& pK ≠ 0) := by decide +kernel

/-- The core with `n` records in its deque. -/
def withDeque (n : Nat) (s : State) : State := s.modCore 0 (fun k => { k with deque := List.replicate n record })

theorem witness_DequeForms :
    let o := withK (paged (f2 5 6 0)) [0]
    let s (n : Nat) : State := withDeque n (withRec (helper [(6, selfCap 0)]))
    let c (n : Nat) : State := withDeque n (inPart (control [(6, selfCap 0)]))
    let v := (c 0).modCore 0 (fun k => { k with reported := [(1, 3)] })
    (∀ n ∈ [63, 64], (s n).cx.roomFor (.g 5) = true ∧ (s n).ready (.dqpush o) o = true ∧ (s n).ck.deque.length = n ∧
      (s n).opened.blockAt ((s n).g 6) 96 4 pL kLoad = some ((s n).opened, [(lsLoc 0 0x8000, 96)]) ∧
      (s n).opened.poisonSegs [(lsLoc 0 0x8000, 96)] = none ∧
      answers (checkRec (recOf ((s n).opened.readSegs [(lsLoc 0 0x8000, 96)] true)) false) () = true ∧
      (s n).opened.countRoom (recOf ((s n).opened.readSegs [(lsLoc 0 0x8000, 96)] true)).lid = true) ∧
    (∀ n ∈ [0, 1], (c n).curCtx = 0 ∧ (c n).opened.blockAt ((c n).g 6) 96 4 pS kStore = some ((c n).opened, [(lsLoc 0 0x8000, 96)]) ∧
      (c n).ready (.dqpop o) o = true ∧ (c n).ready (.dqsteal o) o = true) ∧
    (c 1).ck.deque = [] ++ [record] ∧ (c 0).ck.deque = [] ∧ (c 0).victim 0 = none ∧ (v.victim 0).isSome = true ∧
    (let q := helper [(6, num 0x10000)]
     q.ready (.dqlen o) o = true ∧ q.namedCore (q.g 6).word = some 0) := by decide +kernel

/-- The control context of a core whose helpers up to `n` are LIVE, with CTXBASE set. -/
def withHelpers (n : Nat) (s : State) : State :=
  ((List.range n).foldl (fun s x => s.setCtx 0 (x + 1) (live [])) s).modCore 0 (fun k => { k with cr := { k.cr with ctxbase := 0x800 } })

theorem witness_HelperLife :
    let o := withK (paged (f2 5 6 0)) [0]
    let s (n : Nat) : State := withHelpers n (withRec (control [(6, selfCap 0)]))
    let j := control [(6, num 10)]
    let b := withFifo [.msg taskMsg] (control [])
    (∀ n ∈ [9, 10], (s n).curCtx = 0 ∧ (s n).ready (.start o) o = true ∧ (s n).ck.startHeld = false ∧
      (s n).opened.blockAt ((s n).g 6) 96 4 pL kLoad = some ((s n).opened, [(lsLoc 0 0x8000, 96)]) ∧
      (s n).opened.poisonSegs [(lsLoc 0 0x8000, 96)] = none ∧
      answers (checkRec (recOf ((s n).opened.readSegs [(lsLoc 0 0x8000, 96)] true)) false) () = true ∧
      (s n).opened.launchOver record.lid = false ∧ (s n).ck.cr.ctxbase ≠ 0 ∧ (s n).opened.countRoom record.lid = true) ∧
    (s 9).ck.freeHelper = some 10 ∧ (s 10).ck.freeHelper = none ∧
    (j.ready (.join o) o = true ∧ j.trapDue 0 = false ∧ (j.g 6).addr % 16 = 10 ∧ (j.ctx 0 10).st = .free) ∧
    ((helper []).curCtx ≠ 0 ∧ (helper []).ready .doneUnit (helper []).opr = true ∧ (helper []).cx.hflts = [] ∧
      (helper []).cx.outs = []) ∧
    (∀ q ∈ [b, withDeque 1 (control []), control []], q.curCtx = 0 ∧ q.ready .sched q.opr = true ∧ q.trapDue 0 = false ∧
      q.cx.roomFor (.g 8) = true) ∧
    b.ck.fifoBanks = [3] ∧ (b.ck.bank 3).items = [.msg taskMsg] ∧ taskMsg.void = false ∧ taskMsg.isTask = true ∧
    b.headPoison 0 3 taskMsg = none ∧
    (withDeque 1 (control [])).ck.fifoBanks = [] ∧ (withDeque 1 (control [])).ck.deque = [] ++ [record] ∧
    (control []).victim 0 = none := by decide +kernel

/-- The pen of core 0 with barrier 7 asked for by `n` participants, of which core 1 has arrived. -/
def atBarrier (s : State) : State :=
  s.setCtx 1 3 { live [] with outs := [⟨90, .g 5, false, true, .bar false false 7 2 0, 0, [], 0⟩] }

/-- A level of launch slot 2 of interface 0, in a state, for the task of helper 3. -/
def withLevel (st : LvlSt) (s : State) : State :=
  (s.modVif 0 (fun i => { i with levels := [(2, { Level.init with st := st, kind := 1, serial := 5 })] })).modCtx 0 3
    (fun c => { c with task := BitVec.ofNat 128 ((2 * 2 ^ 20 + 5) * 2 ^ 64) })

/-- Helper 3 at a partition barrier whose group has a word, that `here` more cores have reached. -/
def atPartition (w : Word) (here : Nat) : State :=
  let s := (inPart (helper [(6, num 2), (7, num 2)])).modGroup 7 (fun g => { g with word := w })
  if here = 1 then s.setCtx 1 3 { live [] with outs := [⟨90, .g 5, false, true, .bar false true 7 2 0, 0, [], 0⟩] } else s

def partitionOp : Op := withK (paged (f3 5 6 7 0 0)) [16 + 7]

/-- The hypotheses that all clauses about partition barriers share. -/
def partitionReady (w : Word) (here : Nat) : Bool :=
  let s := atPartition w here
  s.cx.outs == [] && s.cx.roomFor (.g 5) && s.vifOf 0 == some 0 && s.ready (.bar partitionOp) partitionOp &&
    s.ready (.barq partitionOp) partitionOp && (s.opened.arrivals (fun c => s.vifOf c == some 0) true 7).length == here &&
    (s.group 7).word == w

-- Without a group, of rank 0, and of rank 1, alone and with one more core; the count is 2.
theorem witness_BarriersLevelsAndFences_partition :
    partitionOp.k1.testBit 4 = true ∧ partitionReady 0 0 = true ∧ partitionReady 0 1 = true ∧
      partitionReady 0x8000000000000000 0 = true ∧ partitionReady 0x8000000000000000 1 = true ∧
      partitionReady 0x8000000100000000 0 = true := by
  refine ⟨?_, ?_, ?_, ?_, ?_, ?_⟩ <;> decide +kernel

theorem witness_BarriersLevelsAndFences :
    let o := withK (paged (f3 5 6 7 0 0)) [7]
    let s (n : Nat) : State := atBarrier (inPart (helper [(6, num n), (7, num n)]))
    let l (st : LvlSt) : State := withLevel st (inPart (helper [(6, num 1)]))
    (∀ n ∈ [2, 3], (∀ x ∈ (s n).cx.outs, x.id ≠ (s n).nextId) ∧ (s n).cx.roomFor (.g 5) = true ∧
      (s n).penOf 0 = some (0, 0, ⟨0, 0, 16, 12, 5, 7, []⟩) ∧ (Pen.has ⟨0, 0, 16, 12, 5, 7, []⟩ 0) = true ∧
      (s n).ready (.bar o) o = true ∧ (s n).ready (.barq o) o = true ∧
      ((s n).opened.arrivals (Pen.has ⟨0, 0, 16, 12, 5, 7, []⟩) false 7).length = 1) ∧ o.k1.testBit 4 = false ∧
    (inPart (helper [(6, num 1), (7, num 1)])).opened.arrivals (Pen.has ⟨0, 0, 16, 12, 5, 7, []⟩) false 7 = [] ∧
    (∀ st ∈ [LvlSt.opened, .complete], (l st).ready (.lcnt o) o = true ∧ (l st).ready (.lcancel o) o = true ∧
      (l st).levelSlot (lidOf (l st).task) 1 = some 2 ∧ ((l st).vif (lidVif (lidOf (l st).task))).level 2 =
        { Level.init with st := st, kind := 1, serial := 5 }) ∧
    (l .free).levelSlot (lidOf (l .free).task) 1 = none ∧
    (l .opened).benches = [] ∧ (l .opened).copies = [] ∧ (l .opened).stks = [] ∧ (l .opened).net = [] ∧
    (let f := { helper [] with opr := paged (opOf 0x84) }
     f.ready .fence f.opr = true) := by decide +kernel

/-! ## Engine commands, handles and taps -/

/-- A state with a descriptor of granules in bank 2. -/
def withDesc (gs : List GReg) (s : State) : State := s.storeGranules (lsLoc s.curCore 0x8000) true gs

/-- A granule from four 32-bit fields, the lowest first. -/
def quad (a b c d : Nat) : GReg := ⟨BitVec.ofNat 128 (a + b * 2 ^ 32 + c * 2 ^ 64 + d * 2 ^ 96), false⟩

/-- A hire of one element in bf16 with an fp32 destination; a fill of one byte by the own cluster's engine, with a
record; and an attention of one query over one token, which its mask program
leaves out. -/
def hireDesc : List GReg := [selfCap 0x100, selfCap 0x200, selfCap 0x300, quad 0 0 0x20000 0]
def fillDesc : List GReg :=
  [.null, selfCap 0x100, .null, selfCap 0x200, quad (3 + 8 * 16 + 8 * 256 + 2 ^ 26) 0 0 0, quad 1 1 1 0, .null, num 0x5A]
def sattDesc : List GReg :=
  [selfCap 0x400, selfCap 0x800, selfCap 0x100, .null, memCap 0x40000, memCap 0x40000, quad 0 0 0 1, quad 0x5800 0 0 0]

theorem witness_EngineCommandsAreSent :
    let o := paged (f3 5 6 7 0 0)
    let g (n : Nat) : Segs := [(lsLoc 0 0x8000, n)]
    let h := withDesc hireDesc (inPart (helper [(6, selfCap 0)]))
    let c := withDesc fillDesc (inPart (helper [(6, selfCap 0), (7, num 0)]))
    let k := { withDesc sattDesc (inPart (helper [(6, selfCap 0)])) with opr := paged (f2 5 6 0) }
    let b := mapped (helper [(6, memCap 0x4FFF8), (7, num 0), (5, num 9)])
    let b1 := (got (b.opened.translateRoot (BitVec.ofNat 64 placeRoot) 0x4FFF8 kStore) (b, 0)).1
    (h.ready (.hire o) o = true ∧ h.opened.blockAt (h.g 6) 64 4 (pL ||| pLC) kLoad = some (h.opened, g 64) ∧
      h.opened.poisonSegs (g 64) = none ∧
      answers ((h.opened.sampleHire (h.opened.readSegs (g 64) true)).checks h.opened (h.g 6)) () = true ∧
      (h.opened.bench (benchOf 0)).queued 0 < 4 ∧ h.opened.mayCount = true ∧ h.ck.freeHandle clsArray = some 0) ∧
    (c.ready (.copy o) o = true ∧ c.ready (.copyR o) o = true ∧
      c.opened.blockAt (c.g 6) 128 4 (pL ||| pLC) kLoad = some (c.opened, g 128) ∧ c.opened.poisonSegs (g 128) = none ∧
      (∀ r ∈ [false, true], answers ((c.opened.sampleCopy (c.opened.readSegs (g 128) true) 0).checks c.opened (c.g 6).word r false) () =
        true) ∧ (c.opened.copyEng 0).length < 16 ∧ c.opened.mayCount = true ∧ c.ck.freeHandle clsCopy = some 0 ∧
      (c.ck.counter clsCopy).n ≠ 65535) ∧
    (k.ready (.satt o) o = true ∧ k.ready .sattHandle k.opr = true ∧ k.opr.rd ≠ 0 ∧ k.cx.roomFor (.g 5) = true ∧
      k.opened.blockAt (k.g 6) 128 4 (pL ||| pLC) kLoad = some (k.opened, g 128) ∧ k.opened.poisonSegs (g 128) = none ∧
      (∀ form ∈ [0, 1], answers ((k.opened.sampleStk form (k.opened.readSegs (g 128) true)).checks k.opened) () = true) ∧
      k.opened.stkRoom 0 = true ∧ k.ck.freeHandle clsStack = some 0) ∧
    (b.ready (.sblk o) o = true ∧ answers (check (b.g 6) 0x4FFF8 8 (pS ||| pE)) () = true ∧
      answers (b.opened.translateRoot (BitVec.ofNat 64 placeRoot) 0x4FFF8 kStore) (b1, 0x2FFF8) = true ∧
      b1.stkRoom (0x2FFF8 / 2 ^ 36) = true ∧ (b.ck.counter clsStack).n ≠ 65535) := by
  refine ⟨?_, ?_, ?_, ?_⟩ <;> decide +kernel

/-- Helper 3 with a handle of each class at number 2: completed with status 1, or still running. -/
def withHandles (done : Bool) (s : State) : State :=
  s.modCore 0 (fun k => [clsArray, clsCopy, clsStack].foldl (fun k c =>
    k.setHandle c 2 ⟨true, 3, 9, if done then some 1 else none, false⟩) k)

/-- A hire that stands at a stage. -/
def hireAt (st : HireStage) : Hire :=
  { (helper []).sampleHire hireDesc with id := 9, stage := st, handle := some 2 }

theorem witness_HandlesCountersAndTaps :
    let o := withK (paged (f2 5 6 0)) [1]
    let s (w : Nat) (done : Bool) : State := withHandles done (helper [(6, num w)])
    let r (st : HireStage) : State := (s 2 false).modBench (benchOf 0) (fun b => { b with hires := [hireAt st] })
    (∀ w ∈ [2, 3], ∀ i ∈ [Instr.cpoll o, .spoll o, .hpoll o, .hwait o, .cwait o, .swait o, .efence o, .hstat o, .cancel o, .hireR o,
      .ecnt o], (s w true).ready i o = true ∧ (s w false).ready i o = true) ∧
    (∀ d ∈ [true, false], (s 2 d).cx.roomFor (.g 5) = true) ∧
    ((s 2 false).ck.named clsArray 3 2 false).map Handle.done = some none ∧ (r .parked).cx.roomFor (.g 5) = true ∧
    ((s 2 true).ck.named clsArray 3 2 false).isSome = true ∧ ((s 2 false).ck.named clsArray 3 2 false).isSome = true ∧
    (s 2 true).ck.named clsArray 3 3 false = none ∧
    ((1 : Word).getLsbD 8 = false ∧ (1 : Word).extractLsb' 0 4 ≠ 5) ∧ (s 2 true).cx.hflts = [] ∧
    (∀ st ∈ [HireStage.parked, .queued], (r st).ready (.hireR o) o = true ∧
      ((r st).bench (benchOf 0)).find 9 = some (hireAt st)) ∧
    (s 2 true).ready (.tapsel o) o = true ∧ o.k1.testBit 2 = false ∧
    (let t := { withDesc [] (inPart (helper [(6, memCap 0), (5, num 255)])) with opr := withK (paged (f2 5 6 0)) [4] }
     t.ready (.tapsel o) o = true ∧ answers (check (t.g 6) 255 1 pP) () = true ∧ t.ready .tapst t.opr = true ∧
       t.cx.cr.tapset.getLsbD 32 = false ∧ t.opr.k1.testBit 2 = true) := by decide +kernel

/-! ## What arrives -/

/-- A state with one packet, of number 7. -/
def withPkt (b : Body) (s : State) : State := { s with net := [⟨7, b⟩] }

/-- A load of a word of core 1's local store by helper 3 of core 0, and a posted store's journal entry. -/
def remoteLoad : Access := ⟨.load 8 .plain false, lsLoc 1 0x8000, 0xFFFF800000028000, 0, 3, 5, 0x100000, noLid, 0, 5, false, []⟩
def posted : Journal := { Journal.init with st := 1, mask := 0xFF, line := 0xFFFF800000028000, loc := lsLoc 1 0x8000, ctx := 3, id := 6 }

/-- Helper 3 with one outstanding result. -/
def waitsFor (w : Wait) : State :=
  (inPart (helper [])).modCtx 0 3 (fun c => { c with outs := [⟨5, .g 9, false, true, w, setL, [], 0⟩] })

/-- What a move comes to, if it goes on. -/
def nextOf (r : Host.Outcome State Fault Refusal) : Option State :=
  match r with
  | .next t => some t
  | _ => none

/-- A held line with its bytes 8 to 15. -/
def heldLine : Gather := { ctx := 3, loc := 0x20000, va := 0x40000, remote := false, mask := 0xFF00, data := 0, pc := 0, lid := noLid, eng := false, id := 4 }

theorem witness_ResultsAndHomes :
    (let s := waitsFor (.ready (putVal 5#64) 1)
     (s.ctx 0 3).outs[0]?.map Outst.wait = some (.ready (putVal 5#64) 1) ∧ fits (.g 9) (putVal 5#64) = true ∧
       (s.core 0).flushing = []) ∧
    (let s := waitsFor (.purge 3 [77])
     (s.ctx 0 3).outs[0]?.map Outst.wait = some (.purge 3 [77]) ∧ [77].any (s.purgeIds (fun _ => true)).contains = false) ∧
    (let s := withPkt (.refusal 0 3 5 0x8000 0 none) (waitsFor .away)
     s.pkt? 7 = some (.refusal 0 3 5 0x8000 0 none) ∧ (s.ctx 0 3).st = .live ∧ (s.core 0).gather = []) ∧
    (let s := withPkt (.request remoteLoad false) (waitsFor .away)
     let r := s.modCore 1 (fun k => k.setBank 2 { Bank.init with role := .fifo })
     s.pkt? 7 = some (.request remoteLoad false) ∧ s.waits = [] ∧ s.owned = [] ∧ s.claims = [] ∧ s.netBehind 7 remoteLoad = false ∧
       s.homesReached remoteLoad = true ∧ s.homesRefuse remoteLoad = none ∧ s.readPoison remoteLoad.loc 8 = none ∧
       (r.homesRefuse remoteLoad).isSome = true ∧ r.netBehind 7 remoteLoad = false ∧ r.homesReached remoteLoad = true) ∧
    (withPkt (.request remoteLoad true) (helper [])).pkt? 7 = some (.request remoteLoad true) ∧
    ((withPkt (.postedAck 0 31) (helper [])).pkt? 7 = some (.postedAck 0 31) ∧ (withPkt (.postedAck 0 31) (helper [])).claims = []) ∧
    (let s := withPkt (.postedRefused 0 31 2) ((helper []).modCore 0 (fun k => { k with journal := [(31, posted)] }))
     s.pkt? 7 = some (.postedRefused 0 31 2) ∧ (s.core 0).gather = [] ∧ ((s.core 0).jent 31).ctx = 3 ∧ (s.ctx 0 3).st = .live) ∧
    (let s := (helper []).modCore 0 (fun k => { k with gather := [heldLine] })
     (s.core 0).gather = [heldLine] ∧ s.waits = [] ∧ s.owned = [] ∧ s.claims = [] ∧ s.noLeaf heldLine.loc 64 = true ∧
       (List.range 64).all (fun k => !s.poison (heldLine.loc + k)) = true) ∧
    (let s := State.reset.withFetchWord 16 0x3400
     let r := got (s.leafFor 0 0 0 kFetch) (s, ⟨0, 0, 0⟩)
     (s.ctx 0 0).pcc.word = 0 ∧ answers (s.leafFor 0 0 0 kFetch) (r.1, r.2) = true ∧
       ((inPart (helper [])).core 0).readyBut 0 = true) := by
  refine ⟨?_, ?_, ?_, ?_, ?_, ?_, ?_, ?_, ?_⟩ <;> decide +kernel

/-- A trap of helper 3. -/
def brkTrap : Trap := ⟨tBRK, 3, false, 0x100000, 1, 0, 0⟩

theorem witness_TrapsAndMessagesArrive_traps :
    (let s := (control []).modCore 0 (fun k => { k with pending := [brkTrap], waiting := true })
     (s.core 0).pending = [brkTrap] ∧ (s.core 0).waiting = true ∧ (s.core 0).readyBut 0 = true ∧
       ecHnd (s.core 0).cr.ecause = false ∧ evecOk (s.core 0).cr.evec = true) ∧
    (let b : Trap := ⟨tBUDG, 3, true, 0, 0, 0, 40⟩
     let s := (helper []).modCtx 0 3 (fun c => { c with traps := [b] })
     (s.ctx 0 3).st = .live ∧ (s.ctx 0 3).traps = [b] ∧ (s.core 0).gather = []) := by decide +kernel

/-- The packets of the message clauses: a message in its three states, a record and a reply. -/
def msgPkt (nk st : Nat) : Body := .msg 0 3 message 0xFFFF800000020000 5 nk st 0 noLid
def recPkt : Body := .record 0 3 5 0 record 0xFFFF800000020000 5 0 0 64
def replyPkt : Body := .reply 0 3 0xFFFF80000001FC00 (num 9) record.lid 5

theorem witness_TrapsAndMessagesArrive_messages :
    (let s := withPkt (msgPkt 0 0) (inPart (helper []))
     let f := s.modCore 1 (fun k => k.setBank 3 { Bank.init with role := .fifo })
     let u := s.modCore 1 (fun k => k.setBank 3 { Bank.init with role := .fifo, items := [.pad 16384], used := 16384 })
     (∀ t ∈ [f, u], t.pkt? 7 = some (msgPkt 0 0) ∧ t.awayNow 0 0xFFFF800000020000 = false ∧
       t.msgBehind 7 0 0xFFFF800000020000 = false ∧ olderGen 5 (t.pgenOf 0) = false ∧
       t.windowCore 0 0xFFFF800000020000 = some 1 ∧ (t.core 1).chanBank message.chn = some 3 ∧ (t.core 1).firstRecv 3 = none) ∧
     (let m := f.stored (f.core 1) message
      let b := (((f.core 1).bank 3).place m).getD Bank.init
      ((f.core 1).bank 3).place m = some b ∧ f.noLeaf (lsLoc 1 (3 * 16384)) 16384 = true ∧ ((f.core 1).bank 3).tail + 32 ≤ 16384 ∧
        (b.tail + 16384 - m.size) % 16384 + m.size ≤ 16384) ∧
     ((u.core 1).bank 3).place (u.stored (u.core 1) message) = none) ∧
    (headerBad message.header = false ∧ headerBad 1 = true ∧ headerBad (1#256 <<< 79) = true) ∧
    ((withPkt (msgPkt 63 1) (helper [])).pkt? 7 = some (msgPkt 63 1) ∧ (withPkt (msgPkt 64 2) (helper [])).pkt? 7 = some (msgPkt 64 2)) ∧
    (let s := withPkt recPkt (waitsFor .away)
     s.pkt? 7 = some recPkt ∧ 0 ≠ nCores ∧ s.awayNow 0 0xFFFF800000020000 = false ∧ olderGen 5 (s.pgenOf 0) = false ∧
       s.launchOver record.lid = false ∧ s.windowCore 0 0xFFFF800000020000 = some 1 ∧ (s.core 1).deque.length < 64) ∧
    (let s := withPkt replyPkt ((inPart (helper [])).modCore 0 (fun k => { k with slots := [(0, ⟨.busy, 3, record.lid⟩)] }))
     s.pkt? 7 = some replyPkt ∧ s.awayNow 0 0xFFFF80000001FC00 = false ∧ olderGen 5 (s.pgenOf 0) = false ∧
       s.windowCore 0 0xFFFF80000001FC00 = some 0 ∧ s.owned = [] ∧ s.waits = [] ∧
       Store.get ReplySlot.init (s.core 0).slots ((0xFFFF80000001FC00 % 2 ^ 17 - 0x1FC00) / 16) = ⟨.busy, 3, record.lid⟩ ∧
       s.fBit (lsLoc 0 (slotOff 0)) = false ∧ s.noLeaf (lsLoc 0 (slotOff 0)) 16 = true) ∧
    (let s := withDeque 8 (inPart (helper []))
     s.neighbours 0 = [1, 96] ∧ ∀ m ∈ s.neighbours 0, (s.core 0).deque.length ≤ (s.core m).deque.length + 8) ∧
    (let g : Segs := [(lsLoc 0 0x8000, 96)]
     let s := ((waitsFor (.steal g true)).modCore 1 (fun k => { k with deque := [record] })).modCore 0
       (fun k => { k with reported := [(1, 1)] })
     (s.ctx 0 3).outs[0]?.map Outst.wait = some (.steal g true) ∧ s.victim 0 = some 1 ∧
       takeUnpinned (s.core 1).deque = some (record, []) ∧ s.ownedSegs g = false ∧ s.waits = []) ∧
    (let s (w : Word) : State := (helper []).modGroup 15 (fun x => { x with word := w })
     let far (s : State) : State := s.modVif 0 (fun i => { i with bars := [(15, ⟨3, some 5, 2, 9⟩)] })
     ((s 0x800000030000000F).group 15).word.getLsbD 63 = true ∧ ((s 0x800000030000000F).group 15).word.extractLsb' 32 12 ≠ 0#12 ∧
       ((s 0x800000000000000F).group 15).word.extractLsb' 32 12 = 0#12 ∧
       ((far (s 0x800000000000000F)).arrivals (fun c => (far (s 0x800000000000000F)).vifOf c == some 0) true 15).length + (2 + 1) < 5) := by
  refine ⟨?_, ?_, ?_, ?_, ?_, ?_, ?_, ?_⟩ <;> decide +kernel

/-- The instruction that an issue comes to, with its state. -/
def issued (r : Issue) : Option (Instr × State) :=
  match r with
  | .exec i s => some (i, s)
  | .over _ => none

theorem of_issued {r : Issue} {i : Instr} {s : State} (h : issued r = some (i, s)) : r = .exec i s := by
  cases r <;> simp_all [issued]

theorem of_nextOf {r : Host.Outcome State Fault Refusal} {t : State} (h : nextOf r = some t) : r = .next t := by
  cases r <;> simp_all [nextOf]

/-- A `nop` at the reset PC of core 0, which the checker finds wrong. -/
def mismatched (again : Bool) : State :=
  { State.reset.withFetchWord 16 0x3400 with single := none, agenda := [.mismatch 0 again] }

/-- The state in which the `nop` is executed, and the state after it. -/
def began (again : Bool) : State :=
  match issued ({ mismatched again with agenda := [] }.beginIssue 0 0) with
  | some (_, s) => s
  | none => State.reset

theorem witness_TrapsAndMessagesArrive_checker (again : Bool) :
    (mismatched again).single = none ∧ (mismatched again).agenda = [.mismatch 0 again] ∧ (mismatched again).freeze = false ∧
      ((mismatched again).core 0).tryOrder = [0] ∧
      { mismatched again with agenda := [] }.beginIssue 0 0 = .exec .nop (began again) ∧
      exec .nop (began again) = .next (after (exec .nop (began again))) ∧ (after (exec .nop (began again))).stalled = false ∧
      ((after (exec .nop (began again))).ctx 0 0).cr.cyc = ((began again).ctx 0 0).cr.cyc + 1 := by
  cases again <;>
    exact ⟨by decide +kernel, by decide +kernel, by decide +kernel, by decide +kernel, of_issued (by decide +kernel),
      of_nextOf (by decide +kernel), by decide +kernel, by decide +kernel⟩

/-! ## The engines -/

/-- Whether an answer is a value. -/
def isOk {ε α : Type} (r : Except ε α) : Bool :=
  match r with
  | .ok _ => true
  | .error _ => false

theorem of_isOk {ε α : Type} {r : Except ε α} (d : α) (h : isOk r = true) : r = .ok (got r d) := by
  cases r with
  | ok y => rfl
  | error e => simp [isOk] at h

/-- Core 0 with hires at its bench, of which none is computed but the one whose number `busy` is. -/
def withHires (hs : List Hire) (busy cur : Option Nat) : State :=
  (inPart (helper [])).modBench 0 (fun b => { b with hires := hs, busy := busy, cur := cur })

/-- A hire of the current pen. -/
def ownHire (st : HireStage) : Hire := { hireAt st with pgen := 5, order := 1 }

/-- A computed hire of two rows whose first row's page does not translate. -/
def farHire : Hire := { ownHire .landing with d := memCap 0x70000, deferred := [0x70000] }

theorem witness_EngineSteps_hires :
    (let s := withHires [ownHire .inbox] none none
     (s.bench 0).find 9 = some (ownHire .inbox) ∧ s.pgenOf 0 = 5 ∧ (s.servedBy 0).isSome = true ∧
       (ownHire .inbox).badBank s = false ∧ headerBad (ownHire .inbox).header = false ∧
       (s.hirePages 0 (pieces (ownHire .inbox).d.addr (ownHire .inbox).extD)).isSome = true ∧ s.pgenOf 0 ≠ { ownHire .inbox with pgen := 4 }.pgen) ∧
    (let s := withHires [ownHire .queued] none none
     (s.bench 0).busy = none ∧ (s.bench 0).cur = none ∧ s.nextMaster (s.serving 0) none = some 0 ∧
       s.current 0 = some (ownHire .queued) ∧ s.ownsAll 9 = true ∧
       { s with claims := [(lsLoc 0 0x8000, 9)] }.ownsAll 9 = false) ∧
    (let h := { ownHire .queued with loaded := true }
     let s := withHires [h] (some 9) (some 0)
     (s.bench 0).busy = some 9 ∧ s.hire 9 = some h ∧ benchOf h.core = 0 ∧ h.loaded = true ∧ h.retried = false) ∧
    (let s := withHires [farHire] none none
     s.nextLanding 0 = some farHire ∧ (landPages farHire farHire.deferred s).2.2 = some (0x70000, 3) ∧
       (let h1 := (landPages farHire farHire.deferred s).2.1
        let s1 := (landPages farHire farHire.deferred s).1
        h1.core = 0 ∧ h1.ctx = farHire.ctx ∧ h1.handle = some 2 ∧ h1.park = 0 ∧ h1.id = 9 ∧
          (List.range 2).find? (fun i => !(s1.parkTaken h1.array).contains i) = some 0 ∧ farHire.ctx ≠ 0 ∧
          (s1.ctx 0 farHire.ctx).st ≠ .free ∧ ∃ x ∈ (s1.bench 0).hires, x.id = 9)) ∧
    (let h := { ownHire .landing with order := 2, free := 3 }
     let s := withHires [h] none none
     s.nextLanding 0 = some h ∧ h.deferred = [] ∧ s.ownsAll 9 = true ∧ h.tap = false ∧ h.epi = false ∧ s.claims = [] ∧ s.waits = []) ∧
    (∀ st ∈ [HireStage.parked, .queued],
      let s := withPkt (.resume 0 9 0 3 5) (withHires [ownHire st] none none)
      s.pkt? 7 = some (.resume 0 9 0 3 5) ∧ headerBad 0 = false ∧ (s.bench 0).find 9 = some (ownHire st) ∧ (ownHire st).stage = st) ∧
    (let s := withPkt (.cancel 0 clsArray 9 0 3 5) (withHires [ownHire .queued] none none)
     s.pkt? 7 = some (.cancel 0 clsArray 9 0 3 5) ∧ s.holdsCmd clsArray 9 = true ∧ s.holdsCmd clsArray 8 = false) ∧
    (let s := waitsFor .away
     (s.core 0).flushing = [] ∧ s.waits = [] ∧ s.claims = [] ∧ ((s.ctx 0 3).outs.find? (fun o => o.id == 5)).map Outst.dest = some (.g 9) ∧
       fits (.g 9) (putVal 1#64) = true) := by
  refine ⟨?_, ?_, ?_, ?_, ?_, ?_, ?_, ?_⟩ <;> decide +kernel

/-- The fill of one byte at copy engine 0, and a state that holds it. -/
def fillCmd (accepted : Bool) (code : Nat) : Copy :=
  { (helper []).sampleCopy fillDesc 0 with
    id := 9, pgen := 5, handle := some 2, accepted := accepted, code := code,
    pages := if accepted then [⟨0xFFFFFFFFFFFE8100, 1, lsLoc 0 0x8100⟩] else [] }

def withCopies (cs : List Copy) : State := (inPart (helper [])).modCopy 0 (fun _ => cs)

/-- The same command without a record, and an all-reduce in group 15. -/
def reduceDesc : List GReg :=
  [selfCap 0x100, selfCap 0x200, .null, .null, quad (5 + 2 * 16 + 2 * 256 + 15 * 2 ^ 16 + 2 ^ 26) 0 0 0, quad 16 1 1 0, .null, .null]
def reduceCmd : Copy :=
  { fillCmd true 0 with desc := reduceDesc, p := 2, pages := [⟨0xFFFFFFFFFFFE8200, 64, lsLoc 0 0x8200⟩] }

/-- An all-gather of one element in group 15. -/
def gatherCmd : Copy :=
  { reduceCmd with desc := (reduceDesc.set 4 (quad (7 + 2 * 16 + 2 * 256 + 15 * 2 ^ 16 + 2 ^ 26) 0 0 0)).set 5 (quad 1 1 1 0) }

theorem witness_EngineSteps_copies :
    (let s := withCopies [fillCmd false 0]
     s.nextCopy 0 = some (fillCmd false 0) ∧ headerBad (fillCmd false 0).header = false ∧ (fillCmd false 0).code = 0 ∧ s.pgenOf 0 = 5 ∧
       (fillCmd false 0).op < 5 ∧ isOk (s.copyPages 0 (fillCmd false 0).spans) = true) ∧
    (let c := fillCmd true 0
     let s := withCopies [c]
     (s.copyEng 0).find? (fun x => x.id == 9) = some c ∧ c.op = 3 ∧ s.ownsAll 9 = true ∧ c.dbits ≠ 4 ∧
       pageLoc c.pages (c.pos? c.dstWalk c.pos).1.toNat = some (lsLoc 0 0x8100) ∧ lsLoc 0 0x8100 % c.dsz = 0 ∧
       s.poison (lsLoc 0 0x8100) = false ∧ s.owner (lsLoc 0 0x8100) ≠ 9 ∧
       { s with owned := [(lsLoc 0 0x8100, 9)] }.owner (lsLoc 0 0x8100 / 16 * 16) = 9 ∧
       { s with owned := [(lsLoc 0 0x8100, 9)] }.ownsAll 9 = true ∧
       s.noLeaf (lsLoc 0 0x8100) 16 = true ∧ c.buf = [] ∧ s.waits = [] ∧ s.claims = [] ∧ c.pos + 1 = c.total ∧
       (c.restSpans (c.pos + 1)).any (touchesG ((c.pos? c.dstWalk c.pos).1.toNat / 16 * 16)) = false) ∧
    (let c := { fillCmd true 1 with desc := fillDesc.set 3 .null }
     ((withCopies [c]).copyEng 0).find? (fun x => x.id == 9) = some c ∧ c.code ≠ 0 ∧ c.recCap.tag = false ∧ c.buf = []) ∧
    (let s := withCopies [reduceCmd]
     s.collective 15 = some (0, reduceCmd) ∧ s.vifOf reduceCmd.core = some 0 ∧ reduceCmd ∈ s.copyEng 0 ∧
       remoteMatches ⟨1, 6, 2, 0, 16, 0, false, [], []⟩ reduceCmd = false ∧ remoteMatches ⟨1, 5, 2, 0, 16, 0, false, [], []⟩ reduceCmd = true) ∧
    (let m : RemoteMember := ⟨1, 7, 2, 0, 1, 7, false, [], []⟩
     let s := withCopies [gatherCmd]
     s.collective 15 = some (0, gatherCmd) ∧ gatherCmd ∈ s.copyEng 0 ∧ remoteMatches m gatherCmd = true ∧ gatherCmd.op = 7 ∧
       m.dext < gatherCmd.p * gatherCmd.n0 * gatherCmd.dsz) := by
  refine ⟨?_, ?_, ?_, ?_, ?_⟩ <;> decide +kernel

/-- Rank 0 of group 15 with the all-reduce at engine 0, and what rank 1 brings. -/
def round : State := (withCopies [reduceCmd]).modGroup 15 (fun g => { g with word := 0x8002000000000000 })
def brought : RemoteMember := ⟨1, 5, 2, 0, 16, 64, false, List.replicate 16 1, List.replicate 16 false⟩

/-- What the engine reads of its own member's source. -/
def roundRead : State × List Byte × Bool :=
  match round.engRead 0 9 reduceCmd.src.addr (reduceCmd.n0 * reduceCmd.ssz) with
  | .ok s bs p => (s, bs, p)
  | _ => (round, [], true)

theorem witness_EngineSteps_round :
    roundErr reduceCmd [brought] = none ∧ round.ownsAll 9 = true ∧ grpRank (round.group 15).word = 0 ∧
    (∀ q, q < reduceCmd.p → q = 0 ∨ ∃ m ∈ [brought], m.rank = q) ∧ reduceCmd.p = 2 ∧
    (match round.engRead 0 9 reduceCmd.src.addr (reduceCmd.n0 * reduceCmd.ssz) with
      | .ok _ _ p => p == false
      | _ => false) = true ∧
    reduceCmd ∈ roundRead.1.copyEng 0 ∧
    (let out := collResult reduceCmd 2 0 (memberData 0 2 (splitElems reduceCmd.ssz 16 roundRead.2.1) [brought]
      (fun m => m.data.map BitVec.toNat))
     let g := reduceCmd.destSpans.flatMap (fun p => pageSegs reduceCmd.pages p.1 p.2)
     (g.map Prod.snd).sum = out.length * reduceCmd.dsz ∧ out.length = 16 ∧ roundRead.1.landRefused g = false) := by
  refine ⟨?_, ?_, ?_, ?_, ?_, ?_, ?_, ?_⟩ <;> decide +kernel

-- The round lands and ends with DONE.
theorem test_round : (((after (exec (.collectiveRoundComplete 0 15 [brought]) round)).copyEng 0)[0]?.map Copy.code) = some 1 := by
  decide +kernel

/-- An attention over one token, and a block-table write, at stack engine 0. -/
def sattCmd (accepted started : Bool) : Stk :=
  { (helper []).sampleStk 0 sattDesc with id := 9, out := 10, pgen := 5, accepted := accepted, started := started }
def sblkCmd (accepted : Bool) : Stk :=
  { (helper []).sampleStk 2 [] with id := 9, pgen := 5, value := 7, pa := 0x2FFF8, accepted := accepted }

def withStks (cs : List Stk) (s : State) : State := s.modStk 0 (fun _ => cs)

/-- A specialisation entry. -/
def specEnt : Spec :=
  { id := 3, key := 0, digest := 0, config := 0, uniform := [], log := [], logPages := [], base := 0, image := [], backmap := [],
    codeBase := 0, entry := 0, warn := 0, fpc := 0, doomed := false }

theorem witness_EngineSteps_stacks :
    (let s := withStks [sblkCmd false] (inPart (helper []))
     (s.stkEng 0).find? (fun c => !c.accepted) = some (sblkCmd false) ∧ headerBad (sblkCmd false).header = false ∧ s.pgenOf 0 = 5 ∧ (sblkCmd false).form = 2) ∧
    (let c := sattCmd true false
     let s := withStks [c] ((mapped (helper [])).write 0x20000 (toLE (2 ^ 63) 8))
     s.headStk 0 = some c ∧ c.form ≠ 2 ∧ c.started = false ∧ s.ownsAll 9 = true ∧ isOk (c.compute 0 s) = true ∧
       (got (c.compute 0 s) (s, [])).1.stkEng 0 = s.stkEng 0) ∧
    (let s := withStks [sattCmd true true] (mapped (helper []))
     s.headStk 0 = some (sattCmd true true) ∧ (sattCmd true true).form = 0 ∧ s.waits = [] ∧ s.claims = [] ∧
       s.landRefused ((List.range (sattCmd true true).nq).flatMap (sattCmd true true).rowSegs ++ (sattCmd true true).statSegs) = false ∧
       (∀ b ∈ [false, true], Store.get false { s with rowBits := [(16 * 7, b)] }.rowBits (16 * 7) = b)) ∧
    (let s := withStks [sblkCmd true] (mapped (helper []))
     s.headStk 0 = some (sblkCmd true) ∧ s.ownsAll 9 = true ∧ s.partPoison 0x2FFF8 8 = none ∧ s.noLeaf 0x2FFF8 8 = true) ∧
    (let s := State.reset.modDie 3 (fun d => { d with specs := [specEnt] })
     (s.die 3).specs[0]? = some specEnt ∧ s.pinned 3 = false) := by
  refine ⟨?_, ?_, ?_, ?_, ?_⟩ <;> decide +kernel

/-! ## The ringmasters -/

/-- Interface 0 with its ring at 0x40000, that holds words. -/
def ring (ws : List Nat) (f : Vif → Vif) : State :=
  let s := (mapped (helper [])).write 0x20000 (ws.flatMap (fun w => toLE w 4))
  s.modVif 0 (fun i => f { i with run := true, pctrl := 3, rbase := 0x40000, rtail := BitVec.ofNat 64 (4 * ws.length) })

/-- The state that reading a command leaves. -/
def readState (r : CmdRd) : State :=
  match r with
  | .ok s _ _ _ _ => s
  | .error s _ => s
  | .idle => State.reset

/-- Whether a command has been read, with its type, flags, count and payload, or an error. -/
def reads (r : CmdRd) (ty fl n : Nat) (ws : List (BitVec 32)) : Bool :=
  match r with
  | .ok _ a b c ds => decide (a = ty ∧ b = fl ∧ c = n ∧ ds = ws)
  | _ => false

def errs (r : CmdRd) (code : Nat) : Bool :=
  match r with
  | .error _ c => decide (c = code)
  | _ => false

theorem of_reads {r : CmdRd} {ty fl n : Nat} {ws : List (BitVec 32)} (h : reads r ty fl n ws = true) :
    r = .ok (readState r) ty fl n ws := by
  cases r <;> simp_all [reads, readState]

theorem of_errs {r : CmdRd} {code : Nat} (h : errs r code = true) : r = .error (readState r) code := by
  cases r <;> simp_all [errs, readState]

/-- A level in a state. -/
def lvl (n : Nat) (st : LvlSt) (cxl : Bool) (i : Vif) : Vif :=
  { i with levels := [(n, { Level.init with st := st, kind := 1, cxl := cxl })] }

-- 0x42 is no command type; a nested buffer of 2^20 words; a level in slot 63 of each kind that counts.
theorem witness_StreamCommands_plain :
    errs ((ring [0x42000000] id).nextCmd 0) 1 = true ∧ reads ((ring [0] id).nextCmd 0) 0 0 0 [] = true ∧
    (reads ((ring [0x01000003, 0x40000, 0, 2 ^ 20] id).nextCmd 0) 1 0 3 [0x40000, 0, 0x100000] = true ∧
      (Machine.payload2 [0x40000, 0, 0x100000] 1).toNat % 4 = 0 ∧ Machine.payload [0x40000, 0, 0x100000] 3 = 2 ^ 20) ∧
    reads ((ring [0x02000000, 0x02000000] (fun i => { i with nest := [⟨0x40000, 2, 0⟩] })).nextCmd 0) 2 0 0 [] = true ∧
    (∀ p ∈ [(LvlSt.opened, false), (.complete, false)],
      let s := ring [0x20010001, 63] (lvl 63 p.1 p.2)
      reads (s.nextCmd 0) 0x20 1 1 [63] = true ∧ ((((readState (s.nextCmd 0)).vif 0).level 63).st, (((readState (s.nextCmd 0)).vif 0).level 63).cxl) = p) ∧
    (let s := ring [0x21000004, 0x4FFF8, 0, 7, 0] id
     let s1 := readState (s.nextCmd 0)
     let r := got (s1.translateRoot (s1.vif 0).troot 0x4FFF8 kStore) (s, 0)
     reads (s.nextCmd 0) 0x21 0 4 [0x4FFF8, 0, 7, 0] = true ∧ Machine.payload2 [0x4FFF8, 0, 7, 0] 1 = 0x4FFF8 ∧
       answers (s1.translateRoot (s1.vif 0).troot 0x4FFF8 kStore) (r.1, 0x2FFF8) = true ∧ r.1.ownedAny 0x2FFF8 8 = false ∧
       r.1.partPoison 0x2FFF8 8 = none ∧ r.1.noLeaf 0x2FFF8 8 = true ∧ r.1.waits = [] ∧ r.1.vif 0 = s1.vif 0) ∧
    (∀ st ∈ [LvlSt.opened, .complete],
      let s := ring [0x22000001, 63] (lvl 63 st false)
      let s1 := readState (s.nextCmd 0)
      reads (s.nextCmd 0) 0x22 0 1 [63] = true ∧ (s1.vif 0).began = false ∧ ((s1.vif 0).level 63).st = st ∧ s1.benches = [] ∧
        s1.copies = [] ∧ s1.stks = [] ∧ s1.net = []) := by
  refine ⟨?_, ?_, ?_, ?_, ?_, ?_, ?_⟩ <;> decide +kernel

theorem witness_StreamCommands_launches :
    (let ws : List (BitVec 32) := [0x100, 0x40000, 0, 0x40080, 0, 0x40100, 0]
     let s := ring (0x10000007 :: ws.map BitVec.toNat) (fun i => { i with began := true })
     let b := ring (0x10000007 :: ws.map BitVec.toNat) id
     reads (s.nextCmd 0) 0x10 0 7 ws = true ∧ ((readState (s.nextCmd 0)).vif 0).began = true ∧
       (readState (s.nextCmd 0)).rootAway 0 (launchCmd false none ws).slot = false ∧
       reads (b.nextCmd 0) 0x10 0 7 ws = true ∧ ((readState (b.nextCmd 0)).vif 0).began = false ∧
       (readState (b.nextCmd 0)).launchBad 0 (launchCmd false none ws) = true) ∧
    (let ws : List (BitVec 32) := [0x10F, 0x40020, 0, 64]
     let s := ring (0x11000004 :: ws.map BitVec.toNat) id
     reads (s.nextCmd 0) 0x11 0 4 ws = true ∧ Machine.payload ws 1 / 16 % 16 = 0 ∧ Machine.payload ws 1 / 2 ^ 14 % 4 = 0 ∧ Machine.payload ws 1 / 2 ^ 22 = 0 ∧
       (Machine.payload2 ws 2).toNat % 32 = 0 ∧ Machine.payload ws 4 = 64 ∧ ((readState (s.nextCmd 0)).vif 0).trigs = [] ∧
       (((readState (s.nextCmd 0)).vif 0).graph 15).cur = none) ∧
    (let s := ring [0x12000001, 15] (fun i => { i with
       graphs := [(15, { Graph.init with up := true, list := 0x40000, nl := 1 })], trigs := List.replicate 3 ⟨0, true, 0, [], 0⟩ })
     let s1 := readState (s.nextCmd 0)
     reads (s.nextCmd 0) 0x12 0 1 [15] = true ∧ (s1.vif 0).trigs.length = 3 ∧ ((s1.vif 0).graph 15).up = true ∧
       ([15] : List Nat).length = 1) ∧
    (let ws : List (BitVec 32) := [1, 0x0C100000]
     let s := ring (0x30000002 :: ws.map BitVec.toNat) id
     reads (s.nextCmd 0) 0x30 0 2 ws = true ∧ Machine.payload ws 1 + 1 = ws.length ∧
       ((ws.drop 1).filterMap rectWord).length = 1 ∧
       coverRects ((ws.drop 1).filterMap rectWord) ((readState (s.nextCmd 0)).vif 0).clusters = true ∧
       ((readState (s.nextCmd 0)).vif 0).levels = []) ∧
    (let s := ring [0x31000001, 0] id
     reads (s.nextCmd 0) 0x31 0 1 [0] = true ∧
       ((readState (s.nextCmd 0)).vif 0).pens[0]? = some ⟨0, 0, 16, 12, 5, 7, []⟩) ∧
    (let w := 23 + 23 * 2 ^ 8
     let s := ring [0x32000001, w] id
     reads (s.nextCmd 0) 0x32 0 1 [BitVec.ofNat 32 w] = true ∧ (readState (s.nextCmd 0)).mayMap 0 23 = true ∧
       24 ≤ ((readState (s.nextCmd 0)).vif 0).phys 23) := by
  refine ⟨?_, ?_, ?_, ?_, ?_, ?_⟩ <;> decide +kernel

/-- A page of interface 0 that cannot be written, with a ring, and at 0x40080, 0x40100, 0x40200 and 0x40240 a kernel record, a
root record, and a capability of its uniform buffer. -/
def launchWords (krec : Nat) : List (BitVec 32) := [0, BitVec.ofNat 32 krec, 0, 0x40100, 0, 0x40200, 0]
def launching (krec : Nat) : State :=
  let s := ring (0x10000007 :: (launchWords krec).map BitVec.toNat) (fun i => { i with pens := [⟨0, 0, 1, 1, 5, 7, []⟩] })
  let s := s.putEntry (placeRoot + 0x3000 + 8 * vaIndex 0x40000 4) (BitVec.ofNat 64 (placePage + 0xE3))
  let s := (s.write 0x20084 (toLE 0 4)).write 0x20098 (toLE 0x5550 2)
  (s.storeGranules 0x20100 true record.granules).storeGranules 0x20200 true [makeCap pL 0 0x40240 16 0x40240]

/-- What the launch of a ring finds: its kernel record, root record, uniform capability and buffer are there and pass. -/
def launchOk (s : State) (c : LaunchCmd) (pen : Nat) (p : Pen) : Bool :=
  let i := s.vif 0
  match s.rootRead i.troot c.krec 128 with
  | .ok s2 gk => match s2.rootRead i.troot c.trec 96 with
    | .ok s3 gt => match s3.rootRead i.troot c.ucap 16 with
      | .ok s4 gu =>
        let kr := kRecOf (s4.readPieces gk)
        let u := (s4.granulesOf gu).getD 0 .null
        match s4.rootRead i.troot u.addr (max kr.unifSize 1) with
        | .ok s5 _ => answers (checkRec (recOf (s4.granulesOf gt)) false) () &&
            (s5.openLaunch 0 c pen).ucapOk i.troot u kr.unifSize && kr.rolesOk && kr.kflags % 2 == 0 &&
            (p.cores.foldl (fun a x => ((a.1.applyKernel kr x).1, a.2 && (a.1.applyKernel kr x).2)) (s5.openLaunch 0 c pen, true)).2
        | _ => false
      | _ => false
    | _ => false
  | _ => false

theorem witness_StreamCommands_launch :
    (∀ k ∈ [0x40080, 0x50000],
      let s1 := readState ((launching k).nextCmd 0)
      let c := launchCmd false none (launchWords k)
      reads ((launching k).nextCmd 0) 0x10 0 7 (launchWords k) = true ∧ (s1.vif 0).began = false ∧ s1.launchBad 0 c = false ∧
        (s1.vif 0).penAt (coreAt ((s1.vif 0).phys c.lcl) c.core) = some (0, ⟨0, 0, 1, 1, 5, 7, []⟩) ∧ (s1.vif 0).penBusy 0 = false ∧
        s1.vifOfCluster ((s1.vif 0).phys c.lcl) = some 0 ∧ s1.rootAway 0 c.slot = false ∧ s1.waits = []) ∧
    (match (readState ((launching 0x50000).nextCmd 0)).rootRead (BitVec.ofNat 64 placeRoot) 0x50000 128 with
      | .fault => true
      | _ => false) = true ∧
    launchOk (readState ((launching 0x40080).nextCmd 0)) (launchCmd false none (launchWords 0x40080)) 0 ⟨0, 0, 1, 1, 5, 7, []⟩ = true := by
  refine ⟨?_, ?_, ?_⟩ <;> decide +kernel

-- A launch sends its root record to its core, which then enters its deque and ends the command.
theorem test_launch_sends : (after (exec (.launch 0) (launching 0x40080))).net.length = 1 := by decide +kernel

theorem test_launch_fails : (((after (exec (.launch 0) (launching 0x50000))).vif 0).level 0).cxl = true := by decide +kernel

/-- Two interfaces that share cluster 0, of which interface 0 holds it. -/
def sharing (ending : Bool) : State :=
  let i : Vif := { Vif.init with pctrl := 1, cmap := [(0, 0)], share := 0x100000000101 }
  { State.reset with vifs := [(0, { i with holds := true, turnEnding := ending }),
                              (1, { i with deficit := 5, trigs := [⟨0, true, 0, [], 0⟩] })] }

theorem witness_RingRegistersAndLevels :
    (let s := State.reset
     ((s.vif 63).run = false ∧ (s.vif 63).began = false) ∧ ((ring [] id).vif 0).run = true) ∧
    (let g : Graph := { Graph.init with up := true, slot := 63, cur := some ⟨15, true, 0, [], 0⟩ }
     let s := State.reset.modVif 63 (fun i => { i with
       graphs := [(15, g)], levels := [(63, { Level.init with st := .opened, kind := 2 })] })
     (s.vif 63).graph 15 = g ∧ ((s.vif 63).level 63).st = .opened ∧ ((s.vif 63).level 63).kind = 2 ∧ g.entries = []) ∧
    (0x2C00000000000000#64).extractLsb' 61 3 = 1#3 ∧ (0x2C00000000000000#64).extractLsb' 58 3 = 3#3 ∧
    (0x2C00000000000000#64).getLsbD 57 = false ∧ (0x3000000000000000#64).extractLsb' 58 3 = 4#3 ∧
    (∀ st ∈ [LvlSt.free, .complete, .cancelling],
      (((State.reset.modVif 63 (fun i => { i with levels := [(63, { Level.init with st := st, kind := 3, serial := 2 ^ 20 - 1 })] })).vif 63).level 63).st = st) ∧
    (let l : Level := { Level.init with st := .opened, kind := 3, sealed := true }
     (State.reset.modVif 63 (fun i => { i with levels := [(63, l)] })).levelDone 63 63 = some false ∧
       (State.reset.modVif 63 (fun i => { i with levels := [(63, { l with st := .cancelling })] })).levelDone 63 63 = some true) ∧
    (inPart State.reset).penQuiet 0 0 = true ∧
    (let s := State.reset
     s.mayEnable 63 { s.vif 63 with pctrl := 1 } = true ∧ (s.vif 63).en = false ∧ (s.vif 63).holds = false ∧
       (inPart s).mayEnable 63 { Vif.init with pctrl := 1, cmap := [(0, 0)] } = false) ∧
    (let s := sharing false
     let e := sharing true
     s.holderOf 1 = some 0 ∧ (s.vif 0).turnEnding = false ∧ (s.vif 0).hasWork = false ∧ e.holderOf 1 = some 0 ∧
       (e.vif 0).turnEnding = true ∧ e.turnDrained 0 = true ∧ (e.settleDeficits 1 0).nextHolder 1 = some 1) := by
  refine ⟨?_, ?_, ?_, ?_, ?_, ?_, ?_, ?_, ?_, ?_, ?_⟩ <;> decide +kernel

/-! ## The hub die, the ports and the debug port -/

/-- A control context with an armed injector of bank 7 at granule 1023 that poisons, and a full error ring of its die. -/
def injecting : State :=
  ((helper []).modCore 0 (fun k => { k with injectors := [(7, 0xD0000000000003FF)] })).modDie 0 (fun d => { d with errtail := 256 })

theorem witness_HubRegistersAndMemory :
    ((1 : Word).getLsbD 0 = true ∧ (State.reset.die 3).failed = false ∧ (State.reset.core (coreAt 18 0)).held = true ∧
      dieOf (coreAt 18 0) = 3) ∧
    ({ State.reset with lock := true }.lock = true ∧ State.reset.sec.failStage = 0 ∧
      (after (exec (.packageReset 2) State.reset)).sec.failStage ≠ 0) ∧
    (let s := State.reset
     let a := 2 ^ 40 - 4
     s.owned = [] ∧ s.waits = [] ∧ s.hubq = [] ∧ a < 2 ^ 40 ∧ a + [1#8, 2, 3, 4].length = 2 ^ 40 ∧ s.partPoison a 4 = none ∧ s.noLeaf a 4 = true ∧
       s.readPoison a 4 = none) ∧
    (let s := { State.reset with owned := [(0x100, 9)], hubq := [(3, HubOp.access 0x100 true [1] 0)] }
     s.ownedAny 0x100 1 = true ∧ s.hubq = [(3, HubOp.access 0x100 true [1] 0)] ∧ { s with hubq := [] }.ownedAny 0x100 1 = true) ∧
    ((0x1000000#64).getLsbD 24 = true ∧ (State.reset.die 0).injsel.getLsbD 24 = false ∧ injAct 0xA000000000000000 = 2 ∧
      injAct 0xB000000000000000 = 3) ∧ State.reset.roundOpen 15 = false ∧
    ((State.reset.core 4607).anyHelper = false ∧ ((helper []).core 0).anyHelper = true ∧
      ((State.reset.core 4607).ctx 0).heldRegs.filter ((State.reset.core 4607).evicted 0) = []) := by
  refine ⟨?_, ?_, ?_, ?_, ?_, ?_, ?_⟩ <;> decide +kernel

-- A write through the hub's access lands in stack memory, and one that is not allowed does not (24 R366, 20 Table 186).
theorem test_hub_write : (after (exec (.hubStackAccess 0x100 true [1, 2] 0 false) State.reset)).byte 0x101 = 2 := by decide +kernel

theorem test_lock_stays : (after (exec (.lock 0) { State.reset with lock := true })).lock = true := by decide +kernel

/-- A flit whose CRC does not match. -/
def badFlit : BitVec 512 := (crc32 0 + 1) ++ 0#480

theorem crc_part (c : BitVec 32) (b : BitVec 480) : (c ++ b).extractLsb' 480 32 = c := by
  ext i hi
  rw [BitVec.getElem_extractLsb', BitVec.getLsbD_append, if_neg (by omega), Nat.add_sub_cancel_left, BitVec.getLsbD_eq_getElem hi]

theorem body_part (c : BitVec 32) (b : BitVec 480) (a n : Nat) (h : a + n ≤ 480) :
    (c ++ b).extractLsb' a n = b.extractLsb' a n := by
  ext i hi
  rw [BitVec.getElem_extractLsb', BitVec.getLsbD_append, if_pos (by omega), BitVec.getElem_extractLsb']

theorem flit_ok (ty vc : Nat) (seq : BitVec 16) (payload : BitVec 448) : flitOk (mkFlit ty vc seq payload) = true := by
  unfold flitOk mkFlit
  rw [crc_part, body_part _ _ _ _ (by omega), BitVec.extractLsb'_eq_self]
  exact beq_self_eq_true _

theorem flit_bad : flitOk badFlit = false := by
  unfold flitOk badFlit
  rw [crc_part, body_part _ _ _ _ (by omega), BitVec.extractLsb'_eq_self]
  simp

theorem flit_seq (ty vc : Nat) (seq : BitVec 16) (p : BitVec 448) : flitSeq (mkFlit ty vc seq p) = seq := by
  unfold flitSeq mkFlit
  rw [body_part _ _ _ _ (by omega)]
  ext i hi
  rw [BitVec.getElem_extractLsb', BitVec.getLsbD_append, if_neg (by omega), BitVec.getLsbD_append, if_neg (by omega),
    BitVec.getLsbD_append, if_pos (by omega), ← BitVec.getLsbD_eq_getElem hi]
  congr 1
  omega

theorem flit_type : flitType (mkFlit 1 0 7#16 0) = 1 := by
  simp only [flitType, mkFlit]
  rw [body_part _ _ _ _ (by omega)]
  decide +kernel

theorem flit_fields : flitType (mkFlit 1 0 7#16 0) = 1 ∧ flitSeq (mkFlit 1 0 7#16 0) = 7#16 := ⟨flit_type, flit_seq _ _ _ _⟩

theorem flit_ring : flitType (mkFlit 2 0x38 7#16 0) = 2 := by
  simp only [flitType, mkFlit]
  rw [body_part _ _ _ _ (by omega)]
  decide +kernel

theorem flit_vc : flitVc (mkFlit 2 0x38 7#16 0) = 0x38 := by
  simp only [flitVc, mkFlit]
  rw [body_part _ _ _ _ (by omega)]
  decide +kernel

-- A flit of group 3, whose ring comes from port 15 and goes on to port 4.
theorem witness_ring : flitType (mkFlit 2 0x38 7#16 0) = 2 ∧ flitVc (mkFlit 2 0x38 7#16 0) / 16 = 3 ∧
    (let w := ({ State.reset with groups := [(3, ⟨0x800100000000040F, none, 0⟩)] }.group 3).word
     w.getLsbD 63 = true ∧ (w.extractLsb' 0 4).toNat = 15 ∧ grpNext w = 4) :=
  ⟨flit_ring, (congrArg (· / 16) flit_vc).trans (by decide), by decide +kernel⟩

theorem witness_PortsFailuresAndDebug :
    (State.reset.port 15).en = false ∧
    (let p (st r : Nat) : Port := { Port.init with pstat := BitVec.ofNat 64 st, en := true, replays := r, rxSeq := 7 }
     let s (st r : Nat) : State := { State.reset with ports := [(15, p st r)] }
     (((s 1 0).port 15).state = 1 ∧ ((s 1 0).port 15).en = true) ∧ (((s 2 16).port 15).state = 2 ∧ ((s 2 16).port 15).replays = 16 ∧ ((s 2 16).port 15).nackSeq = 0) ∧
       ((s 2 0).port 15).rxSeq = 7) ∧
    (let s := injecting
     let w := Store.get 0 (s.core 0).injectors 7
     injArmed w = true ∧ injN w = 1023 ∧ injAct w = 5 ∧ s.events.any (fun e => e.1 == 64) = false ∧
       ((s.core 0).bank 7).role ≠ .way ∧
       ((s.modCore 0 (fun k => k.setBank 7 { Bank.init with role := .way })).core 0 |>.bank 7).role = .way ∧
       (s.die 0).errtail - (s.die 0).errhead = BitVec.ofNat 64 (2 ^ ((s.die 0).errsize.toNat % 16)) ∧
       lsLoc 0 (7 * 16384 + 16 * 1023) < lsBase + nCores * 2 ^ 17) ∧
    (State.reset.penOf 0 = none ∧ (State.reset.core 0).cr.ctxbase = 0) ∧
    (Ctx.init.st ≠ .stopped ∧ State.reset.freeze = false ∧ ((handling tBRK 3 0 true).ctx 0 3).st = .stopped) ∧
    ((helper []).ctx 0 3).st = .live ∧ ((helper []).core 0).held = false ∧
    (let s := (helper []).modCore 0 (fun k => { k with entries := [⟨3, .g 31, .live, true⟩] })
     (s.core 0).entry 3 (.g 31) = some ⟨3, .g 31, .live, true⟩ ∧ (s.ctx 0 3).isPending (.g 31) = false) ∧
    (let q : Port := { Port.init with pstat := 2, lanes := [(3, 0x8000000300000003)], laneAt := [(3, 4)], sent := 6 }
     q.outbox = [] ∧ (∀ m, m ≠ 3 → injArmed (Store.get 0 q.lanes m) = false) ∧ injArmed (Store.get 0 q.lanes 3) = true ∧
       Store.get 0 q.laneAt 3 + max 1 (injN (Store.get 0 q.lanes 3)) = q.sent + 1 ∧ injAct (Store.get 0 q.lanes 3) = 0) := by
  refine ⟨?_, ?_, ?_, ?_, ?_, ?_, ?_, ?_, ?_, fun m h => ?_, ?_, ?_, ?_⟩
  case refine_10 => simp [Store.get, injArmed, Ne.symm h]
  all_goals decide +kernel

/-- Core 0 with a poison injector of bank 7, and an error ring of its die with room. -/
def recording : State :=
  { injecting with injDue := [7] }.modDie 0 (fun d => { d with errtail := 255 })

theorem witness_PortsFailuresAndDebug_records :
    recordable recording 0 ∧ recordable recording (dieOf (locCore (lsBase + nCores * 2 ^ 17 - 16))) ∧ recordable recording (15 / 4) ∧
    (let w := Store.get 0 (recording.core 0).injectors 7
     injArmed w = true ∧ injN w = 1023 ∧ injAct w = 5 ∧ ((recording.core 0).bank 7).role ≠ .way ∧ recording.injDue = [8 * 0 + 7] ∧
       recording.ports = []) := by
  unfold recordable
  decide +kernel

-- An uncorrectable error at a stack enters the ring of its die (24 R366).
theorem test_record : ((after (exec (.ucna (2 ^ 37)) State.reset)).die 0).errtail = 1 := by decide +kernel

theorem witness_PortsFailuresAndDebug_blocks :
    ∀ e ∈ [true, false],
      let s := withBlocks e
      let slot := ((s.core 0).cr.ctxbase.toNat + 3 * 16384 + 16 * 31) % 2 ^ 40
      (s.core 0).cr.ctxbase ≠ 0 ∧ slot % 16 = 0 ∧ s.noLeaf slot 16 = true ∧ (s.ctx 0 3).holds (.g 31) = true ∧
      ((s.core 0).entry 3 (.g 31)).isSome = e ∧ (s.ctx 0 3).isPending (.g 31) = false ∧ s.owned = [] ∧
      (s.ctx 0 3).st = .stopped := by decide +kernel

/-! ## The whole machine -/

/-- A machine whose control context has EVEC and fetches words at `pc`. -/
def fetching (pc : Word) (ws : List HWord) : State :=
  let s := withCr State.reset { CoreRegs.init with evec := evecCap }
  (s.modCtx 0 0 (fun c => { c with pcc := c.pcc.withAddr pc })).placeWords ws

/-- The same about to fetch. -/
def ready0 (pc : Word) (ws : List HWord) : State :=
  { fetching pc ws with single := none, curCore := 0, curCtx := 0, stalled := false }

/-- The state that the fetches of words leave. -/
def fetched (pc : Word) : List HWord → State → Word → State
  | [], s, _ => s
  | _ :: ws, s, a => fetched pc ws (got (s.fetchWord 0 0 pc a) (s, 0)).1 (a + 2)

/-- Whether the words at an address are these. -/
def fetchesAre (pc : Word) : List HWord → State → Word → Bool
  | [], _, _ => true
  | w :: ws, s, a => answers (s.fetchWord 0 0 pc a) ((got (s.fetchWord 0 0 pc a) (s, 0)).1, w) &&
      fetchesAre pc ws (got (s.fetchWord 0 0 pc a) (s, 0)).1 (a + 2)

theorem of_fetchesAre {pc : Word} {ws : List HWord} {s : State} {a : Word} (h : fetchesAre pc ws s a = true) :
    fetches 0 0 pc ws s a (fetched pc ws s a) := by
  induction ws generalizing s a with
  | nil => rfl
  | cons w ws ih =>
    simp only [fetchesAre, Bool.and_eq_true] at h
    exact ⟨_, of_answers h.1, ih h.2⟩

-- A prefix of page 8, and a PIMM in the last word of a block of 64 KiB, in a control context that can enter EVEC.
theorem witness_IllegalChainsRaiseIll_page :
    wordsAtPc (ready0 0 [0x3D10, 0]) 0 0 [0x3D10, 0] (fetched 0 [0x3D10, 0] (ready0 0 [0x3D10, 0]) 0) ∧
      decode [0x3D10, 0] = .error .pageAbove7 ∧ decode [0x3D10] = .error .short ∧ decode [] = .error .short ∧
      ((ready0 0 [0x3D10, 0]).ctx 0 0).traps = [] ∧ ((ready0 0 [0x3D10, 0]).core 0).gather = [] ∧
      (ready0 0 [0x3D10, 0]).awaitsEngine 0 0 = false ∧
      ecHnd ((ready0 0 [0x3D10, 0]).core 0).cr.ecause = false ∧ evecOk ((ready0 0 [0x3D10, 0]).core 0).cr.evec = true :=
  ⟨⟨by decide +kernel, by decide +kernel, of_fetchesAre (by decide +kernel)⟩, rfl, rfl, rfl, by decide +kernel, by decide +kernel,
    by decide +kernel, by decide +kernel, by decide +kernel⟩

theorem witness_IllegalChainsRaiseIll_block :
    wordsAtPc (ready0 0xFFFE [0x3800]) 0 0 [0x3800] (fetched 0xFFFE [0x3800] (ready0 0xFFFE [0x3800]) 0xFFFE) ∧
      decode [0x3800] = .error .short ∧
      (((ready0 0xFFFE [0x3800]).ctx 0 0).pcc.word + BitVec.ofNat 64 2).toNat / 65536 ≠
        ((ready0 0xFFFE [0x3800]).ctx 0 0).pcc.word.toNat / 65536 :=
  ⟨⟨by decide +kernel, by decide +kernel, of_fetchesAre (by decide +kernel)⟩, rfl, by decide +kernel⟩

theorem witness_PpagSelectsPageScopeAndOrder :
    decodesTo [0x3C30, 0x0043] (.divu (paged (f2 2 1 1))) (paged (f2 2 1 1)) = true ∧ decodesTo [0x3400] .nop (opOf 0) = true := by
  decide

-- Three PIMMs and PREG, an ignored bit in a prefix, M and T.
theorem witness_DecodeEncode :
    let o : Op := { withK (f3 17 18 31 3 1) [511, 0, 256] with m := true, t := true, rsv := true }
    (Instr.st o).wellFormed o = true ∧ decodesTo (encode (.st o) o) (.st o) o = true := by decide +kernel

/-- Whether the registers that an instruction names are there. -/
def broughtIs (r : Bring) (s : State) : Bool :=
  match r with
  | .ok t => decide (t = s)
  | _ => false

theorem of_brought {r : Bring} {s : State} (h : broughtIs r s = true) : r = .ok s := by
  cases r <;> simp_all [broughtIs]

/-- A `nop` at the PC, fetched. -/
def nopState : State := fetched 0 [0x3400] (ready0 0 [0x3400]) 0

theorem witness_StepRunsDecoded :
    (fetching 0 [0x3400]).single = some (0, 0) ∧
    wordsAtPc (ready0 0 [0x3400]) 0 0 [0x3400] nopState ∧ decodesTo [0x3400] .nop (opOf 0) = true ∧
    (((ready0 0 [0x3400]).ctx 0 0).traps = [] ∧ (ready0 0 [0x3400]).awaitsEngine 0 0 = false) ∧
    ((ready0 0 [0x3400]).core 0).tryOrder = [0] ∧
    (ready0 0 [0x3400]).turnCore 0 = 0 ∧ (ready0 0 [0x3400]).turn % 5 = 0 ∧ (ready0 0 [0x3400]).freeze = false ∧
    (∃ f, (Instr.nop).form? = some f ∧ nopState.bringFor 0 0 f (opOf 0) = .ok nopState) ∧
    (nopState.injDue = [] ∧ (nopState.ports.all fun p => p.2.lanes.all fun l => !injArmed l.2) = true) ∧
    exec .nop { nopState with opr := opOf 0 } = .next (after (exec .nop { nopState with opr := opOf 0 })) ∧
    (after (exec .nop { nopState with opr := opOf 0 })).stalled = false ∧
    (let r := got (nopState.leafFor 0 0 0 kFetch) (nopState, ⟨0, 0, 0⟩)
     answers (nopState.leafFor 0 0 0 kFetch) (nopState, r.2) = true ∧ answers (r.2.allows 0 kFetch) () = true ∧
       nopState.ownedAny (r.2.pa 0) 2 = false ∧ nopState.poison (r.2.pa 0) = false) ∧
    Machine.Instr.whileFrozen (.freeze 0) = true ∧ Machine.Instr.whileFrozen (.bootgo 0 1) = false := by
  refine ⟨by decide +kernel, ⟨by decide +kernel, by decide +kernel, of_fetchesAre (by decide +kernel)⟩, by decide +kernel,
    by decide +kernel, by decide +kernel, by decide +kernel, by decide +kernel, by decide +kernel,
    ⟨_, rfl, of_brought (by decide +kernel)⟩, by decide +kernel, of_nextOf (by decide +kernel),
    by decide +kernel, by decide +kernel, by decide +kernel, by decide +kernel⟩

theorem witness_StepKeepsCanonicalMemory :
    State.reset.canonical = true ∧ step (fetching 0 [0x3400]) = .next (after (step (fetching 0 [0x3400]))) :=
  ⟨by decide +kernel, of_nextOf (by decide +kernel)⟩

-- The first instruction after reset is the one that was placed, and the PC moves past it.
theorem test_withFetchWord : ((after (step (State.reset.withFetchWord 16 0x3400))).ctx 0 0).pcc.addr = 2 := by decide +kernel

theorem test_decodeTableWord : decodeTableWord 32 (0x3C30 + 0x0043 * 65536) = some (.divu (paged (f2 2 1 1))) := by decide +kernel
/-! ## Assembly and linking -/

/-- The kernel of 03 R70's example. -/
def addkSource : String := ".kernel addk, args=1, uniform=16
 .uniform addend, 8
 .bank 2, pad
 .budget 1000
 .lsdata 2
 .align 16
out: .b64 0
 .b64 0
 .text
addk: ld.sw g8, [g2+addend]
 add g4, g8
 st g4, [g3+ls(out)]
 done
 .endk"

/-- The object of a source, empty where it is refused. -/
def objectOf (s : String) : Asm.Sothes := (Asm.assemble 100 [] "a" s).getD ⟨0, [], [], [], [], []⟩

/-- The bytes of the first section of a source. -/
def codeOf (s : String) : List Byte := ((objectOf s).sections[0]?.map Asm.Section.data).getD []

/-- The code of an image. -/
def imageCode (o : Asm.Sothes) : Option (List Byte) :=
  match Asm.link 0x100000 [o] with | .ok i => i.sections[0]?.map Asm.Section.data | .error _ => none

/-- Table 32 and 03 R70's example: the words of addk in the object and the image, its relocation record, with OFS 4, TYPE
0x0B and ADDEND 0 against `out`, and its kernel record; the file reads back as the object it was written from. -/
def addkOk (o : Asm.Sothes) : Bool :=
  decide (o.sections[0]?.map Asm.Section.data = some (Asm.wordBytes [0x9F04, 0x0490, 0x3800, 0x3800, 0x1E87, 0x3401])) &&
  decide (imageCode o = some (Asm.wordBytes [0x9F04, 0x0490, 0x3800, 0x3840, 0x1E87, 0x3401])) &&
  decide (o.relocs = [⟨1, 4, 1, 0x0B, 0, 0⟩]) && decide ((o.symbols[1]?).map Asm.Symbol.name = some "out") &&
  decide (o.kernels.map (fun k => [k.unifSize, k.nargs, k.budget.toNat, k.bankRole, k.chanMask, k.kflags]) =
    [[16, 1, 1000, 0x5550, 0, 0]]) &&
  decide (Asm.readSothes o.file = some o)

theorem test_addk : addkOk (objectOf addkSource) = true := by decide +kernel

/-- 03 R67's example: 0x1_2345 in three PIMMs and the base word 0x0320. -/
theorem test_split_value : Asm.putValue 0x05 0x12345 [0x3800, 0x3800, 0x3800, 0x0320] =
    some [0x391A, 0x3804, 0x3800, 0x0325] := by decide +kernel

/-- 03 R67: a value that does not fit is refused. -/
theorem test_split_refused : Asm.putValue 0x06 0x20000 [0x3800, 0x1C00] = none := by decide +kernel

/-- 06 Table 67: the derivation sequence. -/
theorem test_assemble_table67 : codeOf "ldi g8, 0x4000_0000
  mov g9, g1
  cset g9, g8
  ldi g10, 0x30_0000
  cbnd g9, g10
  ldi g11, 0xD80
  cperm g9, g11
  cget g12, g9, 2" = Asm.wordBytes [0x3800, 0x3800, 0x3880, 0x0300, 0x0122, 0x2930, 0x3800, 0x38C0, 0x0340, 0x2B34,
    0x386C, 0x0360, 0x2B37, 0x3802, 0x2D92] := by decide +kernel

/-- 21 Table 205: static marks, a third register and a branch back. -/
theorem test_assemble_table205 : codeOf "ld.st.sw g8, [g2+0]
  ldi.st g9, 0
again: add g10, g4
  addi.st g9, 1
  slt.st g11, g9, g8
  bnz.st g11, again" = Asm.wordBytes [0xDF04, 0x4320, 0x0548, 0x4721, 0x3B00, 0x5172, 0x577C] := by decide +kernel

/-- 14 Table 142, 17 Table 167 and 18 Table 175: forms of pages 5 and 6. -/
theorem test_assemble_pages : codeOf "fence 0x084
  copy g5, g10
  bar.sw g16, g16, 0
  recvp g9, g19, 1
  send g28, g17, 1" = Asm.wordBytes [0x3CD0, 0x0884, 0x3CB0, 0x04B4, 0x3CD0, 0x3A18, 0x9600, 0x3CD0, 0x3A08, 0x3801, 0x0D27,
    0x3CD0, 0x3A18, 0x3801, 0x0B82] := by decide +kernel

/-- 03 R56: precedence and association of operators, and arithmetic toward zero. -/
theorem test_expressions : codeOf ".data
  .b8 1 + 2 * 3, 10 - 3 - 2, 7 | 8 + 1, 6 & 3 << 1, -7 / 2, ~0 >> 4" =
    [7, 5, 16, 6, 0xFD, 0xFF] := by decide +kernel

/-- 03 R61: a branch that does not fit takes one PIMM; R62: explicit prefixes; R63: macros, repetition and conditions. -/
theorem test_assemble_source : codeOf ".macro two, r
  pimm 3
  addi %r, 1
  .endm
  bz g4, far
  two g4
  .rept 8
  add.w g4, g5
  .endr
  .if 0
  brk
  .else
  done
  .endif
far: nop" = Asm.wordBytes ([0x3800, 0x1495, 0x3803, 0x0681] ++ (List.replicate 8 [0x3AA1, 0x0488]).flatten ++ [0x3401, 0x3400]) := by
  decide +kernel

/-- 03 R59: what would raise ILL or meet a case of 02 Table 22 is refused. -/
theorem test_assemble_refuses : Asm.assemble 10 [] "a" "st.acq g3, [g4+0]" = none ∧ Asm.assemble 10 [] "a" "st.st g3, [g4+0]" = none ∧
    Asm.assemble 10 [] "a" "add.z g3, g4" = none := by decide +kernel

/-- 03 R57, R59, R62, 07 R150: a number too big for its field, a reserved part, and a directive behind an explicit prefix. -/
theorem test_assemble_refuses_fields : Asm.assemble 10 [] "a" "bfx g5, g6, 64, 8" = none ∧ Asm.assemble 10 [] "a" "gget g5, g7, 4" = none ∧
    Asm.assemble 10 [] "a" "vcvt.bf16 v2, v3, f32, 2" = none ∧ Asm.assemble 10 [] "a" " pimm 3
 .if 1
 addi g4, 1
 .endif" = none := by decide +kernel

/-- 03 R54, R63: labels may stand before the words that end a block. -/
theorem test_assemble_labels : codeOf ".if 0
 brk
a: .else
 nop
b: .endif
 done" = Asm.wordBytes [0x3400, 0x3401] := by decide +kernel

end Sys2Proof.Tests
end

section
/-! PROOFS. When a chain of prefixes is refused (02 R39): how many of each kind it holds, and how many it may hold. -/

namespace Sys2Proof

/-- The opcodes of PIMM, PREG, PPAG and PVEC (02 Table 15). -/
def prefixOps : List Nat := [28, 29, 30, 31]

/-- How many prefixes of an opcode a chain has read. -/
def Chain.held (c : Chain) : Nat → Nat
  | 28 => c.pimm.length
  | 29 => c.preg.isSome.toNat
  | 30 => c.ppag.isSome.toNat
  | _ => c.pvec.isSome.toNat

/-- How many prefixes of an opcode a chain may hold: three PIMMs, and one of every other (02 R39). -/
def prefixLimit (op : Nat) : Nat := if op = 28 then 3 else 1

/-- A chain that its prefixes have not made illegal so far. -/
def Chain.Legal (c : Chain) : Prop := c.npfx ≤ 4 ∧ ∀ op ∈ prefixOps, c.held op ≤ prefixLimit op

/-- A chain goes over a limit of 02 R39 once these prefixes have joined it. -/
def Chain.Over (c : Chain) (pre : List HWord) : Prop :=
  4 < c.npfx + pre.length ∨ ∃ op ∈ prefixOps, prefixLimit op < c.held op + opCount op pre

theorem Chain.legal_start : Chain.start.Legal :=
  ⟨Nat.zero_le 4, by decide⟩

theorem opCount_cons (op : Nat) (w : HWord) (ws : List HWord) :
    opCount op (w :: ws) = (if op = wordOp w then 1 else 0) + opCount op ws := by
  by_cases h : wordOp w = op
  · simp [opCount, h, Nat.add_comm]
  · simp [opCount, h, Ne.symm h]

/-- OP has five bits, so that prefixes have one of four opcodes (02 Table 13, R34). -/
theorem wordOp_mem_prefixOps {w : HWord} (h : isPrefix w = true) : wordOp w ∈ prefixOps := by
  have hlo : 28 ≤ wordOp w := of_decide_eq_true h
  have hhi : wordOp w < 32 := (w.extractLsb' 9 5).isLt
  simp only [prefixOps, List.mem_cons, List.not_mem_nil, or_false]
  omega

/-- One of the prefixes is refused where the chain is full or holds as many of its opcode as it may; else it is counted. -/
theorem Chain.step_cases (c : Chain) {w : HWord} (h : isPrefix w = true) :
    (c.step w = .error .badChain ∧ (4 ≤ c.npfx ∨ prefixLimit (wordOp w) ≤ c.held (wordOp w))) ∨
    ∃ c', c.step w = .ok c' ∧ c.npfx < 4 ∧ c.held (wordOp w) < prefixLimit (wordOp w) ∧ c'.npfx = c.npfx + 1 ∧
      ∀ op ∈ prefixOps, c'.held op = c.held op + if op = wordOp w then 1 else 0 := by
  by_cases hn : 4 ≤ c.npfx
  · exact .inl ⟨by simp [Chain.step, hn], .inl hn⟩
  have hop := wordOp_mem_prefixOps h
  simp only [prefixOps, List.mem_cons, List.not_mem_nil, or_false] at hop
  rcases hop with hop | hop | hop | hop
  · by_cases hfull : 3 ≤ c.pimm.length <;> simp [Chain.step, hn, hop, hfull, Chain.held, prefixLimit, prefixOps]
    omega
  · cases hfull : c.preg.isSome <;> simp [Chain.step, hn, hop, hfull, Chain.held, prefixLimit, prefixOps]
    omega
  · cases hfull : c.ppag.isSome <;> simp [Chain.step, hn, hop, hfull, Chain.held, prefixLimit, prefixOps]
    omega
  · cases hfull : c.pvec.isSome <;> simp [Chain.step, hn, hop, hfull, Chain.held, prefixLimit, prefixOps]
    omega

/-- A base word fails for its page or its opcode alone. -/
theorem Chain.finish_error {c : Chain} {w : HWord} {e : DecodeErr} (h : c.finish w = .error e) :
    e = .pageAbove7 ∨ e = .reservedOp := by
  unfold Chain.finish at h
  split at h
  · exact .inl (Except.error.inj h).symm
  · split at h
    · exact .inr (Except.error.inj h).symm
    · cases h

theorem decodeFrom_prefix_error {c : Chain} {w : HWord} {e : DecodeErr} (hw : isPrefix w = true) (h : c.step w = .error e)
    (ws : List HWord) : decodeFrom c (w :: ws) = .error e := by
  simp [decodeFrom, hw, h]

theorem decodeFrom_prefix_ok {c c' : Chain} {w : HWord} (hw : isPrefix w = true) (h : c.step w = .ok c') (ws : List HWord) :
    decodeFrom c (w :: ws) = decodeFrom c' ws := by
  simp [decodeFrom, hw, h]

theorem decodeFrom_base_error {c : Chain} {w : HWord} {e : DecodeErr} (hw : isPrefix w = false) (ws : List HWord) :
    decodeFrom c (w :: ws) = .error e ↔ c.finish w = .error e := by
  cases h : c.finish w <;> simp [decodeFrom, hw, h]

theorem Chain.not_over_nil {c : Chain} (hc : c.Legal) : ¬ c.Over [] := by
  rintro (h | ⟨op, hop, h⟩)
  · exact absurd hc.1 (by simpa using h)
  · exact absurd (hc.2 op hop) (by simpa [opCount] using h)

/-- Prefixes go over a limit where the first of them is refused, whatever follows it. -/
theorem Chain.over_cons_of_full {c : Chain} {w : HWord} (hw : isPrefix w = true) (ws : List HWord)
    (h : 4 ≤ c.npfx ∨ prefixLimit (wordOp w) ≤ c.held (wordOp w)) : c.Over (w :: ws) := by
  refine h.imp (fun hn => ?_) (fun hl => ⟨_, wordOp_mem_prefixOps hw, ?_⟩)
  · rw [List.length_cons]; omega
  · rw [opCount_cons, if_pos rfl]; omega

/-- What has been counted and what is still to come add up to the same before and after one of the prefixes. -/
theorem Chain.over_cons_iff {c c' : Chain} {w : HWord} (hn : c'.npfx = c.npfx + 1)
    (hheld : ∀ op ∈ prefixOps, c'.held op = c.held op + if op = wordOp w then 1 else 0) (ws : List HWord) :
    c.Over (w :: ws) ↔ c'.Over ws := by
  refine or_congr ?_ (exists_congr fun op => and_congr_right fun hop => ?_)
  · rw [List.length_cons, hn]; omega
  · rw [opCount_cons, hheld op hop]; omega

theorem Chain.Legal.of_counted {c c' : Chain} {w : HWord} (hc : c.Legal) (hfree : c.npfx < 4)
    (hroom : c.held (wordOp w) < prefixLimit (wordOp w)) (hn : c'.npfx = c.npfx + 1)
    (hheld : ∀ op ∈ prefixOps, c'.held op = c.held op + if op = wordOp w then 1 else 0) : c'.Legal := by
  refine ⟨by omega, fun op hop => ?_⟩
  rw [hheld op hop]
  split
  · next h => subst h; omega
  · exact hc.2 op hop

/-- A legal chain refuses what follows as a chain exactly when the prefixes before the base word go over a limit. -/
theorem Chain.decodeFrom_badChain_iff (pre : List HWord) (b : HWord) (rest : List HWord)
    (hpre : ∀ w ∈ pre, isPrefix w = true) (hb : isPrefix b = false) (c : Chain) (hc : c.Legal) :
    decodeFrom c (pre ++ b :: rest) = .error .badChain ↔ c.Over pre := by
  induction pre generalizing c with
  | nil =>
    refine iff_of_false (fun h => ?_) (Chain.not_over_nil hc)
    simpa using Chain.finish_error ((decodeFrom_base_error hb rest).1 h)
  | cons w ws ih =>
    have hw : isPrefix w = true := hpre w (by simp)
    rcases c.step_cases hw with ⟨hstep, hfull⟩ | ⟨c', hstep, hfree, hroom, hn, hheld⟩
    · exact iff_of_true (decodeFrom_prefix_error hw hstep _) (Chain.over_cons_of_full hw ws hfull)
    · rw [List.cons_append, decodeFrom_prefix_ok hw hstep, Chain.over_cons_iff hn hheld]
      exact ih (fun v hv => hpre v (by simp [hv])) c' (hc.of_counted hfree hroom hn hheld)

theorem Chain.over_start_iff (pre : List HWord) :
    Chain.start.Over pre ↔
      4 < pre.length ∨ 3 < opCount 28 pre ∨ 1 < opCount 29 pre ∨ 1 < opCount 30 pre ∨ 1 < opCount 31 pre := by
  simp [Chain.Over, prefixOps, prefixLimit, Chain.held, Chain.start]

end Sys2Proof
end

section
/-! PROOFS. What the fetch of an instruction leaves of the cores, and what it comes to where the words at the PC are refused
(02 R39, R40). -/

namespace Sys2Proof.Machine

/-! ## What a translation leaves alone -/

/-- Nothing of a core but its micro-TLB has changed, and the same context executes. -/
structure State.TlbFrame (s t : State) : Prop where
  curCore : t.curCore = s.curCore
  curCtx : t.curCtx = s.curCtx
  core : ∀ c, ∃ l, t.core c = { s.core c with utlb := l }

theorem State.TlbFrame.refl (s : State) : s.TlbFrame s := ⟨rfl, rfl, fun _ => ⟨_, rfl⟩⟩

theorem State.TlbFrame.trans {s t u : State} (h : s.TlbFrame t) (k : t.TlbFrame u) : s.TlbFrame u where
  curCore := k.curCore.trans h.curCore
  curCtx := k.curCtx.trans h.curCtx
  core c := by
    obtain ⟨l, hl⟩ := h.core c
    obtain ⟨m, hm⟩ := k.core c
    exact ⟨m, by rw [hm, hl]⟩

theorem State.TlbFrame.of_cores {s t : State} (hcore : t.curCore = s.curCore) (hctx : t.curCtx = s.curCtx)
    (h : t.cores = s.cores) : s.TlbFrame t where
  curCore := hcore
  curCtx := hctx
  core c := ⟨(s.core c).utlb, by rw [State.core, h]; rfl⟩

theorem State.TlbFrame.gather {s t : State} (h : s.TlbFrame t) (c : Nat) : (t.core c).gather = (s.core c).gather := by
  obtain ⟨l, hl⟩ := h.core c
  rw [hl]

/-- The update of the accepted leaves that a write meets touches memory and the list of those leaves alone. -/
theorem State.tlbFrame_fixAcc (s : State) (lo n : Nat) (es : List (Nat × Word)) : s.TlbFrame (fixAcc s lo n es) := by
  induction es with
  | nil => exact .refl s
  | cons e es ih =>
    refine ih.trans ?_
    simp only [fixAcc]
    split
    · split <;> exact .of_cores rfl rfl rfl
    · exact .refl _

theorem State.tlbFrame_write (s : State) (loc : Nat) (bs : List Byte) : s.TlbFrame (s.write loc bs) := by
  refine .trans ?_ (State.tlbFrame_fixAcc _ _ _ _)
  exact .of_cores rfl rfl rfl

theorem State.tlbFrame_setAD (s : State) (l : Leaf) (kind : Nat) : s.TlbFrame (s.setAD l kind) := by
  unfold State.setAD
  dsimp only
  generalize (if s.isAccepted l then s.word l.addr else s.word l.addr &&& ~~~0x200#64) ||| adBits kind = e
  split
  · exact .refl s
  · exact s.tlbFrame_write _ _

theorem State.tlbFrame_scanLeaf {s t : State} {l : Leaf} {va : Nat} (h : s.scanLeaf l va = .ok t) : s.TlbFrame t := by
  unfold State.scanLeaf at h
  simp only at h
  split at h
  · cases h
  · split at h
    · cases h
    · cases h
      exact (s.tlbFrame_write _ _).trans (.of_cores rfl rfl rfl)

theorem State.tlbFrame_installTlb (s : State) (core : Nat) (e : TlbEntry) : s.TlbFrame (s.installTlb core e) where
  curCore := rfl
  curCtx := rfl
  core c := by
    change ∃ l, (s.modCore core fun k => { k with utlb := (e :: k.utlb.filter fun u => !u.same e).take 32 }).core c =
      { s.core c with utlb := l }
    by_cases h : c = core
    · rw [h, State.core_modCore_self]; exact ⟨_, rfl⟩
    · rw [State.core_modCore_ne _ _ h]; exact ⟨_, rfl⟩

theorem State.tlbFrame_walkIt {s t : State} {core x : Nat} {va : Word} {kind : Nat} {l : Leaf}
    (h : State.leafFor.walkIt s core x va kind = .ok (t, l)) : s.TlbFrame t := by
  unfold State.leafFor.walkIt at h
  split at h
  · cases h
  split at h
  · cases h
  dsimp only at h
  split at h
  · by_cases hk : kind = kFetch
    · simp only [hk, if_true, reduceCtorEq] at h
    · simp only [hk, if_false, Except.ok.injEq, Prod.mk.injEq] at h
      obtain ⟨rfl, -⟩ := h
      exact s.tlbFrame_setAD _ _
  · next s1 hscan =>
    have h1 : s.TlbFrame s1 := by
      split at hscan
      · exact State.tlbFrame_scanLeaf hscan
      · rw [← Except.ok.inj hscan]; exact .refl s
    simp only [Except.ok.injEq, Prod.mk.injEq] at h
    obtain ⟨rfl, -⟩ := h
    exact (h1.trans (s1.tlbFrame_setAD _ _)).trans (State.tlbFrame_installTlb _ _ _)

theorem State.tlbFrame_leafFor {s t : State} {core x : Nat} {va : Word} {kind : Nat} {l : Leaf}
    (h : s.leafFor core x va kind = .ok (t, l)) : s.TlbFrame t := by
  unfold State.leafFor at h
  split at h
  · split at h
    · cases h; exact .refl s
    · exact State.tlbFrame_walkIt h
  · exact State.tlbFrame_walkIt h

/-- A word that is fetched leaves the state of its translation. -/
theorem State.leafFor_of_fetchWord {s t : State} {core x : Nat} {pc a : Word} {w : HWord}
    (h : s.fetchWord core x pc a = .ok (t, w)) : ∃ l, s.leafFor core x a kFetch = .ok (t, l) := by
  unfold State.fetchWord at h
  simp only at h
  split at h
  · cases h
  split at h
  · cases h
  split at h
  · cases h
  next l hleaf =>
  split at h
  · cases h
  split at h
  · cases h
  split at h
  · cases h
  split at h
  · cases h
  cases h
  exact ⟨l, hleaf⟩

theorem State.tlbFrame_fetches {core x : Nat} {pc : Word} {ws : List HWord} {s t : State} {a : Word}
    (h : fetches core x pc ws s a t) : s.TlbFrame t := by
  induction ws generalizing s a with
  | nil => rw [show t = s from h]; exact .refl s
  | cons w ws ih =>
    obtain ⟨s1, hw, hws⟩ := h
    obtain ⟨l, hl⟩ := State.leafFor_of_fetchWord hw
    exact (State.tlbFrame_leafFor hl).trans (ih hws)

/-! ## Words that are refused -/

/-- The words from `a` on are refused, with the reason that EINFO gets, while a chain of the instruction at `pc` is read: the last
of them makes no instruction, or joins the chain and ends the block of 64 KiB of `pc`; those before it are prefixes that join
the chain. -/
inductive RefusedFrom (pc : Word) : Chain → Word → List HWord → Nat → Prop where
  | word {c a w e} : decodeFrom c [w] = .error e → e ≠ .short → RefusedFrom pc c a [w] (DecodeErr.reason e)
  | block {c c' a w} : isPrefix w = true → c.step w = .ok c' → (a + 2).toNat / 65536 ≠ pc.toNat / 65536 →
      RefusedFrom pc c a [w] 3
  | joined {c c' a w ws r} : isPrefix w = true → c.step w = .ok c' → (a + 2).toNat / 65536 = pc.toNat / 65536 →
      RefusedFrom pc c' (a + 2) ws r → RefusedFrom pc c a (w :: ws) r

/-- The address of a word, counted from the word before. -/
theorem word_addr_succ (a : Word) (k : Nat) : a + 2 + BitVec.ofNat 64 (2 * k) = a + BitVec.ofNat 64 (2 * (k + 1)) := by
  rw [BitVec.add_assoc, Nat.mul_succ, BitVec.ofNat_add, BitVec.add_comm (BitVec.ofNat 64 (2 * k)) (BitVec.ofNat 64 2)]; rfl

/-- Words end before a base word only where each of them is one of the prefixes and joins the chain. -/
theorem step_of_decodeFrom_short {c : Chain} {w : HWord} {ws : List HWord} (h : decodeFrom c (w :: ws) = .error .short) :
    isPrefix w = true ∧ ∃ c', c.step w = .ok c' ∧ decodeFrom c' ws = .error .short := by
  cases hw : isPrefix w
  · simpa using Chain.finish_error ((decodeFrom_base_error hw ws).1 h)
  · rcases c.step_cases hw with ⟨hstep, -⟩ | ⟨c', hstep, -⟩
    · rw [decodeFrom_prefix_error hw hstep] at h; cases h
    · exact ⟨rfl, c', hstep, by rwa [decodeFrom_prefix_ok hw hstep] at h⟩

theorem refusedFrom_of_decode_error {pc : Word} {e : DecodeErr} (he : e ≠ .short) (ws : List HWord) (c : Chain) (a : Word)
    (hd : decodeFrom c ws = .error e) (hshort : ∀ k, k < ws.length → decodeFrom c (ws.take k) = .error .short)
    (hin : ∀ k, k < ws.length → (a + BitVec.ofNat 64 (2 * k)).toNat / 65536 = pc.toNat / 65536) :
    RefusedFrom pc c a ws (DecodeErr.reason e) := by
  induction ws generalizing c a with
  | nil => exact absurd (by simpa [decodeFrom] using hd.symm) he
  | cons w ws ih =>
    by_cases hws : ws = []
    · subst hws; exact .word hd he
    have hlen : 1 < (w :: ws).length := by simpa [List.length_pos_iff] using hws
    obtain ⟨hw, c', hstep, -⟩ := step_of_decodeFrom_short (hshort 1 hlen)
    rw [decodeFrom_prefix_ok hw hstep] at hd
    refine .joined hw hstep (by simpa using hin 1 hlen) (ih c' (a + 2) hd (fun k hk => ?_) (fun k hk => ?_))
    · rw [← decodeFrom_prefix_ok hw hstep]; exact hshort (k + 1) (Nat.succ_lt_succ hk)
    · rw [word_addr_succ]; exact hin (k + 1) (Nat.succ_lt_succ hk)

theorem refusedFrom_of_block_end {pc : Word} (ws : List HWord) (c : Chain) (a : Word) (hne : ws ≠ [])
    (hd : decodeFrom c ws = .error .short)
    (hin : ∀ k, k < ws.length → (a + BitVec.ofNat 64 (2 * k)).toNat / 65536 = pc.toNat / 65536)
    (hout : (a + BitVec.ofNat 64 (2 * ws.length)).toNat / 65536 ≠ pc.toNat / 65536) : RefusedFrom pc c a ws 3 := by
  induction ws generalizing c a with
  | nil => exact absurd rfl hne
  | cons w ws ih =>
    obtain ⟨hw, c', hstep, hd'⟩ := step_of_decodeFrom_short hd
    by_cases hws : ws = []
    · subst hws; exact .block hw hstep hout
    have hlen : 1 < (w :: ws).length := by simpa [List.length_pos_iff] using hws
    refine .joined hw hstep (by simpa using hin 1 hlen) (ih c' (a + 2) hws hd' (fun k hk => ?_) ?_)
    · rw [word_addr_succ]; exact hin (k + 1) (Nat.succ_lt_succ hk)
    · rw [word_addr_succ]; exact hout

/-- Words that are refused raise ILL at the PC, in the state that their fetches leave; five fetches are enough, for the
fifth of five prefixes is refused. -/
theorem fetchFrom_of_refused {core x : Nat} {pc : Word} {c : Chain} {a : Word} {ws : List HWord} {r : Nat}
    (h : RefusedFrom pc c a ws r) {s t : State} (hf : fetches core x pc ws s a t) {fuel : Nat} (hfuel : 5 ≤ c.npfx + fuel)
    (hc : c.npfx ≤ 4) (n : Nat) : fetchFrom core x pc fuel s c a n = .trap t (ill pc r) (n + ws.length) := by
  induction h generalizing s fuel n with
  | @word c a w e hd he =>
    obtain ⟨s1, hw1, hs1⟩ := hf
    cases hs1
    obtain ⟨fuel, rfl⟩ := Nat.exists_eq_succ_of_ne_zero (n := fuel) (by omega)
    cases hw : isPrefix w
    · rw [decodeFrom_base_error hw] at hd
      simp [fetchFrom, hw1, hw, hd]
    · rcases c.step_cases hw with ⟨hstep, -⟩ | ⟨c', hstep, -⟩
      · rw [decodeFrom_prefix_error hw hstep] at hd
        cases hd
        simp [fetchFrom, hw1, hw, hstep]
      · rw [decodeFrom_prefix_ok hw hstep] at hd
        cases hd
        exact absurd rfl he
  | @block c c' a w hw hstep hout =>
    obtain ⟨s1, hw1, hs1⟩ := hf
    cases hs1
    obtain ⟨fuel, rfl⟩ := Nat.exists_eq_succ_of_ne_zero (n := fuel) (by omega)
    simp only [fetchFrom, hw1, hw, hstep, hout, if_true, ne_eq, not_false_eq_true, List.length_singleton]
  | @joined c c' a w ws r hw hstep hin _ ih =>
    obtain ⟨s1, hw1, hws⟩ := hf
    obtain ⟨fuel, rfl⟩ := Nat.exists_eq_succ_of_ne_zero (n := fuel) (by omega)
    obtain ⟨hn, hn'⟩ : c'.npfx = c.npfx + 1 ∧ c'.npfx ≤ 4 := by
      rcases c.step_cases hw with ⟨hbad, -⟩ | ⟨d, hd, hfree, -, hn, -⟩
      · rw [hstep] at hbad; cases hbad
      · rw [hstep] at hd; cases hd; exact ⟨hn, by omega⟩
    simp only [fetchFrom, hw1, hw, hstep, hin, if_true, ne_eq, not_true_eq_false, if_false]
    rw [ih hws (by omega) hn', List.length_cons, Nat.add_assoc, Nat.add_comm 1]

/-- Words at the PC of a context that are refused: the fetch of its instruction raises ILL there. -/
theorem fetchAt_of_refused {s t : State} {core x : Nat} {ws : List HWord} {r : Nat} (hws : wordsAtPc s core x ws t)
    (h : RefusedFrom (s.ctx core x).pcc.word Chain.start (s.ctx core x).pcc.word ws r) :
    s.fetchAt core x (s.ctx core x).pcc.word = .trap t (ill (s.ctx core x).pcc.word r) ws.length := by
  obtain ⟨heven, -, hfetches⟩ := hws
  rw [State.fetchAt, heven, fetchFrom_of_refused h hfetches (by decide) (by decide), Nat.zero_add]
  rfl

end Sys2Proof.Machine
end

section
/-! PROOFS. An illegal chain of prefixes raises ILL at its PC (02 R39). -/

namespace Sys2Proof.Machine

theorem ill_ne_waitReq (pc : Word) (r : Nat) : ill pc r ≠ waitReq :=
  fun h => Nat.one_ne_zero (congrArg TrapReq.code h)

/-- An issue whose fetch raises ILL raises it at the PC, for a context that has issued (09 R183, 11 R224). -/
theorem issueOne_of_ill {s t : State} {core x n r : Nat} (htraps : (s.ctx core x).traps = [])
    (hengine : s.awaitsEngine core x = false)
    (hfetch : ({ s with curCore := core, curCtx := x, stalled := false } : State).fetchAt core x (s.ctx core x).pcc.word =
      .trap t (ill (s.ctx core x).pcc.word r) n)
    (hgather : (t.core core).gather = []) :
    issueOne s core x = .next ((t.modCore core (fun k => k.issued x)).raiseTrap core x
      ⟨tILL, x, false, (s.ctx core x).pcc.word, n, (s.ctx core x).pcc.word, BitVec.ofNat 64 r⟩) := by
  have hctx : ({ s with curCore := core, curCtx := x, stalled := false } : State).ctx core x = s.ctx core x := rfl
  have hawaits : ({ s with curCore := core, curCtx := x, stalled := false } : State).awaitsEngine core x = false := hengine
  simp only [issueOne, State.beginIssue, hctx, htraps, List.isEmpty_nil, Bool.not_true, Bool.false_eq_true, if_false,
    hawaits, hfetch, ill_ne_waitReq, t.drainCtx_empty core x hgather]
  rfl

/-- What a trap of a context at its own PC comes to, from the state `t` that its fetches leave: no register, no control register
and no byte changes. A helper is STOPPED with the trap the last that is pending; a control context that handles none goes on at
EVEC (11 R222, R223). -/
def State.TrapsTo (t u : State) (core x : Nat) (tr : Trap) : Prop :=
  let same (u : State) : Prop := (∀ d, (u.ctx core x).read d = (t.ctx core x).read d) ∧
    (u.ctx core x).cr = (t.ctx core x).cr ∧ ∀ a, u.byte a = t.byte a
  (x ≠ 0 → same u ∧ (u.ctx core x).st = .stopped ∧ (u.core core).pending = (t.core core).pending ++ [tr]) ∧
  (x = 0 → ecHnd (t.core core).cr.ecause = false → evecOk (t.core core).cr.evec = true →
    same u ∧ (u.core core).cr = (t.core core).cr.enter tr (t.residualPc tr.pc) ∧
    (u.ctx core 0).pcc = (t.core core).cr.evec.withOtype 0)

theorem State.trapsTo_raiseTrap {t : State} {core x : Nat} {tr : Trap} (hcore : t.curCore = core) (hctx : t.curCtx = x)
    (hgather : (t.core core).gather = []) (hcode : tr.code ≠ tPOIS) :
    t.TrapsTo ((t.modCore core (fun k => k.issued x)).raiseTrap core x tr) core x tr := by
  subst hcore hctx
  obtain ⟨hg, hcr, hpending, hres, hbyte, -, hread, hxcr, -⟩ := t.issue_spec t (.inr rfl)
  generalize t.modCore t.curCore (fun k => k.issued t.curCtx) = m at *
  refine ⟨fun hx => ?_, fun hx hhnd hevec => ?_⟩
  · obtain ⟨hu, -, hupending, -, hubyte⟩ := m.raiseTrap_helper t.curCore t.curCtx tr hx hcode (hg.trans hgather)
    refine ⟨⟨fun d => ?_, ?_, fun a => (hubyte a).trans (hbyte a)⟩, ?_, ?_⟩
    · rw [hu]; refine Eq.trans ?_ (hread d); cases d <;> rfl
    · rw [hu]; exact hxcr
    · rw [hu]
    · rw [hupending, hpending]; rfl
  · simp only [State.cx, hx] at hread hxcr ⊢
    obtain ⟨hu, hucr, -, hubyte⟩ := m.raiseTrap_control t.curCore tr (hg.trans hgather) hcode (by rw [hcr]; exact hhnd)
      (by rw [hcr]; exact hevec)
    refine ⟨⟨fun d => ?_, ?_, fun a => (hubyte a).trans (hbyte a)⟩, ?_, ?_⟩
    · rw [hu]; refine Eq.trans ?_ (hread d); cases d <;> rfl
    · rw [hu]; exact hxcr
    · rw [hucr, hcr, hres]; rfl
    · rw [hu, hcr]; rfl

/-- A context at whose PC the words are refused raises ILL there, with the reason of their refusal. -/
theorem issueOne_of_refused {s t : State} {core x : Nat} {ws : List HWord} {reason : Nat}
    (htraps : (s.ctx core x).traps = []) (hgather : (s.core core).gather = []) (hengine : s.awaitsEngine core x = false)
    (hws : wordsAtPc { s with curCore := core, curCtx := x, stalled := false } core x ws t)
    (hrefused : RefusedFrom (s.ctx core x).pcc.word Chain.start (s.ctx core x).pcc.word ws reason) :
    let tr : Trap :=
      ⟨tILL, x, false, (s.ctx core x).pcc.word, ws.length, (s.ctx core x).pcc.word, BitVec.ofNat 64 reason⟩
    ∃ u, issueOne s core x = .next u ∧ t.TrapsTo u core x tr := by
  have ⟨_, _, hfetches⟩ := hws
  have hframe := State.tlbFrame_fetches hfetches
  have hgt : (t.core core).gather = [] := (hframe.gather core).trans hgather
  exact ⟨_, issueOne_of_ill htraps hengine (fetchAt_of_refused hws hrefused) hgt,
    State.trapsTo_raiseTrap hframe.curCore hframe.curCtx hgt (show tILL ≠ tPOIS by decide)⟩

/-- Settles O56: an induction over the prefixes says when a chain goes over a limit, and the fetch of words that are refused
comes to ILL in the state that the translations leave, from which the trap changes no register and no byte. -/
theorem illegalChainsRaiseIll : Obligations.IllegalChainsRaiseIll := by
  refine ⟨fun pre b rest hpre hb => ?_, fun s t core x ws reason => ?_⟩
  · rw [← Chain.over_start_iff]
    exact Chain.decodeFrom_badChain_iff pre b rest hpre hb _ Chain.legal_start
  · intro c htraps hgather hengine hwhy
    rcases hwhy with ⟨e, hws, hdecode, he, rfl, hshort⟩ | ⟨hws, hne, hdecode, rfl, hout⟩
    · have ⟨_, hin, _⟩ := hws
      exact issueOne_of_refused htraps hgather hengine hws (refusedFrom_of_decode_error he ws _ _ hdecode hshort hin)
    · have ⟨_, hin, _⟩ := hws
      exact issueOne_of_refused htraps hgather hengine hws (refusedFrom_of_block_end ws _ _ hne hdecode hin hout)

end Sys2Proof.Machine
end

section
/-! PROOFS. The results of Table 59 on bit vectors, and what an instruction comes to that leaves such a result outstanding,
with room for it and without (04 R81, 06 R118, R122). -/

namespace Sys2Proof.Machine

/-! ## Numbers of n bits and bit vectors -/

theorem sextNat_toNat {n : Nat} (x : BitVec n) : sextNat n x.toNat = x.toInt := by
  simp [sextNat, BitVec.toInt, Nat.mod_eq_of_lt x.isLt]

theorem wrap_eq_toNat_ofInt (n : Nat) (x : Int) : wrap n x = (BitVec.ofInt n x).toNat :=
  (BitVec.toNat_ofInt x).symm

theorem toNat_eq_zero_iff {n : Nat} (x : BitVec n) : x.toNat = 0 ↔ x = 0 := by
  simp [BitVec.toNat_eq]

/-- Division truncates toward zero; the least number over −1, which does not fit, wraps to the least number. -/
theorem ofInt_tdiv {n : Nat} (x y : BitVec n) : BitVec.ofInt n (x.toInt.tdiv y.toInt) = x.sdiv y :=
  BitVec.eq_of_toInt_eq (by rw [BitVec.toInt_ofInt, BitVec.toInt_sdiv])

theorem ofInt_tmod {n : Nat} (x y : BitVec n) : BitVec.ofInt n (x.toInt.tmod y.toInt) = x.srem y := by
  rw [← BitVec.toInt_srem, BitVec.ofInt_toInt]

/-! ## The results of Table 59 -/

theorem divS_toNat {n : Nat} (x y : BitVec n) :
    divS n x.toNat y.toNat = (if y = 0 then BitVec.allOnes n else x.sdiv y).toNat := by
  rw [divS, sextNat_toNat, sextNat_toNat, wrap_eq_toNat_ofInt, ofInt_tdiv, apply_ite BitVec.toNat, BitVec.toNat_allOnes]
  simp only [toNat_eq_zero_iff]

theorem divU_toNat {n : Nat} (x y : BitVec n) :
    divU n x.toNat y.toNat = (if y = 0 then BitVec.allOnes n else x / y).toNat := by
  rw [divU, apply_ite BitVec.toNat, BitVec.toNat_allOnes, BitVec.toNat_udiv]
  simp only [toNat_eq_zero_iff]

theorem remS_toNat {n : Nat} (x y : BitVec n) :
    remS n x.toNat y.toNat = (if y = 0 then x else x.srem y).toNat := by
  rw [remS, sextNat_toNat, sextNat_toNat, wrap_eq_toNat_ofInt, ofInt_tmod, apply_ite BitVec.toNat]
  simp only [toNat_eq_zero_iff]

theorem remU_toNat {n : Nat} (x y : BitVec n) :
    remU n x.toNat y.toNat = (if y = 0 then x else x % y).toNat := by
  rw [remU, apply_ite BitVec.toNat, BitVec.toNat_umod]
  simp only [toNat_eq_zero_iff]

/-! ## A slow two-source form -/

theorem State.opnd_opened (s : State) (o : Op) (r : Nat) : s.opened.opnd o r = (s.bits o.width r).toNat := by
  rw [State.opnd, State.opened_g, State.bits, BitVec.toNat_setWidth]; rfl

/-- A slow form whose result is the number of `q` leaves put(D, q) outstanding. -/
theorem slowOp_opened_eq_later {s : State} {o : Op} {f : Nat → Nat → Nat → Nat} {q : BitVec o.width}
    (h : f o.width (s.bits o.width o.s1).toNat (s.bits o.width o.s2).toNat = q.toNat) :
    slowOp f o s.opened = later s.opened (.g o.rd) (putVal q) 0 := by
  rw [slowOp, State.opnd_opened, State.opnd_opened, h, Nat.mod_eq_of_lt q.isLt, BitVec.ofNat_toNat]; rfl

/-- Without room for one more entry, an instruction that is to leave a result outstanding is held. -/
theorem later_eq_hold {s : State} {d : Dest} (h : s.cx.roomFor d = false) (v : RVal) (fl : Flags) :
    later s d v fl = .hold s := by
  simp [later, withRoom, h]

/-- An instruction of an unordered form whose effect is to be held, from the state that the order gate leaves. -/
theorem wordF_hold_of_unordered {i : Instr} {f : Form} {o : Op} {s b : State} {body : Form → State → Eff}
    (hi : i.form? = some f) (hf : f.unordered = true) (hbody : body f s.opened = .hold b) :
    wordF i o s body = .next { b with stalled := true } := by
  simp [wordF, hi, run, Form.page_unordered hf, State.orderGate_unordered s hf, hbody, State.conclude]

/-- An instruction that is held where only orders that are discharged have gone: nothing that is observed of its context
changes, no trap is pending that was not, and no byte changes. -/
theorem State.opened_stalled_spec (s : State) :
    let t : State := { s.opened with stalled := true }
    t.stalled = true ∧
      (∀ d, (s.own t).read d = s.cx.read d) ∧ (s.own t).cr = s.cx.cr ∧ (s.own t).pcc = s.cx.pcc ∧
      (s.own t).outs = s.cx.outs ∧ (s.own t).st = s.cx.st ∧ (t.core s.curCore).pending = s.ck.pending ∧
      ∀ a, t.byte a = s.byte a := by
  intro t
  have hown : s.own t = s.opened.cx := rfl
  have hst : s.opened.cx.st = s.cx.st := by simp [State.opened]
  have hpending : s.opened.ck.pending = s.ck.pending := by simp [State.opened]
  rw [hown]
  exact ⟨rfl, s.opened_read, s.opened_cr, s.opened_pcc, s.opened_outs, hst, hpending, s.keepsRest_opened.bytes⟩

/-- An instruction of an unordered form that leaves a result outstanding is held where there is no room for its entry. -/
theorem wordF_later_noRoom {i : Instr} {f : Form} {o : Op} {s : State} {d : Dest} {v : RVal} {fl : Flags}
    {body : Form → State → Eff} (hi : i.form? = some f) (hf : f.unordered = true) (hroom : s.cx.roomFor d = false)
    (hbody : body f s.opened = later s.opened d v fl) (he : exec i s = wordF i o s body) :
    exec i s = .next { s.opened with stalled := true } := by
  have hroom' : s.opened.cx.roomFor d = false := (Ctx.roomFor_congr s.opened_outs d).trans hroom
  exact he.trans (wordF_hold_of_unordered hi hf (hbody.trans (later_eq_hold hroom' v fl)))

/-- `i` is a slow two-source form that no order holds, and its result is the number of `q`. -/
def DividesTo (s : State) (i : Instr) (o : Op) (q : BitVec o.width) : Prop :=
  ∃ (fm : Form) (f : Nat → Nat → Nat → Nat), i.form? = some fm ∧ fm.unordered = true ∧
    exec i s = word i o s (slowOp f o) ∧ f o.width (s.bits o.width o.s1).toNat (s.bits o.width o.s2).toNat = q.toNat

/-- Settles O4: each of the four forms leaves the number of Table 59 outstanding as a slow form does, and such a form pends
where there is room for its entry and is held where there is none. -/
theorem divisionPendsItsResult : Obligations.DivisionPendsItsResult := by
  intro s o n a b p hp
  have hdivides : DividesTo s (p.1 o) o p.2 := by
    simp only [List.mem_cons, List.not_mem_nil, or_false] at hp
    rcases hp with rfl | rfl | rfl | rfl
    · exact ⟨_, divS, rfl, rfl, rfl, divS_toNat a b⟩
    · exact ⟨_, divU, rfl, rfl, rfl, divU_toNat a b⟩
    · exact ⟨_, remS, rfl, rfl, rfl, remS_toNat a b⟩
    · exact ⟨_, remU, rfl, rfl, rfl, remU_toNat a b⟩
  obtain ⟨fm, f, hform, hun, hexec, hq⟩ := hdivides
  have hbody := slowOp_opened_eq_later hq
  refine ⟨fun hcalm hroom => ?_, fun hroom => ?_⟩
  · exact wordF_later (body := fun _ => slowOp f o) hform hun hcalm hroom hbody hexec
  · exact ⟨_, wordF_later_noRoom (body := fun _ => slowOp f o) hform hun hroom hbody hexec, s.opened_stalled_spec⟩

end Sys2Proof.Machine
end

section
/-! PROOFS. Direct branches (06 R129, R131, Table 64): each checks its target, if it is taken, and moves PC. -/

namespace Sys2Proof.Machine

/-! ## A jump that writes registers -/

/-- Between `s` and `b` the executing context has written the registers `ws`, and neither a control register nor PCC. -/
structure State.Wrote (s b : State) (ws : List (Dest × RVal)) : Prop where
  keeps : s.Keeps b (ws.map Prod.fst)
  reads : ∀ w ∈ ws, b.cx.read w.1 = w.1.holds w.2
  cr : b.cx.cr = s.cx.cr
  pcc : b.cx.pcc = s.cx.pcc

theorem State.wrote_opened (s : State) : s.Wrote s.opened [] where
  keeps := ⟨s.keepsRest_opened, fun d _ => s.opened_read d⟩
  reads _ hw := absurd hw List.not_mem_nil
  cr := s.opened_cr
  pcc := s.opened_pcc

theorem State.wrote_setReg_opened (s : State) {d : Dest} {v : RVal} (hfit : v.fits d = true) :
    s.Wrote (s.opened.setReg s.curCore s.curCtx d v) [(d, v)] := by
  have hcx : (s.opened.setReg s.curCore s.curCtx d v).cx = (s.opened.cx.supersede d).putDest d v :=
    s.opened.ctx_setReg_self s.curCore s.curCtx d v
  have hrest : s.KeepsRest (s.opened.setReg s.curCore s.curCtx d v) :=
    s.keepsRest_opened.trans (s.opened.keepsRest_setReg d v)
  refine ⟨⟨hrest, fun e he => ?_⟩, fun w hw => ?_, by simp [hcx], by simp [hcx]⟩
  · have hne : e ≠ d := by simpa using he
    rw [State.own_eq_cx hrest, hcx, Ctx.read_putDest_ne _ _ hne, Ctx.read_supersede, State.opened_read]
  · obtain rfl := List.mem_singleton.1 hw
    rw [hcx, Ctx.read_putDest_self _ _ _ hfit]

/-- An instruction of an unordered form that goes on at `pcc` and has written the registers `ws` alone. -/
theorem wordF_jumpWrites {i : Instr} {f : Form} {o : Op} {s b : State} {ws : List (Dest × RVal)} {pcc : GReg}
    {body : Form → State → Eff} (hi : i.form? = some f) (hf : f.unordered = true) (hcalm : s.calm o = true)
    (hb : s.Wrote b ws) (hbody : body f s.opened = .jump b pcc) (he : exec i s = wordF i o s body) :
    s.CompletesAt i o ws s.cx.cr pcc := by
  obtain ⟨⟨hrest, hregs⟩, hreads, hcr, hpcc⟩ := hb
  obtain ⟨hkeeps, hread, hretired, hnext, -, -⟩ :=
    s.retire_spec b i f o (some pcc) hi hrest (by rw [hcr]) (by rw [hcr]) hpcc hcalm
  refine ⟨_, he.trans (wordF_jump hi hf hbody), fun w hw => (hread w.1).trans (hreads w hw), ⟨hkeeps, fun d hd => ?_⟩,
    hretired.trans (by rw [hcr]), hnext⟩
  rw [hread, ← State.own_eq_cx hrest, hregs d hd]

/-! ## The three ways of a direct branch -/

theorem branchTo_untaken (s : State) (imm : Int) (link : State → State) : branchTo s false imm link = .next s := rfl

theorem branchTo_inside {s : State} {imm : Int} (link : State → State) (hlo : s.cx.pcc.bounds.1 ≤ s.target imm)
    (hhi : s.target imm + 2 ≤ s.cx.pcc.bounds.2) :
    branchTo s true imm link = .jump (link s) (s.cx.pcc.withAddr (BitVec.ofInt 64 (s.target imm))) := by
  have hin : ¬ (s.target imm < s.cx.pcc.bounds.1 ∨ s.cx.pcc.bounds.2 < s.target imm + 2) := by omega
  simp only [branchTo, Bool.not_true, Bool.false_eq_true, if_false, hin]

theorem branchTo_outside {s : State} {imm : Int} (link : State → State)
    (hout : s.target imm < s.cx.pcc.bounds.1 ∨ s.cx.pcc.bounds.2 < s.target imm + 2) :
    branchTo s true imm link = .trap ⟨tCAPB, BitVec.ofInt 64 (s.target imm), 2⟩ := by
  simp only [branchTo, Bool.not_true, Bool.false_eq_true, if_false, hout, if_true]

/-! ## The six branches -/

@[simp] theorem State.target_opened (s : State) (imm : Int) : s.opened.target imm = s.target imm := by
  rw [State.target, State.opened_pc, State.target]

/-- A conditional branch tests g[D] as a signed number of the width that W names (06 Table 64). -/
theorem State.tested_opened (s : State) (o : Op) : s.opened.tested o = (s.bits o.width o.rd).toInt := by
  have hbits : (s.bits o.width o.rd).toNat = (s.g o.rd).addr % 2 ^ o.width := BitVec.toNat_setWidth ..
  rw [← sextNat_toNat, hbits, State.tested, State.opened_g, sextNat, sextNat, Nat.mod_mod]

/-- What a taken branch does beside its move: `call` leaves the link in lk (06 R131). -/
def linkStep (o : Op) (links : Bool) (s : State) : State := if links then s.linkTo o else s

theorem State.wrote_linkStep (s : State) (o : Op) (links : Bool) :
    s.Wrote (linkStep o links s.opened) (if links then [(.g 15, linkOf s o)] else []) := by
  cases links with
  | false => exact s.wrote_opened
  | true =>
    have hlink : linkStep o true s.opened = s.opened.setReg s.curCore s.curCtx (.g 15) (linkOf s o) := by
      simp [linkStep, State.linkTo, State.setG, linkOf, State.nextPc]
    rw [hlink]
    exact s.wrote_setReg_opened rfl

/-- `i` is a branch that no order holds: taken or not, with an offset, and only a taken one links. -/
def IsBranch (s : State) (o : Op) (i : Instr) (taken : Bool) (imm : Int) (links : Bool) : Prop :=
  ∃ (f : Form) (body : State → Eff), i.form? = some f ∧ f.unordered = true ∧ exec i s = word i o s body ∧
    body s.opened = branchTo s.opened taken imm (linkStep o links) ∧ (links = true → taken = true)

theorem isBranch_of_mem {s : State} {o : Op} {b : Instr × Bool × Int × Bool} (hb : b ∈ branches s o) :
    IsBranch s o b.1 b.2.1 b.2.2.1 b.2.2.2 := by
  simp only [branches, ← State.tested_opened, List.mem_cons, List.not_mem_nil, or_false] at hb
  rcases hb with rfl | rfl | rfl | rfl | rfl | rfl
  all_goals exact ⟨_, _, rfl, rfl, rfl, rfl, by simp⟩

theorem isBranch_untaken {s : State} {o : Op} {i : Instr} {imm : Int} {links : Bool} (h : IsBranch s o i false imm links)
    (hcalm : s.calm o = true) : links = false ∧ s.Completes i o [] := by
  obtain ⟨f, body, hform, hun, hexec, hbody, hlinks⟩ := h
  rw [branchTo_untaken] at hbody
  exact ⟨by simpa using hlinks, wordF_nothing (body := fun _ => body) hform hun hcalm hbody hexec⟩

theorem isBranch_inside {s : State} {o : Op} {i : Instr} {imm : Int} {links : Bool} (h : IsBranch s o i true imm links)
    (hcalm : s.calm o = true) (hlo : s.cx.pcc.bounds.1 ≤ s.target imm) (hhi : s.target imm + 2 ≤ s.cx.pcc.bounds.2) :
    s.CompletesAt i o (if links then [(.g 15, linkOf s o)] else []) s.cx.cr
      (s.cx.pcc.withAddr (BitVec.ofInt 64 (s.target imm))) := by
  obtain ⟨f, body, hform, hun, hexec, hbody, -⟩ := h
  rw [branchTo_inside _ (by simpa using hlo) (by simpa using hhi), State.opened_pcc, State.target_opened] at hbody
  exact wordF_jumpWrites (body := fun _ => body) hform hun hcalm (s.wrote_linkStep o links) hbody hexec

theorem isBranch_outside {s : State} {o : Op} {i : Instr} {imm : Int} {links : Bool} (h : IsBranch s o i true imm links)
    (hready : s.trapReady = true) (hout : s.target imm < s.cx.pcc.bounds.1 ∨ s.cx.pcc.bounds.2 < s.target imm + 2) :
    s.Raises i o tCAPB (BitVec.ofInt 64 (s.target imm)) 2 := by
  obtain ⟨f, body, hform, hun, hexec, hbody, -⟩ := h
  rw [branchTo_outside _ (by simpa using hout), State.target_opened] at hbody
  have hpois : tCAPB ≠ tPOIS := by decide
  have hcapp : tCAPB ≠ tCAPP := by decide
  exact wordF_trap (t := ⟨tCAPB, BitVec.ofInt 64 (s.target imm), 2⟩) (body := fun _ => body) hform
    (.inl (Form.page_unordered hun)) hready (s.mayIssue_unordered o hform hun) hpois
    (fun hfrozen => hcapp hfrozen.1) hbody hexec

/-- Settles O7: the meaning of each of the six forms is `branchTo`. By whether it is taken and where its target lies, it goes on
with nothing done, jumps with its link, or traps. -/
theorem directBranches : Obligations.DirectBranches := by
  refine ⟨?_, ?_⟩
  · intro s o hcalm b hb target hin
    have hbranch := isBranch_of_mem hb
    cases htaken : b.2.1 with
    | false =>
      rw [htaken] at hbranch
      obtain ⟨hlinks, hnext⟩ := isBranch_untaken hbranch hcalm
      rw [hlinks]
      exact hnext
    | true =>
      rw [htaken] at hbranch
      obtain ⟨hlo, hhi⟩ := hin htaken
      exact isBranch_inside hbranch hcalm hlo hhi
  · intro s o hready b hb target htaken hout
    have hbranch := isBranch_of_mem hb
    rw [htaken] at hbranch
    exact isBranch_outside hbranch hready hout

end Sys2Proof.Machine
end
